-- ==== Sys2Proof/Word.lean ====
section
/-! DEFINITION. Word.lean: the widths of 10_state R20, 30_encoding R97 and decision D10. -/

namespace Sys2Proof

/-- One byte: a link byte, a payload byte, a port or pin number. -/
abbrev Byte := BitVec 8

/-- A 7-bit slave address (20_memory R60, R61). -/
abbrev Addr7 := BitVec 7

/-- A request word, or SPEED_HZ (30_encoding R97). -/
abbrev Word32 := BitVec 32

/-- The Address Set: bit `a` stands for slave address `a` (10_state R28). -/
abbrev AddrSet := BitVec 128

end Sys2Proof
end

