-- ==== Sys2Proof/Config.lean ====
section
/-! DEFINITION. Config.lean: the constants of 00_scope R6, the parameters of R5, the kinds of answer the environment
gives (R7), and the free values: what the spec leaves to the environment or calls unspecified. A free value has no body. -/

namespace Sys2Proof

/-- `env_start` and `env_stop` of 00_scope R7: the symbol completes, or it hangs. -/
inductive SymAnswer where
  | done
  | hang
deriving DecidableEq, Repr, Inhabited

/-- `env_write` of R7: the slave's acknowledge, or a hang. -/
inductive WriteAnswer where
  | ack
  | nack
  | hang
deriving DecidableEq, Repr, Inhabited

/-- `env_read` of R7: the byte the slave sends, or a hang. -/
inductive ReadAnswer where
  | byte (v : Byte)
  | hang
deriving DecidableEq, Repr, Inhabited

/-- The answer of a fallible hardware-abstraction call (R7, 60_exceptions R243). -/
inductive HalAnswer where
  | ok
  | fail
deriving DecidableEq, Repr, Inhabited

/-- The implementation parameters of 00_scope R5. They stand in State as a field that no step changes, so that a
statement about every state is a statement about every choice of them (log 3). -/
structure Params where
  cmdCapacity : Nat
  rdCapacity : Nat
  scanCapacity : Nat
  nReq : Nat
deriving DecidableEq, Repr

/-- The constraints R5 puts on the parameters. -/
abbrev Params.wf (p : Params) : Prop := p.rdCapacity ≤ 255 ∧ 1 ≤ p.nReq

namespace Config

/-- TIMEOUT_MS of R6. -/
def timeoutMs : BitVec 16 := 100

/-- RECOVERY_TOGGLES of R6. -/
def recoveryToggles : Nat := 32

/-- HALF_PERIOD_NUMERATOR of R6. -/
def halfPeriodNumerator : Word32 := 1000000

/-- ADDR_COUNT of R6. -/
def addrCount : Nat := 128

/-! The free values (log 2, 6, 11, 13): draw number `n` of each kind, past the end of its tape in State. -/

opaque freeStart : Nat → SymAnswer
opaque freeWrite : Nat → WriteAnswer
opaque freeRead : Nat → ReadAnswer
opaque freeStop : Nat → SymAnswer
opaque freeHal : Nat → HalAnswer
opaque freePick : Nat → Nat
opaque freeByte : Nat → Byte

/-- What `floor(1000000 / 0)` gives: the spec says the divisor is never 0 (42_recovery R172), so no value is stated. -/
opaque halfPeriodAtZero : Word32 → Word32

end Config

end Sys2Proof
end

