-- ==== Sys2Proof/Machine/Env.lean ====
section
/-! DEFINITION. Machine/Env.lean: the environment's answers (00_scope R7) as plain data. Each kind of answer has a tape: the
answers the environment will give, in order, and past the end of the tape the free values of Config, counted (log 2). A
statement about every state is a statement about every answer. -/

namespace Sys2Proof.Machine

/-- The answers of one kind still to come: those laid down, then free values number `drawn`, `drawn + 1`, … -/
structure Tape (α : Type) where
  queue : List α
  drawn : Nat
deriving DecidableEq, Repr

/-- Nothing laid down. -/
def Tape.empty {α : Type} : Tape α := ⟨[], 0⟩

/-- The next answer. -/
def Tape.head {α : Type} (free : Nat → α) (t : Tape α) : α :=
  match t.queue with
  | a :: _ => a
  | [] => free t.drawn

/-- The answers after the next one. -/
def Tape.tail {α : Type} (t : Tape α) : Tape α :=
  match t.queue with
  | _ :: q => { t with queue := q }
  | [] => { t with drawn := t.drawn + 1 }

/-- The answers after the next `n`. -/
def Tape.skip {α : Type} : Nat → Tape α → Tape α
  | 0, t => t
  | n + 1, t => Tape.skip n t.tail

/-- The next `n` answers. -/
def Tape.ahead {α : Type} (free : Nat → α) : Nat → Tape α → List α
  | 0, _ => []
  | n + 1, t => t.head free :: Tape.ahead free n t.tail

/-- Lay answers down before all others. -/
def Tape.lay {α : Type} (answers : List α) (t : Tape α) : Tape α := { t with queue := answers ++ t.queue }

/-- The environment: `env_start`, `env_write`, `env_read`, `env_stop`, the answers of the hardware-abstraction calls in the
order of the calls, the arbiter's picks (60_exceptions R245), and the bytes the spec calls unspecified (43_transactions
R193: "A model delivers a draw"). -/
structure Env where
  starts : Tape SymAnswer
  writes : Tape WriteAnswer
  reads : Tape ReadAnswer
  stops : Tape SymAnswer
  hals : Tape HalAnswer
  picks : Tape Nat
  bytes : Tape Byte
deriving DecidableEq, Repr

/-- Nothing laid down: every answer is free. -/
def Env.empty : Env := ⟨Tape.empty, Tape.empty, Tape.empty, Tape.empty, Tape.empty, Tape.empty, Tape.empty⟩

/-! What the environment will answer next, and next `n` times. -/

def Env.nextStart (e : Env) : SymAnswer := e.starts.head Config.freeStart
def Env.nextWrite (e : Env) : WriteAnswer := e.writes.head Config.freeWrite
def Env.nextRead (e : Env) : ReadAnswer := e.reads.head Config.freeRead
def Env.nextStop (e : Env) : SymAnswer := e.stops.head Config.freeStop
def Env.nextHal (e : Env) : HalAnswer := e.hals.head Config.freeHal
def Env.nextPick (e : Env) : Nat := e.picks.head Config.freePick

def Env.nextStarts (n : Nat) (e : Env) : List SymAnswer := e.starts.ahead Config.freeStart n
def Env.nextWrites (n : Nat) (e : Env) : List WriteAnswer := e.writes.ahead Config.freeWrite n
def Env.nextReads (n : Nat) (e : Env) : List ReadAnswer := e.reads.ahead Config.freeRead n
def Env.nextStops (n : Nat) (e : Env) : List SymAnswer := e.stops.ahead Config.freeStop n
def Env.nextHals (n : Nat) (e : Env) : List HalAnswer := e.hals.ahead Config.freeHal n
def Env.nextBytes (n : Nat) (e : Env) : List Byte := e.bytes.ahead Config.freeByte n

/-! The environment once that answer is given. -/

def Env.dropStart (e : Env) : Env := { e with starts := e.starts.tail }
def Env.dropWrite (e : Env) : Env := { e with writes := e.writes.tail }
def Env.dropRead (e : Env) : Env := { e with reads := e.reads.tail }
def Env.dropStop (e : Env) : Env := { e with stops := e.stops.tail }
def Env.dropHal (e : Env) : Env := { e with hals := e.hals.tail }
def Env.dropPick (e : Env) : Env := { e with picks := e.picks.tail }
def Env.dropBytes (n : Nat) (e : Env) : Env := { e with bytes := e.bytes.skip n }

end Sys2Proof.Machine
end

