-- ==== Sys2Proof/Machine/Event.lean ====
section
/-! DEFINITION. Machine/Event.lean: the statuses (10_state R32, 30_encoding R100), the events of WIRE (00_scope R8) and the
responses (30_encoding R98). -/

namespace Sys2Proof.Machine

/-- "one of {Ok, Nack, Timeout, NoMemory, ConfigurationFault}" (10_state R32). -/
inductive Status where
  | ok
  | nack
  | timeout
  | noMemory
  | configurationFault
deriving DecidableEq, Repr

/-- STATUS[2:0] of 30_encoding R100; 5, 6 and 7 are never produced. -/
def Status.code : Status → BitVec 3
  | .ok => 0
  | .nack => 1
  | .timeout => 2
  | .noMemory => 3
  | .configurationFault => 4

/-- An acknowledge bit: the slave's after a written byte, the master's after a read one (20_memory R67). -/
inductive Ack where
  | ack
  | nack
deriving DecidableEq, Repr

/-- A pin's direction. -/
inductive Direction where
  | input
  | output
deriving DecidableEq, Repr

/-- The fallible hardware-abstraction calls, as `FAIL(call)` names them (R8; 42_recovery R171). -/
inductive HalCall where
  | engDown
  | dir
  | lvl
  | engCfg
deriving DecidableEq, Repr

/-- The events of WIRE, in the order of R8's table. -/
inductive Event where
  /-- START on an idle bus. -/
  | s
  /-- Repeated START. -/
  | sr
  /-- The master sent `b`, the slave answered `a`. -/
  | w (b : Byte) (a : Ack)
  /-- The master received `b` and answered `m`. -/
  | r (b : Byte) (m : Ack)
  /-- STOP. -/
  | p
  /-- The completion timeout expired. -/
  | tmo
  | engCfg (port sda scl : Byte) (speed : Word32)
  | engDown
  | dir (pin : Byte) (d : Direction)
  | lvl (pin : Byte) (level : Bool)
  /-- The delay primitive, in microseconds. -/
  | dly (n : Word32)
  /-- The diagnostic listing reported this address present. -/
  | log (a : Addr7)
  | fail (call : HalCall)
deriving DecidableEq, Repr

/-- A symbol: one of `S`, `Sr`, `W`, `R`, `P` (R12). -/
def Event.isSymbol : Event → Bool
  | .s => true
  | .sr => true
  | .w _ _ => true
  | .r _ _ => true
  | .p => true
  | .tmo => false
  | .engCfg _ _ _ _ => false
  | .engDown => false
  | .dir _ _ => false
  | .lvl _ _ => false
  | .dly _ => false
  | .log _ => false
  | .fail _ => false

/-- "Bus activity" of R8: any event other than `LOG`. -/
def Event.isBusActivity : Event → Bool
  | .s => true
  | .sr => true
  | .w _ _ => true
  | .r _ _ => true
  | .p => true
  | .tmo => true
  | .engCfg _ _ _ _ => true
  | .engDown => true
  | .dir _ _ => true
  | .lvl _ _ => true
  | .dly _ => true
  | .log _ => false
  | .fail _ => true

/-- A response (30_encoding R98): the status and what the operation delivers with it. -/
inductive Response where
  /-- INIT, WRITE_BYTE, DETECT_AND_LOG: nothing more. -/
  | status (st : Status)
  /-- WRITE_THEN_READ: RLEN bytes. -/
  | bytes (st : Status) (data : List Byte)
  /-- READ_BYTE: "(byte, Status)". -/
  | byte (st : Status) (v : Byte)
  /-- SCAN: "(AddressSet, Status)". -/
  | addressSet (st : Status) (set : AddrSet)
deriving DecidableEq, Repr

/-- The status of a response. -/
def Response.st : Response → Status
  | .status st => st
  | .bytes st _ => st
  | .byte st _ => st
  | .addressSet st _ => st

end Sys2Proof.Machine
end

