-- ==== Sys2Proof/Syntax.lean ====
section
/-! DEFINITION. Syntax.lean: the instructions, one constructor for each row of spec/opcode_table.json, and the two
forms an instruction is encoded in: the bytes of a link operation and the words of a request (30_encoding R90). -/

namespace Sys2Proof

/-- The two levels of 00_scope R1: five link operations, which the sequencer executes, and six host operations, which
a requester requests. Each docstring gives the assembler form of 30_encoding R102. -/
inductive Instr where
  /-- `START` (41_command_link R142). -/
  | start
  /-- `WAB <byte> , ACKREQ | NOACKREQ` (R143). -/
  | writeAddressedByte (byte : Byte) (ackreq : Bool)
  /-- `WBUF <b0> [, <b1> ...]` (R144); LEN is the number of bytes listed. -/
  | writeBuffer (data : List Byte)
  /-- `RBUF <n> , LASTNACK | ALLACK` (R145); `ln` is LASTNACK. -/
  | readBuffer (len : Byte) (ln : Bool)
  /-- `STOP` (R146). -/
  | stop
  /-- `INIT <port>, <sda_pin>, <scl_pin>, <speed_hz>` (40_init R120). -/
  | init (port sda scl : Byte) (speed : Word32)
  /-- `WRITE_THEN_READ <addr7>, [<w0>, <w1>, ...], <rlen>` (43_transactions R190). -/
  | writeThenRead (addr : Addr7) (data : List Byte) (rlen : Byte)
  /-- `READ_BYTE <addr7>, <reg>` (R191). -/
  | readByte (addr : Addr7) (reg : Byte)
  /-- `WRITE_BYTE <addr7>, <reg>, <value>` (R192). -/
  | writeByte (addr : Addr7) (reg value : Byte)
  /-- `SCAN` (44_scanner R210). -/
  | scan
  /-- `DETECT_AND_LOG` (R215). -/
  | detectAndLog
deriving DecidableEq, Repr

/-- A request as a requester presents it (30_encoding R97): one 32-bit word, then for INIT one more 32-bit word and for
WRITE_THEN_READ its payload bytes. -/
structure RawRequest where
  word : Word32
  more : List Word32
  payload : List Byte
deriving DecidableEq, Repr

/-- The encoded form of an instruction: the bytes of a link operation in CB or SB, or a request. -/
inductive Code where
  | link (bytes : List Byte)
  | request (q : RawRequest)
deriving DecidableEq, Repr

/-- Is it one of the five link operations? -/
def Instr.isLink : Instr → Bool
  | .start => true
  | .writeAddressedByte _ _ => true
  | .writeBuffer _ => true
  | .readBuffer _ _ => true
  | .stop => true
  | .init _ _ _ _ => false
  | .writeThenRead _ _ _ => false
  | .readByte _ _ => false
  | .writeByte _ _ _ => false
  | .scan => false
  | .detectAndLog => false

/-- Is it one of the five host operations that take the lock (43_transactions R195)? -/
def Instr.isLocked : Instr → Bool
  | .start => false
  | .writeAddressedByte _ _ => false
  | .writeBuffer _ => false
  | .readBuffer _ _ => false
  | .stop => false
  | .init _ _ _ _ => false
  | .writeThenRead _ _ _ => true
  | .readByte _ _ => true
  | .writeByte _ _ _ => true
  | .scan => true
  | .detectAndLog => true

/-- Is it one of the two operations that walk the probe buffer SB (44_scanner)? -/
def Instr.isScan : Instr → Bool
  | .start => false
  | .writeAddressedByte _ _ => false
  | .writeBuffer _ => false
  | .readBuffer _ _ => false
  | .stop => false
  | .init _ _ _ _ => false
  | .writeThenRead _ _ _ => false
  | .readByte _ _ => false
  | .writeByte _ _ _ => false
  | .scan => true
  | .detectAndLog => true

end Sys2Proof
end

