-- ==== Sys2Proof/WellFormed.lean ====
section
/-! DEFINITION. WellFormed.lean: what an encoding can carry and a type does not already say. -/

namespace Sys2Proof

/-- An 8-bit length field holds the length (30_encoding R92, R97; decision D10). -/
def fitsLength (data : List Byte) : Bool := decide (data.length ≤ 255)

/-- A well-formed instruction: WRITE_BUFFER and WRITE_THEN_READ carry at most 255 bytes. All other operands are exactly
as wide as their fields. -/
def Instr.wellFormed : Instr → Bool
  | .start => true
  | .writeAddressedByte _ _ => true
  | .writeBuffer data => fitsLength data
  | .readBuffer _ _ => true
  | .stop => true
  | .init _ _ _ _ => true
  | .writeThenRead _ data _ => fitsLength data
  | .readByte _ _ => true
  | .writeByte _ _ _ => true
  | .scan => true
  | .detectAndLog => true

abbrev Instr.WellFormed (i : Instr) : Prop := i.wellFormed = true

end Sys2Proof
end

