-- ==== Sys2Proof/Decode.lean ====
section
/-! DEFINITION. Decode.lean: the decoder of link operations (30_encoding R91 to R96) and of requests (R97 to R99), total and
rejecting by name, and after it the encoder, written from the same tables. -/

namespace Sys2Proof

/-- Why a decoder rejects. -/
inductive DecodeError where
  /-- A header byte that matches no row of R94 (R95). -/
  | reservedHeader (h : Byte)
  /-- The operation extends beyond the link (R95, 41_command_link R141). -/
  | linkOverrun
  /-- A request word that matches no row of R97 (R99). -/
  | reservedRequest (q : Word32)
  /-- What follows the request word is not what R97 says follows it. -/
  | malformedRequest (q : Word32)
deriving DecidableEq, Repr

/-! ### The tables -/

/-- The five operation codes of R91. -/
inductive LinkKind where
  | start
  | writeAddressedByte
  | writeBuffer
  | readBuffer
  | stop
deriving DecidableEq, Repr

/-- One row of R94: a header `h` is of this kind when `h & mask = pattern`. -/
structure LinkRow where
  pattern : Byte
  mask : Byte
  kind : LinkKind
deriving DecidableEq, Repr

/-- The opcode map of R94. -/
def linkTable : List LinkRow :=
  [⟨0x10, 0xFF, .start⟩, ⟨0x20, 0xFE, .writeAddressedByte⟩, ⟨0x30, 0xFF, .writeBuffer⟩, ⟨0x40, 0xFE, .readBuffer⟩,
   ⟨0x50, 0xFF, .stop⟩]

/-- The row of R94 a header byte matches. -/
def linkKind (h : Byte) : Option LinkKind :=
  (linkTable.find? fun row => h &&& row.mask == row.pattern).map fun row => row.kind

/-- The six operations of R97. -/
inductive RequestKind where
  | init
  | writeThenRead
  | readByte
  | writeByte
  | scan
  | detectAndLog
deriving DecidableEq, Repr

/-- One row of R97's match and mask list. -/
structure RequestRow where
  pattern : Word32
  mask : Word32
  kind : RequestKind
deriving DecidableEq, Repr

/-- The match and mask list of R97. -/
def requestTable : List RequestRow :=
  [⟨0x20000000, 0xE000001F, .init⟩, ⟨0x40000000, 0xE000003F, .writeThenRead⟩, ⟨0x60000000, 0xE0003FFF, .readByte⟩,
   ⟨0x80000000, 0xE000003F, .writeByte⟩, ⟨0xA0000000, 0xFFFFFFFF, .scan⟩, ⟨0xC0000000, 0xFFFFFFFF, .detectAndLog⟩]

/-- The row of R97 a request word matches. -/
def requestKind (q : Word32) : Option RequestKind :=
  (requestTable.find? fun row => q &&& row.mask == row.pattern).map fun row => row.kind

/-! ### Link operations -/

/-- Fetch one link operation from the bytes at SEQ_PTR up to the link length (R92, R93; 41_command_link R141): the
operation and the bytes after it. -/
def decodeLink : List Byte → Except DecodeError (Instr × List Byte)
  | [] => .error .linkOverrun
  | h :: rest =>
    match linkKind h with
    | none => .error (.reservedHeader h)
    | some .start => .ok (.start, rest)
    | some .writeAddressedByte =>
      match rest with
      | [] => .error .linkOverrun
      | b :: after => .ok (.writeAddressedByte b (h.getLsbD 0), after)
    | some .writeBuffer =>
      match rest with
      | [] => .error .linkOverrun
      | n :: after =>
        if n.toNat ≤ after.length then .ok (.writeBuffer (after.take n.toNat), after.drop n.toNat)
        else .error .linkOverrun
    | some .readBuffer =>
      match rest with
      | [] => .error .linkOverrun
      | n :: after => .ok (.readBuffer n (h.getLsbD 0), after)
    | some .stop => .ok (.stop, rest)

/-- A whole link, read operation by operation (R96); at most `fuel` operations. -/
def decodeLinkOps : Nat → List Byte → Except DecodeError (List Instr)
  | _, [] => .ok []
  | 0, _ :: _ => .error .linkOverrun
  | fuel + 1, b :: bs =>
    match decodeLink (b :: bs) with
    | .error e => .error e
    | .ok (i, rest) =>
      match decodeLinkOps fuel rest with
      | .error e => .error e
      | .ok is => .ok (i :: is)

/-! ### Requests -/

/-- The fields of a request word (R97). -/
def fieldPort (q : Word32) : Byte := q.extractLsb' 21 8
def fieldSda (q : Word32) : Byte := q.extractLsb' 13 8
def fieldScl (q : Word32) : Byte := q.extractLsb' 5 8
def fieldAddr (q : Word32) : Addr7 := q.extractLsb' 22 7
def fieldWlen (q : Word32) : Byte := q.extractLsb' 14 8
def fieldRlen (q : Word32) : Byte := q.extractLsb' 6 8
def fieldReg (q : Word32) : Byte := q.extractLsb' 14 8
def fieldValue (q : Word32) : Byte := q.extractLsb' 6 8

/-- Nothing may follow the word of the operations that R97 gives no more data. -/
def alone (q : RawRequest) (i : Instr) : Except DecodeError Instr :=
  if q.more = [] ∧ q.payload = [] then .ok i else .error (.malformedRequest q.word)

/-- Decode a request (R97, R99). -/
def decodeRequest (q : RawRequest) : Except DecodeError Instr :=
  match requestKind q.word with
  | none => .error (.reservedRequest q.word)
  | some .init =>
    match q.more, q.payload with
    | [speed], [] => .ok (.init (fieldPort q.word) (fieldSda q.word) (fieldScl q.word) speed)
    | _, _ => .error (.malformedRequest q.word)
  | some .writeThenRead =>
    if q.more = [] ∧ q.payload.length = (fieldWlen q.word).toNat then
      .ok (.writeThenRead (fieldAddr q.word) q.payload (fieldRlen q.word))
    else .error (.malformedRequest q.word)
  | some .readByte => alone q (.readByte (fieldAddr q.word) (fieldReg q.word))
  | some .writeByte => alone q (.writeByte (fieldAddr q.word) (fieldReg q.word) (fieldValue q.word))
  | some .scan => alone q .scan
  | some .detectAndLog => alone q .detectAndLog

/-- Decode an encoded form; the bytes of a link operation must be exactly one operation. -/
def decode : Code → Except DecodeError Instr
  | .link bytes =>
    match decodeLink bytes with
    | .ok (i, []) => .ok i
    | .ok (_, _ :: _) => .error .linkOverrun
    | .error e => .error e
  | .request q => decodeRequest q

/-! ### The encoder -/

/-- The operation codes OPC of R91. -/
def opcStart : BitVec 4 := 1
def opcWriteAddressedByte : BitVec 4 := 2
def opcWriteBuffer : BitVec 4 := 3
def opcReadBuffer : BitVec 4 := 4
def opcStop : BitVec 4 := 5

/-- The header byte of R91: the operation code, three zero bits, the flag. -/
def header (opc : BitVec 4) (flag : Bool) : Byte := opc ++ 0#3 ++ BitVec.ofBool flag

def wordInit (port sda scl : Byte) : Word32 := 0b001#3 ++ port ++ sda ++ scl ++ 0#5
def wordWriteThenRead (addr : Addr7) (wlen rlen : Byte) : Word32 := 0b010#3 ++ addr ++ wlen ++ rlen ++ 0#6
def wordReadByte (addr : Addr7) (reg : Byte) : Word32 := 0b011#3 ++ addr ++ reg ++ 0#14
def wordWriteByte (addr : Addr7) (reg value : Byte) : Word32 := 0b100#3 ++ addr ++ reg ++ value ++ 0#6
def wordScan : Word32 := 0b101#3 ++ 0#29
def wordDetectAndLog : Word32 := 0b110#3 ++ 0#29

/-- The 8-bit length field of a payload (R92, R97, R101). -/
def lengthField (data : List Byte) : Byte := BitVec.ofNat 8 data.length

/-- The encoded form of an instruction (R92, R97). -/
def encode : Instr → Code
  | .start => .link [header opcStart false]
  | .writeAddressedByte b ackreq => .link [header opcWriteAddressedByte ackreq, b]
  | .writeBuffer data => .link (header opcWriteBuffer false :: lengthField data :: data)
  | .readBuffer n ln => .link [header opcReadBuffer ln, n]
  | .stop => .link [header opcStop false]
  | .init port sda scl speed => .request ⟨wordInit port sda scl, [speed], []⟩
  | .writeThenRead addr data rlen => .request ⟨wordWriteThenRead addr (lengthField data) rlen, [], data⟩
  | .readByte addr reg => .request ⟨wordReadByte addr reg, [], []⟩
  | .writeByte addr reg value => .request ⟨wordWriteByte addr reg value, [], []⟩
  | .scan => .request ⟨wordScan, [], []⟩
  | .detectAndLog => .request ⟨wordDetectAndLog, [], []⟩

/-- The bytes of a link operation; none for a host operation. -/
def linkBytes (i : Instr) : List Byte :=
  match encode i with
  | .link bytes => bytes
  | .request _ => []

/-- The encoded size of a link operation in its buffer (R93, R103). -/
def linkSize : Instr → Nat
  | .start => 1
  | .writeAddressedByte _ _ => 2
  | .writeBuffer data => 2 + data.length
  | .readBuffer _ _ => 2
  | .stop => 1
  | .init _ _ _ _ => 0
  | .writeThenRead _ _ _ => 0
  | .readByte _ _ => 0
  | .writeByte _ _ _ => 0
  | .scan => 0
  | .detectAndLog => 0

/-! ### Words numbered as the opcode table numbers them -/

/-- Byte `k` of the number `w`, byte 0 the least significant. -/
def byteOfBits (w k : Nat) : Byte := BitVec.ofNat 8 (w >>> (8 * k))

/-- The bytes `k`, `k+1`, …, `k+n-1` of `w`. -/
def bytesOfBits (w : Nat) : Nat → Nat → List Byte
  | _, 0 => []
  | k, n + 1 => byteOfBits w k :: bytesOfBits w (k + 1) n

/-- The bytes of a link operation whose bits are `w`, up to the longest operation (2 + 255 bytes, R92). -/
def linkBytesOfBits (w : Nat) : List Byte := bytesOfBits w 0 257

/-- The request whose bits are `w`: the word first, then what R97 says follows a word of its kind. -/
def requestOfBits (w : Nat) : RawRequest :=
  let q : Word32 := BitVec.ofNat 32 w
  match requestKind q with
  | some .init => ⟨q, [BitVec.ofNat 32 (w >>> 32)], []⟩
  | some .writeThenRead => ⟨q, [], bytesOfBits w 4 (fieldWlen q).toNat⟩
  | some .readByte => ⟨q, [], []⟩
  | some .writeByte => ⟨q, [], []⟩
  | some .scan => ⟨q, [], []⟩
  | some .detectAndLog => ⟨q, [], []⟩
  | none => ⟨q, [], []⟩

/-- A row of fewer than 32 bits is a link operation, any other a request (log 28). -/
def bitsAreLink (nbits : Nat) : Bool := decide (nbits < 32)

/-- The instruction the decoder reads from an instruction whose bits are `w`. -/
def decodeTableWord (nbits w : Nat) : Option Instr :=
  let bits := w % 2 ^ nbits
  if bitsAreLink nbits then
    match decodeLink (linkBytesOfBits bits) with
    | .ok (i, _) => some i
    | .error _ => none
  else
    match decodeRequest (requestOfBits bits) with
    | .ok i => some i
    | .error _ => none

end Sys2Proof
end

