-- ==== Sys2Proof/Machine/Memory.lean ====
section
/-! DEFINITION. Machine/Memory.lean: lists of keyed values in one canonical form (keys strictly rising), the buffers CB, SB
and RDATA over them (20_memory R60, R63, R64), and the set of waiting requesters. An unlisted byte has NO value (log 5). -/

namespace Sys2Proof.Machine

/-! ### Keyed lists -/

/-- The canonical form: keys strictly rising. -/
abbrev Assoc.wf {α : Type} (m : List (Nat × α)) : Prop := m.Pairwise fun a b => a.1 < b.1

/-- What stands under a key. -/
def Assoc.get {α : Type} : List (Nat × α) → Nat → Option α
  | [], _ => none
  | (k, v) :: m, a => if k = a then some v else Assoc.get m a

/-- Put a value under a key. -/
def Assoc.set {α : Type} : List (Nat × α) → Nat → α → List (Nat × α)
  | [], a, v => [(a, v)]
  | (k, w) :: m, a, v =>
    if a < k then (a, v) :: (k, w) :: m
    else if a = k then (a, v) :: m
    else (k, w) :: Assoc.set m a v

/-- Take a key out. -/
def Assoc.del {α : Type} : List (Nat × α) → Nat → List (Nat × α)
  | [], _ => []
  | (k, w) :: m, a => if k = a then Assoc.del m a else (k, w) :: Assoc.del m a

/-! ### Buffers of bytes -/

/-- The bytes of a buffer that have a value, by index. -/
abbrev Memory := List Host.Cell

/-- The canonical form of a buffer. An unlisted index reads as no value, so no listed cell can equal it. -/
abbrev Memory.wf (m : Memory) : Prop := Assoc.wf m

/-- The byte at an index; `none` where nothing has been written (R36, 41_command_link R137: unspecified). -/
def Memory.read (m : Memory) (a : Nat) : Option Byte := Assoc.get m a

/-- Store one byte. -/
def Memory.write (m : Memory) (a : Nat) (v : Byte) : Memory := Assoc.set m a v

/-- Store bytes in index order from `a` on (R63). -/
def Memory.writeRange (m : Memory) (a : Nat) : List Byte → Memory
  | [] => m
  | b :: bs => Memory.writeRange (Memory.write m a b) (a + 1) bs

/-- The `n` bytes from `a` on, in index order; `none` if one of them has no value. -/
def Memory.readRange (m : Memory) (a : Nat) : Nat → Option (List Byte)
  | 0 => some []
  | n + 1 =>
    match Memory.read m a, Memory.readRange m (a + 1) n with
    | some b, some bs => some (b :: bs)
    | _, _ => none

/-! ### The set WAITERS (10_state R23) -/

/-- Put a requester into the set. -/
def Waiters.insert : List Nat → Nat → List Nat
  | [], r => [r]
  | w :: ws, r => if r < w then r :: w :: ws else if r = w then w :: ws else w :: Waiters.insert ws r

/-- Take a requester out of the set. -/
def Waiters.erase : List Nat → Nat → List Nat
  | [], _ => []
  | w :: ws, r => if w = r then Waiters.erase ws r else w :: Waiters.erase ws r

/-- The canonical form of the set: strictly rising. -/
abbrev Waiters.wf (ws : List Nat) : Prop := ws.Pairwise (· < ·)

/-- The arbiter's pick (60_exceptions R245): member number `k`, counted round the set. -/
def Waiters.pick (ws : List Nat) (k : Nat) : Option Nat := ws[k % ws.length]?

end Sys2Proof.Machine
end

