-- ==== Sys2Proof/Machine/State.lean ====
section
/-! DEFINITION. Machine/State.lean: the state of the block (10_state R20 to R33), the model's record of what it did, the
model's own fields (INVENTORY.md, State), and the reasons a step can stop. -/

namespace Sys2Proof.Machine

/-- The operating modes (10_state R21, 60_exceptions R241). -/
inductive Mode where
  | uninit
  | ready
  | fatal
deriving DecidableEq, Repr

/-- What the engine is doing for the lock holder (10_state R21). -/
inductive Phase where
  | none
  | build
  | exec
  | recover
  | teardown
deriving DecidableEq, Repr

/-- The mutual-exclusion lock (10_state R23). -/
inductive Lock where
  | free
  | held (r : Nat)
deriving DecidableEq, Repr

/-- Which buffer the builder or the sequencer works on (10_state R26). -/
inductive Sel where
  | selCb
  | selSb
deriving DecidableEq, Repr

/-- Who drives a pin (10_state R30). -/
inductive PinMode where
  | unconf
  | engine
  | gpioIn
  | gpioOut
deriving DecidableEq, Repr

/-- CFG (10_state R22). -/
structure Cfg where
  port : Byte
  sdaPin : Byte
  sclPin : Byte
  speedHz : Word32
deriving DecidableEq, Repr

/-- What the outside world does to the block (60_exceptions R250, 70_reset R270), and when (log 1, 7, 21). -/
inductive Stimulus where
  /-- Requester `r` presents a request at its port. -/
  | present (r : Nat) (q : RawRequest)
  /-- The reset input. -/
  | reset
  /-- Nothing comes in while the engine takes the steps of one whole instruction. -/
  | engine
  /-- Nothing comes in while the engine takes one step: one symbol or one hardware-abstraction call (00_scope R3). -/
  | tick
deriving DecidableEq, Repr

/-- The hardware-abstraction calls of a recovery pass, in order; the four of step 4 make one toggle (42_recovery R171). -/
inductive RecoveryCall where
  /-- Step 1. -/
  | tearDown
  /-- Step 2. -/
  | dataLine
  /-- Step 3. -/
  | clockLine
  /-- Step 4: the clock line low. -/
  | clockLow
  /-- Step 4: the delay after it. -/
  | holdLow
  /-- Step 4: the clock line high. -/
  | clockHigh
  /-- Step 4: the delay after it, and the toggle is counted. -/
  | holdHigh
  /-- Step 5. -/
  | configure
deriving DecidableEq, Repr

/-- Where inside the walk of a link the engine stands, between two of the steps of 00_scope R3 (log 1). -/
inductive Point where
  /-- In the link operation at SEQ_PTR, with `i` of its symbols produced: the loop variable of 41_command_link R144, R145. -/
  | operation (i : Nat)
  /-- A byte was rejected; the STOP of NACK_ABORT comes next (R147). -/
  | nackStop
  /-- In the recovery pass; this call comes next (42_recovery R171). -/
  | recovery (c : RecoveryCall)
deriving DecidableEq, Repr

structure State where
  /-- S0. -/
  mode : Mode
  /-- S1. -/
  phase : Phase
  /-- S2 to S5. -/
  cfg : Cfg
  /-- S6. -/
  lock : Lock
  /-- S6, WAITERS. -/
  waiters : List Nat
  /-- S7. -/
  cb : Memory
  /-- S8. -/
  cbLen : Nat
  /-- S9. -/
  buildErr : Bool
  /-- S10. -/
  sb : Memory
  /-- S10. -/
  sbLen : Nat
  /-- S11. -/
  seqSel : Sel
  /-- S12, the program counter. -/
  seqPtr : Nat
  /-- S13. -/
  inFrame : Bool
  /-- S14. -/
  rdata : Memory
  /-- S14. -/
  rdLen : Nat
  /-- S15. -/
  aset : AddrSet
  /-- S16. -/
  scanAddr : BitVec 8
  /-- S17. -/
  toggleCnt : BitVec 6
  /-- S18. -/
  engineUp : Bool
  /-- S18. -/
  sdaMode : PinMode
  /-- S18. -/
  sclMode : PinMode
  /-- S18. -/
  sclLevel : Bool
  /-- S19. -/
  tmoArmed : Bool
  /-- S19. -/
  tmoMs : BitVec 16
  /-- The history WIRE (10_state R33), oldest event first. -/
  wire : List Event
  /-- The responses delivered (30_encoding R98), oldest first. -/
  responses : List (Nat × Response)
  /-- Own: the outstanding request of each requester (60_exceptions R244). -/
  ports : List (Nat × RawRequest)
  /-- Own: the inputs still to come. -/
  stimuli : List Stimulus
  /-- Own: the requester whose request was fetched last, the pseudocode's `r`. -/
  cur : Nat
  /-- Own: the host operation the lock holder is in. -/
  service : Option Instr
  /-- Own: EXECUTE's `result`, or the body's `st` (41_command_link R140, 43_transactions R190), once decided. -/
  linkResult : Option Status
  /-- Own: where inside the walk of a link the engine stands (00_scope R3). -/
  point : Point
  /-- Own: the environment (00_scope R7). -/
  env : Env
  /-- Own: the implementation parameters (00_scope R5). -/
  params : Params
deriving DecidableEq, Repr

/-- A `require` of the spec's pseudocode that fails, where the spec gives no effect and says no run gets there. All are
safe: the model stops where the spec says nothing. -/
inductive Fault where
  /-- A link operation outside EXECUTE: PHASE is not EXEC, the engine is down, nobody holds the lock, or the link has
  ended (41_command_link R140), or another operation's symbols are under way. Raised by the five link operations and by
  their single symbols. -/
  | notExecuting
  /-- A call of the recovery pass with PHASE not RECOVER or nobody holding the lock (42_recovery R171). Raised by the steps of
  the recovery pass. -/
  | notRecovering
  /-- READ_BUFFER: `require RD_LEN < RD_CAPACITY` (R145). -/
  | readBufferOverrun
  /-- The sequencer fetched a byte that nothing has written (10_state R24). -/
  | unwrittenByte
  /-- The engine would serve an operation that nobody requested. Raised by the arbiter and by the end of a link. -/
  | noOperation
  /-- The bound of the run of an operation was too small (70_reset R284; log 23). -/
  | engineRanOut
deriving DecidableEq, Repr

/-- What the spec says a model refuses. All are safe. -/
inductive Refusal where
  /-- The instruction has no meaning in this model yet. Raised by exec's arms only. -/
  | notModelled (mnemonic : String)
  /-- A reserved request word (30_encoding R99). -/
  | reservedRequest
  /-- What follows the request word is not what 30_encoding R97 says follows it (log 9). -/
  | malformedRequest
  /-- A reserved header byte was fetched (30_encoding R95, 41_command_link R141). -/
  | reservedHeader
  /-- The operation fetched extends beyond the link (R95, R141). -/
  | linkOverrun
  /-- A data operation outside a frame (R143 to R145; 93_implementation_defined U7). -/
  | dataOutsideFrame
  /-- A host operation other than INIT while MODE = UNINIT (40_init R121). -/
  | beforeInit
  /-- INIT while MODE is READY or FATAL (R121). -/
  | initAgain
  /-- INIT while another operation is outstanding (R121). -/
  | initConcurrent
  /-- A second request at a port that has one outstanding (60_exceptions R244, R250; log 8). -/
  | portBusy
  /-- A request at a port that does not exist (00_scope R5, R7; log 8). -/
  | noSuchPort
deriving DecidableEq, Repr

/-- The parameters State.reset has: the common start of 95_test_vectors section 3 (log 3). -/
def Params.reset : Params := ⟨16, 4, 4, 2⟩

/-- The machine right after reset (10_state R36, 70_reset R270). What R36 calls unspecified is 0 here, or has no value in a
buffer (log 4, 5). -/
def State.reset : State where
  mode := .uninit
  phase := .none
  cfg := ⟨0, 0, 0, 0⟩
  lock := .free
  waiters := []
  cb := []
  cbLen := 0
  buildErr := false
  sb := []
  sbLen := 0
  seqSel := .selCb
  seqPtr := 0
  inFrame := false
  rdata := []
  rdLen := 0
  aset := 0
  scanAddr := 0
  toggleCnt := 0
  engineUp := false
  sdaMode := .unconf
  sclMode := .unconf
  sclLevel := false
  tmoArmed := false
  tmoMs := 0
  wire := []
  responses := []
  ports := []
  stimuli := []
  cur := 0
  service := none
  linkResult := none
  point := .operation 0
  env := Env.empty
  params := Params.reset

end Sys2Proof.Machine
end

