-- ==== Sys2Proof/Machine/Flags.lean ====
section
/-! DEFINITION. Machine/Flags.lean: the block's two flags, BUILD_ERR and IN_FRAME (10_state R24, R26, R32): the tests that
set and read them. -/

namespace Sys2Proof.Machine

/-- The capacity test of an append: `LEN + k > CAP` sets BUILD_ERR, compared as naturals (41_command_link R131). -/
def overflows (len k cap : Nat) : Bool := decide (cap < len + k)

/-- The read-buffer test of APPEND_RBUF: `n > RD_CAPACITY` sets BUILD_ERR (R135). -/
def readOverflows (n rdCapacity : Nat) : Bool := decide (rdCapacity < n)

/-- How a completed START appears in WIRE: `S` with IN_FRAME = 0, `Sr` with IN_FRAME = 1 (R142). -/
def startEvent (inFrame : Bool) : Event := if inFrame then .sr else .s

end Sys2Proof.Machine
end

