-- ==== Sys2Proof/Machine/Operands.lean ====
section
/-! DEFINITION. Machine/Operands.lean: how operands are formed (20_memory R61, 30_encoding R101), the half-period (42_recovery
R172), the master's acknowledge of a read byte (41_command_link R145) and the sizes of links (30_encoding R103). -/

namespace Sys2Proof.Machine

/-- The intent of an addressing (20_memory R61). -/
inductive Intent where
  | write
  | read
deriving DecidableEq, Repr

/-- The intent bit: 0 = write, 1 = read (R61). -/
def Intent.bit : Intent → BitVec 1
  | .write => 0
  | .read => 1

/-- `AB(a, rw) = (a << 1) | rw`, the address byte (R61, R101 (a)). -/
def addressByte (a : Addr7) (rw : Intent) : Byte := a ++ rw.bit

/-- The address the scanner's counter stands for (44_scanner R210: `a <- SCAN_ADDR`). -/
def scanAddress (c : BitVec 8) : Addr7 := c.setWidth 7

/-- `T = floor(1000000 / SPEED_HZ)` in unsigned 32-bit arithmetic (42_recovery R172); at speed 0, which no run reaches, a
free value (log 13). -/
def halfPeriod (speedHz : Word32) : Word32 :=
  if speedHz = 0 then Config.halfPeriodAtZero Config.halfPeriodNumerator else Config.halfPeriodNumerator / speedHz

/-- The master's answer to a read byte after which `left` more are wanted (41_command_link R145, 20_memory R67). -/
def readAck (ln : Bool) (left : Nat) : Ack := if ln && left == 0 then .nack else .ack

/-- The cost in bytes of the link WRITE_THEN_READ builds (30_encoding R103). -/
def transactionCost (wlen rlen : Nat) : Nat :=
  4 + (if 0 < wlen then 2 + wlen else 0) + (if 0 < rlen then 5 else 0)

/-- The transaction fits the buffers (30_encoding R103, 60_exceptions R233). -/
def transactionFits (p : Params) (wlen rlen : Nat) : Bool :=
  decide (transactionCost wlen rlen ≤ p.cmdCapacity ∧ rlen ≤ p.rdCapacity)

/-- The link operations that WRITE_THEN_READ puts in its link, in order (43_transactions R190, 30_encoding R96). -/
def transactionOps (a : Addr7) (data : List Byte) (rlen : Byte) : List Instr :=
  [.start, .writeAddressedByte (addressByte a .write) true]
    ++ (if data = [] then [] else [.writeBuffer data])
    ++ (if rlen = 0 then [] else [.start, .writeAddressedByte (addressByte a .read) true, .readBuffer rlen true])
    ++ [.stop]

/-- The link operations of a probe (44_scanner R211). -/
def probeOps (a : Addr7) : List Instr := [.start, .writeAddressedByte (addressByte a .write) true, .stop]

/-- The bytes of a sequence of link operations, packed without padding (30_encoding R92). -/
def linkBytesOf (ops : List Instr) : List Byte := ops.flatMap linkBytes

/-- The addresses 0, 1, …, 127 in ascending order (44_scanner R210, R215). -/
def allAddresses : List Addr7 := (List.range Config.addrCount).map fun a => BitVec.ofNat 7 a

/-- The members of an address set in ascending order (44_scanner R215). -/
def members (set : AddrSet) : List Addr7 := allAddresses.filter fun a => set.getLsbD a.toNat

/-- Bit `a` of the set to 1 (44_scanner R210). -/
def addMember (set : AddrSet) (a : Addr7) : AddrSet := set ||| ((1 : AddrSet) <<< a.toNat)

end Sys2Proof.Machine
end

