-- ==== Sys2Proof/Machine/Ops.lean ====
section
/-! DEFINITION. Machine/Ops.lean: the named operations the meanings are made of: the bus access primitives (00_scope R9), the
hardware-abstraction calls (R7), the buffers of the builder, the lock (60_exceptions R244), the end of a link, and the
timeout trap with its return (60_exceptions R238, R239). -/

namespace Sys2Proof.Machine

/-- The outcome of a step of this machine. -/
abbrev Result := Host.Outcome State Fault Refusal

/-- Go on from a next state; a stop stays. -/
def andThen {α β : Type} (o : Host.Outcome α Fault Refusal) (k : α → Host.Outcome β Fault Refusal) :
    Host.Outcome β Fault Refusal :=
  match o with
  | .next a => k a
  | .fault f => .fault f
  | .refused r => .refused r

/-- `emit(e)` (R9). -/
def State.emit (s : State) (e : Event) : State := { s with wire := s.wire ++ [e] }

/-! ### Symbols -/

/-- `PhyStart()` of R9, START's body (41_command_link R142). -/
def phyStart (s : State) : SymAnswer × State :=
  let s1 := { s with env := s.env.dropStart }
  match s.env.nextStart with
  | .hang => (.hang, s1)
  | .done => (.done, { s1.emit (startEvent s.inFrame) with inFrame := true })

/-- `PhyWrite(b)` of R9. -/
def phyWrite (b : Byte) (s : State) : WriteAnswer × State :=
  let s1 := { s with env := s.env.dropWrite }
  match s.env.nextWrite with
  | .hang => (.hang, s1)
  | .ack => (.ack, s1.emit (.w b .ack))
  | .nack => (.nack, s1.emit (.w b .nack))

/-- `PhyRead(m)` of R9. -/
def phyRead (m : Ack) (s : State) : ReadAnswer × State :=
  let s1 := { s with env := s.env.dropRead }
  match s.env.nextRead with
  | .hang => (.hang, s1)
  | .byte v => (.byte v, s1.emit (.r v m))

/-- `PhyStop()` of R9, STOP's body (41_command_link R146). -/
def phyStop (s : State) : SymAnswer × State :=
  let s1 := { s with env := s.env.dropStop }
  match s.env.nextStop with
  | .hang => (.hang, s1)
  | .done => (.done, { s1.emit .p with inFrame := false })

/-! ### Hardware-abstraction calls -/

/-- A fallible call: its event, then the environment's answer; a failure adds `FAIL(call)` (R8, decision D19). -/
def hal (e : Event) (c : HalCall) (s : State) : HalAnswer × State :=
  let s1 := { s.emit e with env := s.env.dropHal }
  match s.env.nextHal with
  | .ok => (.ok, s1)
  | .fail => (.fail, s1.emit (.fail c))

/-- Go on after a call that answered `ok`; the first failure ends the sequence (42_recovery R173). -/
def ifOk (r : HalAnswer × State) (k : State → HalAnswer × State) : HalAnswer × State :=
  match r with
  | (.ok, s) => k s
  | (.fail, s) => (.fail, s)

/-! ### The link buffers (41_command_link R130) -/

/-- `BUF(sel)`. -/
def State.buf (s : State) : Sel → Memory
  | .selCb => s.cb
  | .selSb => s.sb

/-- `LEN(sel)`. -/
def State.len (s : State) : Sel → Nat
  | .selCb => s.cbLen
  | .selSb => s.sbLen

/-- `CAP(sel)`. -/
def State.cap (s : State) : Sel → Nat
  | .selCb => s.params.cmdCapacity
  | .selSb => s.params.scanCapacity

/-- `LEN(sel) <- n`. -/
def State.setLen (s : State) (sel : Sel) (n : Nat) : State :=
  match sel with
  | .selCb => { s with cbLen := n }
  | .selSb => { s with sbLen := n }

/-- `BUF(sel) <- m`. -/
def State.setBuf (s : State) (sel : Sel) (m : Memory) : State :=
  match sel with
  | .selCb => { s with cb := m }
  | .selSb => { s with sb := m }

/-- The bytes of the selected link from SEQ_PTR up to the link length. -/
def State.linkAhead (s : State) : Option (List Byte) :=
  (s.buf s.seqSel).readRange s.seqPtr (s.len s.seqSel - s.seqPtr)

/-! ### The lock (60_exceptions R244) -/

/-- The first line of ACQUIRE: `WAITERS <- WAITERS + {r}`. -/
def State.enqueue (s : State) (r : Nat) : State := { s with waiters := Waiters.insert s.waiters r }

/-- The last line of ACQUIRE: the free lock goes to the requester being served. -/
def State.acquire (s : State) : State :=
  { s with lock := .held s.cur, waiters := Waiters.erase s.waiters s.cur }

/-- The requester an operation is carried out for: the lock's holder, or for INIT the requester being served. -/
def State.requester (s : State) : Nat :=
  match s.lock with
  | .held r => r
  | .free => s.cur

/-- RELEASE. -/
def State.release (s : State) : State := { s with lock := .free }

/-- `complete(st)`: the response goes to requester `r`, whose port is free again (30_encoding R98, R244). -/
def State.deliver (s : State) (r : Nat) (x : Response) : State :=
  { s with responses := s.responses ++ [(r, x)], ports := Assoc.del s.ports r }

/-! ### The end of a link -/

/-- EXECUTE has its result: the watchdog is disarmed (41_command_link R140: `TMO_ARMED <- 0; return result`), and the engine
stands inside no operation any more. -/
def State.endLink (s : State) (st : Status) : State :=
  { s with linkResult := some st, tmoArmed := false, point := .operation 0 }

/-! ### The timeout trap -/

/-- Entry (60_exceptions R238; the first lines of 41_command_link R148 and 42_recovery R171): the symbol in progress is
abandoned and appears as `TMO`, the watchdog is disarmed, the frame is given up, control goes to step 1 of RECOVER. SEQ_PTR
keeps the position of the operation that hung; no STOP is generated; nothing is saved. -/
def takeTimeoutTrap (s : State) : State :=
  { s.emit .tmo with tmoArmed := false, phase := .recover, toggleCnt := 0, inFrame := false, point := .recovery .tearDown }

/-- Return (60_exceptions R239; the last lines of 41_command_link R148): after a clean pass EXECUTE returns `Timeout`, never
into the abandoned link; after a failed call it returns `ConfigurationFault`, and the block is FATAL (42_recovery R173). -/
def returnFromRecovery (r : HalAnswer × State) : State :=
  match r with
  | (.ok, s) => s.endLink .timeout
  | (.fail, s) => { s with mode := .fatal }.endLink .configurationFault

end Sys2Proof.Machine
end

