-- ==== Sys2Proof/Machine/Builder.lean ====
section
/-! DEFINITION. Machine/Builder.lean: the command-link builder (41_command_link R130 to R138), the links of the transaction
helpers (43_transactions R190) and of the scanner (44_scanner R211), and the submission of a link (R140). -/

namespace Sys2Proof.Machine

/-- LINK_BEGIN (R130). -/
def linkBegin (sel : Sel) (s : State) : State := { s.setLen sel 0 with phase := .build, buildErr := false }

/-- APPEND (R131): after a first failure every step does nothing; an append that does not fit writes nothing. -/
def append (sel : Sel) (bytes : List Byte) (s : State) : State :=
  if s.buildErr then s
  else if overflows (s.len sel) bytes.length (s.cap sel) then { s with buildErr := true }
  else (s.setBuf sel ((s.buf sel).writeRange (s.len sel) bytes)).setLen sel (s.len sel + bytes.length)

/-- APPEND_START (R132). -/
def appendStart (sel : Sel) (s : State) : State := append sel (linkBytes .start) s

/-- APPEND_WAB (R133). -/
def appendWab (sel : Sel) (b : Byte) (ackreq : Bool) (s : State) : State :=
  append sel (linkBytes (.writeAddressedByte b ackreq)) s

/-- APPEND_WBUF (R134). -/
def appendWbuf (sel : Sel) (data : List Byte) (s : State) : State := append sel (linkBytes (.writeBuffer data)) s

/-- APPEND_RBUF (R135): a read that would not fit the read buffer fails like an append that does not fit. -/
def appendRbuf (sel : Sel) (n : Byte) (ln : Bool) (s : State) : State :=
  if s.buildErr then s
  else if readOverflows n.toNat s.params.rdCapacity then { s with buildErr := true }
  else append sel (linkBytes (.readBuffer n ln)) s

/-- APPEND_STOP (R136). -/
def appendStop (sel : Sel) (s : State) : State := append sel (linkBytes .stop) s

/-- LINK_END (R137): the link is gone and the buffer's bytes have no value any more. -/
def linkEnd (sel : Sel) (s : State) : State := { (s.setLen sel 0).setBuf sel [] with phase := .teardown, buildErr := false }

/-- The write payload of a link; no operation for an empty payload (R190, decision D11). -/
def appendPayload (sel : Sel) (data : List Byte) (s : State) : State :=
  if data = [] then s else appendWbuf sel data s

/-- The read phase of a link; nothing for an empty read (R190). -/
def appendReadPhase (sel : Sel) (a : Addr7) (rlen : Byte) (s : State) : State :=
  if rlen = 0 then s
  else appendRbuf sel rlen true (appendWab sel (addressByte a .read) true (appendStart sel s))

/-- The construction of WRITE_THEN_READ's link in CB (R190). -/
def buildTransaction (a : Addr7) (data : List Byte) (rlen : Byte) (s : State) : State :=
  appendStop .selCb
    (appendReadPhase .selCb a rlen
      (appendPayload .selCb data
        (appendWab .selCb (addressByte a .write) true
          (appendStart .selCb
            (linkBegin .selCb { s with rdLen := 0 })))))

/-- BUILD_PROBE (44_scanner R211), in SB. -/
def buildProbe (a : Addr7) (s : State) : State :=
  appendStop .selSb
    (appendWab .selSb (addressByte a .write) true
      (appendStart .selSb (linkBegin .selSb s)))

/-- The first lines of EXECUTE (41_command_link R140). -/
def submit (sel : Sel) (timeoutMs : BitVec 16) (s : State) : State :=
  { s with phase := .exec, seqSel := sel, seqPtr := 0, inFrame := false, tmoMs := timeoutMs, tmoArmed := true,
           linkResult := none, point := .operation 0 }

/-- A built link is executed with the fixed timeout; a link whose construction failed is not, and its status is NoMemory
(R138, R190, R194; for the scanner it means "absent", 44_scanner R212). -/
def submitBuilt (sel : Sel) (s : State) : State :=
  if s.buildErr then { s with linkResult := some .noMemory } else submit sel Config.timeoutMs s

end Sys2Proof.Machine
end

