-- ==== Sys2Proof/Machine/Completion.lean ====
section
/-! DEFINITION. Machine/Completion.lean: how a host operation completes: what its response holds (30_encoding R98, 43_transactions
R193, 44_scanner R214), the release of the lock on every path (43_transactions R195), and the listing of DETECT_AND_LOG
(44_scanner R215). -/

namespace Sys2Proof.Machine

/-- The data bytes of a response: with `Ok` the bytes `RDATA[0 .. n-1]`, with any other status unspecified, a draw each
(43_transactions R193). A byte of RDATA that has no value is a draw as well. -/
def deliveredBytes (st : Status) (m : Memory) : Nat → List Byte → List Byte
  | _, [] => []
  | i, free :: rest =>
    (if st = .ok then (Memory.read m i).getD free else free) :: deliveredBytes st m (i + 1) rest

/-- How many data bytes the response of an operation has (30_encoding R98). -/
def responseLength : Instr → Nat
  | .start => 0
  | .writeAddressedByte _ _ => 0
  | .writeBuffer _ => 0
  | .readBuffer _ _ => 0
  | .stop => 0
  | .init _ _ _ _ => 0
  | .writeThenRead _ _ rlen => rlen.toNat
  | .readByte _ _ => 1
  | .writeByte _ _ _ => 0
  | .scan => 0
  | .detectAndLog => 0

/-- The data bytes of the response to `i` with status `st` (log 6). -/
def responseBytes (i : Instr) (st : Status) (s : State) : List Byte :=
  deliveredBytes st s.rdata 0 (s.env.nextBytes (responseLength i))

/-- The response to `i` with status `st` (30_encoding R98). -/
def responseOf (i : Instr) (st : Status) (s : State) : Response :=
  match i with
  | .start => .status st
  | .writeAddressedByte _ _ => .status st
  | .writeBuffer _ => .status st
  | .readBuffer _ _ => .status st
  | .stop => .status st
  | .init _ _ _ _ => .status st
  | .writeThenRead _ _ _ => .bytes st (responseBytes i st s)
  | .readByte _ _ => .byte st ((responseBytes i st s).headD 0)
  | .writeByte _ _ _ => .status st
  | .scan => .addressSet st s.aset
  | .detectAndLog => .status st

/-- The listing of DETECT_AND_LOG, from the caller's copy of the set (44_scanner R215); nothing for any other operation. -/
def listing (i : Instr) (set : AddrSet) : List Event :=
  match i with
  | .start => []
  | .writeAddressedByte _ _ => []
  | .writeBuffer _ => []
  | .readBuffer _ _ => []
  | .stop => []
  | .init _ _ _ _ => []
  | .writeThenRead _ _ _ => []
  | .readByte _ _ => []
  | .writeByte _ _ _ => []
  | .scan => []
  | .detectAndLog => (members set).map .log

/-- The data draws of a response are used up. -/
def State.drawBytes (s : State) (n : Nat) : State := { s with env := s.env.dropBytes n }

/-- The last lines of LOCKED (43_transactions R195): PHASE NONE, RELEASE, the listing if there is one, `complete(st)`. -/
def completeLocked (i : Instr) (st : Status) (s : State) : State :=
  let s1 := { s with phase := .none, linkResult := none, service := none }.release
  let s2 := { s1 with wire := s1.wire ++ listing i s.aset }
  (s2.deliver s.requester (responseOf i st s)).drawBytes (responseLength i)

/-- INIT completes (40_init R120): it holds no lock. -/
def completeInit (st : Status) (s : State) : State := s.deliver s.requester (.status st)

end Sys2Proof.Machine
end

