-- ==== Sys2Proof/Machine/Recovery.lean ====
section
/-! DEFINITION. Machine/Recovery.lean: the clock-toggle recovery controller (42_recovery R171 to R178) and the two aborts of a
link that end in it (41_command_link R147, R148). -/

namespace Sys2Proof.Machine

/-- Step 1: tear down the hardware engine. -/
def tearDownEngine (s : State) : HalAnswer × State :=
  ifOk (hal .engDown .engDown s) fun s => (.ok, { s with engineUp := false, sdaMode := .unconf, sclMode := .unconf })

/-- Step 2: the data line to input. -/
def dataLineToInput (s : State) : HalAnswer × State :=
  ifOk (hal (.dir s.cfg.sdaPin .input) .dir s) fun s => (.ok, { s with sdaMode := .gpioIn })

/-- Step 3: the clock line to output. -/
def clockLineToOutput (s : State) : HalAnswer × State :=
  ifOk (hal (.dir s.cfg.sclPin .output) .dir s) fun s => (.ok, { s with sclMode := .gpioOut })

/-- Step 4: the clock line to a level. -/
def driveClock (level : Bool) (s : State) : HalAnswer × State :=
  ifOk (hal (.lvl s.cfg.sclPin level) .lvl s) fun s => (.ok, { s with sclLevel := level })

/-- Step 4: the delay of one half-period, which cannot fail. -/
def holdClock (s : State) : State := s.emit (.dly (halfPeriod s.cfg.speedHz))

/-- Step 4: one toggle more is done. -/
def State.countToggle (s : State) : State := { s with toggleCnt := s.toggleCnt + 1 }

/-- Half a toggle of step 4: the clock line to a level, held for one half-period. -/
def halfToggle (level : Bool) (s : State) : HalAnswer × State :=
  ifOk (driveClock level s) fun s => (.ok, holdClock s)

/-- One toggle of step 4: "low then high". -/
def toggle (s : State) : HalAnswer × State :=
  ifOk (halfToggle false s) fun s => ifOk (halfToggle true s) fun s => (.ok, s.countToggle)

/-- `n` toggles. -/
def toggles : Nat → State → HalAnswer × State
  | 0, s => (.ok, s)
  | n + 1, s => ifOk (toggle s) fun s => toggles n s

/-- Step 5: reinitialise the engine with the original configuration. -/
def reinitialiseEngine (s : State) : HalAnswer × State :=
  ifOk (hal (.engCfg s.cfg.port s.cfg.sdaPin s.cfg.sclPin s.cfg.speedHz) .engCfg s) fun s =>
    (.ok, { s with engineUp := true, sdaMode := .engine, sclMode := .engine })

/-- RECOVER of R171, from the state the trap's entry leaves. -/
def recover (s : State) : HalAnswer × State :=
  ifOk (tearDownEngine s) fun s =>
  ifOk (dataLineToInput s) fun s =>
  ifOk (clockLineToOutput s) fun s =>
  ifOk (toggles Config.recoveryToggles s) fun s =>
  reinitialiseEngine s

/-- TIMEOUT_ABORT (41_command_link R148): exactly one recovery pass. -/
def timeoutAbort (s : State) : State := returnFromRecovery (recover (takeTimeoutTrap s))

/-- NACK_ABORT (R147): the rest of the link is abandoned, a STOP is generated; if it hangs, the timeout decides (log 12). -/
def nackAbort (s : State) : State :=
  match phyStop s with
  | (.done, s) => s.endLink .nack
  | (.hang, s) => timeoutAbort s

/-! ### The pass, one call a step (00_scope R3) -/

/-- One call of the pass. -/
def recoveryCall (c : RecoveryCall) (s : State) : HalAnswer × State :=
  match c with
  | .tearDown => tearDownEngine s
  | .dataLine => dataLineToInput s
  | .clockLine => clockLineToOutput s
  | .clockLow => driveClock false s
  | .holdLow => (.ok, holdClock s)
  | .clockHigh => driveClock true s
  | .holdHigh => (.ok, (holdClock s).countToggle)
  | .configure => reinitialiseEngine s

/-- `while TOGGLE_CNT < 32`: another toggle, or on to step 5. -/
def toggleLoop (s : State) : RecoveryCall :=
  if s.toggleCnt.toNat < Config.recoveryToggles then .clockLow else .configure

/-- The call after a call that answered `ok`; none after the last. -/
def nextRecoveryCall (c : RecoveryCall) (s : State) : Option RecoveryCall :=
  match c with
  | .tearDown => some .dataLine
  | .dataLine => some .clockLine
  | .clockLine => some (toggleLoop s)
  | .clockLow => some .holdLow
  | .holdLow => some .clockHigh
  | .clockHigh => some .holdHigh
  | .holdHigh => some (toggleLoop s)
  | .configure => none

/-- What follows a call: the next one, or the return from the pass. -/
def afterRecoveryCall (c : RecoveryCall) (r : HalAnswer × State) : State :=
  match r with
  | (.fail, s) => returnFromRecovery (.fail, s)
  | (.ok, s) =>
    match nextRecoveryCall c s with
    | some c => { s with point := .recovery c }
    | none => returnFromRecovery (.ok, s)

/-- One step of the pass. -/
def recoveryStep (c : RecoveryCall) (s : State) : Result :=
  if s.phase = .recover ∧ s.lock ≠ .free then .next (afterRecoveryCall c (recoveryCall c s)) else .fault .notRecovering

end Sys2Proof.Machine
end

