-- ==== Sys2Proof/Machine/LinkOps.lean ====
section
/-! DEFINITION. Machine/LinkOps.lean: the five link operations (41_command_link R142 to R146), each a definition of its own,
and what EXECUTE does with the outcome of one (R140, R147, R148, R150). -/

namespace Sys2Proof.Machine

/-- The outcome of `perform(op)` (R140), and the failed `require` of READ_BUFFER (R145). -/
inductive Perform where
  | next
  | done
  | nack
  | hang
  | overrun
deriving DecidableEq, Repr

/-- The sequencer is walking a link: the `require` of EXECUTE and what EXECUTE sets (R140). -/
def State.walking (s : State) : Bool :=
  s.phase == .exec && s.engineUp && s.lock != .free && s.linkResult == none && !s.buildErr

/-- The sequencer is walking a link and no symbol of the operation at SEQ_PTR has been produced yet. -/
def State.executing (s : State) : Bool := s.walking && s.point == .operation 0

/-- One turn of EXECUTE's loop once an operation of this size has been performed (R140). -/
def settle (size : Nat) (r : Perform × State) : Result :=
  match r with
  | (.next, s) => .next { s with seqPtr := s.seqPtr + size }
  | (.done, s) => .next ({ s with seqPtr := s.seqPtr + size }.endLink .ok)
  | (.nack, s) => .next (nackAbort s)
  | (.hang, s) => .next (timeoutAbort s)
  | (.overrun, _) => .fault .readBufferOverrun

/-- A link operation runs only inside EXECUTE (log 17). -/
def inExecute (s : State) (k : Result) : Result := if s.executing then k else .fault .notExecuting

/-- A single symbol is produced only inside EXECUTE (log 17; 10_state R37 I-d). -/
def inWalk (s : State) (k : Result) : Result := if s.walking then k else .fault .notExecuting

/-- `require IN_FRAME = 1 -- else refused (malformed link)` (R143 to R145). -/
def inOpenFrame (s : State) (k : Result) : Result := if s.inFrame then k else .refused .dataOutsideFrame

/-- The body of START. -/
def performStart (s : State) : Perform × State :=
  match phyStart s with
  | (.done, s) => (.next, s)
  | (.hang, s) => (.hang, s)

/-- The body of WRITE_ADDRESSED_BYTE: a NACK counts only with ACKREQ = 1. -/
def performWriteAddressedByte (b : Byte) (ackreq : Bool) (s : State) : Perform × State :=
  match phyWrite b s with
  | (.ack, s) => (.next, s)
  | (.nack, s) => (if ackreq then .nack else .next, s)
  | (.hang, s) => (.hang, s)

/-- Go on with an operation after a symbol that completed. -/
def thenNext (r : Perform × State) (k : State → Perform × State) : Perform × State :=
  match r with
  | (.next, s) => k s
  | (.done, s) => (.done, s)
  | (.nack, s) => (.nack, s)
  | (.hang, s) => (.hang, s)
  | (.overrun, s) => (.overrun, s)

/-- One payload byte of WRITE_BUFFER, acknowledge-checked. -/
def sendByte (b : Byte) (s : State) : Perform × State :=
  match phyWrite b s with
  | (.ack, s) => (.next, s)
  | (.nack, s) => (.nack, s)
  | (.hang, s) => (.hang, s)

/-- The body of WRITE_BUFFER: the bytes in index order, each acknowledge-checked, none sent after the first NACK. -/
def performWriteBuffer : List Byte → State → Perform × State
  | [], s => (.next, s)
  | b :: bs, s => thenNext (sendByte b s) (performWriteBuffer bs)

/-- A byte read lands in `RDATA[RD_LEN]` (10_state R27). -/
def State.receive (s : State) (v : Byte) : State :=
  { s with rdata := Memory.write s.rdata s.rdLen v, rdLen := s.rdLen + 1 }

/-- One byte of READ_BUFFER, answered with `m`. -/
def receiveByte (m : Ack) (s : State) : Perform × State :=
  match phyRead m s with
  | (.hang, s) => (.hang, s)
  | (.byte v, s) => if s.rdLen < s.params.rdCapacity then (.next, s.receive v) else (.overrun, s)

/-- The body of READ_BUFFER, with `n` bytes still to read. -/
def performReadBuffer (ln : Bool) : Nat → State → Perform × State
  | 0, s => (.next, s)
  | n + 1, s => thenNext (receiveByte (readAck ln n) s) (performReadBuffer ln n)

/-- The body of STOP. -/
def performStop (s : State) : Perform × State :=
  match phyStop s with
  | (.done, s) => (.done, s)
  | (.hang, s) => (.hang, s)

/-- START (R142). -/
def execStart (s : State) : Result := inExecute s (settle (linkSize .start) (performStart s))

/-- WRITE_ADDRESSED_BYTE (R143). -/
def execWriteAddressedByte (b : Byte) (ackreq : Bool) (s : State) : Result :=
  inExecute s (inOpenFrame s
    (settle (linkSize (.writeAddressedByte b ackreq)) (performWriteAddressedByte b ackreq s)))

/-- WRITE_BUFFER (R144). -/
def execWriteBuffer (data : List Byte) (s : State) : Result :=
  inExecute s (inOpenFrame s (settle (linkSize (.writeBuffer data)) (performWriteBuffer data s)))

/-- READ_BUFFER (R145). -/
def execReadBuffer (len : Byte) (ln : Bool) (s : State) : Result :=
  inExecute s (inOpenFrame s (settle (linkSize (.readBuffer len ln)) (performReadBuffer ln len.toNat s)))

/-- STOP (R146). -/
def execStop (s : State) : Result := inExecute s (settle (linkSize .stop) (performStop s))

/-! ### One symbol of an operation (00_scope R3) -/

/-- How many symbols an operation has. -/
def symbolCount : Instr → Nat
  | .start => 1
  | .writeAddressedByte _ _ => 1
  | .writeBuffer data => data.length
  | .readBuffer len _ => len.toNat
  | .stop => 1
  | .init _ _ _ _ => 0
  | .writeThenRead _ _ _ => 0
  | .readByte _ _ => 0
  | .writeByte _ _ _ => 0
  | .scan => 0
  | .detectAndLog => 0

/-- What follows symbol number `k` of operation `i`: its next symbol or the next operation, the end of the link, the STOP of
NACK_ABORT (R147), or the recovery pass (R148). -/
def settleSymbol (i : Instr) (k : Nat) (r : Perform × State) : Result :=
  match r with
  | (.next, s) =>
    if k + 1 < symbolCount i then .next { s with point := .operation (k + 1) }
    else .next { s with seqPtr := s.seqPtr + linkSize i, point := .operation 0 }
  | (.done, s) => .next ({ s with seqPtr := s.seqPtr + linkSize i }.endLink .ok)
  | (.nack, s) => .next { s with point := .nackStop }
  | (.hang, s) => .next (takeTimeoutTrap s)
  | (.overrun, _) => .fault .readBufferOverrun

/-- Symbol number `k` of WRITE_BUFFER; none in an empty one. -/
def symbolOfWriteBuffer (data : List Byte) (k : Nat) (s : State) : Perform × State :=
  match data[k]? with
  | some b => sendByte b s
  | none => (.next, s)

/-- Symbol number `k` of READ_BUFFER; none in an empty one. -/
def symbolOfReadBuffer (len : Byte) (ln : Bool) (k : Nat) (s : State) : Perform × State :=
  if k < len.toNat then receiveByte (readAck ln (len.toNat - (k + 1))) s else (.next, s)

/-- Symbol number `k` of the link operation `i` is produced; the fetch gives no other instruction. -/
def symbolStep (i : Instr) (k : Nat) (s : State) : Result :=
  match i with
  | .start => inWalk s (settleSymbol i k (performStart s))
  | .writeAddressedByte b ackreq => inWalk s (inOpenFrame s (settleSymbol i k (performWriteAddressedByte b ackreq s)))
  | .writeBuffer data => inWalk s (inOpenFrame s (settleSymbol i k (symbolOfWriteBuffer data k s)))
  | .readBuffer len ln => inWalk s (inOpenFrame s (settleSymbol i k (symbolOfReadBuffer len ln k s)))
  | .stop => inWalk s (settleSymbol i k (performStop s))
  | .init _ _ _ _ => .refused .reservedHeader
  | .writeThenRead _ _ _ => .refused .reservedHeader
  | .readByte _ _ => .refused .reservedHeader
  | .writeByte _ _ _ => .refused .reservedHeader
  | .scan => .refused .reservedHeader
  | .detectAndLog => .refused .reservedHeader

/-- The STOP of NACK_ABORT (R147); if it hangs, the timeout decides (log 12). -/
def nackStopStep (s : State) : Result :=
  inWalk s (match phyStop s with
    | (.done, s) => .next (s.endLink .nack)
    | (.hang, s) => .next (takeTimeoutTrap s))

end Sys2Proof.Machine
end

