-- ==== Sys2Proof/Machine/Engine.lean ====
section
/-! DEFINITION. Machine/Engine.lean: the engine (00_scope R7): how a host operation begins under the lock (43_transactions R195),
the scanner's loop (44_scanner R210), the sequencer's fetch (41_command_link R141), the next move of an operation in
progress, and the run of an operation to its end. -/

namespace Sys2Proof.Machine

/-! ### The bodies of the host operations, up to the submission of their (first) link -/

/-- WRITE_THEN_READ's body up to EXECUTE (43_transactions R190). -/
def beginTransaction (a : Addr7) (data : List Byte) (rlen : Byte) (s : State) : State :=
  submitBuilt .selCb (buildTransaction a data rlen s)

/-- WRITE_THEN_READ (R190). -/
def beginWriteThenRead (a : Addr7) (data : List Byte) (rlen : Byte) (s : State) : State := beginTransaction a data rlen s

/-- READ_BYTE: WRITE_THEN_READ with `write_bytes = {register}` and one byte to read (R191). -/
def beginReadByte (a : Addr7) (reg : Byte) (s : State) : State := beginTransaction a [reg] 1 s

/-- WRITE_BYTE: WRITE_THEN_READ with `write_bytes = {register, value}` and nothing to read (R192). -/
def beginWriteByte (a : Addr7) (reg value : Byte) (s : State) : State := beginTransaction a [reg, value] 0 s

/-- One turn of the scanner's loop up to EXECUTE: the probe of SCAN_ADDR (44_scanner R210, R211). -/
def beginProbe (s : State) : State := submitBuilt .selSb (buildProbe (scanAddress s.scanAddr) s)

/-- The first lines of the scanner's body (R210): ASET cleared, SCAN_ADDR 0, the first probe. -/
def beginScanner (s : State) : State := beginProbe { s with aset := 0, scanAddr := 0 }

/-- SCAN (R210). -/
def beginScan (s : State) : State := beginScanner s

/-- DETECT_AND_LOG: the scan it performs (R215). -/
def beginDetectAndLog (s : State) : State := beginScanner s

/-- The body of a locked operation, up to the submission of its (first) link. -/
def beginBody (i : Instr) (s : State) : State :=
  match i with
  | .start => s
  | .writeAddressedByte _ _ => s
  | .writeBuffer _ => s
  | .readBuffer _ _ => s
  | .stop => s
  | .init _ _ _ _ => s
  | .writeThenRead a data rlen => beginWriteThenRead a data rlen s
  | .readByte a reg => beginReadByte a reg s
  | .writeByte a reg value => beginWriteByte a reg value s
  | .scan => beginScan s
  | .detectAndLog => beginDetectAndLog s

/-- LOCKED with the lock free (43_transactions R195): ACQUIRE; in FATAL the operation completes with ConfigurationFault at
once (60_exceptions R249), else its body begins. -/
def beginLocked (i : Instr) (s : State) : State :=
  let s1 := { s.acquire with service := some i }
  if s1.mode = .fatal then completeLocked i .configurationFault s1 else beginBody i s1

/-! ### The end of a link -/

/-- The status with which a probe ended: "present iff Ok"; Nack and a failed construction mean absent (44_scanner R212). -/
def recordProbe (st : Status) (s : State) : State :=
  if st = .ok then { s with aset := addMember s.aset (scanAddress s.scanAddr) } else s

/-- `SCAN_ADDR <- SCAN_ADDR + 1`, and the next probe, or the end of the scan after address 127 (R210). -/
def nextProbe (i : Instr) (s : State) : State :=
  let s1 := { s with scanAddr := s.scanAddr + 1 }
  if s1.scanAddr.toNat < Config.addrCount then beginProbe s1 else completeLocked i .ok s1

/-- A probe has ended: tear-down, and on with the scan, or out of it on Timeout and ConfigurationFault (R210, R213). -/
def endProbe (i : Instr) (st : Status) (s : State) : State :=
  let s1 := linkEnd .selSb s
  match st with
  | .ok => nextProbe i (recordProbe .ok s1)
  | .nack => nextProbe i (recordProbe .nack s1)
  | .noMemory => nextProbe i (recordProbe .noMemory s1)
  | .timeout => completeLocked i .timeout s1
  | .configurationFault => completeLocked i .configurationFault s1

/-- The link of the operation in service has ended with `st` (43_transactions R190: LINK_END on every path, then R195). -/
def endOfLink (st : Status) (s : State) : Result :=
  match s.service with
  | none => .fault .noOperation
  | some i =>
    if i.isScan then .next (endProbe i st s)
    else .next (completeLocked i st (linkEnd .selCb s))

/-! ### The sequencer -/

/-- The name under which a rejected encoding stops the machine. -/
def refusalOf : DecodeError → Refusal
  | .reservedHeader _ => .reservedHeader
  | .linkOverrun => .linkOverrun
  | .reservedRequest _ => .reservedRequest
  | .malformedRequest _ => .malformedRequest

/-- Fetch and decode the link operation at SEQ_PTR (41_command_link R141). -/
def fetchLinkOp (s : State) : Host.Outcome Instr Fault Refusal :=
  match s.linkAhead with
  | none => .fault .unwrittenByte
  | some bytes =>
    match decodeLink bytes with
    | .ok (i, _) => .next i
    | .error e => .refused (refusalOf e)

/-- What an operation in progress does next. -/
inductive Move where
  /-- An instruction is fetched; it runs in this state. -/
  | run (i : Instr) (s : State)
  /-- Everything else: the result of the move. -/
  | settled (o : Result)

/-- The next move of an operation in progress: tear-down once its link has a result; else what the engine stands in the
middle of goes on; else the end of a link that has no STOP (41_command_link R149), or the fetch of the next link operation. -/
def nextMove (s : State) : Move :=
  match s.linkResult with
  | some st => .settled (endOfLink st s)
  | none =>
    match s.point with
    | .nackStop => .settled (nackStopStep s)
    | .recovery c => .settled (recoveryStep c s)
    | .operation k =>
      if s.seqPtr = s.len s.seqSel then .settled (.next (s.endLink .ok))
      else
        match fetchLinkOp s with
        | .next i => if k = 0 then .run i s else .settled (symbolStep i k s)
        | .fault f => .settled (.fault f)
        | .refused r => .settled (.refused r)

/-- The sequencer's own dispatch over the five link operations; the fetch gives no other instruction. -/
def runLinkOp (i : Instr) (s : State) : Result :=
  match i with
  | .start => execStart s
  | .writeAddressedByte b ackreq => execWriteAddressedByte b ackreq s
  | .writeBuffer data => execWriteBuffer data s
  | .readBuffer len ln => execReadBuffer len ln s
  | .stop => execStop s
  | .init _ _ _ _ => .refused .reservedHeader
  | .writeThenRead _ _ _ => .refused .reservedHeader
  | .readByte _ _ => .refused .reservedHeader
  | .writeByte _ _ _ => .refused .reservedHeader
  | .scan => .refused .reservedHeader
  | .detectAndLog => .refused .reservedHeader

/-- One move of the operation in progress, a link operation at a time. -/
def smallStep (s : State) : Result :=
  match nextMove s with
  | .run i s => runLinkOp i s
  | .settled o => o

/-- Such moves until the operation has completed; at most `n` of them (70_reset R284; log 23). -/
def drive : Nat → State → Result
  | 0, s => if s.phase = .none then .next s else .fault .engineRanOut
  | n + 1, s => if s.phase = .none then .next s else andThen (smallStep s) (drive n)

/-- Enough moves for any operation: a helper has at most one for each byte of its link and two more; a scan has
128 probes of at most four each. -/
def driveBound (s : State) : Nat := s.cbLen + 520

/-! ### Host operations that take the lock -/

/-- The entry of LOCKED (43_transactions R195): refused before INIT (40_init R121); with the lock held the requester waits
among WAITERS (60_exceptions R244; log 18); with the lock free the operation begins. -/
def issueLocked (i : Instr) (s : State) : Result :=
  if s.mode = .uninit then .refused .beforeInit
  else if s.lock = .free then .next (beginLocked i s)
  else .next (s.enqueue s.cur)

/-- A locked operation, whole: it begins and runs to its completion. -/
def runLocked (i : Instr) (s : State) : Result :=
  if s.mode = .uninit then .refused .beforeInit
  else if s.lock = .free then drive (driveBound (beginLocked i s)) (beginLocked i s)
  else .next (s.enqueue s.cur)

end Sys2Proof.Machine
end

