-- ==== Sys2Proof/Machine/Init.lean ====
section
/-! DEFINITION. Machine/Init.lean: INIT (40_init R120 to R122). -/

namespace Sys2Proof.Machine

/-- Another requester has an operation outstanding, or an operation is in progress (40_init R121 (c)). -/
def State.othersOutstanding (s : State) : Bool :=
  s.lock != .free || s.ports.any fun p => p.1 != s.cur

/-- What a successful INIT writes (R120). -/
def initialised (port sda scl : Byte) (speed : Word32) (s : State) : State :=
  { s with
    cfg := ⟨port, sda, scl, speed⟩
    engineUp := true, sdaMode := .engine, sclMode := .engine
    lock := .free, waiters := []
    cbLen := 0, sbLen := 0, buildErr := false, rdLen := 0, inFrame := false
    mode := .ready }

/-- INIT (R120): speed 0 is rejected without a call; a failed configure call leaves the block as it was. -/
def execInit (port sda scl : Byte) (speed : Word32) (s : State) : Result :=
  if s.mode ≠ .uninit then .refused .initAgain
  else if s.othersOutstanding then .refused .initConcurrent
  else if speed = 0 then .next (completeInit .configurationFault s)
  else
    match hal (.engCfg port sda scl speed) .engCfg s with
    | (.fail, s1) => .next (completeInit .configurationFault s1)
    | (.ok, s1) => .next (completeInit .ok (initialised port sda scl speed s1))

end Sys2Proof.Machine
end

