-- ==== Sys2Proof/Machine/Scanner.lean ====
section
/-! DEFINITION. Machine/Scanner.lean: the address scanner (44_scanner R210 to R216), its two operations a definition each over the
common frame of 43_transactions R195. -/

namespace Sys2Proof.Machine

/-- SCAN (R210). -/
def execScan (s : State) : Result := runLocked .scan s

/-- DETECT_AND_LOG (R215): the scan, then the listing after the lock is released. -/
def execDetectAndLog (s : State) : Result := runLocked .detectAndLog s

end Sys2Proof.Machine
end

