-- ==== Sys2Proof/Machine/Transactions.lean ====
section
/-! DEFINITION. Machine/Transactions.lean: the transaction helpers (43_transactions R190 to R192), each a definition of its own
over the common frame of R195. -/

namespace Sys2Proof.Machine

/-- WRITE_THEN_READ (R190). -/
def execWriteThenRead (a : Addr7) (data : List Byte) (rlen : Byte) (s : State) : Result :=
  runLocked (.writeThenRead a data rlen) s

/-- READ_BYTE (R191). -/
def execReadByte (a : Addr7) (reg : Byte) (s : State) : Result := runLocked (.readByte a reg) s

/-- WRITE_BYTE (R192). -/
def execWriteByte (a : Addr7) (reg value : Byte) (s : State) : Result := runLocked (.writeByte a reg value) s

end Sys2Proof.Machine
end

