-- ==== Sys2Proof/Machine/Dispatch.lean ====
section
/-! DEFINITION. Machine/Dispatch.lean: one arm for each instruction. -/

namespace Sys2Proof.Machine

def exec (i : Instr) (s : State) : Host.Outcome State Fault Refusal :=
  match i with
  | .start => Sys2Proof.Machine.execStart s
  | .writeAddressedByte b ackreq => Sys2Proof.Machine.execWriteAddressedByte b ackreq s
  | .writeBuffer data => Sys2Proof.Machine.execWriteBuffer data s
  | .readBuffer len ln => Sys2Proof.Machine.execReadBuffer len ln s
  | .stop => Sys2Proof.Machine.execStop s
  | .init port sda scl speed => Sys2Proof.Machine.execInit port sda scl speed s
  | .writeThenRead a data rlen => Sys2Proof.Machine.execWriteThenRead a data rlen s
  | .readByte a reg => Sys2Proof.Machine.execReadByte a reg s
  | .writeByte a reg value => Sys2Proof.Machine.execWriteByte a reg value s
  | .scan => Sys2Proof.Machine.execScan s
  | .detectAndLog => Sys2Proof.Machine.execDetectAndLog s

end Sys2Proof.Machine
end

