-- ==== Sys2Proof/Machine/Fetch.lean ====
section
/-! DEFINITION. Machine/Fetch.lean: what a step does first: an input (a request presented, reset), or the engine's move: the
request or the link operation it fetches (00_scope R7; 40_init R121; 60_exceptions R244, R245). Also how a word is placed where
the next step fetches it. -/

namespace Sys2Proof.Machine

/-- What a step has to do. -/
inductive Fetched where
  /-- The instruction fetched, whole, and the state it runs in. -/
  | run (i : Instr) (s : State)
  /-- The first step of the instruction fetched (log 1). -/
  | begin (i : Instr) (s : State)
  /-- No instruction is fetched. -/
  | settled (o : Result)

/-- The instruction is a host operation that takes the lock. -/
def isLockedOp (r : Except DecodeError Instr) : Bool :=
  match r with
  | .ok i => i.isLocked
  | .error _ => false

/-- A requester presents a request (60_exceptions R244, R250). With the bus handle in existence a locked operation joins
WAITERS at once, the first line of ACQUIRE. -/
def present (r : Nat) (q : RawRequest) (s : State) : Result :=
  if s.params.nReq ≤ r then .refused .noSuchPort
  else if (Assoc.get s.ports r).isSome then .refused .portBusy
  else
    let s1 := { s with ports := Assoc.set s.ports r q }
    if s.mode ≠ .uninit ∧ isLockedOp (decodeRequest q) then .next (s1.enqueue r) else .next s1

/-- The reset input (70_reset R270; log 21): every element at its reset value, every outstanding operation dropped. The
parameters are no state, and the environment and the inputs to come are outside. -/
def State.afterReset (s : State) : State :=
  { State.reset with params := s.params, env := s.env, stimuli := s.stimuli }

/-- The request of requester `r` is fetched. -/
def fetchRequest (r : Nat) (q : RawRequest) (s : State) : Fetched :=
  match decodeRequest q with
  | .ok i => .run i { s with cur := r }
  | .error e => .settled (.refused (refusalOf e))

/-- A request that does not stand in line for the lock and is not being served: INIT, a reserved request, or a locked
operation presented before INIT (log 10). -/
def State.unbegun (s : State) : Option (Nat × RawRequest) :=
  s.ports.find? fun p => !s.waiters.contains p.1 && s.lock != .held p.1

/-- The free lock is granted to the waiter the arbiter picks (60_exceptions R244, R245); with no waiter the engine is idle. -/
def grant (s : State) : Fetched :=
  match s.lock with
  | .held _ => .settled (.next s)
  | .free =>
    match Waiters.pick s.waiters s.env.nextPick with
    | none => .settled (.next s)
    | some r =>
      match Assoc.get s.ports r with
      | none => .settled (.fault .noOperation)
      | some q => fetchRequest r q { s with env := s.env.dropPick }

/-- The engine's move: a request that does not wait for the lock first; then the operation in progress; then a grant. -/
def engineMove (s : State) : Fetched :=
  match s.unbegun with
  | some (r, q) => fetchRequest r q s
  | none =>
    if s.phase = .none then grant s
    else
      match nextMove s with
      | .run i s => .run i s
      | .settled o => .settled o

/-- One step of 00_scope R3: of the instruction fetched only the first step is taken, unless it has no more (INIT's one
call). -/
def onlyBegin (f : Fetched) : Fetched :=
  match f with
  | .run i s => if i.isLocked || i.isLink then .begin i s else .run i s
  | .begin i s => .begin i s
  | .settled o => .settled o

/-- The first step of an instruction: a locked operation begins under the lock, a link operation produces its first symbol. -/
def firstStep (i : Instr) (s : State) : Result := if i.isLocked then issueLocked i s else symbolStep i 0 s

/-- What the next step does: the first input, or with no input left a step of the engine (00_scope R3); with `engine` the
whole instruction the engine stands before. -/
def fetch (s : State) : Fetched :=
  match s.stimuli with
  | [] => onlyBegin (engineMove s)
  | .tick :: rest => onlyBegin (engineMove { s with stimuli := rest })
  | .engine :: rest => engineMove { s with stimuli := rest }
  | .present r q :: rest => .settled (present r q { s with stimuli := rest })
  | .reset :: rest => .settled (.next { s with stimuli := rest }.afterReset)

/-! ### Placing an instruction where the next step fetches it (log 15) -/

/-- Answers with which nothing hangs, nothing is rejected and nothing fails, laid down before the tapes: enough for one
instruction. -/
def Env.willing (e : Env) : Env :=
  { e with
    starts := e.starts.lay (List.replicate 128 .done)
    writes := e.writes.lay (List.replicate 257 .ack)
    reads := e.reads.lay (List.replicate 255 (.byte 0))
    stops := e.stops.lay (List.replicate 128 .done)
    hals := e.hals.lay [.ok]
    picks := e.picks.lay [0]
    bytes := e.bytes.lay (List.replicate 255 0) }

/-- A bus handle, as `INIT 0, 21, 22, 100000` leaves one (95_test_vectors section 3), where there is none. -/
def State.withHandle (s : State) : State :=
  if s.mode = .uninit then
    { s with mode := .ready, cfg := ⟨0, 21, 22, 100000⟩, engineUp := true, sdaMode := .engine, sclMode := .engine }
  else s

/-- The request stands alone at port 0, the lock is free. -/
def placeRequest (q : RawRequest) (s : State) : State :=
  let locked := isLockedOp (decodeRequest q)
  let s1 := if locked then s.withHandle else s
  { s1 with
    ports := [(0, q)]
    waiters := if locked then [0] else []
    lock := .free, phase := .none, service := none, linkResult := none, point := .operation 0
    stimuli := .engine :: s.stimuli
    env := s.env.willing }

/-- The request that is in service while a placed link operation runs: `WRITE_THEN_READ 0, [], 0`. -/
def placedService : Instr := .writeThenRead 0 [] 0

/-- The operation stands at SEQ_PTR = 0 of a link in CB that EXECUTE is walking; IN_FRAME = 1 for all but START, and the
read buffer is empty and large enough. -/
def placeLinkOp (bytes : List Byte) (s : State) : State :=
  let n := match decodeLink bytes with
    | .ok (i, _) => linkSize i
    | .error _ => bytes.length
  let open1 := match decodeLink bytes with
    | .ok (i, _) => i != .start
    | .error _ => false
  let s1 := s.withHandle
  { s1 with
    params := { s.params with cmdCapacity := max s.params.cmdCapacity n, rdCapacity := 255 }
    ports := [(0, ⟨wordWriteThenRead 0 0 0, [], []⟩)]
    waiters := []
    lock := .held 0, phase := .exec, service := some placedService, linkResult := none
    point := .operation 0, mode := .ready, engineUp := true, buildErr := false
    cb := Memory.writeRange [] 0 (bytes.take n), cbLen := n
    seqSel := .selCb, seqPtr := 0, inFrame := open1, tmoArmed := true, tmoMs := Config.timeoutMs
    rdLen := 0
    stimuli := .engine :: s.stimuli
    env := s.env.willing }

/-- `s` with the instruction whose bits are `w` where the next step fetches. -/
def placeWord (nbits w : Nat) (s : State) : State :=
  let bits := w % 2 ^ nbits
  if bitsAreLink nbits then placeLinkOp (linkBytesOfBits bits) s else placeRequest (requestOfBits bits) s

end Sys2Proof.Machine
end

