-- ==== Sys2Proof/Machine/Step.lean ====
section
/-! DEFINITION. Machine/Step.lean: one step of the machine. -/

namespace Sys2Proof.Machine

/-- What was fetched is done: the instruction is executed by `exec`, or its first step is taken, or there is nothing to
execute. -/
def perform (f : Fetched) : Result :=
  match f with
  | .run i s => exec i s
  | .begin i s => firstStep i s
  | .settled o => o

/-- One step. -/
def step (s : State) : Host.Outcome State Fault Refusal := perform (fetch s)

/-- `s` with the instruction whose bits are `w`, numbered as spec/opcode_table.json numbers them, where `step` fetches next. -/
def State.withFetchWord (s : State) (nbits w : Nat) : State := placeWord nbits w s

end Sys2Proof.Machine
end

