-- ==== Sys2Proof/Safety.lean ====
section
/-! DEFINITION. Safety.lean: the terms claims are stated in: what a safe state and the end of a run are, the shape of a link,
the invariant of 10_state R37 with what makes it inductive, what the caller owes, and the reference slave of
95_test_vectors section 4. -/

namespace Sys2Proof.Machine

/-! ### Safe states and the end of a run -/

/-- FATAL is the fault state, "never a good final state" (60_exceptions R249). -/
abbrev State.Safe (s : State) : Prop := s.mode ≠ .fatal

/-- A run is ended (70_reset R285): nobody has an operation outstanding. -/
abbrev State.Ended (s : State) : Prop := s.ports = [] ∧ s.lock = .free ∧ s.phase = .none

/-- A run has ended well (R285). -/
abbrev State.EndedWell (s : State) : Prop := s.Ended ∧ s.mode = .ready

/-! ### The shape of a link -/

/-- "the first operation is START; the last operation is STOP and no other operation is STOP" (30_encoding R96). -/
def linkShape (ops : List Instr) : Bool :=
  ops.head? == some .start && ops.getLast? == some .stop && !(ops.dropLast.contains .stop)

/-- A link is well formed (R96): operations of R94 wholly inside it, in the shape above. -/
def wellFormedLink (bytes : List Byte) : Bool :=
  match decodeLinkOps bytes.length bytes with
  | .ok ops => linkShape ops
  | .error _ => false

/-- What is left of a link can be walked to its STOP: data operations inside the frame, reads that fit in `room` bytes. -/
def tailOk : Bool → Nat → List Instr → Bool
  | _, _, [] => false
  | _, _, .stop :: rest => rest.isEmpty
  | _, room, .start :: rest => tailOk true room rest
  | inFrame, room, .writeAddressedByte _ _ :: rest => inFrame && tailOk inFrame room rest
  | inFrame, room, .writeBuffer _ :: rest => inFrame && tailOk inFrame room rest
  | inFrame, room, .readBuffer n _ :: rest => inFrame && decide (n.toNat ≤ room) && tailOk inFrame (room - n.toNat) rest
  | _, _, .init _ _ _ _ :: _ => false
  | _, _, .writeThenRead _ _ _ :: _ => false
  | _, _, .readByte _ _ :: _ => false
  | _, _, .writeByte _ _ _ :: _ => false
  | _, _, .scan :: _ => false
  | _, _, .detectAndLog :: _ => false

/-- The same with `k` symbols of the first operation already produced: there is another one to produce. -/
def tailOkFrom (k : Nat) (inFrame : Bool) (room : Nat) (ops : List Instr) : Bool :=
  match ops with
  | [] => false
  | i :: rest =>
    (k == 0 || decide (k < symbolCount i)) &&
      tailOk inFrame (match i with | .readBuffer _ _ => room + k | _ => room) (i :: rest)

/-- The link being walked, from symbol `k` of the operation at SEQ_PTR on, can be walked to its STOP. -/
def State.linkOk (s : State) (k : Nat) : Bool :=
  match s.linkAhead with
  | none => false
  | some bytes =>
    match decodeLinkOps bytes.length bytes with
    | .ok ops => tailOkFrom k s.inFrame (s.params.rdCapacity - s.rdLen) ops
    | .error _ => false

/-! ### The invariant -/

/-- The buffers, the set WAITERS and the ports are in their canonical forms, and every waiter has a request outstanding. -/
abbrev State.Canonical (s : State) : Prop :=
  Memory.wf s.cb ∧ Memory.wf s.sb ∧ Memory.wf s.rdata ∧ Assoc.wf s.ports ∧ Waiters.wf s.waiters ∧
    ∀ r ∈ s.waiters, (Assoc.get s.ports r).isSome

/-- I-a of 10_state R37: "`PHASE != NONE` iff `LOCK = held(r)`". The model's `service` goes with them, and the holder's
request is outstanding and waits no longer (60_exceptions R244). -/
abbrev State.LockPhase (s : State) : Prop :=
  (s.phase ≠ .none ↔ s.lock ≠ .free) ∧ (s.service.isSome ↔ s.lock ≠ .free) ∧
    (s.lock ≠ .free →
      s.mode ≠ .uninit ∧ s.requester ∉ s.waiters ∧ (Assoc.get s.ports s.requester).isSome)

/-- I-b of R37, and the ranges of the counters (10_state R20). -/
abbrev State.Lengths (s : State) : Prop :=
  s.cbLen ≤ s.params.cmdCapacity ∧ s.sbLen ≤ s.params.scanCapacity ∧ s.rdLen ≤ s.params.rdCapacity ∧
    s.scanAddr.toNat ≤ 128 ∧ s.toggleCnt.toNat ≤ 32

/-- I-c of R37: what holds while the lock is free. -/
abbrev State.Idle (s : State) : Prop :=
  s.lock = .free →
    s.cbLen = 0 ∧ s.sbLen = 0 ∧ s.buildErr = false ∧ s.inFrame = false ∧ s.tmoArmed = false ∧ s.linkResult = none ∧
      s.point = .operation 0

/-- The engine owns its pins (10_state R30). -/
abbrev State.EngineOwnsPins (s : State) : Prop := s.engineUp = true ∧ s.sdaMode = .engine ∧ s.sclMode = .engine

/-- The pins while a recovery pass toggles the clock line (R30). -/
abbrev State.TogglesClock (s : State) : Prop := s.engineUp = false ∧ s.sdaMode = .gpioIn ∧ s.sclMode = .gpioOut

/-- A recovery pass is under way. -/
def State.inRecovery (s : State) : Bool :=
  match s.point with
  | .operation _ => false
  | .nackStop => false
  | .recovery _ => true

/-- The engine owns its pins in READY: I-c of R37, and at every step of an operation too but inside a recovery pass
(42_recovery R175). -/
abbrev State.EngineReady (s : State) : Prop := s.mode = .ready → s.inRecovery = false → s.EngineOwnsPins

/-- I-e of R37; and without a bus handle nobody waits for the lock. -/
abbrev State.Uninitialised (s : State) : Prop :=
  s.mode = .uninit → s.engineUp = false ∧ s.waiters = [] ∧ ∀ e ∈ s.wire, e.isSymbol = false

/-- I-f of R37. -/
abbrev State.SpeedSet (s : State) : Prop := s.mode ≠ .uninit → s.cfg.speedHz ≠ 0

/-- A recovery pass before each of its calls (42_recovery R171): who drives the pins (10_state R30) and how many toggles are
done (R29). -/
def State.recoveryOk (s : State) (c : RecoveryCall) : Bool :=
  match c with
  | .tearDown => decide (s.EngineOwnsPins ∧ s.toggleCnt = 0)
  | .dataLine => decide (s.engineUp = false ∧ s.sdaMode = .unconf ∧ s.sclMode = .unconf ∧ s.toggleCnt = 0)
  | .clockLine => decide (s.engineUp = false ∧ s.sdaMode = .gpioIn ∧ s.sclMode = .unconf ∧ s.toggleCnt = 0)
  | .clockLow => decide (s.TogglesClock ∧ s.toggleCnt.toNat < 32)
  | .holdLow => decide (s.TogglesClock ∧ s.toggleCnt.toNat < 32 ∧ s.sclLevel = false)
  | .clockHigh => decide (s.TogglesClock ∧ s.toggleCnt.toNat < 32 ∧ s.sclLevel = false)
  | .holdHigh => decide (s.TogglesClock ∧ s.toggleCnt.toNat < 32 ∧ s.sclLevel = true)
  | .configure => decide (s.TogglesClock ∧ s.toggleCnt = 32 ∧ s.sclLevel = true)

/-- The walk of a link between two steps (00_scope R3): the rest of the link can be walked; or a rejected byte waits for its
STOP; or a recovery pass is under way, with no frame open and no watchdog armed (60_exceptions R238, R240). -/
def State.pointOk (s : State) : Bool :=
  match s.point with
  | .operation k => decide (s.phase = .exec ∧ s.tmoArmed = true) && s.linkOk k
  | .nackStop => decide (s.phase = .exec ∧ s.tmoArmed = true)
  | .recovery c => decide (s.phase = .recover ∧ s.tmoArmed = false ∧ s.inFrame = false) && s.recoveryOk c

/-- An operation in progress, between two steps. -/
abbrev State.Working (s : State) : Prop :=
  s.lock ≠ .free →
    (s.linkResult = none → s.mode = .ready ∧ s.buildErr = false ∧ s.pointOk = true) ∧
    (s.linkResult ≠ none → s.inFrame = false ∧ s.tmoArmed = false ∧ s.point = .operation 0) ∧
    (s.mode = .fatal ↔ s.linkResult = some .configurationFault) ∧
    ∀ i, s.service = some i →
      i.isLocked = true ∧
      (i.isScan = true → s.cbLen = 0 ∧ s.scanAddr.toNat < 128 ∧ (s.linkResult = none → s.seqSel = .selSb)) ∧
      (i.isScan = false → s.sbLen = 0 ∧ (s.linkResult = none → s.seqSel = .selCb))

/-- The invariant: 10_state R37, with what makes it inductive. -/
abbrev State.Inv (s : State) : Prop :=
  s.Canonical ∧ s.LockPhase ∧ s.Lengths ∧ s.Idle ∧ s.EngineReady ∧ s.Uninitialised ∧ s.SpeedSet ∧ s.Working

/-! ### Terms of the statements -/

/-- The state in which a locked operation is served (60_exceptions R241; 41_command_link R140's `ENGINE_UP = 1`). -/
abbrev State.CanServe (s : State) : Prop := s.mode = .ready ∧ s.lock = .free ∧ s.engineUp = true

/-- The events of a recovery pass that does not fail, in order (42_recovery R171). -/
def recoveryEvents (c : Cfg) : List Event :=
  [.engDown, .dir c.sdaPin .input, .dir c.sclPin .output]
    ++ (List.replicate 32
        [.lvl c.sclPin false, .dly (halfPeriod c.speedHz), .lvl c.sclPin true, .dly (halfPeriod c.speedHz)]).flatten
    ++ [.engCfg c.port c.sdaPin c.sclPin c.speedHz]

/-- The fallible call an event records (R171). -/
def Event.halCall : Event → Option HalCall
  | .s => none
  | .sr => none
  | .w _ _ => none
  | .r _ _ => none
  | .p => none
  | .tmo => none
  | .engCfg _ _ _ _ => some .engCfg
  | .engDown => some .engDown
  | .dir _ _ => some .dir
  | .lvl _ _ => some .lvl
  | .dly _ => none
  | .log _ => none
  | .fail _ => none

/-- The events of a recovery pass whose call number `k` fails: all up to that call, and its FAIL (42_recovery R173). -/
def FailedPass (c : Cfg) (k : Nat) (es : List Event) : Prop :=
  ∃ pre e call, pre ++ [e] <+: recoveryEvents c ∧ e.halCall = some call ∧ (pre.filterMap Event.halCall).length = k ∧
    es = pre ++ [e, .fail call]

/-- The events of a READ_BUFFER that reads these bytes (41_command_link R145). -/
def readTrace (ln : Bool) : List Byte → List Event
  | [] => []
  | v :: vs => .r v (readAck ln vs.length) :: readTrace ln vs

/-- The trace of a transaction in which everything is acknowledged and the slave sends `vs` (43_transactions R190). -/
def transactionTrace (a : Addr7) (data vs : List Byte) : List Event :=
  [.s, .w (addressByte a .write) .ack] ++ data.map (.w · .ack)
    ++ (if vs = [] then [] else [.sr, .w (addressByte a .read) .ack] ++ readTrace true vs) ++ [.p]

/-- The frame of a probe (44_scanner R212). -/
def probeFrame (a : Addr7) (x : Ack) : List Event := [.s, .w (addressByte a .write) x, .p]

/-- The frames of the probes of addresses `a`, `a + 1`, … -/
def probeFrames (a : Nat) : List Ack → List Event
  | [] => []
  | x :: xs => probeFrame (BitVec.ofNat 7 a) x ++ probeFrames (a + 1) xs

/-- What the block itself decides of an event: a symbol without the slave's part, its acknowledge bit or the byte it sends. -/
def Event.outline : Event → Event
  | .s => .s
  | .sr => .sr
  | .w b _ => .w b .ack
  | .r _ m => .r 0 m
  | .p => .p
  | .tmo => .tmo
  | .engCfg port sda scl speed => .engCfg port sda scl speed
  | .engDown => .engDown
  | .dir pin d => .dir pin d
  | .lvl pin level => .lvl pin level
  | .dly n => .dly n
  | .log a => .log a
  | .fail call => .fail call

/-- The outlines of the symbols an operation spells, in order (41_command_link R142 to R146, 20_memory R71). -/
def opSymbols (inFrame : Bool) : Instr → List Event
  | .start => [if inFrame then .sr else .s]
  | .writeAddressedByte b _ => [.w b .ack]
  | .writeBuffer data => data.map (.w · .ack)
  | .readBuffer len ln => readTrace ln (List.replicate len.toNat 0)
  | .stop => [.p]
  | .init _ _ _ _ => []
  | .writeThenRead _ _ _ => []
  | .readByte _ _ => []
  | .writeByte _ _ _ => []
  | .scan => []
  | .detectAndLog => []

/-- The outlines of the symbols of one pass over a link, in link order (R151, 20_memory R71). -/
def linkSymbols : Bool → List Instr → List Event
  | _, [] => []
  | inFrame, i :: rest =>
    opSymbols inFrame i ++ linkSymbols (if i = .start then true else if i = .stop then false else inFrame) rest

/-- The operations of the link of a transaction helper (43_transactions R190 to R192). -/
def helperOps : Instr → List Instr
  | .start => []
  | .writeAddressedByte _ _ => []
  | .writeBuffer _ => []
  | .readBuffer _ _ => []
  | .stop => []
  | .init _ _ _ _ => []
  | .writeThenRead a data rlen => transactionOps a data rlen
  | .readByte a reg => transactionOps a [reg] 1
  | .writeByte a reg value => transactionOps a [reg, value] 0
  | .scan => []
  | .detectAndLog => []

/-- No written byte among these events was rejected. -/
def AllAcknowledged (es : List Event) : Prop := ∀ b, Event.w b .nack ∉ es

/-- Of the written bytes among these events the last event was rejected, and no other. -/
def RejectedAtLast (es : List Event) : Prop := ∃ pre b, es = pre ++ [.w b .nack] ∧ AllAcknowledged pre

/-- What the wire can show of a probe that is cut short (44_scanner R212: "`S`-prefix of the probe"). -/
def probePrefixes (a : Addr7) : List (List Event) :=
  [[], [.s], [.s, .w (addressByte a .write) .ack], [.s, .w (addressByte a .write) .nack]]

/-- The form of the response to an operation, whatever its status (30_encoding R98); `set` is the set a scan delivers. -/
def ResponseForm (i : Instr) (set : AddrSet) (x : Response) : Prop :=
  match i with
  | .start => False
  | .writeAddressedByte _ _ => False
  | .writeBuffer _ => False
  | .readBuffer _ _ => False
  | .stop => False
  | .init _ _ _ _ => x = .status x.st
  | .writeThenRead _ _ rlen => ∃ data : List Byte, data.length = rlen.toNat ∧ x = .bytes x.st data
  | .readByte _ _ => ∃ v, x = .byte x.st v
  | .writeByte _ _ _ => x = .status x.st
  | .scan => x = .addressSet x.st set
  | .detectAndLog => x = .status x.st

/-- The next step is one of the steps of 00_scope R3: there is no input left, or a `tick` is next; `rest` are the inputs after
it. -/
abbrev State.OneStep (s : State) (rest : List Stimulus) : Prop :=
  (s.stimuli = [] ∧ rest = []) ∨ s.stimuli = .tick :: rest

/-- The sequencer stands before symbol `k` of operation `i`, and nothing else is to be served first. -/
abbrev State.BeforeSymbol (s : State) (i : Instr) (k : Nat) : Prop :=
  s.unbegun = none ∧ s.walking = true ∧ s.point = .operation k ∧ ∃ more, s.linkAhead = some (linkBytes i ++ more)

/-- The recovery controller stands before call `c`, and nothing else is to be served first. -/
abbrev State.BeforeCall (s : State) (c : RecoveryCall) : Prop :=
  s.unbegun = none ∧ s.phase = .recover ∧ s.lock ≠ .free ∧ s.linkResult = none ∧ s.point = .recovery c

/-- The event of a call of the recovery pass (42_recovery R171). -/
def recoveryEvent (c : Cfg) : RecoveryCall → Event
  | .tearDown => .engDown
  | .dataLine => .dir c.sdaPin .input
  | .clockLine => .dir c.sclPin .output
  | .clockLow => .lvl c.sclPin false
  | .holdLow => .dly (halfPeriod c.speedHz)
  | .clockHigh => .lvl c.sclPin true
  | .holdHigh => .dly (halfPeriod c.speedHz)
  | .configure => .engCfg c.port c.sdaPin c.sclPin c.speedHz

/-- The environment's answer that gives an acknowledge bit. -/
def Ack.answer : Ack → WriteAnswer
  | .ack => .ack
  | .nack => .nack

/-! ### What the caller owes -/

/-- The refusals that a requester's own breach of its duties causes (40_init R121, 30_encoding R99, 60_exceptions R250). -/
def Refusal.isCallers (r : Refusal) : Bool :=
  [.reservedRequest, .malformedRequest, .beforeInit, .initAgain, .initConcurrent, .portBusy, .noSuchPort].contains r

/-! ### The reference slave -/

/-- A slave that stores bytes under register numbers (95_test_vectors section 4). A register nothing has stored to reads 0:
the fixture's "register file all zero". `addressed` says which phase it is addressed for. -/
structure RefSlave where
  address : Addr7
  mem : List (Nat × Byte)
  ptr : Byte
  first : Bool
  addressed : Option Intent
  /-- The next written byte is an address byte. -/
  expectAddress : Bool
deriving DecidableEq, Repr

/-- The byte the slave sends next. -/
def RefSlave.sends (v : RefSlave) : Byte := (Assoc.get v.mem v.ptr.toNat).getD 0

/-- The slave hears one event of the bus (95_test_vectors section 4). -/
def RefSlave.hear (v : RefSlave) (e : Event) : RefSlave :=
  match e with
  | .s => { v with expectAddress := true, addressed := none }
  | .sr => { v with expectAddress := true, addressed := none }
  | .w b _ =>
    if v.expectAddress then
      if b = addressByte v.address .write then
        { v with expectAddress := false, addressed := some .write, first := true }
      else if b = addressByte v.address .read then { v with expectAddress := false, addressed := some .read }
      else { v with expectAddress := false }
    else if v.addressed = some .write then
      if v.first then { v with ptr := b, first := false }
      else { v with mem := Assoc.set v.mem v.ptr.toNat b, ptr := v.ptr + 1 }
    else v
  | .r _ _ => if v.addressed = some .read then { v with ptr := v.ptr + 1 } else v
  | .p => { v with addressed := none, expectAddress := false }
  | .tmo => v
  | .engCfg _ _ _ _ => v
  | .engDown => v
  | .dir _ _ => v
  | .lvl _ _ => v
  | .dly _ => v
  | .log _ => v
  | .fail _ => v

/-- The slave hears a whole history. -/
def RefSlave.hears (v : RefSlave) (es : List Event) : RefSlave := es.foldl RefSlave.hear v

end Sys2Proof.Machine
end

