-- ==== Sys2Proof/Certificates/Slice0/Obligations.lean ====
section
/-! DEFINITION. Certificates/Slice0/Obligations.lean: the statements for the provers. -/

open Sys2Proof Sys2Proof.Machine

/-! ### Reset -/

/-- 10_state R36: the reset values the spec gives. -/
def Obligations.ResetValues : Prop :=
  State.reset.mode = .uninit ∧ State.reset.phase = .none ∧ State.reset.lock = .free ∧ State.reset.waiters = [] ∧
  State.reset.cbLen = 0 ∧ State.reset.buildErr = false ∧ State.reset.sbLen = 0 ∧ State.reset.seqSel = .selCb ∧
  State.reset.seqPtr = 0 ∧ State.reset.inFrame = false ∧ State.reset.rdLen = 0 ∧ State.reset.aset = 0 ∧
  State.reset.scanAddr = 0 ∧ State.reset.toggleCnt = 0 ∧ State.reset.engineUp = false ∧
  State.reset.sdaMode = .unconf ∧ State.reset.sclMode = .unconf ∧ State.reset.tmoArmed = false ∧ State.reset.wire = []

/-- 70_reset R270, R271: the reset input, in whatever state, gives every element its reset value and drops every outstanding
operation without a response; nothing of the state before it survives but what is not the block's: the parameters, the
environment and the inputs to come (log 21; for what R36 calls unspecified the reset value is log 4's). -/
def Obligations.ResetInputDropsEverything : Prop :=
  ∀ (s : State) (rest : List Stimulus), s.stimuli = .reset :: rest →
    step s = .next { State.reset with params := s.params, env := s.env, stimuli := rest }

/-! ### The invariant -/

/-- The invariant of 10_state R37 holds at reset. -/
def Obligations.ResetMeetsInvariant : Prop := State.reset.Inv

/-- Every step keeps the invariant of 10_state R37, from every state that meets it. -/
def Obligations.StepKeepsInvariant : Prop := ∀ s t : State, s.Inv → step s = .next t → t.Inv

/-- From a state that meets the invariant a step never faults, and it is refused only for a breach of the caller's duties:
no refusal of the sequencer can be reached, whatever the environment answers. -/
def Obligations.OnlyCallersAreRefused : Prop :=
  ∀ s : State, s.Inv → (∀ f, step s ≠ .fault f) ∧ ∀ r, step s = .refused r → r.isCallers = true

/-! ### Encodings -/

/-- Decoding the encoding of a well-formed instruction gives it back, for every instruction and every operand. -/
def Obligations.DecodeOfEncode : Prop := ∀ i : Instr, i.WellFormed → decode (encode i) = .ok i

/-- An encoded form that decodes is the encoding of what it decodes to: no two forms mean one instruction. -/
def Obligations.EncodeOfDecode : Prop := ∀ (c : Code) (i : Instr), decode c = .ok i → encode i = c

/-- The link operations that the spec writes out as bytes, and the requests that 95_test_vectors section 2.2 writes out as
words, decode to the instructions they stand for. -/
def Obligations.SpecWordsDecode : Prop :=
  decodeLink [0x21, 0xD6, 0x30] = .ok (.writeAddressedByte 0xD6 true, [0x30]) ∧
  decodeLink [0x30, 0x02, 0x20, 0x57, 0x50] = .ok (.writeBuffer [0x20, 0x57], [0x50]) ∧
  decodeLink [0x41, 0x03, 0x50] = .ok (.readBuffer 3 true, [0x50]) ∧
  decodeLink [0x10, 0x21] = .ok (.start, [0x21]) ∧ decodeLink [0x50] = .ok (.stop, []) ∧
  decodeRequest ⟨0x2002A2C0, [0x00061A80], []⟩ = .ok (.init 0 21 22 400000) ∧
  decodeRequest ⟨0x5D8040C0, [], [0xF7]⟩ = .ok (.writeThenRead 0x76 [0xF7] 3) ∧
  decodeRequest ⟨0x7AC2C000, [], []⟩ = .ok (.readByte 0x6B 0x0B) ∧
  decodeRequest ⟨0x860815C0, [], []⟩ = .ok (.writeByte 0x18 0x20 0x57) ∧
  decodeRequest ⟨0xA0000000, [], []⟩ = .ok .scan ∧ decodeRequest ⟨0xC0000000, [], []⟩ = .ok .detectAndLog

/-- 30_encoding R95: a header is reserved exactly when its operation code is no code of R91, or a bit of 3:1 is set, or the
flag is set where the operation has none; then the fetch is rejected as reserved, whatever follows. -/
def Obligations.ReservedHeadersRejected : Prop :=
  ∀ (h : Byte) (rest : List Byte),
    decodeLink (h :: rest) = .error (.reservedHeader h) ↔
      (h.extractLsb' 4 4 = 0 ∨ 6 ≤ (h.extractLsb' 4 4).toNat) ∨ h.extractLsb' 1 3 ≠ 0 ∨
        h = 0x11 ∨ h = 0x31 ∨ h = 0x51

/-- 30_encoding R97, R99: a request is reserved exactly when its OP is 0b000 or 0b111 or a reserved bit of its format is
set. -/
def Obligations.ReservedRequestsRejected : Prop :=
  ∀ q : RawRequest,
    decodeRequest q = .error (.reservedRequest q.word) ↔
      q.word.extractLsb' 29 3 = 0 ∨ q.word.extractLsb' 29 3 = 7 ∨
      (q.word.extractLsb' 29 3 = 1 ∧ q.word.extractLsb' 0 5 ≠ 0) ∨
      (q.word.extractLsb' 29 3 = 2 ∧ q.word.extractLsb' 0 6 ≠ 0) ∨
      (q.word.extractLsb' 29 3 = 3 ∧ q.word.extractLsb' 0 14 ≠ 0) ∨
      (q.word.extractLsb' 29 3 = 4 ∧ q.word.extractLsb' 0 6 ≠ 0) ∨
      (q.word.extractLsb' 29 3 = 5 ∧ q.word.extractLsb' 0 29 ≠ 0) ∨
      (q.word.extractLsb' 29 3 = 6 ∧ q.word.extractLsb' 0 29 ≠ 0)

/-- 20_memory R61 and 30_encoding R100: the address byte as a number, and the status codes. -/
def Obligations.AddressBytesAndStatusCodes : Prop :=
  (∀ a : Addr7, (addressByte a .write).toNat = 2 * a.toNat ∧ (addressByte a .read).toNat = 2 * a.toNat + 1) ∧
  Status.ok.code = 0 ∧ Status.nack.code = 1 ∧ Status.timeout.code = 2 ∧ Status.noMemory.code = 3 ∧
  Status.configurationFault.code = 4

/-- 42_recovery R172: the half-period is the integer quotient, in 0..1000000, for every speed but 0. -/
def Obligations.HalfPeriodIsTheQuotient : Prop :=
  ∀ v : Word32, v ≠ 0 → (halfPeriod v).toNat = 1000000 / v.toNat ∧ (halfPeriod v).toNat ≤ 1000000

/-! ### The builder -/

/-- 41_command_link R131: APPEND. After a failure it does nothing; an append that does not fit sets BUILD_ERR and writes
nothing; one that fits, an exact fill included, stores its bytes in order from LEN on, leaves every other byte of the buffer
as it was, advances LEN, and changes nothing else: no event, no call. -/
def Obligations.AppendFollowsItsRule : Prop :=
  ∀ (sel : Sel) (bytes : List Byte) (s : State),
    (s.buildErr = true → append sel bytes s = s) ∧
    (s.buildErr = false → s.cap sel < s.len sel + bytes.length → append sel bytes s = { s with buildErr := true }) ∧
    (s.buildErr = false → s.len sel + bytes.length ≤ s.cap sel →
      ∃ m : Memory,
        append sel bytes s = (s.setBuf sel m).setLen sel (s.len sel + bytes.length) ∧
        (∀ k, k < bytes.length → Memory.read m (s.len sel + k) = bytes[k]?) ∧
        ∀ x, x < s.len sel ∨ s.len sel + bytes.length ≤ x → Memory.read m x = Memory.read (s.buf sel) x)

/-- 41_command_link R132 to R136: the builder steps are appends of the bytes these rules write out; a read longer than
RD_CAPACITY fails the construction instead. -/
def Obligations.BuilderStepsAppendTheirBytes : Prop :=
  ∀ (sel : Sel) (s : State) (b n : Byte) (d : List Byte),
    appendStart sel s = append sel [0x10] s ∧
    appendWab sel b true s = append sel [0x21, b] s ∧ appendWab sel b false s = append sel [0x20, b] s ∧
    appendWbuf sel d s = append sel (0x30 :: BitVec.ofNat 8 d.length :: d) s ∧
    (s.buildErr = true → ∀ ln, appendRbuf sel n ln s = s) ∧
    (s.buildErr = false → s.params.rdCapacity < n.toNat → ∀ ln, appendRbuf sel n ln s = { s with buildErr := true }) ∧
    (n.toNat ≤ s.params.rdCapacity →
      appendRbuf sel n true s = append sel [0x41, n] s ∧ appendRbuf sel n false s = append sel [0x40, n] s) ∧
    appendStop sel s = append sel [0x50] s

/-! ### The link operations -/

/-- 41_command_link R142: START on an idle bus and as a repeated START writes nothing else; if it hangs, the timeout abort
(R148) follows. -/
def Obligations.StartCompletes : Prop :=
  ∀ s : State, s.executing = true →
    (s.env.nextStart = .done →
      exec .start s = .next { s with
        env := s.env.dropStart, wire := s.wire ++ [if s.inFrame then .sr else .s], inFrame := true,
        seqPtr := s.seqPtr + 1 }) ∧
    (s.env.nextStart = .hang → exec .start s = .next (timeoutAbort { s with env := s.env.dropStart }))

/-- 41_command_link R143: WRITE_ADDRESSED_BYTE in an open frame with the byte acknowledged, or not acknowledged and
ACKREQ = 0, writes nothing else; a NACK with ACKREQ = 1 leads to the NACK abort (R147), a hang to the timeout abort (R148);
outside a frame the operation is refused. -/
def Obligations.WriteAddressedByteCompletes : Prop :=
  ∀ (s : State) (b : Byte) (ackreq : Bool), s.executing = true →
    (s.inFrame = true →
      (∀ a : Ack, s.env.nextWrite = a.answer → a = .ack ∨ ackreq = false →
        exec (.writeAddressedByte b ackreq) s = .next { s with
          env := s.env.dropWrite, wire := s.wire ++ [.w b a], seqPtr := s.seqPtr + 2 }) ∧
      (s.env.nextWrite = .nack → ackreq = true →
        exec (.writeAddressedByte b ackreq) s
          = .next (nackAbort { s with env := s.env.dropWrite, wire := s.wire ++ [.w b .nack] })) ∧
      (s.env.nextWrite = .hang →
        exec (.writeAddressedByte b ackreq) s = .next (timeoutAbort { s with env := s.env.dropWrite }))) ∧
    (s.inFrame = false → exec (.writeAddressedByte b ackreq) s = .refused .dataOutsideFrame)

/-- 41_command_link R144: WRITE_BUFFER in an open frame with every byte acknowledged sends the payload in index order and
writes nothing else; at the first byte not acknowledged, whatever follows it, the rest is not sent and the NACK abort (R147)
follows; at the first that hangs the timeout abort (R148); outside a frame the operation is refused. -/
def Obligations.WriteBufferCompletes : Prop :=
  ∀ s : State, s.executing = true →
    (s.inFrame = true →
      (∀ data : List Byte, s.env.nextWrites data.length = List.replicate data.length .ack →
        exec (.writeBuffer data) s = .next { s with
          env := { s.env with writes := s.env.writes.skip data.length }
          wire := s.wire ++ data.map (.w · .ack), seqPtr := s.seqPtr + (2 + data.length) }) ∧
      (∀ (before : List Byte) (b : Byte) (after : List Byte),
        s.env.nextWrites (before.length + 1) = List.replicate before.length .ack ++ [.nack] →
        exec (.writeBuffer (before ++ b :: after)) s = .next (nackAbort { s with
          env := { s.env with writes := s.env.writes.skip (before.length + 1) }
          wire := s.wire ++ before.map (.w · .ack) ++ [.w b .nack] })) ∧
      (∀ (before : List Byte) (b : Byte) (after : List Byte),
        s.env.nextWrites (before.length + 1) = List.replicate before.length .ack ++ [.hang] →
        exec (.writeBuffer (before ++ b :: after)) s = .next (timeoutAbort { s with
          env := { s.env with writes := s.env.writes.skip (before.length + 1) }
          wire := s.wire ++ before.map (.w · .ack) }))) ∧
    (s.inFrame = false → ∀ data : List Byte, exec (.writeBuffer data) s = .refused .dataOutsideFrame)

/-- 41_command_link R145: READ_BUFFER in an open frame stores the bytes it reads from RDATA[RD_LEN] on, acknowledges each as
its final-byte policy says and writes nothing else; at a hang the bytes received stay, all acknowledged, and the timeout
abort (R148) follows; outside a frame the operation is refused. -/
def Obligations.ReadBufferCompletes : Prop :=
  ∀ (s : State) (len : Byte) (ln : Bool), s.executing = true →
    (s.inFrame = true →
      (∀ vs : List Byte, s.env.nextReads len.toNat = vs.map .byte → s.rdLen + len.toNat ≤ s.params.rdCapacity →
        exec (.readBuffer len ln) s = .next { s with
          env := { s.env with reads := s.env.reads.skip len.toNat }
          wire := s.wire ++ readTrace ln vs
          rdata := Memory.writeRange s.rdata s.rdLen vs, rdLen := s.rdLen + len.toNat, seqPtr := s.seqPtr + 2 }) ∧
      (∀ vs : List Byte, vs.length < len.toNat → s.env.nextReads (vs.length + 1) = vs.map .byte ++ [.hang] →
        s.rdLen + vs.length ≤ s.params.rdCapacity →
        exec (.readBuffer len ln) s = .next (timeoutAbort { s with
          env := { s.env with reads := s.env.reads.skip (vs.length + 1) }
          wire := s.wire ++ vs.map (.r · .ack)
          rdata := Memory.writeRange s.rdata s.rdLen vs, rdLen := s.rdLen + vs.length }))) ∧
    (s.inFrame = false → exec (.readBuffer len ln) s = .refused .dataOutsideFrame)

/-- 41_command_link R146: STOP ends the frame and the link with Ok and writes nothing else; if it hangs, the timeout abort
(R148) follows. -/
def Obligations.StopCompletes : Prop :=
  ∀ s : State, s.executing = true →
    (s.env.nextStop = .done →
      exec .stop s = .next { s with
        env := s.env.dropStop, wire := s.wire ++ [.p], inFrame := false, seqPtr := s.seqPtr + 1,
        linkResult := some .ok, tmoArmed := false, point := .operation 0 }) ∧
    (s.env.nextStop = .hang → exec .stop s = .next (timeoutAbort { s with env := s.env.dropStop }))

/-- 41_command_link R147: the NACK abort generates a STOP, the frame is over and the link ends with Nack; if that STOP hangs,
the timeout abort follows. The STOP is the spec's own choice ("Issuing STOP is this spec's choice", decision D15; log 12). -/
def Obligations.NackAbortGeneratesStop : Prop :=
  ∀ s : State,
    (s.env.nextStop = .done →
      nackAbort s = { s with
        env := s.env.dropStop, wire := s.wire ++ [.p], inFrame := false, linkResult := some .nack, tmoArmed := false,
        point := .operation 0 }) ∧
    (s.env.nextStop = .hang → nackAbort s = timeoutAbort { s with env := s.env.dropStop })

/-- 41_command_link R140: a link operation outside EXECUTE, or in the middle of another, is no operation of the spec; the model
faults (log 17). -/
def Obligations.LinkOperationOutsideExecuteFaults : Prop :=
  ∀ (i : Instr) (s : State), i.isLink = true → s.executing = false → exec i s = .fault .notExecuting

/-- 41_command_link R150, the result of EXECUTE, for every link operation and every answer of the environment: what ended
the link, what the wire shows after it, whether recovery ran. -/
def Obligations.LinkOperationOutcomes : Prop :=
  ∀ (i : Instr) (s t : State), i.isLink = true → s.executing = true → exec i s = .next t →
    ∃ syms : List Event, (∀ e ∈ syms, e.isSymbol = true) ∧ t.point = .operation 0 ∧
      ((t.linkResult = none ∧ t.wire = s.wire ++ syms ∧ t.mode = s.mode ∧ t.seqPtr = s.seqPtr + linkSize i) ∨
       (t.linkResult = some .ok ∧ i = .stop ∧ t.wire = s.wire ++ [.p] ∧ t.inFrame = false ∧ t.mode = s.mode) ∨
       (t.linkResult = some .nack ∧ t.wire = s.wire ++ syms ++ [.p] ∧ t.inFrame = false ∧ t.mode = s.mode ∧
         t.seqPtr = s.seqPtr) ∨
       (t.linkResult = some .timeout ∧ t.wire = s.wire ++ syms ++ .tmo :: recoveryEvents s.cfg ∧ t.inFrame = false ∧
         t.mode = s.mode ∧ t.seqPtr = s.seqPtr ∧ t.engineUp = true) ∨
       (t.linkResult = some .configurationFault ∧ t.mode = .fatal ∧ t.inFrame = false ∧ t.seqPtr = s.seqPtr ∧
         ∃ k es, k < 68 ∧ FailedPass s.cfg k es ∧ t.wire = s.wire ++ syms ++ .tmo :: es))

/-- The frame of the five link operations, in all their outcomes: they leave alone the configuration, both buffers and their
lengths, the scanner's state, the lock, the ports and everything outside, and RDATA outside the bytes READ_BUFFER stores. -/
def Obligations.LinkOperationFrame : Prop :=
  ∀ (i : Instr) (s t : State), i.isLink = true → exec i s = .next t →
    t.cfg = s.cfg ∧ t.lock = s.lock ∧ t.waiters = s.waiters ∧ t.cb = s.cb ∧ t.cbLen = s.cbLen ∧ t.sb = s.sb ∧
    t.sbLen = s.sbLen ∧ t.buildErr = s.buildErr ∧ t.seqSel = s.seqSel ∧ t.aset = s.aset ∧ t.scanAddr = s.scanAddr ∧
    t.tmoMs = s.tmoMs ∧ t.responses = s.responses ∧ t.ports = s.ports ∧ t.stimuli = s.stimuli ∧
    t.service = s.service ∧ t.params = s.params ∧ s.wire <+: t.wire ∧
    ((∀ len ln, i ≠ .readBuffer len ln) → t.rdLen = s.rdLen ∧ ∀ x, Memory.read t.rdata x = Memory.read s.rdata x) ∧
    (∀ len ln, i = .readBuffer len ln →
      s.rdLen ≤ t.rdLen ∧ t.rdLen ≤ s.rdLen + len.toNat ∧
      ∀ x, x < s.rdLen ∨ s.rdLen + len.toNat ≤ x → Memory.read t.rdata x = Memory.read s.rdata x)

/-! ### Recovery -/

/-- 42_recovery R171, R175; 60_exceptions R238, R239: a timeout whose recovery pass meets no failing call. The whole
pass is in WIRE, 132 events, and the link ends with Timeout. -/
def Obligations.CleanRecoveryPass : Prop :=
  (∀ c : Cfg, (recoveryEvents c).length = 132) ∧
  ∀ s : State, s.env.nextHals 68 = List.replicate 68 .ok →
    timeoutAbort s = { s with
      env := { s.env with hals := s.env.hals.skip 68 }
      wire := s.wire ++ .tmo :: recoveryEvents s.cfg
      phase := .recover, toggleCnt := 32, inFrame := false, engineUp := true, sdaMode := .engine, sclMode := .engine,
      sclLevel := true, tmoArmed := false, linkResult := some .timeout, point := .operation 0 }

/-- 42_recovery R173: at the first failing call, number `k` of the 68, the pass stops where it is and the block is FATAL;
nothing restores the pins and the engine (V-R12 to V-R15). Everything that changes is in the equation. -/
def Obligations.FailedRecoveryPass : Prop :=
  ∀ (s : State) (k : Nat), k < 68 → s.env.nextHals (k + 1) = List.replicate k .ok ++ [.fail] →
    ∃ es, FailedPass s.cfg k es ∧
      timeoutAbort s = { s with
        env := { s.env with hals := s.env.hals.skip (k + 1) }
        wire := s.wire ++ .tmo :: es
        mode := .fatal, phase := .recover, inFrame := false, tmoArmed := false
        linkResult := some .configurationFault, point := .operation 0
        toggleCnt := BitVec.ofNat 6 ((k - 3) / 2)
        engineUp := if k = 0 then s.engineUp else false
        sdaMode := if k = 0 then s.sdaMode else if k = 1 then .unconf else .gpioIn
        sclMode := if k = 0 then s.sclMode else if k ≤ 2 then .unconf else .gpioOut
        sclLevel := if k ≤ 3 then s.sclLevel else decide (k % 2 = 1) }

/-! ### INIT -/

/-- 40_init R120, R122: INIT alone in UNINIT. With a speed that is not 0 and a configure call that succeeds it writes what
the equation shows and nothing else (not ASET, not RDATA); with speed 0 it calls nothing, and with a configure call that fails
it changes no state of the block: both answer ConfigurationFault and MODE stays UNINIT. -/
def Obligations.InitCompletes : Prop :=
  ∀ (s : State) (port sda scl : Byte) (speed : Word32), s.mode = .uninit → s.othersOutstanding = false →
    (speed ≠ 0 → s.env.nextHal = .ok →
      exec (.init port sda scl speed) s = .next { s with
        env := s.env.dropHal, wire := s.wire ++ [.engCfg port sda scl speed],
        cfg := ⟨port, sda, scl, speed⟩, engineUp := true, sdaMode := .engine, sclMode := .engine,
        lock := .free, waiters := [], cbLen := 0, sbLen := 0, buildErr := false, rdLen := 0, inFrame := false,
        mode := .ready, responses := s.responses ++ [(s.cur, .status .ok)], ports := Assoc.del s.ports s.cur }) ∧
    (speed = 0 →
      exec (.init port sda scl speed) s = .next { s with
        responses := s.responses ++ [(s.cur, .status .configurationFault)], ports := Assoc.del s.ports s.cur }) ∧
    (speed ≠ 0 → s.env.nextHal = .fail →
      exec (.init port sda scl speed) s = .next { s with
        env := s.env.dropHal, wire := s.wire ++ [.engCfg port sda scl speed, .fail .engCfg],
        responses := s.responses ++ [(s.cur, .status .configurationFault)], ports := Assoc.del s.ports s.cur })

/-- 40_init R121: a locked operation in UNINIT, INIT in READY or FATAL, and INIT with another operation outstanding are
refused. -/
def Obligations.OutOfOrderOperationsRefused : Prop :=
  (∀ (i : Instr) (s : State), i.isLocked = true → s.mode = .uninit → exec i s = .refused .beforeInit) ∧
  (∀ (s : State) (port sda scl : Byte) (speed : Word32), s.mode ≠ .uninit →
    exec (.init port sda scl speed) s = .refused .initAgain) ∧
  (∀ (s : State) (port sda scl : Byte) (speed : Word32), s.mode = .uninit → s.othersOutstanding = true →
    exec (.init port sda scl speed) s = .refused .initConcurrent)

/-! ### The transaction helpers -/

/-- 43_transactions R190: WRITE_THEN_READ with every byte acknowledged and nothing hanging, for every payload and every read
length that fit, none included. All that changes is in the equation. -/
def Obligations.WriteThenReadCompletes : Prop :=
  ∀ (s : State) (a : Addr7) (data : List Byte) (rlen : Byte) (vs : List Byte), s.CanServe →
    (Instr.writeThenRead a data rlen).WellFormed → transactionFits s.params data.length rlen.toNat = true →
    s.env.nextStarts (if rlen = 0 then 1 else 2) = List.replicate (if rlen = 0 then 1 else 2) .done →
    s.env.nextWrites (data.length + if rlen = 0 then 1 else 2)
      = List.replicate (data.length + if rlen = 0 then 1 else 2) .ack →
    s.env.nextReads rlen.toNat = vs.map .byte → s.env.nextStop = .done →
    exec (.writeThenRead a data rlen) s = .next { s with
      phase := .none, lock := .free, waiters := Waiters.erase s.waiters s.cur, cb := [], cbLen := 0, buildErr := false,
      seqSel := .selCb, seqPtr := transactionCost data.length rlen.toNat, inFrame := false,
      point := .operation 0,
      rdata := Memory.writeRange s.rdata 0 vs, rdLen := rlen.toNat, tmoArmed := false, tmoMs := 100,
      wire := s.wire ++ transactionTrace a data vs, responses := s.responses ++ [(s.cur, .bytes .ok vs)],
      ports := Assoc.del s.ports s.cur, service := none, linkResult := none,
      env := { s.env with
        starts := s.env.starts.skip (if rlen = 0 then 1 else 2)
        writes := s.env.writes.skip (data.length + if rlen = 0 then 1 else 2)
        reads := s.env.reads.skip rlen.toNat, stops := s.env.stops.tail, bytes := s.env.bytes.skip rlen.toNat } }

/-- 43_transactions R191: READ_BYTE with everything acknowledged: the two-phase pattern, one byte read. -/
def Obligations.ReadByteCompletes : Prop :=
  ∀ (s : State) (a : Addr7) (reg v : Byte), s.CanServe → 12 ≤ s.params.cmdCapacity → 1 ≤ s.params.rdCapacity →
    s.env.nextStarts 2 = [.done, .done] → s.env.nextWrites 3 = [.ack, .ack, .ack] → s.env.nextRead = .byte v →
    s.env.nextStop = .done →
    exec (.readByte a reg) s = .next { s with
      phase := .none, lock := .free, waiters := Waiters.erase s.waiters s.cur, cb := [], cbLen := 0, buildErr := false,
      seqSel := .selCb, seqPtr := 12, inFrame := false, point := .operation 0, rdata := Memory.write s.rdata 0 v, rdLen := 1,
      tmoArmed := false, tmoMs := 100,
      wire := s.wire ++ [.s, .w (addressByte a .write) .ack, .w reg .ack, .sr, .w (addressByte a .read) .ack,
        .r v .nack, .p]
      responses := s.responses ++ [(s.cur, .byte .ok v)], ports := Assoc.del s.ports s.cur,
      service := none, linkResult := none,
      env := { s.env with
        starts := s.env.starts.skip 2, writes := s.env.writes.skip 3, reads := s.env.reads.tail,
        stops := s.env.stops.tail, bytes := s.env.bytes.tail } }

/-- 43_transactions R192: WRITE_BYTE with everything acknowledged: register, then value, one START, no repeated START. -/
def Obligations.WriteByteCompletes : Prop :=
  ∀ (s : State) (a : Addr7) (reg value : Byte), s.CanServe → 8 ≤ s.params.cmdCapacity →
    s.env.nextStart = .done → s.env.nextWrites 3 = [.ack, .ack, .ack] → s.env.nextStop = .done →
    exec (.writeByte a reg value) s = .next { s with
      phase := .none, lock := .free, waiters := Waiters.erase s.waiters s.cur, cb := [], cbLen := 0, buildErr := false,
      seqSel := .selCb, seqPtr := 8, inFrame := false, point := .operation 0, rdLen := 0, tmoArmed := false, tmoMs := 100,
      wire := s.wire ++ [.s, .w (addressByte a .write) .ack, .w reg .ack, .w value .ack, .p]
      responses := s.responses ++ [(s.cur, .status .ok)], ports := Assoc.del s.ports s.cur,
      service := none, linkResult := none,
      env := { s.env with
        starts := s.env.starts.tail, writes := s.env.writes.skip 3, stops := s.env.stops.tail } }

/-- 60_exceptions R233, 41_command_link R138: a transaction that does not fit completes with NoMemory, without an event,
without a call, without a symbol; tear-down and release still happen. -/
def Obligations.TransactionTooLarge : Prop :=
  ∀ (s : State) (a : Addr7) (data : List Byte) (rlen : Byte), s.CanServe →
    (Instr.writeThenRead a data rlen).WellFormed → transactionFits s.params data.length rlen.toNat = false →
    ∃ free : List Byte, free.length = rlen.toNat ∧
      exec (.writeThenRead a data rlen) s = .next { s with
        phase := .none, lock := .free, waiters := Waiters.erase s.waiters s.cur, cb := [], cbLen := 0,
        buildErr := false, rdLen := 0, responses := s.responses ++ [(s.cur, .bytes .noMemory free)],
        ports := Assoc.del s.ports s.cur, service := none, linkResult := none,
        env := { s.env with bytes := s.env.bytes.skip rlen.toNat } }

/-- 43_transactions R191, R192; 30_encoding R104: READ_BYTE and WRITE_BYTE are WRITE_THEN_READ with fixed operands, whatever
the environment answers and whatever the status; only the form of the response differs. -/
def Obligations.ByteOperationsAreTransactions : Prop :=
  ∀ (s t : State) (a : Addr7) (reg value : Byte), s.CanServe →
    (exec (.writeThenRead a [reg] 1) s = .next t →
      ∃ st v, t.responses = s.responses ++ [(s.cur, .bytes st [v])] ∧
        exec (.readByte a reg) s = .next { t with responses := s.responses ++ [(s.cur, .byte st v)] }) ∧
    (exec (.writeThenRead a [reg, value] 0) s = .next t →
      ∃ st, t.responses = s.responses ++ [(s.cur, .bytes st [])] ∧
        exec (.writeByte a reg value) s = .next { t with responses := s.responses ++ [(s.cur, .status st)] })

/-- The link a transaction builds: when it fits, CB holds the operations of 43_transactions R190, packed, as many bytes as
30_encoding R103 says, a well-formed link in the sense of R96, submitted from its first operation on. -/
def Obligations.TransactionLinkIsBuilt : Prop :=
  ∀ (s : State) (a : Addr7) (data : List Byte) (rlen : Byte), (Instr.writeThenRead a data rlen).WellFormed →
    transactionFits s.params data.length rlen.toNat = true →
    (beginTransaction a data rlen s).linkAhead = some (linkBytesOf (transactionOps a data rlen)) ∧
    (beginTransaction a data rlen s).cbLen = transactionCost data.length rlen.toNat ∧
    (linkBytesOf (transactionOps a data rlen)).length = transactionCost data.length rlen.toNat ∧
    wellFormedLink (linkBytesOf (transactionOps a data rlen)) = true ∧
    (beginTransaction a data rlen s).wire = s.wire ∧ (beginTransaction a data rlen s).env = s.env

/-- What the wire shows of one transaction, for every environment (41_command_link R150, R151; 20_memory R71; 42_recovery R176;
60_exceptions R233): the symbols of one pass over its link in link order, all of them with Ok, up to the byte rejected and then
a STOP with Nack (log 12), up to the symbol that hung with Timeout and ConfigurationFault; then exactly one recovery pass, whole or
cut at a failing call, and no symbol after it. -/
def Obligations.TransactionOnTheWire : Prop :=
  ∀ (i : Instr) (s t : State), i.isLocked = true → i.isScan = false → i.WellFormed → s.CanServe → exec i s = .next t →
    ∃ (x : Response) (syms : List Event),
      t.responses = s.responses ++ [(s.cur, x)] ∧ ResponseForm i t.aset x ∧
      syms.map Event.outline <+: linkSymbols false (helperOps i) ∧
      ((x.st = .ok ∧ syms.map Event.outline = linkSymbols false (helperOps i) ∧ AllAcknowledged syms ∧
          t.wire = s.wire ++ syms ∧ t.mode = .ready) ∨
       (x.st = .nack ∧ RejectedAtLast syms ∧ t.wire = s.wire ++ syms ++ [.p] ∧ t.mode = .ready) ∨
       (x.st = .noMemory ∧ t.wire = s.wire ∧ t.mode = .ready) ∨
       (syms.map Event.outline ≠ linkSymbols false (helperOps i) ∧ (AllAcknowledged syms ∨ RejectedAtLast syms) ∧
         ((x.st = .timeout ∧ t.wire = s.wire ++ syms ++ .tmo :: recoveryEvents s.cfg ∧ t.mode = .ready) ∨
          (x.st = .configurationFault ∧ t.mode = .fatal ∧
            ∃ k es, k < 68 ∧ FailedPass s.cfg k es ∧ t.wire = s.wire ++ syms ++ .tmo :: es))))

/-- The frame of the three helpers, in all their outcomes: they leave alone the configuration, the probe buffer, the scanner's
state, the other waiters and the other ports; RDATA is written below RLEN only. -/
def Obligations.TransactionFrame : Prop :=
  ∀ (i : Instr) (s t : State), i.isLocked = true → i.isScan = false → i.WellFormed → s.CanServe → exec i s = .next t →
    t.cfg = s.cfg ∧ t.params = s.params ∧ t.stimuli = s.stimuli ∧ t.aset = s.aset ∧ t.scanAddr = s.scanAddr ∧
    t.sbLen = s.sbLen ∧ (∀ x, Memory.read t.sb x = Memory.read s.sb x) ∧
    t.waiters = Waiters.erase s.waiters s.cur ∧ t.ports = Assoc.del s.ports s.cur ∧
    (∀ x, responseLength i ≤ x → Memory.read t.rdata x = Memory.read s.rdata x)

/-- 43_transactions R196 (a), the round-trip law: against the reference slave of 95_test_vectors section 4, which has heard
the bus so far, a WRITE_BYTE that returns Ok followed by a READ_BYTE of the same register, with no symbol between the two,
that returns Ok yields the value written; the environment's read answer is the byte that slave sends there. -/
def Obligations.RoundTripThroughTheReferenceSlave : Prop :=
  ∀ (slave : RefSlave) (s t s2 t2 : State) (reg value got : Byte),
    s.CanServe → exec (.writeByte slave.address reg value) s = .next t →
    t.responses = s.responses ++ [(s.cur, .status .ok)] →
    s2.CanServe → s2.wire = t.wire →
    s2.env.nextRead = .byte
      ((slave.hears (s2.wire ++ [.s, .w (addressByte slave.address .write) .ack, .w reg .ack, .sr,
        .w (addressByte slave.address .read) .ack])).sends) →
    exec (.readByte slave.address reg) s2 = .next t2 →
    t2.responses = s2.responses ++ [(s2.cur, .byte .ok got)] →
    got = value

/-! ### The scanner -/

/-- 44_scanner R210, R216: a scan in which nothing hangs, for every pattern of acknowledges: 128 frames in ascending order, and
exactly the addresses acknowledged are in the set. -/
def Obligations.ScanCompletes : Prop :=
  ∀ (s : State) (acks : List Ack), s.CanServe → 4 ≤ s.params.scanCapacity →
    s.env.nextStarts 128 = List.replicate 128 .done → s.env.nextWrites 128 = acks.map Ack.answer →
    s.env.nextStops 128 = List.replicate 128 .done →
    ∃ set : AddrSet, (∀ a : Addr7, set.getLsbD a.toNat = true ↔ acks[a.toNat]? = some .ack) ∧
      exec .scan s = .next { s with
        phase := .none, lock := .free, waiters := Waiters.erase s.waiters s.cur, sb := [], sbLen := 0,
        buildErr := false, seqSel := .selSb, seqPtr := if acks[127]? = some .ack then 4 else 1, inFrame := false,
        point := .operation 0,
        aset := set, scanAddr := 128, tmoArmed := false, tmoMs := 100,
        wire := s.wire ++ probeFrames 0 acks, responses := s.responses ++ [(s.cur, .addressSet .ok set)],
        ports := Assoc.del s.ports s.cur, service := none, linkResult := none,
        env := { s.env with
          starts := s.env.starts.skip 128, writes := s.env.writes.skip 128, stops := s.env.stops.skip 128 } }

/-- 44_scanner R215: DETECT_AND_LOG is the scan, then one LOG event for each member of the set in ascending order; its
response is the scan's status. That release, listing and response are one step, and that it lists in FATAL too (R214), is the
model's reading (log 29). -/
def Obligations.DetectAndLogIsScanAndListing : Prop :=
  ∀ s t : State, s.lock = .free → exec .scan s = .next t →
    ∃ st, t.responses = s.responses ++ [(s.cur, .addressSet st t.aset)] ∧
      exec .detectAndLog s = .next { t with
        wire := t.wire ++ (members t.aset).map .log
        responses := s.responses ++ [(s.cur, .status st)] }

/-- 44_scanner R215 on the bus of R210: DETECT_AND_LOG with nothing hanging completes with Ok and lists exactly the addresses
acknowledged, after the 128 frames. That the listing stands directly after the frames, whoever else waits, is the model's
reading (R247; log 29). -/
def Obligations.DetectAndLogCompletes : Prop :=
  ∀ (s : State) (acks : List Ack), s.CanServe → 4 ≤ s.params.scanCapacity →
    s.env.nextStarts 128 = List.replicate 128 .done → s.env.nextWrites 128 = acks.map Ack.answer →
    s.env.nextStops 128 = List.replicate 128 .done →
    ∃ t, exec .detectAndLog s = .next t ∧ t.lock = .free ∧ t.phase = .none ∧ t.mode = .ready ∧ t.sbLen = 0 ∧
      t.responses = s.responses ++ [(s.cur, .status .ok)] ∧
      t.wire = s.wire ++ probeFrames 0 acks
        ++ (allAddresses.filter fun a => acks[a.toNat]? == some .ack).map .log

/-- 44_scanner R213: the probe of address `k` hangs on its address byte and the recovery pass is clean: the scan is over at
once, with Timeout, the bits recorded so far, and no further probe. -/
def Obligations.ScanStopsAtTimeout : Prop :=
  ∀ (s : State) (acks : List Ack), s.CanServe → 4 ≤ s.params.scanCapacity → acks.length < 128 →
    s.env.nextStarts (acks.length + 1) = List.replicate (acks.length + 1) .done →
    s.env.nextWrites (acks.length + 1) = acks.map Ack.answer ++ [.hang] →
    s.env.nextStops acks.length = List.replicate acks.length .done →
    s.env.nextHals 68 = List.replicate 68 .ok →
    ∃ t, exec .scan s = .next t ∧ t.lock = .free ∧ t.phase = .none ∧ t.mode = .ready ∧ t.sbLen = 0 ∧
      t.scanAddr.toNat = acks.length ∧
      (∀ a : Addr7, t.aset.getLsbD a.toNat = true ↔ acks[a.toNat]? = some .ack) ∧
      t.responses = s.responses ++ [(s.cur, .addressSet .timeout t.aset)] ∧
      t.wire = s.wire ++ probeFrames 0 acks ++ [.s, .tmo] ++ recoveryEvents s.cfg

/-- 44_scanner R212: with a probe buffer too small for a probe every construction fails, every address is recorded absent, and
the scan completes with Ok and no bus activity. -/
def Obligations.ScanWithoutRoomFindsNothing : Prop :=
  ∀ s : State, s.CanServe → s.params.scanCapacity < 4 →
    ∃ t, exec .scan s = .next t ∧ t.aset = 0 ∧ t.wire = s.wire ∧ t.env = s.env ∧ t.lock = .free ∧ t.sbLen = 0 ∧
      t.responses = s.responses ++ [(s.cur, .addressSet .ok 0)]

/-- The frame of SCAN and DETECT_AND_LOG, in all their outcomes: they leave alone the configuration, the command buffer CB,
RDATA, the other waiters and the other ports. -/
def Obligations.ScanFrame : Prop :=
  ∀ (i : Instr) (s t : State), i.isScan = true → s.CanServe → exec i s = .next t →
    t.cfg = s.cfg ∧ t.params = s.params ∧ t.stimuli = s.stimuli ∧ t.cbLen = s.cbLen ∧ t.rdLen = s.rdLen ∧
    (∀ x, Memory.read t.cb x = Memory.read s.cb x) ∧ (∀ x, Memory.read t.rdata x = Memory.read s.rdata x) ∧
    t.waiters = Waiters.erase s.waiters s.cur ∧ t.ports = Assoc.del s.ports s.cur

/-! ### Every locked operation -/

/-- 43_transactions R195, R196; 70_reset R284; 60_exceptions R247: once it has the lock every locked operation terminates,
for every behaviour of the environment, and releases the lock on every path, with one response in the form of 30_encoding R98
(for a scan with the set ASET holds then, 44_scanner R214); SCAN and DETECT_AND_LOG never
answer Nack or NoMemory (44_scanner R210). -/
def Obligations.EveryLockedOperationCompletes : Prop :=
  ∀ (i : Instr) (s : State), i.isLocked = true → i.WellFormed → s.CanServe →
    ∃ (t : State) (x : Response), exec i s = .next t ∧ t.lock = .free ∧ t.phase = .none ∧ t.buildErr = false ∧
      t.responses = s.responses ++ [(s.cur, x)] ∧ ResponseForm i t.aset x ∧ (i.isScan = false → t.cbLen = 0) ∧
      (i.isScan = true → t.sbLen = 0 ∧ x.st ≠ .nack ∧ x.st ≠ .noMemory)

/-- 60_exceptions R249 (b): in FATAL every locked operation takes the lock, releases it and completes with
ConfigurationFault; no builder step, no call, no symbol. The response has the form of 30_encoding R98, for SCAN with the bits of
the previous scan (44_scanner R214); data bytes are free (43_transactions R193). R249 (b) says no event in WIRE; that
DETECT_AND_LOG still lists the previous set is the model's choice between it and R214 (log 29). -/
def Obligations.FatalModeAnswersConfigurationFault : Prop :=
  ∀ (i : Instr) (s : State), i.isLocked = true → s.mode = .fatal → s.lock = .free →
    ∃ x : Response, x.st = .configurationFault ∧ ResponseForm i s.aset x ∧
      exec i s = .next { s with
        phase := .none, lock := .free, waiters := Waiters.erase s.waiters s.cur, linkResult := none, service := none,
        wire := s.wire ++ listing i s.aset, responses := s.responses ++ [(s.cur, x)],
        ports := Assoc.del s.ports s.cur,
        env := { s.env with bytes := s.env.bytes.skip (responseLength i) } }

/-- 60_exceptions R244: with the lock held a locked operation waits: its requester is among WAITERS and nothing else
happens. -/
def Obligations.HeldLockMakesWait : Prop :=
  ∀ (i : Instr) (s : State) (r : Nat), i.isLocked = true → s.mode ≠ .uninit → s.lock = .held r →
    exec i s = .next { s with waiters := Waiters.insert s.waiters s.cur }

/-! ### The step -/

/-- A step runs the request it fetches: the one the arbiter picks when the lock is free, or one that waits for no lock. With the
input `engine` the whole instruction runs, no input landing inside it; with no input left or with `tick` (log 1) a locked
operation only begins (ACQUIRE, construction, submission: 43_transactions R195), and INIT, which is one call, runs. -/
def Obligations.StepRunsTheFetchedRequest : Prop :=
  ∀ (s : State) (rest : List Stimulus) (r : Nat) (q : RawRequest) (i : Instr), decodeRequest q = .ok i →
    (s.unbegun = none → s.phase = .none → s.lock = .free → Waiters.pick s.waiters s.env.nextPick = some r →
      Assoc.get s.ports r = some q →
      (s.stimuli = .engine :: rest → step s = exec i { s with stimuli := rest, cur := r, env := s.env.dropPick }) ∧
      (s.OneStep rest → i.isLocked = true → s.mode ≠ .uninit →
        step s = .next (beginLocked i { s with stimuli := rest, cur := r, env := s.env.dropPick }))) ∧
    (s.unbegun = some (r, q) →
      (s.stimuli = .engine :: rest → step s = exec i { s with stimuli := rest, cur := r }) ∧
      (s.OneStep rest → i.isLocked = false → step s = exec i { s with stimuli := rest, cur := r }) ∧
      (s.OneStep rest → i.isLocked = true → s.mode = .uninit → step s = .refused .beforeInit))

/-- With the input `engine` a step runs the link operation at SEQ_PTR whole (41_command_link R141). -/
def Obligations.StepRunsTheLinkOperation : Prop :=
  ∀ (s : State) (rest : List Stimulus) (i : Instr) (more : List Byte), s.stimuli = .engine :: rest →
    s.unbegun = none → s.phase ≠ .none → s.linkResult = none → s.point = .operation 0 → s.seqPtr ≠ s.len s.seqSel →
    s.linkAhead = some (linkBytes i ++ more) → i.isLink = true → i.WellFormed →
    step s = exec i { s with stimuli := rest }

/-- Presenting a request. 60_exceptions R244: it is outstanding, and with a bus handle a locked operation's requester joins
WAITERS (at once: log 18). R250 obliges a requester to keep at most one operation outstanding, and R244 gives it one port of
N_REQ; the spec gives a busy port and a port that does not exist no status, and that they are refused is the model's choice
(log 8). -/
def Obligations.PresentingARequest : Prop :=
  ∀ (s : State) (rest : List Stimulus) (r : Nat) (q : RawRequest), s.stimuli = .present r q :: rest →
    (s.params.nReq ≤ r → step s = .refused .noSuchPort) ∧
    (r < s.params.nReq → (Assoc.get s.ports r).isSome → step s = .refused .portBusy) ∧
    (r < s.params.nReq → Assoc.get s.ports r = none →
      step s = .next { s with
        stimuli := rest, ports := Assoc.set s.ports r q
        waiters := if s.mode ≠ .uninit ∧ isLockedOp (decodeRequest q) = true then Waiters.insert s.waiters r
          else s.waiters })

/-- 30_encoding R99: a reserved request word is refused when its turn comes, whichever input moves the engine. -/
def Obligations.ReservedRequestStops : Prop :=
  ∀ (s : State) (rest : List Stimulus) (r : Nat) (q : RawRequest), s.OneStep rest ∨ s.stimuli = .engine :: rest →
    s.unbegun = some (r, q) → requestKind q.word = none → step s = .refused .reservedRequest

/-- 60_exceptions R245: "a model lets the arbiter pick any member of WAITERS". For every waiter there is a draw with which the
next step runs exactly its request. -/
def Obligations.AnyWaiterMayBeGranted : Prop :=
  ∀ (s : State) (rest : List Stimulus) (r : Nat) (q : RawRequest) (i : Instr), s.stimuli = .engine :: rest →
    s.unbegun = none → s.phase = .none → s.lock = .free → r ∈ s.waiters → Assoc.get s.ports r = some q →
    decodeRequest q = .ok i →
    ∃ k : Nat, step { s with env := { s.env with picks := s.env.picks.lay [k] } }
      = exec i { s with stimuli := rest, cur := r }

/-- Nothing interrupts the holder of the lock (60_exceptions R237, R246): until it has its response it keeps the lock, and no
other requester gets a response. Only reset takes the lock away. -/
def Obligations.HolderIsNotInterrupted : Prop :=
  ∀ (s t : State) (r : Nat), s.Inv → s.lock = .held r → (∀ rest, s.stimuli ≠ .reset :: rest) → step s = .next t →
    (t.lock = .held r ∧ t.responses = s.responses) ∨
    (t.lock = .free ∧ ∃ x, t.responses = s.responses ++ [(r, x)])

/-- I-d of 10_state R37, for an operation in progress: a symbol is appended only in PHASE EXEC with the engine up; a call of the
hardware abstraction and a delay appear only in PHASE RECOVER. (With `engine` the whole of a link operation is one step, which
may start in EXEC and end in RECOVER.) -/
def Obligations.EventsBelongToTheirPhase : Prop :=
  ∀ (s t : State) (r : Nat) (e : Event), s.lock = .held r → (∀ rest, s.stimuli ≠ .reset :: rest) → step s = .next t →
    e ∈ t.wire.drop s.wire.length →
    (e.isSymbol = true → s.phase = .exec ∧ s.engineUp = true) ∧
    (e.halCall.isSome = true ∨ (∃ n, e = .dly n) →
      t.phase = .recover ∧ ((∀ rest, s.stimuli ≠ .engine :: rest) → s.phase = .recover))

/-- 10_state R33: WIRE is append-only, in every step but the reset input. -/
def Obligations.WireIsAppendOnly : Prop :=
  ∀ s t : State, (∀ rest, s.stimuli ≠ .reset :: rest) → step s = .next t → s.wire <+: t.wire

/-- 60_exceptions R249 (c), 42_recovery R173: only reset leaves FATAL. -/
def Obligations.OnlyResetLeavesFatal : Prop :=
  ∀ s t : State, (∀ rest, s.stimuli ≠ .reset :: rest) → s.mode = .fatal → step s = .next t → t.mode = .fatal

/-- 10_state R22: CFG never changes once INIT has written it; the parameters never change. -/
def Obligations.ConfigurationIsFixed : Prop :=
  ∀ s t : State, (∀ rest, s.stimuli ≠ .reset :: rest) → step s = .next t →
    t.params = s.params ∧ (s.mode ≠ .uninit → t.cfg = s.cfg)

/-- A whole instruction is the run of its steps, each one symbol or one hardware-abstraction call (00_scope R3; log 1): the state
in which `exec` leaves a locked operation is reached by the machine, step by step, from the state in which the operation has just
begun; and the state in which it leaves a link operation, from the state before its first symbol. -/
def Obligations.OperationIsTheRunOfItsSteps : Prop :=
  (∀ (i : Instr) (s t : State), i.isLocked = true → s.mode ≠ .uninit → s.lock = .free → s.stimuli = [] →
    (∀ p ∈ s.ports, p.1 ∈ s.waiters ∨ p.1 = s.cur) → exec i s = .next t →
    ∃ n : Nat, Host.Core.run Sys2Proof.core n (beginLocked i s) = Host.Outcome.next t) ∧
  (∀ (i : Instr) (s t : State), i.isLink = true → i.WellFormed → s.stimuli = [] → s.BeforeSymbol i 0 → exec i s = .next t →
    ∃ n : Nat, Host.Core.run Sys2Proof.core n s = Host.Outcome.next t)

/-! ### A scan on the wire, and one step at a time -/

/-- What the wire, the set and the mode show of a scan, for every environment (44_scanner R210 to R214; 41_command_link R150;
42_recovery R173): the frames of the probes that ended, in ascending order; then nothing more with Ok after 128; or the part of
the next probe before the symbol that hung, be it START, the byte, STOP or the STOP of the NACK abort, and one recovery pass,
whole with Timeout, or cut at a failing call with ConfigurationFault and FATAL. The set delivered holds exactly the addresses
whose probes ended acknowledged, with every status. For DETECT_AND_LOG the listing follows (R215; directly: log 29). -/
def Obligations.ScanOnTheWire : Prop :=
  ∀ (i : Instr) (s t : State), i.isScan = true → s.CanServe → 4 ≤ s.params.scanCapacity → exec i s = .next t →
    ∃ (x : Response) (acks : List Ack) (last : List Event),
      t.responses = s.responses ++ [(s.cur, x)] ∧ ResponseForm i t.aset x ∧
      (∀ a : Addr7, t.aset.getLsbD a.toNat = true ↔ acks[a.toNat]? = some .ack) ∧ t.scanAddr.toNat = acks.length ∧
      t.wire = s.wire ++ probeFrames 0 acks ++ last ++ listing i t.aset ∧
      ((x.st = .ok ∧ acks.length = 128 ∧ last = [] ∧ t.mode = .ready) ∨
       (acks.length < 128 ∧ ∃ syms ∈ probePrefixes (BitVec.ofNat 7 acks.length),
         (x.st = .timeout ∧ last = syms ++ .tmo :: recoveryEvents s.cfg ∧ t.mode = .ready) ∨
         (x.st = .configurationFault ∧ t.mode = .fatal ∧
           ∃ k es, k < 68 ∧ FailedPass s.cfg k es ∧ last = syms ++ .tmo :: es)))

/-- 00_scope R3: "one step of the sequencer produces one bus symbol". The next symbol of the link operation at SEQ_PTR
(41_command_link R142 to R146), or the STOP of NACK_ABORT (R147), and where the engine stands after it; a symbol that hangs
takes the timeout trap (60_exceptions R238). Between two such steps any input may land. -/
def Obligations.StepProducesOneSymbol : Prop :=
  ∀ (s : State) (rest : List Stimulus) (k : Nat), s.OneStep rest →
    (s.BeforeSymbol .start k → s.env.nextStart = .done →
      step s = .next { s with
        stimuli := rest, env := s.env.dropStart, wire := s.wire ++ [if s.inFrame then .sr else .s], inFrame := true,
        seqPtr := s.seqPtr + 1, point := .operation 0 }) ∧
    (∀ (b : Byte) (ackreq : Bool) (a : Ack), s.BeforeSymbol (.writeAddressedByte b ackreq) k → s.inFrame = true →
      s.env.nextWrite = a.answer → a = .ack ∨ ackreq = false →
      step s = .next { s with
        stimuli := rest, env := s.env.dropWrite, wire := s.wire ++ [.w b a], seqPtr := s.seqPtr + 2,
        point := .operation 0 }) ∧
    (∀ (data : List Byte) (b : Byte), s.BeforeSymbol (.writeBuffer data) k → fitsLength data = true → s.inFrame = true →
      data[k]? = some b → s.env.nextWrite = .ack →
      step s = .next { s with
        stimuli := rest, env := s.env.dropWrite, wire := s.wire ++ [.w b .ack]
        seqPtr := if k + 1 < data.length then s.seqPtr else s.seqPtr + (2 + data.length)
        point := if k + 1 < data.length then .operation (k + 1) else .operation 0 }) ∧
    (∀ (len : Byte) (ln : Bool) (v : Byte), s.BeforeSymbol (.readBuffer len ln) k → s.inFrame = true → k < len.toNat →
      s.rdLen < s.params.rdCapacity → s.env.nextRead = .byte v →
      step s = .next { s with
        stimuli := rest, env := s.env.dropRead
        wire := s.wire ++ [.r v (if ln = true ∧ k + 1 = len.toNat then .nack else .ack)]
        rdata := Memory.write s.rdata s.rdLen v, rdLen := s.rdLen + 1
        seqPtr := if k + 1 < len.toNat then s.seqPtr else s.seqPtr + 2
        point := if k + 1 < len.toNat then .operation (k + 1) else .operation 0 }) ∧
    (s.BeforeSymbol .stop k → s.env.nextStop = .done →
      step s = .next { s with
        stimuli := rest, env := s.env.dropStop, wire := s.wire ++ [.p], inFrame := false, seqPtr := s.seqPtr + 1,
        linkResult := some .ok, tmoArmed := false, point := .operation 0 }) ∧
    (∀ (i : Instr) (b : Byte), s.BeforeSymbol i k → i.WellFormed → s.inFrame = true → s.env.nextWrite = .nack →
      (i = .writeAddressedByte b true ∨ ∃ data, i = .writeBuffer data ∧ data[k]? = some b) →
      step s = .next { s with
        stimuli := rest, env := s.env.dropWrite, wire := s.wire ++ [.w b .nack], point := .nackStop }) ∧
    (s.unbegun = none → s.walking = true → s.point = .nackStop → s.env.nextStop = .done →
      step s = .next { s with
        stimuli := rest, env := s.env.dropStop, wire := s.wire ++ [.p], inFrame := false, linkResult := some .nack,
        tmoArmed := false, point := .operation 0 }) ∧
    (∀ (i : Instr) (e : Env), i.isLink = true → i.WellFormed →
      (s.BeforeSymbol i k ∧ (s.inFrame = true ∨ i = .start ∨ i = .stop)) ∨
        (s.unbegun = none ∧ s.walking = true ∧ s.point = .nackStop ∧ i = .stop) →
      (i = .start ∧ s.env.nextStart = .hang ∧ e = s.env.dropStart) ∨
        (((∃ b ackreq, i = .writeAddressedByte b ackreq) ∨ ∃ data, i = .writeBuffer data ∧ k < data.length) ∧
          s.env.nextWrite = .hang ∧ e = s.env.dropWrite) ∨
        ((∃ len ln, i = .readBuffer len ln ∧ k < len.toNat) ∧ s.env.nextRead = .hang ∧ e = s.env.dropRead) ∨
        (i = .stop ∧ s.env.nextStop = .hang ∧ e = s.env.dropStop) →
      step s = .next { s with
        stimuli := rest, env := e, wire := s.wire ++ [.tmo], tmoArmed := false, phase := .recover, toggleCnt := 0,
        inFrame := false, point := .recovery .tearDown })

/-- 00_scope R3, 42_recovery R171, R173, R175: one step of the recovery controller is one hardware-abstraction call: its event,
what it changes when it answers `ok` (a delay cannot fail), and which call comes next; after the last the link has ended with
Timeout; at the first call that fails the block is FATAL and the link has ended with ConfigurationFault. -/
def Obligations.StepMakesOneRecoveryCall : Prop :=
  ∀ (s : State) (rest : List Stimulus) (c : RecoveryCall), s.OneStep rest → s.BeforeCall c →
    (∀ call, (recoveryEvent s.cfg c).halCall = some call → s.env.nextHal = .fail →
      step s = .next { s with
        stimuli := rest, env := s.env.dropHal, wire := s.wire ++ [recoveryEvent s.cfg c, .fail call], mode := .fatal,
        linkResult := some .configurationFault, tmoArmed := false, point := .operation 0 }) ∧
    (s.env.nextHal = .ok →
      (c = .tearDown → step s = .next { s with
        stimuli := rest, env := s.env.dropHal, wire := s.wire ++ [.engDown], engineUp := false, sdaMode := .unconf,
        sclMode := .unconf, point := .recovery .dataLine }) ∧
      (c = .dataLine → step s = .next { s with
        stimuli := rest, env := s.env.dropHal, wire := s.wire ++ [.dir s.cfg.sdaPin .input], sdaMode := .gpioIn,
        point := .recovery .clockLine }) ∧
      (c = .clockLine → step s = .next { s with
        stimuli := rest, env := s.env.dropHal, wire := s.wire ++ [.dir s.cfg.sclPin .output], sclMode := .gpioOut,
        point := .recovery (if s.toggleCnt.toNat < 32 then .clockLow else .configure) }) ∧
      (c = .clockLow → step s = .next { s with
        stimuli := rest, env := s.env.dropHal, wire := s.wire ++ [.lvl s.cfg.sclPin false], sclLevel := false,
        point := .recovery .holdLow }) ∧
      (c = .clockHigh → step s = .next { s with
        stimuli := rest, env := s.env.dropHal, wire := s.wire ++ [.lvl s.cfg.sclPin true], sclLevel := true,
        point := .recovery .holdHigh }) ∧
      (c = .configure → step s = .next { s with
        stimuli := rest, env := s.env.dropHal
        wire := s.wire ++ [.engCfg s.cfg.port s.cfg.sdaPin s.cfg.sclPin s.cfg.speedHz], engineUp := true,
        sdaMode := .engine, sclMode := .engine, linkResult := some .timeout, tmoArmed := false,
        point := .operation 0 })) ∧
    (c = .holdLow → step s = .next { s with
      stimuli := rest, wire := s.wire ++ [.dly (halfPeriod s.cfg.speedHz)], point := .recovery .clockHigh }) ∧
    (c = .holdHigh → step s = .next { s with
      stimuli := rest, wire := s.wire ++ [.dly (halfPeriod s.cfg.speedHz)], toggleCnt := s.toggleCnt + 1,
      point := .recovery (if (s.toggleCnt + 1).toNat < 32 then .clockLow else .configure) })

/-- 00_scope R3: "one step of the sequencer produces one bus symbol ... or one hardware-abstraction call". From every state, a
step other than reset and `engine` adds to WIRE at most one event of bus activity, a failing call with its FAIL; the listing of
DETECT_AND_LOG, which is no bus activity (R8), is added whole (log 29). -/
def Obligations.OneEventAStep : Prop :=
  ∀ s t : State, (∀ rest, s.stimuli ≠ .reset :: rest ∧ s.stimuli ≠ .engine :: rest) → step s = .next t →
    ∃ es logs : List Event, t.wire = s.wire ++ es ++ logs ∧ (∀ e ∈ logs, ∃ a, e = .log a) ∧
      (es = [] ∨ (∃ e, e.isBusActivity = true ∧ es = [e]) ∨ ∃ e call, e.halCall = some call ∧ es = [e, .fail call])
end

