-- ==== Sys2Proof/Laws/Decode.lean ====
section
/-! SUPPORT. Laws/Decode.lean: the decoder of link operations on the bytes the encoder writes. -/

namespace Sys2Proof

@[simp] theorem linkBytes_start : linkBytes .start = [0x10] := rfl
@[simp] theorem linkBytes_stop : linkBytes .stop = [0x50] := rfl
theorem linkBytes_wab (b : Byte) (ackreq : Bool) : linkBytes (.writeAddressedByte b ackreq) = [header opcWriteAddressedByte ackreq, b] := rfl
theorem linkBytes_wbuf (data : List Byte) :
    linkBytes (.writeBuffer data) = header opcWriteBuffer false :: lengthField data :: data := rfl
theorem linkBytes_rbuf (n : Byte) (ln : Bool) : linkBytes (.readBuffer n ln) = [header opcReadBuffer ln, n] := rfl

theorem linkKind_wab (ackreq : Bool) : linkKind (header opcWriteAddressedByte ackreq) = some .writeAddressedByte := by
  cases ackreq <;> decide
theorem linkKind_rbuf (ln : Bool) : linkKind (header opcReadBuffer ln) = some .readBuffer := by cases ln <;> decide
theorem linkKind_wbuf : linkKind (header opcWriteBuffer false) = some .writeBuffer := by decide
theorem header_flag (opc : BitVec 4) (f : Bool) : (header opc f).getLsbD 0 = f := by
  cases f <;> revert opc <;> decide

theorem lengthField_toNat {data : List Byte} (h : data.length ≤ 255) : (lengthField data).toNat = data.length := by
  simp [lengthField, BitVec.toNat_ofNat]; omega

/-- A link operation stands whole at the front of any bytes that begin with its encoding (30_encoding R92, R93). -/
theorem decodeLink_append {i : Instr} (hl : i.isLink = true) (hw : i.WellFormed) (rest : List Byte) :
    decodeLink (linkBytes i ++ rest) = .ok (i, rest) := by
  cases i with
  | start => rfl
  | stop => rfl
  | writeAddressedByte b ackreq =>
    simp only [linkBytes_wab, List.cons_append, List.nil_append, decodeLink, linkKind_wab, header_flag]
  | readBuffer n ln =>
    simp only [linkBytes_rbuf, List.cons_append, List.nil_append, decodeLink, linkKind_rbuf, header_flag]
  | writeBuffer data =>
    have hd : data.length ≤ 255 := by simpa only [Instr.WellFormed, Instr.wellFormed, fitsLength, decide_eq_true_eq] using hw
    simp [linkBytes_wbuf, decodeLink, linkKind_wbuf, lengthField_toNat hd]
  | init | writeThenRead | readByte | writeByte | scan | detectAndLog => simp [Instr.isLink] at hl

end Sys2Proof
end

