-- ==== Sys2Proof/Laws/Memory.lean ====
section
/-! SUPPORT. Laws/Memory.lean: the laws of keyed lists, of the buffers over them, and of the set WAITERS. -/

namespace Sys2Proof.Machine

/-! ### Keyed lists -/

@[simp] theorem Assoc.get_nil {α : Type} (a : Nat) : Assoc.get ([] : List (Nat × α)) a = none := rfl

theorem Assoc.get_set_same {α : Type} (m : List (Nat × α)) (a : Nat) (v : α) :
    Assoc.get (Assoc.set m a v) a = some v := by
  induction m with
  | nil => simp [Assoc.set, Assoc.get]
  | cons p m ih =>
    obtain ⟨k, w⟩ := p
    simp only [Assoc.set]
    split
    · simp [Assoc.get]
    · split
      · simp [Assoc.get]
      · have hk : k ≠ a := by omega
        simp [Assoc.get, hk, ih]

theorem Assoc.get_set_other {α : Type} (m : List (Nat × α)) {a b : Nat} (v : α) (h : b ≠ a) :
    Assoc.get (Assoc.set m a v) b = Assoc.get m b := by
  have hab : a ≠ b := fun e => h e.symm
  induction m with
  | nil => simp [Assoc.set, Assoc.get, hab]
  | cons p m ih =>
    obtain ⟨k, w⟩ := p
    simp only [Assoc.set]
    split
    · simp [Assoc.get, hab]
    · split
      · next _ hk => subst hk; simp [Assoc.get, hab]
      · simp [Assoc.get, ih]

theorem Assoc.get_del_same {α : Type} (m : List (Nat × α)) (a : Nat) : Assoc.get (Assoc.del m a) a = none := by
  induction m with
  | nil => rfl
  | cons p m ih =>
    obtain ⟨k, w⟩ := p
    by_cases hk : k = a <;> simp [Assoc.del, hk, ih, Assoc.get]

theorem Assoc.get_del_other {α : Type} (m : List (Nat × α)) {a b : Nat} (h : b ≠ a) :
    Assoc.get (Assoc.del m a) b = Assoc.get m b := by
  have hab : a ≠ b := fun e => h e.symm
  induction m with
  | nil => rfl
  | cons p m ih =>
    obtain ⟨k, w⟩ := p
    by_cases hk : k = a
    · subst hk; simp [Assoc.del, Assoc.get, hab, ih]
    · simp [Assoc.del, Assoc.get, hk, ih]

/-- The keys after a `set`. -/
theorem Assoc.mem_set {α : Type} {m : List (Nat × α)} {a : Nat} {v : α} {p : Nat × α} (h : p ∈ Assoc.set m a v) :
    p = (a, v) ∨ p ∈ m := by
  induction m with
  | nil => simpa [Assoc.set] using h
  | cons q m ih =>
    obtain ⟨k, w⟩ := q
    simp only [Assoc.set] at h
    split at h
    · simpa using h
    · split at h
      · rcases List.mem_cons.1 h with h | h
        · exact .inl h
        · exact .inr (List.mem_cons_of_mem _ h)
      · rcases List.mem_cons.1 h with h | h
        · exact .inr (h ▸ List.mem_cons_self)
        · exact (ih h).imp_right (List.mem_cons_of_mem _)

theorem Assoc.wf_set {α : Type} {m : List (Nat × α)} (h : Assoc.wf m) (a : Nat) (v : α) : Assoc.wf (Assoc.set m a v) := by
  induction m with
  | nil => simp [Assoc.set]
  | cons p m ih =>
    obtain ⟨k, w⟩ := p
    obtain ⟨hk, hm⟩ := List.pairwise_cons.1 h
    simp only [Assoc.set]
    split
    · next hlt =>
      refine List.pairwise_cons.2 ⟨fun q hq => ?_, h⟩
      rcases List.mem_cons.1 hq with rfl | hq
      · exact hlt
      · exact Nat.lt_trans hlt (hk q hq)
    · split
      · next _ he => subst he; exact List.pairwise_cons.2 ⟨fun q hq => hk q hq, hm⟩
      · refine List.pairwise_cons.2 ⟨fun q hq => ?_, ih hm⟩
        rcases Assoc.mem_set hq with rfl | hq
        · show k < a; omega
        · exact hk q hq

theorem Assoc.mem_del {α : Type} {m : List (Nat × α)} {a : Nat} {p : Nat × α} (h : p ∈ Assoc.del m a) : p ∈ m := by
  induction m with
  | nil => exact h
  | cons q m ih =>
    obtain ⟨k, w⟩ := q
    simp only [Assoc.del] at h
    split at h
    · exact List.mem_cons_of_mem _ (ih h)
    · rcases List.mem_cons.1 h with h | h
      · exact h ▸ List.mem_cons_self
      · exact List.mem_cons_of_mem _ (ih h)

theorem Assoc.wf_del {α : Type} {m : List (Nat × α)} (h : Assoc.wf m) (a : Nat) : Assoc.wf (Assoc.del m a) := by
  induction m with
  | nil => exact h
  | cons p m ih =>
    obtain ⟨k, w⟩ := p
    obtain ⟨hk, hm⟩ := List.pairwise_cons.1 h
    simp only [Assoc.del]
    split
    · exact ih hm
    · exact List.pairwise_cons.2 ⟨fun q hq => hk q (Assoc.mem_del hq), ih hm⟩

/-! ### Buffers -/

theorem Memory.read_write_same (m : Memory) (a : Nat) (v : Byte) : (m.write a v).read a = some v :=
  Assoc.get_set_same m a v

theorem Memory.read_write_other (m : Memory) {a b : Nat} (v : Byte) (h : b ≠ a) : (m.write a v).read b = m.read b :=
  Assoc.get_set_other m v h

theorem Memory.wf_write {m : Memory} (h : m.wf) (a : Nat) (v : Byte) : (m.write a v).wf := Assoc.wf_set h a v

theorem Memory.wf_writeRange {m : Memory} (h : m.wf) (a : Nat) (bs : List Byte) : (m.writeRange a bs).wf := by
  induction bs generalizing m a with
  | nil => exact h
  | cons b bs ih => exact ih (Memory.wf_write h a b) (a + 1)

/-- A range write leaves every other byte alone. -/
theorem Memory.read_writeRange_outside (m : Memory) (a : Nat) (bs : List Byte) {x : Nat}
    (h : x < a ∨ a + bs.length ≤ x) : (m.writeRange a bs).read x = m.read x := by
  induction bs generalizing m a with
  | nil => rfl
  | cons b bs ih =>
    simp only [List.length_cons] at h
    rw [Memory.writeRange, ih _ _ (by omega), Memory.read_write_other _ _ (by omega)]

theorem Memory.readRange_congr {m m' : Memory} {a n : Nat} (h : ∀ x, a ≤ x → x < a + n → m'.read x = m.read x) :
    m'.readRange a n = m.readRange a n := by
  induction n generalizing a with
  | zero => rfl
  | succ n ih =>
    simp only [Memory.readRange]
    rw [h a (Nat.le_refl _) (by omega), ih fun x h1 h2 => h x (by omega) (by omega)]

/-- What a range write stored reads back. -/
theorem Memory.readRange_writeRange (m : Memory) (a : Nat) (bs : List Byte) :
    (m.writeRange a bs).readRange a bs.length = some bs := by
  induction bs generalizing m a with
  | nil => rfl
  | cons b bs ih =>
    simp only [Memory.writeRange, List.length_cons, Memory.readRange, ih]
    rw [Memory.read_writeRange_outside _ _ _ (.inl (Nat.lt_succ_self a)), Memory.read_write_same]

/-- Two ranges that adjoin. -/
theorem Memory.readRange_add {m : Memory} {a n k : Nat} {bs cs : List Byte} (h1 : m.readRange a n = some bs)
    (h2 : m.readRange (a + n) k = some cs) : m.readRange a (n + k) = some (bs ++ cs) := by
  induction n generalizing a bs with
  | zero =>
    obtain rfl : bs = [] := by simpa [Memory.readRange] using h1.symm
    simpa using h2
  | succ n ih =>
    simp only [Memory.readRange] at h1
    split at h1
    · next b bs' hb hbs =>
      obtain rfl : b :: bs' = bs := by simpa using h1
      have := ih hbs (by rw [← h2]; congr 1; omega)
      rw [Nat.add_right_comm, Memory.readRange, hb, this]
      rfl
    · cases h1

/-- A range that reads has the length asked for. -/
theorem Memory.readRange_length {m : Memory} {a n : Nat} {bs : List Byte} (h : m.readRange a n = some bs) :
    bs.length = n := by
  induction n generalizing a bs with
  | zero => simp [Memory.readRange] at h; simp [← h]
  | succ n ih =>
    simp only [Memory.readRange] at h
    split at h
    · next b bs' _ hbs => obtain rfl : b :: bs' = bs := by simpa using h
                          simp [ih hbs]
    · cases h

/-- The end of a range that reads. -/
theorem Memory.readRange_drop {m : Memory} {a n k : Nat} {bs : List Byte} (h : m.readRange a n = some bs) (hk : k ≤ n) :
    m.readRange (a + k) (n - k) = some (bs.drop k) := by
  induction k generalizing a n bs with
  | zero => simpa using h
  | succ k ih =>
    obtain ⟨n, rfl⟩ : ∃ j, n = j + 1 := ⟨n - 1, by omega⟩
    simp only [Memory.readRange] at h
    split at h
    · next b bs' _ hbs =>
      obtain rfl : b :: bs' = bs := by simpa using h
      have := ih hbs (by omega)
      rw [show a + (k + 1) = a + 1 + k by omega, show n + 1 - (k + 1) = n - k by omega, this]
      rfl
    · cases h

/-! ### WAITERS -/

theorem Waiters.mem_insert {ws : List Nat} {r x : Nat} : x ∈ Waiters.insert ws r ↔ x = r ∨ x ∈ ws := by
  induction ws with
  | nil => simp [Waiters.insert]
  | cons w ws ih =>
    simp only [Waiters.insert]
    split
    · simp
    · split
      · next _ h => subst h; simp
      · simp [ih, or_left_comm]

theorem Waiters.wf_insert {ws : List Nat} (h : Waiters.wf ws) (r : Nat) : Waiters.wf (Waiters.insert ws r) := by
  induction ws with
  | nil => simp [Waiters.insert]
  | cons w ws ih =>
    obtain ⟨hw, hs⟩ := List.pairwise_cons.1 h
    simp only [Waiters.insert]
    split
    · next hlt =>
      refine List.pairwise_cons.2 ⟨fun x hx => ?_, h⟩
      rcases List.mem_cons.1 hx with rfl | hx
      · exact hlt
      · exact Nat.lt_trans hlt (hw x hx)
    · split
      · exact h
      · refine List.pairwise_cons.2 ⟨fun x hx => ?_, ih hs⟩
        rcases Waiters.mem_insert.1 hx with rfl | hx
        · omega
        · exact hw x hx

theorem Waiters.mem_erase {ws : List Nat} {r x : Nat} : x ∈ Waiters.erase ws r ↔ x ≠ r ∧ x ∈ ws := by
  induction ws with
  | nil => simp [Waiters.erase]
  | cons w ws ih =>
    by_cases h : w = r
    · subst h
      simp only [Waiters.erase, if_true, ih, List.mem_cons]
      constructor
      · exact fun ⟨a, b⟩ => ⟨a, .inr b⟩
      · exact fun ⟨a, b⟩ => ⟨a, b.resolve_left a⟩
    · simp only [Waiters.erase, h, if_false, List.mem_cons, ih]
      constructor
      · rintro (rfl | ⟨a, b⟩)
        · exact ⟨h, .inl rfl⟩
        · exact ⟨a, .inr b⟩
      · rintro ⟨a, rfl | b⟩
        · exact .inl rfl
        · exact .inr ⟨a, b⟩

theorem Waiters.wf_erase {ws : List Nat} (h : Waiters.wf ws) (r : Nat) : Waiters.wf (Waiters.erase ws r) := by
  induction ws with
  | nil => exact h
  | cons w ws ih =>
    obtain ⟨hw, hs⟩ := List.pairwise_cons.1 h
    simp only [Waiters.erase]
    split
    · exact ih hs
    · exact List.pairwise_cons.2 ⟨fun x hx => hw x (Waiters.mem_erase.1 hx).2, ih hs⟩

/-- The arbiter picks a member, and it can pick every member (60_exceptions R245). -/
theorem Waiters.pick_mem {ws : List Nat} {k r : Nat} (h : Waiters.pick ws k = some r) : r ∈ ws :=
  List.mem_of_getElem? h

theorem Waiters.pick_every {ws : List Nat} {r : Nat} (h : r ∈ ws) : ∃ k, Waiters.pick ws k = some r := by
  obtain ⟨k, hk, rfl⟩ := List.getElem_of_mem h
  exact ⟨k, by rw [Waiters.pick, Nat.mod_eq_of_lt hk, List.getElem?_eq_getElem hk]⟩

end Sys2Proof.Machine
end

