-- ==== Sys2Proof/Laws/State.lean ====
section
/-! SUPPORT. Laws/State.lean: one lemma for each field and each named update of State, so that no later proof unfolds an update. -/

namespace Sys2Proof.Machine

/-! `emit(e)` writes WIRE alone (00_scope R9). -/

@[simp] theorem State.emit_mode (s : State) (e : Event) : (s.emit e).mode = s.mode := rfl
@[simp] theorem State.emit_phase (s : State) (e : Event) : (s.emit e).phase = s.phase := rfl
@[simp] theorem State.emit_cfg (s : State) (e : Event) : (s.emit e).cfg = s.cfg := rfl
@[simp] theorem State.emit_lock (s : State) (e : Event) : (s.emit e).lock = s.lock := rfl
@[simp] theorem State.emit_waiters (s : State) (e : Event) : (s.emit e).waiters = s.waiters := rfl
@[simp] theorem State.emit_cb (s : State) (e : Event) : (s.emit e).cb = s.cb := rfl
@[simp] theorem State.emit_cbLen (s : State) (e : Event) : (s.emit e).cbLen = s.cbLen := rfl
@[simp] theorem State.emit_buildErr (s : State) (e : Event) : (s.emit e).buildErr = s.buildErr := rfl
@[simp] theorem State.emit_sb (s : State) (e : Event) : (s.emit e).sb = s.sb := rfl
@[simp] theorem State.emit_sbLen (s : State) (e : Event) : (s.emit e).sbLen = s.sbLen := rfl
@[simp] theorem State.emit_seqSel (s : State) (e : Event) : (s.emit e).seqSel = s.seqSel := rfl
@[simp] theorem State.emit_seqPtr (s : State) (e : Event) : (s.emit e).seqPtr = s.seqPtr := rfl
@[simp] theorem State.emit_inFrame (s : State) (e : Event) : (s.emit e).inFrame = s.inFrame := rfl
@[simp] theorem State.emit_rdata (s : State) (e : Event) : (s.emit e).rdata = s.rdata := rfl
@[simp] theorem State.emit_rdLen (s : State) (e : Event) : (s.emit e).rdLen = s.rdLen := rfl
@[simp] theorem State.emit_aset (s : State) (e : Event) : (s.emit e).aset = s.aset := rfl
@[simp] theorem State.emit_scanAddr (s : State) (e : Event) : (s.emit e).scanAddr = s.scanAddr := rfl
@[simp] theorem State.emit_toggleCnt (s : State) (e : Event) : (s.emit e).toggleCnt = s.toggleCnt := rfl
@[simp] theorem State.emit_engineUp (s : State) (e : Event) : (s.emit e).engineUp = s.engineUp := rfl
@[simp] theorem State.emit_sdaMode (s : State) (e : Event) : (s.emit e).sdaMode = s.sdaMode := rfl
@[simp] theorem State.emit_sclMode (s : State) (e : Event) : (s.emit e).sclMode = s.sclMode := rfl
@[simp] theorem State.emit_sclLevel (s : State) (e : Event) : (s.emit e).sclLevel = s.sclLevel := rfl
@[simp] theorem State.emit_tmoArmed (s : State) (e : Event) : (s.emit e).tmoArmed = s.tmoArmed := rfl
@[simp] theorem State.emit_tmoMs (s : State) (e : Event) : (s.emit e).tmoMs = s.tmoMs := rfl
@[simp] theorem State.emit_wire (s : State) (e : Event) : (s.emit e).wire = s.wire ++ [e] := rfl
@[simp] theorem State.emit_responses (s : State) (e : Event) : (s.emit e).responses = s.responses := rfl
@[simp] theorem State.emit_ports (s : State) (e : Event) : (s.emit e).ports = s.ports := rfl
@[simp] theorem State.emit_stimuli (s : State) (e : Event) : (s.emit e).stimuli = s.stimuli := rfl
@[simp] theorem State.emit_cur (s : State) (e : Event) : (s.emit e).cur = s.cur := rfl
@[simp] theorem State.emit_service (s : State) (e : Event) : (s.emit e).service = s.service := rfl
@[simp] theorem State.emit_linkResult (s : State) (e : Event) : (s.emit e).linkResult = s.linkResult := rfl
@[simp] theorem State.emit_point (s : State) (e : Event) : (s.emit e).point = s.point := rfl
@[simp] theorem State.emit_env (s : State) (e : Event) : (s.emit e).env = s.env := rfl
@[simp] theorem State.emit_params (s : State) (e : Event) : (s.emit e).params = s.params := rfl

/-! The first line of ACQUIRE writes WAITERS alone (60_exceptions R244). -/

@[simp] theorem State.enqueue_mode (s : State) (r : Nat) : (s.enqueue r).mode = s.mode := rfl
@[simp] theorem State.enqueue_phase (s : State) (r : Nat) : (s.enqueue r).phase = s.phase := rfl
@[simp] theorem State.enqueue_cfg (s : State) (r : Nat) : (s.enqueue r).cfg = s.cfg := rfl
@[simp] theorem State.enqueue_lock (s : State) (r : Nat) : (s.enqueue r).lock = s.lock := rfl
@[simp] theorem State.enqueue_waiters (s : State) (r : Nat) : (s.enqueue r).waiters = Waiters.insert s.waiters r := rfl
@[simp] theorem State.enqueue_cb (s : State) (r : Nat) : (s.enqueue r).cb = s.cb := rfl
@[simp] theorem State.enqueue_cbLen (s : State) (r : Nat) : (s.enqueue r).cbLen = s.cbLen := rfl
@[simp] theorem State.enqueue_buildErr (s : State) (r : Nat) : (s.enqueue r).buildErr = s.buildErr := rfl
@[simp] theorem State.enqueue_sb (s : State) (r : Nat) : (s.enqueue r).sb = s.sb := rfl
@[simp] theorem State.enqueue_sbLen (s : State) (r : Nat) : (s.enqueue r).sbLen = s.sbLen := rfl
@[simp] theorem State.enqueue_seqSel (s : State) (r : Nat) : (s.enqueue r).seqSel = s.seqSel := rfl
@[simp] theorem State.enqueue_seqPtr (s : State) (r : Nat) : (s.enqueue r).seqPtr = s.seqPtr := rfl
@[simp] theorem State.enqueue_inFrame (s : State) (r : Nat) : (s.enqueue r).inFrame = s.inFrame := rfl
@[simp] theorem State.enqueue_rdata (s : State) (r : Nat) : (s.enqueue r).rdata = s.rdata := rfl
@[simp] theorem State.enqueue_rdLen (s : State) (r : Nat) : (s.enqueue r).rdLen = s.rdLen := rfl
@[simp] theorem State.enqueue_aset (s : State) (r : Nat) : (s.enqueue r).aset = s.aset := rfl
@[simp] theorem State.enqueue_scanAddr (s : State) (r : Nat) : (s.enqueue r).scanAddr = s.scanAddr := rfl
@[simp] theorem State.enqueue_toggleCnt (s : State) (r : Nat) : (s.enqueue r).toggleCnt = s.toggleCnt := rfl
@[simp] theorem State.enqueue_engineUp (s : State) (r : Nat) : (s.enqueue r).engineUp = s.engineUp := rfl
@[simp] theorem State.enqueue_sdaMode (s : State) (r : Nat) : (s.enqueue r).sdaMode = s.sdaMode := rfl
@[simp] theorem State.enqueue_sclMode (s : State) (r : Nat) : (s.enqueue r).sclMode = s.sclMode := rfl
@[simp] theorem State.enqueue_sclLevel (s : State) (r : Nat) : (s.enqueue r).sclLevel = s.sclLevel := rfl
@[simp] theorem State.enqueue_tmoArmed (s : State) (r : Nat) : (s.enqueue r).tmoArmed = s.tmoArmed := rfl
@[simp] theorem State.enqueue_tmoMs (s : State) (r : Nat) : (s.enqueue r).tmoMs = s.tmoMs := rfl
@[simp] theorem State.enqueue_wire (s : State) (r : Nat) : (s.enqueue r).wire = s.wire := rfl
@[simp] theorem State.enqueue_responses (s : State) (r : Nat) : (s.enqueue r).responses = s.responses := rfl
@[simp] theorem State.enqueue_ports (s : State) (r : Nat) : (s.enqueue r).ports = s.ports := rfl
@[simp] theorem State.enqueue_stimuli (s : State) (r : Nat) : (s.enqueue r).stimuli = s.stimuli := rfl
@[simp] theorem State.enqueue_cur (s : State) (r : Nat) : (s.enqueue r).cur = s.cur := rfl
@[simp] theorem State.enqueue_service (s : State) (r : Nat) : (s.enqueue r).service = s.service := rfl
@[simp] theorem State.enqueue_linkResult (s : State) (r : Nat) : (s.enqueue r).linkResult = s.linkResult := rfl
@[simp] theorem State.enqueue_point (s : State) (r : Nat) : (s.enqueue r).point = s.point := rfl
@[simp] theorem State.enqueue_env (s : State) (r : Nat) : (s.enqueue r).env = s.env := rfl
@[simp] theorem State.enqueue_params (s : State) (r : Nat) : (s.enqueue r).params = s.params := rfl

/-! The grant writes the lock and WAITERS alone (60_exceptions R244). -/

@[simp] theorem State.acquire_mode (s : State) : s.acquire.mode = s.mode := rfl
@[simp] theorem State.acquire_phase (s : State) : s.acquire.phase = s.phase := rfl
@[simp] theorem State.acquire_cfg (s : State) : s.acquire.cfg = s.cfg := rfl
@[simp] theorem State.acquire_lock (s : State) : s.acquire.lock = .held s.cur := rfl
@[simp] theorem State.acquire_waiters (s : State) : s.acquire.waiters = Waiters.erase s.waiters s.cur := rfl
@[simp] theorem State.acquire_cb (s : State) : s.acquire.cb = s.cb := rfl
@[simp] theorem State.acquire_cbLen (s : State) : s.acquire.cbLen = s.cbLen := rfl
@[simp] theorem State.acquire_buildErr (s : State) : s.acquire.buildErr = s.buildErr := rfl
@[simp] theorem State.acquire_sb (s : State) : s.acquire.sb = s.sb := rfl
@[simp] theorem State.acquire_sbLen (s : State) : s.acquire.sbLen = s.sbLen := rfl
@[simp] theorem State.acquire_seqSel (s : State) : s.acquire.seqSel = s.seqSel := rfl
@[simp] theorem State.acquire_seqPtr (s : State) : s.acquire.seqPtr = s.seqPtr := rfl
@[simp] theorem State.acquire_inFrame (s : State) : s.acquire.inFrame = s.inFrame := rfl
@[simp] theorem State.acquire_rdata (s : State) : s.acquire.rdata = s.rdata := rfl
@[simp] theorem State.acquire_rdLen (s : State) : s.acquire.rdLen = s.rdLen := rfl
@[simp] theorem State.acquire_aset (s : State) : s.acquire.aset = s.aset := rfl
@[simp] theorem State.acquire_scanAddr (s : State) : s.acquire.scanAddr = s.scanAddr := rfl
@[simp] theorem State.acquire_toggleCnt (s : State) : s.acquire.toggleCnt = s.toggleCnt := rfl
@[simp] theorem State.acquire_engineUp (s : State) : s.acquire.engineUp = s.engineUp := rfl
@[simp] theorem State.acquire_sdaMode (s : State) : s.acquire.sdaMode = s.sdaMode := rfl
@[simp] theorem State.acquire_sclMode (s : State) : s.acquire.sclMode = s.sclMode := rfl
@[simp] theorem State.acquire_sclLevel (s : State) : s.acquire.sclLevel = s.sclLevel := rfl
@[simp] theorem State.acquire_tmoArmed (s : State) : s.acquire.tmoArmed = s.tmoArmed := rfl
@[simp] theorem State.acquire_tmoMs (s : State) : s.acquire.tmoMs = s.tmoMs := rfl
@[simp] theorem State.acquire_wire (s : State) : s.acquire.wire = s.wire := rfl
@[simp] theorem State.acquire_responses (s : State) : s.acquire.responses = s.responses := rfl
@[simp] theorem State.acquire_ports (s : State) : s.acquire.ports = s.ports := rfl
@[simp] theorem State.acquire_stimuli (s : State) : s.acquire.stimuli = s.stimuli := rfl
@[simp] theorem State.acquire_cur (s : State) : s.acquire.cur = s.cur := rfl
@[simp] theorem State.acquire_service (s : State) : s.acquire.service = s.service := rfl
@[simp] theorem State.acquire_linkResult (s : State) : s.acquire.linkResult = s.linkResult := rfl
@[simp] theorem State.acquire_point (s : State) : s.acquire.point = s.point := rfl
@[simp] theorem State.acquire_env (s : State) : s.acquire.env = s.env := rfl
@[simp] theorem State.acquire_params (s : State) : s.acquire.params = s.params := rfl

/-! RELEASE writes the lock alone (60_exceptions R244). -/

@[simp] theorem State.release_mode (s : State) : s.release.mode = s.mode := rfl
@[simp] theorem State.release_phase (s : State) : s.release.phase = s.phase := rfl
@[simp] theorem State.release_cfg (s : State) : s.release.cfg = s.cfg := rfl
@[simp] theorem State.release_lock (s : State) : s.release.lock = .free := rfl
@[simp] theorem State.release_waiters (s : State) : s.release.waiters = s.waiters := rfl
@[simp] theorem State.release_cb (s : State) : s.release.cb = s.cb := rfl
@[simp] theorem State.release_cbLen (s : State) : s.release.cbLen = s.cbLen := rfl
@[simp] theorem State.release_buildErr (s : State) : s.release.buildErr = s.buildErr := rfl
@[simp] theorem State.release_sb (s : State) : s.release.sb = s.sb := rfl
@[simp] theorem State.release_sbLen (s : State) : s.release.sbLen = s.sbLen := rfl
@[simp] theorem State.release_seqSel (s : State) : s.release.seqSel = s.seqSel := rfl
@[simp] theorem State.release_seqPtr (s : State) : s.release.seqPtr = s.seqPtr := rfl
@[simp] theorem State.release_inFrame (s : State) : s.release.inFrame = s.inFrame := rfl
@[simp] theorem State.release_rdata (s : State) : s.release.rdata = s.rdata := rfl
@[simp] theorem State.release_rdLen (s : State) : s.release.rdLen = s.rdLen := rfl
@[simp] theorem State.release_aset (s : State) : s.release.aset = s.aset := rfl
@[simp] theorem State.release_scanAddr (s : State) : s.release.scanAddr = s.scanAddr := rfl
@[simp] theorem State.release_toggleCnt (s : State) : s.release.toggleCnt = s.toggleCnt := rfl
@[simp] theorem State.release_engineUp (s : State) : s.release.engineUp = s.engineUp := rfl
@[simp] theorem State.release_sdaMode (s : State) : s.release.sdaMode = s.sdaMode := rfl
@[simp] theorem State.release_sclMode (s : State) : s.release.sclMode = s.sclMode := rfl
@[simp] theorem State.release_sclLevel (s : State) : s.release.sclLevel = s.sclLevel := rfl
@[simp] theorem State.release_tmoArmed (s : State) : s.release.tmoArmed = s.tmoArmed := rfl
@[simp] theorem State.release_tmoMs (s : State) : s.release.tmoMs = s.tmoMs := rfl
@[simp] theorem State.release_wire (s : State) : s.release.wire = s.wire := rfl
@[simp] theorem State.release_responses (s : State) : s.release.responses = s.responses := rfl
@[simp] theorem State.release_ports (s : State) : s.release.ports = s.ports := rfl
@[simp] theorem State.release_stimuli (s : State) : s.release.stimuli = s.stimuli := rfl
@[simp] theorem State.release_cur (s : State) : s.release.cur = s.cur := rfl
@[simp] theorem State.release_service (s : State) : s.release.service = s.service := rfl
@[simp] theorem State.release_linkResult (s : State) : s.release.linkResult = s.linkResult := rfl
@[simp] theorem State.release_point (s : State) : s.release.point = s.point := rfl
@[simp] theorem State.release_env (s : State) : s.release.env = s.env := rfl
@[simp] theorem State.release_params (s : State) : s.release.params = s.params := rfl

/-! A delivery writes the responses and frees the port (30_encoding R98). -/

@[simp] theorem State.deliver_mode (s : State) (r : Nat) (x : Response) : (s.deliver r x).mode = s.mode := rfl
@[simp] theorem State.deliver_phase (s : State) (r : Nat) (x : Response) : (s.deliver r x).phase = s.phase := rfl
@[simp] theorem State.deliver_cfg (s : State) (r : Nat) (x : Response) : (s.deliver r x).cfg = s.cfg := rfl
@[simp] theorem State.deliver_lock (s : State) (r : Nat) (x : Response) : (s.deliver r x).lock = s.lock := rfl
@[simp] theorem State.deliver_waiters (s : State) (r : Nat) (x : Response) : (s.deliver r x).waiters = s.waiters := rfl
@[simp] theorem State.deliver_cb (s : State) (r : Nat) (x : Response) : (s.deliver r x).cb = s.cb := rfl
@[simp] theorem State.deliver_cbLen (s : State) (r : Nat) (x : Response) : (s.deliver r x).cbLen = s.cbLen := rfl
@[simp] theorem State.deliver_buildErr (s : State) (r : Nat) (x : Response) : (s.deliver r x).buildErr = s.buildErr := rfl
@[simp] theorem State.deliver_sb (s : State) (r : Nat) (x : Response) : (s.deliver r x).sb = s.sb := rfl
@[simp] theorem State.deliver_sbLen (s : State) (r : Nat) (x : Response) : (s.deliver r x).sbLen = s.sbLen := rfl
@[simp] theorem State.deliver_seqSel (s : State) (r : Nat) (x : Response) : (s.deliver r x).seqSel = s.seqSel := rfl
@[simp] theorem State.deliver_seqPtr (s : State) (r : Nat) (x : Response) : (s.deliver r x).seqPtr = s.seqPtr := rfl
@[simp] theorem State.deliver_inFrame (s : State) (r : Nat) (x : Response) : (s.deliver r x).inFrame = s.inFrame := rfl
@[simp] theorem State.deliver_rdata (s : State) (r : Nat) (x : Response) : (s.deliver r x).rdata = s.rdata := rfl
@[simp] theorem State.deliver_rdLen (s : State) (r : Nat) (x : Response) : (s.deliver r x).rdLen = s.rdLen := rfl
@[simp] theorem State.deliver_aset (s : State) (r : Nat) (x : Response) : (s.deliver r x).aset = s.aset := rfl
@[simp] theorem State.deliver_scanAddr (s : State) (r : Nat) (x : Response) : (s.deliver r x).scanAddr = s.scanAddr := rfl
@[simp] theorem State.deliver_toggleCnt (s : State) (r : Nat) (x : Response) : (s.deliver r x).toggleCnt = s.toggleCnt := rfl
@[simp] theorem State.deliver_engineUp (s : State) (r : Nat) (x : Response) : (s.deliver r x).engineUp = s.engineUp := rfl
@[simp] theorem State.deliver_sdaMode (s : State) (r : Nat) (x : Response) : (s.deliver r x).sdaMode = s.sdaMode := rfl
@[simp] theorem State.deliver_sclMode (s : State) (r : Nat) (x : Response) : (s.deliver r x).sclMode = s.sclMode := rfl
@[simp] theorem State.deliver_sclLevel (s : State) (r : Nat) (x : Response) : (s.deliver r x).sclLevel = s.sclLevel := rfl
@[simp] theorem State.deliver_tmoArmed (s : State) (r : Nat) (x : Response) : (s.deliver r x).tmoArmed = s.tmoArmed := rfl
@[simp] theorem State.deliver_tmoMs (s : State) (r : Nat) (x : Response) : (s.deliver r x).tmoMs = s.tmoMs := rfl
@[simp] theorem State.deliver_wire (s : State) (r : Nat) (x : Response) : (s.deliver r x).wire = s.wire := rfl
@[simp] theorem State.deliver_responses (s : State) (r : Nat) (x : Response) : (s.deliver r x).responses = s.responses ++ [(r, x)] := rfl
@[simp] theorem State.deliver_ports (s : State) (r : Nat) (x : Response) : (s.deliver r x).ports = Assoc.del s.ports r := rfl
@[simp] theorem State.deliver_stimuli (s : State) (r : Nat) (x : Response) : (s.deliver r x).stimuli = s.stimuli := rfl
@[simp] theorem State.deliver_cur (s : State) (r : Nat) (x : Response) : (s.deliver r x).cur = s.cur := rfl
@[simp] theorem State.deliver_service (s : State) (r : Nat) (x : Response) : (s.deliver r x).service = s.service := rfl
@[simp] theorem State.deliver_linkResult (s : State) (r : Nat) (x : Response) : (s.deliver r x).linkResult = s.linkResult := rfl
@[simp] theorem State.deliver_point (s : State) (r : Nat) (x : Response) : (s.deliver r x).point = s.point := rfl
@[simp] theorem State.deliver_env (s : State) (r : Nat) (x : Response) : (s.deliver r x).env = s.env := rfl
@[simp] theorem State.deliver_params (s : State) (r : Nat) (x : Response) : (s.deliver r x).params = s.params := rfl

/-! The data draws of a response use up the environment alone. -/

@[simp] theorem State.drawBytes_mode (s : State) (n : Nat) : (s.drawBytes n).mode = s.mode := rfl
@[simp] theorem State.drawBytes_phase (s : State) (n : Nat) : (s.drawBytes n).phase = s.phase := rfl
@[simp] theorem State.drawBytes_cfg (s : State) (n : Nat) : (s.drawBytes n).cfg = s.cfg := rfl
@[simp] theorem State.drawBytes_lock (s : State) (n : Nat) : (s.drawBytes n).lock = s.lock := rfl
@[simp] theorem State.drawBytes_waiters (s : State) (n : Nat) : (s.drawBytes n).waiters = s.waiters := rfl
@[simp] theorem State.drawBytes_cb (s : State) (n : Nat) : (s.drawBytes n).cb = s.cb := rfl
@[simp] theorem State.drawBytes_cbLen (s : State) (n : Nat) : (s.drawBytes n).cbLen = s.cbLen := rfl
@[simp] theorem State.drawBytes_buildErr (s : State) (n : Nat) : (s.drawBytes n).buildErr = s.buildErr := rfl
@[simp] theorem State.drawBytes_sb (s : State) (n : Nat) : (s.drawBytes n).sb = s.sb := rfl
@[simp] theorem State.drawBytes_sbLen (s : State) (n : Nat) : (s.drawBytes n).sbLen = s.sbLen := rfl
@[simp] theorem State.drawBytes_seqSel (s : State) (n : Nat) : (s.drawBytes n).seqSel = s.seqSel := rfl
@[simp] theorem State.drawBytes_seqPtr (s : State) (n : Nat) : (s.drawBytes n).seqPtr = s.seqPtr := rfl
@[simp] theorem State.drawBytes_inFrame (s : State) (n : Nat) : (s.drawBytes n).inFrame = s.inFrame := rfl
@[simp] theorem State.drawBytes_rdata (s : State) (n : Nat) : (s.drawBytes n).rdata = s.rdata := rfl
@[simp] theorem State.drawBytes_rdLen (s : State) (n : Nat) : (s.drawBytes n).rdLen = s.rdLen := rfl
@[simp] theorem State.drawBytes_aset (s : State) (n : Nat) : (s.drawBytes n).aset = s.aset := rfl
@[simp] theorem State.drawBytes_scanAddr (s : State) (n : Nat) : (s.drawBytes n).scanAddr = s.scanAddr := rfl
@[simp] theorem State.drawBytes_toggleCnt (s : State) (n : Nat) : (s.drawBytes n).toggleCnt = s.toggleCnt := rfl
@[simp] theorem State.drawBytes_engineUp (s : State) (n : Nat) : (s.drawBytes n).engineUp = s.engineUp := rfl
@[simp] theorem State.drawBytes_sdaMode (s : State) (n : Nat) : (s.drawBytes n).sdaMode = s.sdaMode := rfl
@[simp] theorem State.drawBytes_sclMode (s : State) (n : Nat) : (s.drawBytes n).sclMode = s.sclMode := rfl
@[simp] theorem State.drawBytes_sclLevel (s : State) (n : Nat) : (s.drawBytes n).sclLevel = s.sclLevel := rfl
@[simp] theorem State.drawBytes_tmoArmed (s : State) (n : Nat) : (s.drawBytes n).tmoArmed = s.tmoArmed := rfl
@[simp] theorem State.drawBytes_tmoMs (s : State) (n : Nat) : (s.drawBytes n).tmoMs = s.tmoMs := rfl
@[simp] theorem State.drawBytes_wire (s : State) (n : Nat) : (s.drawBytes n).wire = s.wire := rfl
@[simp] theorem State.drawBytes_responses (s : State) (n : Nat) : (s.drawBytes n).responses = s.responses := rfl
@[simp] theorem State.drawBytes_ports (s : State) (n : Nat) : (s.drawBytes n).ports = s.ports := rfl
@[simp] theorem State.drawBytes_stimuli (s : State) (n : Nat) : (s.drawBytes n).stimuli = s.stimuli := rfl
@[simp] theorem State.drawBytes_cur (s : State) (n : Nat) : (s.drawBytes n).cur = s.cur := rfl
@[simp] theorem State.drawBytes_service (s : State) (n : Nat) : (s.drawBytes n).service = s.service := rfl
@[simp] theorem State.drawBytes_linkResult (s : State) (n : Nat) : (s.drawBytes n).linkResult = s.linkResult := rfl
@[simp] theorem State.drawBytes_point (s : State) (n : Nat) : (s.drawBytes n).point = s.point := rfl
@[simp] theorem State.drawBytes_env (s : State) (n : Nat) : (s.drawBytes n).env = s.env.dropBytes n := rfl
@[simp] theorem State.drawBytes_params (s : State) (n : Nat) : (s.drawBytes n).params = s.params := rfl

/-! The end of EXECUTE writes its result and disarms the watchdog (41_command_link R140). -/

@[simp] theorem State.endLink_mode (s : State) (st : Status) : (s.endLink st).mode = s.mode := rfl
@[simp] theorem State.endLink_phase (s : State) (st : Status) : (s.endLink st).phase = s.phase := rfl
@[simp] theorem State.endLink_cfg (s : State) (st : Status) : (s.endLink st).cfg = s.cfg := rfl
@[simp] theorem State.endLink_lock (s : State) (st : Status) : (s.endLink st).lock = s.lock := rfl
@[simp] theorem State.endLink_waiters (s : State) (st : Status) : (s.endLink st).waiters = s.waiters := rfl
@[simp] theorem State.endLink_cb (s : State) (st : Status) : (s.endLink st).cb = s.cb := rfl
@[simp] theorem State.endLink_cbLen (s : State) (st : Status) : (s.endLink st).cbLen = s.cbLen := rfl
@[simp] theorem State.endLink_buildErr (s : State) (st : Status) : (s.endLink st).buildErr = s.buildErr := rfl
@[simp] theorem State.endLink_sb (s : State) (st : Status) : (s.endLink st).sb = s.sb := rfl
@[simp] theorem State.endLink_sbLen (s : State) (st : Status) : (s.endLink st).sbLen = s.sbLen := rfl
@[simp] theorem State.endLink_seqSel (s : State) (st : Status) : (s.endLink st).seqSel = s.seqSel := rfl
@[simp] theorem State.endLink_seqPtr (s : State) (st : Status) : (s.endLink st).seqPtr = s.seqPtr := rfl
@[simp] theorem State.endLink_inFrame (s : State) (st : Status) : (s.endLink st).inFrame = s.inFrame := rfl
@[simp] theorem State.endLink_rdata (s : State) (st : Status) : (s.endLink st).rdata = s.rdata := rfl
@[simp] theorem State.endLink_rdLen (s : State) (st : Status) : (s.endLink st).rdLen = s.rdLen := rfl
@[simp] theorem State.endLink_aset (s : State) (st : Status) : (s.endLink st).aset = s.aset := rfl
@[simp] theorem State.endLink_scanAddr (s : State) (st : Status) : (s.endLink st).scanAddr = s.scanAddr := rfl
@[simp] theorem State.endLink_toggleCnt (s : State) (st : Status) : (s.endLink st).toggleCnt = s.toggleCnt := rfl
@[simp] theorem State.endLink_engineUp (s : State) (st : Status) : (s.endLink st).engineUp = s.engineUp := rfl
@[simp] theorem State.endLink_sdaMode (s : State) (st : Status) : (s.endLink st).sdaMode = s.sdaMode := rfl
@[simp] theorem State.endLink_sclMode (s : State) (st : Status) : (s.endLink st).sclMode = s.sclMode := rfl
@[simp] theorem State.endLink_sclLevel (s : State) (st : Status) : (s.endLink st).sclLevel = s.sclLevel := rfl
@[simp] theorem State.endLink_tmoArmed (s : State) (st : Status) : (s.endLink st).tmoArmed = false := rfl
@[simp] theorem State.endLink_tmoMs (s : State) (st : Status) : (s.endLink st).tmoMs = s.tmoMs := rfl
@[simp] theorem State.endLink_wire (s : State) (st : Status) : (s.endLink st).wire = s.wire := rfl
@[simp] theorem State.endLink_responses (s : State) (st : Status) : (s.endLink st).responses = s.responses := rfl
@[simp] theorem State.endLink_ports (s : State) (st : Status) : (s.endLink st).ports = s.ports := rfl
@[simp] theorem State.endLink_stimuli (s : State) (st : Status) : (s.endLink st).stimuli = s.stimuli := rfl
@[simp] theorem State.endLink_cur (s : State) (st : Status) : (s.endLink st).cur = s.cur := rfl
@[simp] theorem State.endLink_service (s : State) (st : Status) : (s.endLink st).service = s.service := rfl
@[simp] theorem State.endLink_linkResult (s : State) (st : Status) : (s.endLink st).linkResult = some st := rfl
@[simp] theorem State.endLink_point (s : State) (st : Status) : (s.endLink st).point = .operation 0 := rfl
@[simp] theorem State.endLink_env (s : State) (st : Status) : (s.endLink st).env = s.env := rfl
@[simp] theorem State.endLink_params (s : State) (st : Status) : (s.endLink st).params = s.params := rfl

/-! A byte read writes RDATA and RD_LEN alone (10_state R27). -/

@[simp] theorem State.receive_mode (s : State) (v : Byte) : (s.receive v).mode = s.mode := rfl
@[simp] theorem State.receive_phase (s : State) (v : Byte) : (s.receive v).phase = s.phase := rfl
@[simp] theorem State.receive_cfg (s : State) (v : Byte) : (s.receive v).cfg = s.cfg := rfl
@[simp] theorem State.receive_lock (s : State) (v : Byte) : (s.receive v).lock = s.lock := rfl
@[simp] theorem State.receive_waiters (s : State) (v : Byte) : (s.receive v).waiters = s.waiters := rfl
@[simp] theorem State.receive_cb (s : State) (v : Byte) : (s.receive v).cb = s.cb := rfl
@[simp] theorem State.receive_cbLen (s : State) (v : Byte) : (s.receive v).cbLen = s.cbLen := rfl
@[simp] theorem State.receive_buildErr (s : State) (v : Byte) : (s.receive v).buildErr = s.buildErr := rfl
@[simp] theorem State.receive_sb (s : State) (v : Byte) : (s.receive v).sb = s.sb := rfl
@[simp] theorem State.receive_sbLen (s : State) (v : Byte) : (s.receive v).sbLen = s.sbLen := rfl
@[simp] theorem State.receive_seqSel (s : State) (v : Byte) : (s.receive v).seqSel = s.seqSel := rfl
@[simp] theorem State.receive_seqPtr (s : State) (v : Byte) : (s.receive v).seqPtr = s.seqPtr := rfl
@[simp] theorem State.receive_inFrame (s : State) (v : Byte) : (s.receive v).inFrame = s.inFrame := rfl
@[simp] theorem State.receive_rdata (s : State) (v : Byte) : (s.receive v).rdata = Memory.write s.rdata s.rdLen v := rfl
@[simp] theorem State.receive_rdLen (s : State) (v : Byte) : (s.receive v).rdLen = s.rdLen + 1 := rfl
@[simp] theorem State.receive_aset (s : State) (v : Byte) : (s.receive v).aset = s.aset := rfl
@[simp] theorem State.receive_scanAddr (s : State) (v : Byte) : (s.receive v).scanAddr = s.scanAddr := rfl
@[simp] theorem State.receive_toggleCnt (s : State) (v : Byte) : (s.receive v).toggleCnt = s.toggleCnt := rfl
@[simp] theorem State.receive_engineUp (s : State) (v : Byte) : (s.receive v).engineUp = s.engineUp := rfl
@[simp] theorem State.receive_sdaMode (s : State) (v : Byte) : (s.receive v).sdaMode = s.sdaMode := rfl
@[simp] theorem State.receive_sclMode (s : State) (v : Byte) : (s.receive v).sclMode = s.sclMode := rfl
@[simp] theorem State.receive_sclLevel (s : State) (v : Byte) : (s.receive v).sclLevel = s.sclLevel := rfl
@[simp] theorem State.receive_tmoArmed (s : State) (v : Byte) : (s.receive v).tmoArmed = s.tmoArmed := rfl
@[simp] theorem State.receive_tmoMs (s : State) (v : Byte) : (s.receive v).tmoMs = s.tmoMs := rfl
@[simp] theorem State.receive_wire (s : State) (v : Byte) : (s.receive v).wire = s.wire := rfl
@[simp] theorem State.receive_responses (s : State) (v : Byte) : (s.receive v).responses = s.responses := rfl
@[simp] theorem State.receive_ports (s : State) (v : Byte) : (s.receive v).ports = s.ports := rfl
@[simp] theorem State.receive_stimuli (s : State) (v : Byte) : (s.receive v).stimuli = s.stimuli := rfl
@[simp] theorem State.receive_cur (s : State) (v : Byte) : (s.receive v).cur = s.cur := rfl
@[simp] theorem State.receive_service (s : State) (v : Byte) : (s.receive v).service = s.service := rfl
@[simp] theorem State.receive_linkResult (s : State) (v : Byte) : (s.receive v).linkResult = s.linkResult := rfl
@[simp] theorem State.receive_point (s : State) (v : Byte) : (s.receive v).point = s.point := rfl
@[simp] theorem State.receive_env (s : State) (v : Byte) : (s.receive v).env = s.env := rfl
@[simp] theorem State.receive_params (s : State) (v : Byte) : (s.receive v).params = s.params := rfl

/-! What the entry of the timeout trap writes, and that it saves and writes nothing else (60_exceptions R238). -/

@[simp] theorem takeTimeoutTrap_mode (s : State) : (takeTimeoutTrap s).mode = s.mode := rfl
@[simp] theorem takeTimeoutTrap_phase (s : State) : (takeTimeoutTrap s).phase = .recover := rfl
@[simp] theorem takeTimeoutTrap_cfg (s : State) : (takeTimeoutTrap s).cfg = s.cfg := rfl
@[simp] theorem takeTimeoutTrap_lock (s : State) : (takeTimeoutTrap s).lock = s.lock := rfl
@[simp] theorem takeTimeoutTrap_waiters (s : State) : (takeTimeoutTrap s).waiters = s.waiters := rfl
@[simp] theorem takeTimeoutTrap_cb (s : State) : (takeTimeoutTrap s).cb = s.cb := rfl
@[simp] theorem takeTimeoutTrap_cbLen (s : State) : (takeTimeoutTrap s).cbLen = s.cbLen := rfl
@[simp] theorem takeTimeoutTrap_buildErr (s : State) : (takeTimeoutTrap s).buildErr = s.buildErr := rfl
@[simp] theorem takeTimeoutTrap_sb (s : State) : (takeTimeoutTrap s).sb = s.sb := rfl
@[simp] theorem takeTimeoutTrap_sbLen (s : State) : (takeTimeoutTrap s).sbLen = s.sbLen := rfl
@[simp] theorem takeTimeoutTrap_seqSel (s : State) : (takeTimeoutTrap s).seqSel = s.seqSel := rfl
@[simp] theorem takeTimeoutTrap_seqPtr (s : State) : (takeTimeoutTrap s).seqPtr = s.seqPtr := rfl
@[simp] theorem takeTimeoutTrap_inFrame (s : State) : (takeTimeoutTrap s).inFrame = false := rfl
@[simp] theorem takeTimeoutTrap_rdata (s : State) : (takeTimeoutTrap s).rdata = s.rdata := rfl
@[simp] theorem takeTimeoutTrap_rdLen (s : State) : (takeTimeoutTrap s).rdLen = s.rdLen := rfl
@[simp] theorem takeTimeoutTrap_aset (s : State) : (takeTimeoutTrap s).aset = s.aset := rfl
@[simp] theorem takeTimeoutTrap_scanAddr (s : State) : (takeTimeoutTrap s).scanAddr = s.scanAddr := rfl
@[simp] theorem takeTimeoutTrap_toggleCnt (s : State) : (takeTimeoutTrap s).toggleCnt = 0 := rfl
@[simp] theorem takeTimeoutTrap_engineUp (s : State) : (takeTimeoutTrap s).engineUp = s.engineUp := rfl
@[simp] theorem takeTimeoutTrap_sdaMode (s : State) : (takeTimeoutTrap s).sdaMode = s.sdaMode := rfl
@[simp] theorem takeTimeoutTrap_sclMode (s : State) : (takeTimeoutTrap s).sclMode = s.sclMode := rfl
@[simp] theorem takeTimeoutTrap_sclLevel (s : State) : (takeTimeoutTrap s).sclLevel = s.sclLevel := rfl
@[simp] theorem takeTimeoutTrap_tmoArmed (s : State) : (takeTimeoutTrap s).tmoArmed = false := rfl
@[simp] theorem takeTimeoutTrap_tmoMs (s : State) : (takeTimeoutTrap s).tmoMs = s.tmoMs := rfl
@[simp] theorem takeTimeoutTrap_wire (s : State) : (takeTimeoutTrap s).wire = s.wire ++ [.tmo] := rfl
@[simp] theorem takeTimeoutTrap_responses (s : State) : (takeTimeoutTrap s).responses = s.responses := rfl
@[simp] theorem takeTimeoutTrap_ports (s : State) : (takeTimeoutTrap s).ports = s.ports := rfl
@[simp] theorem takeTimeoutTrap_stimuli (s : State) : (takeTimeoutTrap s).stimuli = s.stimuli := rfl
@[simp] theorem takeTimeoutTrap_cur (s : State) : (takeTimeoutTrap s).cur = s.cur := rfl
@[simp] theorem takeTimeoutTrap_service (s : State) : (takeTimeoutTrap s).service = s.service := rfl
@[simp] theorem takeTimeoutTrap_linkResult (s : State) : (takeTimeoutTrap s).linkResult = s.linkResult := rfl
@[simp] theorem takeTimeoutTrap_point (s : State) : (takeTimeoutTrap s).point = .recovery .tearDown := rfl
@[simp] theorem takeTimeoutTrap_env (s : State) : (takeTimeoutTrap s).env = s.env := rfl
@[simp] theorem takeTimeoutTrap_params (s : State) : (takeTimeoutTrap s).params = s.params := rfl

/-! A delay writes WIRE alone (42_recovery R171). -/

@[simp] theorem holdClock_mode (s : State) : (holdClock s).mode = s.mode := rfl
@[simp] theorem holdClock_phase (s : State) : (holdClock s).phase = s.phase := rfl
@[simp] theorem holdClock_cfg (s : State) : (holdClock s).cfg = s.cfg := rfl
@[simp] theorem holdClock_lock (s : State) : (holdClock s).lock = s.lock := rfl
@[simp] theorem holdClock_waiters (s : State) : (holdClock s).waiters = s.waiters := rfl
@[simp] theorem holdClock_cb (s : State) : (holdClock s).cb = s.cb := rfl
@[simp] theorem holdClock_cbLen (s : State) : (holdClock s).cbLen = s.cbLen := rfl
@[simp] theorem holdClock_buildErr (s : State) : (holdClock s).buildErr = s.buildErr := rfl
@[simp] theorem holdClock_sb (s : State) : (holdClock s).sb = s.sb := rfl
@[simp] theorem holdClock_sbLen (s : State) : (holdClock s).sbLen = s.sbLen := rfl
@[simp] theorem holdClock_seqSel (s : State) : (holdClock s).seqSel = s.seqSel := rfl
@[simp] theorem holdClock_seqPtr (s : State) : (holdClock s).seqPtr = s.seqPtr := rfl
@[simp] theorem holdClock_inFrame (s : State) : (holdClock s).inFrame = s.inFrame := rfl
@[simp] theorem holdClock_rdata (s : State) : (holdClock s).rdata = s.rdata := rfl
@[simp] theorem holdClock_rdLen (s : State) : (holdClock s).rdLen = s.rdLen := rfl
@[simp] theorem holdClock_aset (s : State) : (holdClock s).aset = s.aset := rfl
@[simp] theorem holdClock_scanAddr (s : State) : (holdClock s).scanAddr = s.scanAddr := rfl
@[simp] theorem holdClock_toggleCnt (s : State) : (holdClock s).toggleCnt = s.toggleCnt := rfl
@[simp] theorem holdClock_engineUp (s : State) : (holdClock s).engineUp = s.engineUp := rfl
@[simp] theorem holdClock_sdaMode (s : State) : (holdClock s).sdaMode = s.sdaMode := rfl
@[simp] theorem holdClock_sclMode (s : State) : (holdClock s).sclMode = s.sclMode := rfl
@[simp] theorem holdClock_sclLevel (s : State) : (holdClock s).sclLevel = s.sclLevel := rfl
@[simp] theorem holdClock_tmoArmed (s : State) : (holdClock s).tmoArmed = s.tmoArmed := rfl
@[simp] theorem holdClock_tmoMs (s : State) : (holdClock s).tmoMs = s.tmoMs := rfl
@[simp] theorem holdClock_wire (s : State) : (holdClock s).wire = s.wire ++ [.dly (halfPeriod s.cfg.speedHz)] := rfl
@[simp] theorem holdClock_responses (s : State) : (holdClock s).responses = s.responses := rfl
@[simp] theorem holdClock_ports (s : State) : (holdClock s).ports = s.ports := rfl
@[simp] theorem holdClock_stimuli (s : State) : (holdClock s).stimuli = s.stimuli := rfl
@[simp] theorem holdClock_cur (s : State) : (holdClock s).cur = s.cur := rfl
@[simp] theorem holdClock_service (s : State) : (holdClock s).service = s.service := rfl
@[simp] theorem holdClock_linkResult (s : State) : (holdClock s).linkResult = s.linkResult := rfl
@[simp] theorem holdClock_point (s : State) : (holdClock s).point = s.point := rfl
@[simp] theorem holdClock_env (s : State) : (holdClock s).env = s.env := rfl
@[simp] theorem holdClock_params (s : State) : (holdClock s).params = s.params := rfl

/-! The count of the toggles alone is written (42_recovery R171). -/

@[simp] theorem State.countToggle_mode (s : State) : s.countToggle.mode = s.mode := rfl
@[simp] theorem State.countToggle_phase (s : State) : s.countToggle.phase = s.phase := rfl
@[simp] theorem State.countToggle_cfg (s : State) : s.countToggle.cfg = s.cfg := rfl
@[simp] theorem State.countToggle_lock (s : State) : s.countToggle.lock = s.lock := rfl
@[simp] theorem State.countToggle_waiters (s : State) : s.countToggle.waiters = s.waiters := rfl
@[simp] theorem State.countToggle_cb (s : State) : s.countToggle.cb = s.cb := rfl
@[simp] theorem State.countToggle_cbLen (s : State) : s.countToggle.cbLen = s.cbLen := rfl
@[simp] theorem State.countToggle_buildErr (s : State) : s.countToggle.buildErr = s.buildErr := rfl
@[simp] theorem State.countToggle_sb (s : State) : s.countToggle.sb = s.sb := rfl
@[simp] theorem State.countToggle_sbLen (s : State) : s.countToggle.sbLen = s.sbLen := rfl
@[simp] theorem State.countToggle_seqSel (s : State) : s.countToggle.seqSel = s.seqSel := rfl
@[simp] theorem State.countToggle_seqPtr (s : State) : s.countToggle.seqPtr = s.seqPtr := rfl
@[simp] theorem State.countToggle_inFrame (s : State) : s.countToggle.inFrame = s.inFrame := rfl
@[simp] theorem State.countToggle_rdata (s : State) : s.countToggle.rdata = s.rdata := rfl
@[simp] theorem State.countToggle_rdLen (s : State) : s.countToggle.rdLen = s.rdLen := rfl
@[simp] theorem State.countToggle_aset (s : State) : s.countToggle.aset = s.aset := rfl
@[simp] theorem State.countToggle_scanAddr (s : State) : s.countToggle.scanAddr = s.scanAddr := rfl
@[simp] theorem State.countToggle_toggleCnt (s : State) : s.countToggle.toggleCnt = s.toggleCnt + 1 := rfl
@[simp] theorem State.countToggle_engineUp (s : State) : s.countToggle.engineUp = s.engineUp := rfl
@[simp] theorem State.countToggle_sdaMode (s : State) : s.countToggle.sdaMode = s.sdaMode := rfl
@[simp] theorem State.countToggle_sclMode (s : State) : s.countToggle.sclMode = s.sclMode := rfl
@[simp] theorem State.countToggle_sclLevel (s : State) : s.countToggle.sclLevel = s.sclLevel := rfl
@[simp] theorem State.countToggle_tmoArmed (s : State) : s.countToggle.tmoArmed = s.tmoArmed := rfl
@[simp] theorem State.countToggle_tmoMs (s : State) : s.countToggle.tmoMs = s.tmoMs := rfl
@[simp] theorem State.countToggle_wire (s : State) : s.countToggle.wire = s.wire := rfl
@[simp] theorem State.countToggle_responses (s : State) : s.countToggle.responses = s.responses := rfl
@[simp] theorem State.countToggle_ports (s : State) : s.countToggle.ports = s.ports := rfl
@[simp] theorem State.countToggle_stimuli (s : State) : s.countToggle.stimuli = s.stimuli := rfl
@[simp] theorem State.countToggle_cur (s : State) : s.countToggle.cur = s.cur := rfl
@[simp] theorem State.countToggle_service (s : State) : s.countToggle.service = s.service := rfl
@[simp] theorem State.countToggle_linkResult (s : State) : s.countToggle.linkResult = s.linkResult := rfl
@[simp] theorem State.countToggle_point (s : State) : s.countToggle.point = s.point := rfl
@[simp] theorem State.countToggle_env (s : State) : s.countToggle.env = s.env := rfl
@[simp] theorem State.countToggle_params (s : State) : s.countToggle.params = s.params := rfl

/-! What the first lines of EXECUTE write (41_command_link R140). -/

@[simp] theorem submit_mode (sel : Sel) (ms : BitVec 16) (s : State) : (submit sel ms s).mode = s.mode := rfl
@[simp] theorem submit_phase (sel : Sel) (ms : BitVec 16) (s : State) : (submit sel ms s).phase = .exec := rfl
@[simp] theorem submit_cfg (sel : Sel) (ms : BitVec 16) (s : State) : (submit sel ms s).cfg = s.cfg := rfl
@[simp] theorem submit_lock (sel : Sel) (ms : BitVec 16) (s : State) : (submit sel ms s).lock = s.lock := rfl
@[simp] theorem submit_waiters (sel : Sel) (ms : BitVec 16) (s : State) : (submit sel ms s).waiters = s.waiters := rfl
@[simp] theorem submit_cb (sel : Sel) (ms : BitVec 16) (s : State) : (submit sel ms s).cb = s.cb := rfl
@[simp] theorem submit_cbLen (sel : Sel) (ms : BitVec 16) (s : State) : (submit sel ms s).cbLen = s.cbLen := rfl
@[simp] theorem submit_buildErr (sel : Sel) (ms : BitVec 16) (s : State) : (submit sel ms s).buildErr = s.buildErr := rfl
@[simp] theorem submit_sb (sel : Sel) (ms : BitVec 16) (s : State) : (submit sel ms s).sb = s.sb := rfl
@[simp] theorem submit_sbLen (sel : Sel) (ms : BitVec 16) (s : State) : (submit sel ms s).sbLen = s.sbLen := rfl
@[simp] theorem submit_seqSel (sel : Sel) (ms : BitVec 16) (s : State) : (submit sel ms s).seqSel = sel := rfl
@[simp] theorem submit_seqPtr (sel : Sel) (ms : BitVec 16) (s : State) : (submit sel ms s).seqPtr = 0 := rfl
@[simp] theorem submit_inFrame (sel : Sel) (ms : BitVec 16) (s : State) : (submit sel ms s).inFrame = false := rfl
@[simp] theorem submit_rdata (sel : Sel) (ms : BitVec 16) (s : State) : (submit sel ms s).rdata = s.rdata := rfl
@[simp] theorem submit_rdLen (sel : Sel) (ms : BitVec 16) (s : State) : (submit sel ms s).rdLen = s.rdLen := rfl
@[simp] theorem submit_aset (sel : Sel) (ms : BitVec 16) (s : State) : (submit sel ms s).aset = s.aset := rfl
@[simp] theorem submit_scanAddr (sel : Sel) (ms : BitVec 16) (s : State) : (submit sel ms s).scanAddr = s.scanAddr := rfl
@[simp] theorem submit_toggleCnt (sel : Sel) (ms : BitVec 16) (s : State) : (submit sel ms s).toggleCnt = s.toggleCnt := rfl
@[simp] theorem submit_engineUp (sel : Sel) (ms : BitVec 16) (s : State) : (submit sel ms s).engineUp = s.engineUp := rfl
@[simp] theorem submit_sdaMode (sel : Sel) (ms : BitVec 16) (s : State) : (submit sel ms s).sdaMode = s.sdaMode := rfl
@[simp] theorem submit_sclMode (sel : Sel) (ms : BitVec 16) (s : State) : (submit sel ms s).sclMode = s.sclMode := rfl
@[simp] theorem submit_sclLevel (sel : Sel) (ms : BitVec 16) (s : State) : (submit sel ms s).sclLevel = s.sclLevel := rfl
@[simp] theorem submit_tmoArmed (sel : Sel) (ms : BitVec 16) (s : State) : (submit sel ms s).tmoArmed = true := rfl
@[simp] theorem submit_tmoMs (sel : Sel) (ms : BitVec 16) (s : State) : (submit sel ms s).tmoMs = ms := rfl
@[simp] theorem submit_wire (sel : Sel) (ms : BitVec 16) (s : State) : (submit sel ms s).wire = s.wire := rfl
@[simp] theorem submit_responses (sel : Sel) (ms : BitVec 16) (s : State) : (submit sel ms s).responses = s.responses := rfl
@[simp] theorem submit_ports (sel : Sel) (ms : BitVec 16) (s : State) : (submit sel ms s).ports = s.ports := rfl
@[simp] theorem submit_stimuli (sel : Sel) (ms : BitVec 16) (s : State) : (submit sel ms s).stimuli = s.stimuli := rfl
@[simp] theorem submit_cur (sel : Sel) (ms : BitVec 16) (s : State) : (submit sel ms s).cur = s.cur := rfl
@[simp] theorem submit_service (sel : Sel) (ms : BitVec 16) (s : State) : (submit sel ms s).service = s.service := rfl
@[simp] theorem submit_linkResult (sel : Sel) (ms : BitVec 16) (s : State) : (submit sel ms s).linkResult = none := rfl
@[simp] theorem submit_point (sel : Sel) (ms : BitVec 16) (s : State) : (submit sel ms s).point = .operation 0 := rfl
@[simp] theorem submit_env (sel : Sel) (ms : BitVec 16) (s : State) : (submit sel ms s).env = s.env := rfl
@[simp] theorem submit_params (sel : Sel) (ms : BitVec 16) (s : State) : (submit sel ms s).params = s.params := rfl

/-! `LEN(sel) <- n` writes the length alone (41_command_link R130). -/

@[simp] theorem State.setLen_mode (s : State) (sel : Sel) (n : Nat) : (s.setLen sel n).mode = s.mode := by cases sel <;> rfl
@[simp] theorem State.setLen_phase (s : State) (sel : Sel) (n : Nat) : (s.setLen sel n).phase = s.phase := by cases sel <;> rfl
@[simp] theorem State.setLen_cfg (s : State) (sel : Sel) (n : Nat) : (s.setLen sel n).cfg = s.cfg := by cases sel <;> rfl
@[simp] theorem State.setLen_lock (s : State) (sel : Sel) (n : Nat) : (s.setLen sel n).lock = s.lock := by cases sel <;> rfl
@[simp] theorem State.setLen_waiters (s : State) (sel : Sel) (n : Nat) : (s.setLen sel n).waiters = s.waiters := by cases sel <;> rfl
@[simp] theorem State.setLen_cb (s : State) (sel : Sel) (n : Nat) : (s.setLen sel n).cb = s.cb := by cases sel <;> rfl
@[simp] theorem State.setLen_buildErr (s : State) (sel : Sel) (n : Nat) : (s.setLen sel n).buildErr = s.buildErr := by cases sel <;> rfl
@[simp] theorem State.setLen_sb (s : State) (sel : Sel) (n : Nat) : (s.setLen sel n).sb = s.sb := by cases sel <;> rfl
@[simp] theorem State.setLen_seqSel (s : State) (sel : Sel) (n : Nat) : (s.setLen sel n).seqSel = s.seqSel := by cases sel <;> rfl
@[simp] theorem State.setLen_seqPtr (s : State) (sel : Sel) (n : Nat) : (s.setLen sel n).seqPtr = s.seqPtr := by cases sel <;> rfl
@[simp] theorem State.setLen_inFrame (s : State) (sel : Sel) (n : Nat) : (s.setLen sel n).inFrame = s.inFrame := by cases sel <;> rfl
@[simp] theorem State.setLen_rdata (s : State) (sel : Sel) (n : Nat) : (s.setLen sel n).rdata = s.rdata := by cases sel <;> rfl
@[simp] theorem State.setLen_rdLen (s : State) (sel : Sel) (n : Nat) : (s.setLen sel n).rdLen = s.rdLen := by cases sel <;> rfl
@[simp] theorem State.setLen_aset (s : State) (sel : Sel) (n : Nat) : (s.setLen sel n).aset = s.aset := by cases sel <;> rfl
@[simp] theorem State.setLen_scanAddr (s : State) (sel : Sel) (n : Nat) : (s.setLen sel n).scanAddr = s.scanAddr := by cases sel <;> rfl
@[simp] theorem State.setLen_toggleCnt (s : State) (sel : Sel) (n : Nat) : (s.setLen sel n).toggleCnt = s.toggleCnt := by cases sel <;> rfl
@[simp] theorem State.setLen_engineUp (s : State) (sel : Sel) (n : Nat) : (s.setLen sel n).engineUp = s.engineUp := by cases sel <;> rfl
@[simp] theorem State.setLen_sdaMode (s : State) (sel : Sel) (n : Nat) : (s.setLen sel n).sdaMode = s.sdaMode := by cases sel <;> rfl
@[simp] theorem State.setLen_sclMode (s : State) (sel : Sel) (n : Nat) : (s.setLen sel n).sclMode = s.sclMode := by cases sel <;> rfl
@[simp] theorem State.setLen_sclLevel (s : State) (sel : Sel) (n : Nat) : (s.setLen sel n).sclLevel = s.sclLevel := by cases sel <;> rfl
@[simp] theorem State.setLen_tmoArmed (s : State) (sel : Sel) (n : Nat) : (s.setLen sel n).tmoArmed = s.tmoArmed := by cases sel <;> rfl
@[simp] theorem State.setLen_tmoMs (s : State) (sel : Sel) (n : Nat) : (s.setLen sel n).tmoMs = s.tmoMs := by cases sel <;> rfl
@[simp] theorem State.setLen_wire (s : State) (sel : Sel) (n : Nat) : (s.setLen sel n).wire = s.wire := by cases sel <;> rfl
@[simp] theorem State.setLen_responses (s : State) (sel : Sel) (n : Nat) : (s.setLen sel n).responses = s.responses := by cases sel <;> rfl
@[simp] theorem State.setLen_ports (s : State) (sel : Sel) (n : Nat) : (s.setLen sel n).ports = s.ports := by cases sel <;> rfl
@[simp] theorem State.setLen_stimuli (s : State) (sel : Sel) (n : Nat) : (s.setLen sel n).stimuli = s.stimuli := by cases sel <;> rfl
@[simp] theorem State.setLen_cur (s : State) (sel : Sel) (n : Nat) : (s.setLen sel n).cur = s.cur := by cases sel <;> rfl
@[simp] theorem State.setLen_service (s : State) (sel : Sel) (n : Nat) : (s.setLen sel n).service = s.service := by cases sel <;> rfl
@[simp] theorem State.setLen_linkResult (s : State) (sel : Sel) (n : Nat) : (s.setLen sel n).linkResult = s.linkResult := by cases sel <;> rfl
@[simp] theorem State.setLen_point (s : State) (sel : Sel) (n : Nat) : (s.setLen sel n).point = s.point := by cases sel <;> rfl
@[simp] theorem State.setLen_env (s : State) (sel : Sel) (n : Nat) : (s.setLen sel n).env = s.env := by cases sel <;> rfl
@[simp] theorem State.setLen_params (s : State) (sel : Sel) (n : Nat) : (s.setLen sel n).params = s.params := by cases sel <;> rfl

/-! `BUF(sel) <- m` writes the buffer alone (41_command_link R131). -/

@[simp] theorem State.setBuf_mode (s : State) (sel : Sel) (m : Memory) : (s.setBuf sel m).mode = s.mode := by cases sel <;> rfl
@[simp] theorem State.setBuf_phase (s : State) (sel : Sel) (m : Memory) : (s.setBuf sel m).phase = s.phase := by cases sel <;> rfl
@[simp] theorem State.setBuf_cfg (s : State) (sel : Sel) (m : Memory) : (s.setBuf sel m).cfg = s.cfg := by cases sel <;> rfl
@[simp] theorem State.setBuf_lock (s : State) (sel : Sel) (m : Memory) : (s.setBuf sel m).lock = s.lock := by cases sel <;> rfl
@[simp] theorem State.setBuf_waiters (s : State) (sel : Sel) (m : Memory) : (s.setBuf sel m).waiters = s.waiters := by cases sel <;> rfl
@[simp] theorem State.setBuf_cbLen (s : State) (sel : Sel) (m : Memory) : (s.setBuf sel m).cbLen = s.cbLen := by cases sel <;> rfl
@[simp] theorem State.setBuf_buildErr (s : State) (sel : Sel) (m : Memory) : (s.setBuf sel m).buildErr = s.buildErr := by cases sel <;> rfl
@[simp] theorem State.setBuf_sbLen (s : State) (sel : Sel) (m : Memory) : (s.setBuf sel m).sbLen = s.sbLen := by cases sel <;> rfl
@[simp] theorem State.setBuf_seqSel (s : State) (sel : Sel) (m : Memory) : (s.setBuf sel m).seqSel = s.seqSel := by cases sel <;> rfl
@[simp] theorem State.setBuf_seqPtr (s : State) (sel : Sel) (m : Memory) : (s.setBuf sel m).seqPtr = s.seqPtr := by cases sel <;> rfl
@[simp] theorem State.setBuf_inFrame (s : State) (sel : Sel) (m : Memory) : (s.setBuf sel m).inFrame = s.inFrame := by cases sel <;> rfl
@[simp] theorem State.setBuf_rdata (s : State) (sel : Sel) (m : Memory) : (s.setBuf sel m).rdata = s.rdata := by cases sel <;> rfl
@[simp] theorem State.setBuf_rdLen (s : State) (sel : Sel) (m : Memory) : (s.setBuf sel m).rdLen = s.rdLen := by cases sel <;> rfl
@[simp] theorem State.setBuf_aset (s : State) (sel : Sel) (m : Memory) : (s.setBuf sel m).aset = s.aset := by cases sel <;> rfl
@[simp] theorem State.setBuf_scanAddr (s : State) (sel : Sel) (m : Memory) : (s.setBuf sel m).scanAddr = s.scanAddr := by cases sel <;> rfl
@[simp] theorem State.setBuf_toggleCnt (s : State) (sel : Sel) (m : Memory) : (s.setBuf sel m).toggleCnt = s.toggleCnt := by cases sel <;> rfl
@[simp] theorem State.setBuf_engineUp (s : State) (sel : Sel) (m : Memory) : (s.setBuf sel m).engineUp = s.engineUp := by cases sel <;> rfl
@[simp] theorem State.setBuf_sdaMode (s : State) (sel : Sel) (m : Memory) : (s.setBuf sel m).sdaMode = s.sdaMode := by cases sel <;> rfl
@[simp] theorem State.setBuf_sclMode (s : State) (sel : Sel) (m : Memory) : (s.setBuf sel m).sclMode = s.sclMode := by cases sel <;> rfl
@[simp] theorem State.setBuf_sclLevel (s : State) (sel : Sel) (m : Memory) : (s.setBuf sel m).sclLevel = s.sclLevel := by cases sel <;> rfl
@[simp] theorem State.setBuf_tmoArmed (s : State) (sel : Sel) (m : Memory) : (s.setBuf sel m).tmoArmed = s.tmoArmed := by cases sel <;> rfl
@[simp] theorem State.setBuf_tmoMs (s : State) (sel : Sel) (m : Memory) : (s.setBuf sel m).tmoMs = s.tmoMs := by cases sel <;> rfl
@[simp] theorem State.setBuf_wire (s : State) (sel : Sel) (m : Memory) : (s.setBuf sel m).wire = s.wire := by cases sel <;> rfl
@[simp] theorem State.setBuf_responses (s : State) (sel : Sel) (m : Memory) : (s.setBuf sel m).responses = s.responses := by cases sel <;> rfl
@[simp] theorem State.setBuf_ports (s : State) (sel : Sel) (m : Memory) : (s.setBuf sel m).ports = s.ports := by cases sel <;> rfl
@[simp] theorem State.setBuf_stimuli (s : State) (sel : Sel) (m : Memory) : (s.setBuf sel m).stimuli = s.stimuli := by cases sel <;> rfl
@[simp] theorem State.setBuf_cur (s : State) (sel : Sel) (m : Memory) : (s.setBuf sel m).cur = s.cur := by cases sel <;> rfl
@[simp] theorem State.setBuf_service (s : State) (sel : Sel) (m : Memory) : (s.setBuf sel m).service = s.service := by cases sel <;> rfl
@[simp] theorem State.setBuf_linkResult (s : State) (sel : Sel) (m : Memory) : (s.setBuf sel m).linkResult = s.linkResult := by cases sel <;> rfl
@[simp] theorem State.setBuf_point (s : State) (sel : Sel) (m : Memory) : (s.setBuf sel m).point = s.point := by cases sel <;> rfl
@[simp] theorem State.setBuf_env (s : State) (sel : Sel) (m : Memory) : (s.setBuf sel m).env = s.env := by cases sel <;> rfl
@[simp] theorem State.setBuf_params (s : State) (sel : Sel) (m : Memory) : (s.setBuf sel m).params = s.params := by cases sel <;> rfl

/-! What LINK_BEGIN writes (41_command_link R130). -/

@[simp] theorem linkBegin_mode (sel : Sel) (s : State) : (linkBegin sel s).mode = s.mode := by cases sel <;> rfl
@[simp] theorem linkBegin_phase (sel : Sel) (s : State) : (linkBegin sel s).phase = .build := by cases sel <;> rfl
@[simp] theorem linkBegin_cfg (sel : Sel) (s : State) : (linkBegin sel s).cfg = s.cfg := by cases sel <;> rfl
@[simp] theorem linkBegin_lock (sel : Sel) (s : State) : (linkBegin sel s).lock = s.lock := by cases sel <;> rfl
@[simp] theorem linkBegin_waiters (sel : Sel) (s : State) : (linkBegin sel s).waiters = s.waiters := by cases sel <;> rfl
@[simp] theorem linkBegin_cb (sel : Sel) (s : State) : (linkBegin sel s).cb = s.cb := by cases sel <;> rfl
@[simp] theorem linkBegin_buildErr (sel : Sel) (s : State) : (linkBegin sel s).buildErr = false := by cases sel <;> rfl
@[simp] theorem linkBegin_sb (sel : Sel) (s : State) : (linkBegin sel s).sb = s.sb := by cases sel <;> rfl
@[simp] theorem linkBegin_seqSel (sel : Sel) (s : State) : (linkBegin sel s).seqSel = s.seqSel := by cases sel <;> rfl
@[simp] theorem linkBegin_seqPtr (sel : Sel) (s : State) : (linkBegin sel s).seqPtr = s.seqPtr := by cases sel <;> rfl
@[simp] theorem linkBegin_inFrame (sel : Sel) (s : State) : (linkBegin sel s).inFrame = s.inFrame := by cases sel <;> rfl
@[simp] theorem linkBegin_rdata (sel : Sel) (s : State) : (linkBegin sel s).rdata = s.rdata := by cases sel <;> rfl
@[simp] theorem linkBegin_rdLen (sel : Sel) (s : State) : (linkBegin sel s).rdLen = s.rdLen := by cases sel <;> rfl
@[simp] theorem linkBegin_aset (sel : Sel) (s : State) : (linkBegin sel s).aset = s.aset := by cases sel <;> rfl
@[simp] theorem linkBegin_scanAddr (sel : Sel) (s : State) : (linkBegin sel s).scanAddr = s.scanAddr := by cases sel <;> rfl
@[simp] theorem linkBegin_toggleCnt (sel : Sel) (s : State) : (linkBegin sel s).toggleCnt = s.toggleCnt := by cases sel <;> rfl
@[simp] theorem linkBegin_engineUp (sel : Sel) (s : State) : (linkBegin sel s).engineUp = s.engineUp := by cases sel <;> rfl
@[simp] theorem linkBegin_sdaMode (sel : Sel) (s : State) : (linkBegin sel s).sdaMode = s.sdaMode := by cases sel <;> rfl
@[simp] theorem linkBegin_sclMode (sel : Sel) (s : State) : (linkBegin sel s).sclMode = s.sclMode := by cases sel <;> rfl
@[simp] theorem linkBegin_sclLevel (sel : Sel) (s : State) : (linkBegin sel s).sclLevel = s.sclLevel := by cases sel <;> rfl
@[simp] theorem linkBegin_tmoArmed (sel : Sel) (s : State) : (linkBegin sel s).tmoArmed = s.tmoArmed := by cases sel <;> rfl
@[simp] theorem linkBegin_tmoMs (sel : Sel) (s : State) : (linkBegin sel s).tmoMs = s.tmoMs := by cases sel <;> rfl
@[simp] theorem linkBegin_wire (sel : Sel) (s : State) : (linkBegin sel s).wire = s.wire := by cases sel <;> rfl
@[simp] theorem linkBegin_responses (sel : Sel) (s : State) : (linkBegin sel s).responses = s.responses := by cases sel <;> rfl
@[simp] theorem linkBegin_ports (sel : Sel) (s : State) : (linkBegin sel s).ports = s.ports := by cases sel <;> rfl
@[simp] theorem linkBegin_stimuli (sel : Sel) (s : State) : (linkBegin sel s).stimuli = s.stimuli := by cases sel <;> rfl
@[simp] theorem linkBegin_cur (sel : Sel) (s : State) : (linkBegin sel s).cur = s.cur := by cases sel <;> rfl
@[simp] theorem linkBegin_service (sel : Sel) (s : State) : (linkBegin sel s).service = s.service := by cases sel <;> rfl
@[simp] theorem linkBegin_linkResult (sel : Sel) (s : State) : (linkBegin sel s).linkResult = s.linkResult := by cases sel <;> rfl
@[simp] theorem linkBegin_point (sel : Sel) (s : State) : (linkBegin sel s).point = s.point := by cases sel <;> rfl
@[simp] theorem linkBegin_env (sel : Sel) (s : State) : (linkBegin sel s).env = s.env := by cases sel <;> rfl
@[simp] theorem linkBegin_params (sel : Sel) (s : State) : (linkBegin sel s).params = s.params := by cases sel <;> rfl

/-! What LINK_END writes (41_command_link R137). -/

@[simp] theorem linkEnd_mode (sel : Sel) (s : State) : (linkEnd sel s).mode = s.mode := by cases sel <;> rfl
@[simp] theorem linkEnd_phase (sel : Sel) (s : State) : (linkEnd sel s).phase = .teardown := by cases sel <;> rfl
@[simp] theorem linkEnd_cfg (sel : Sel) (s : State) : (linkEnd sel s).cfg = s.cfg := by cases sel <;> rfl
@[simp] theorem linkEnd_lock (sel : Sel) (s : State) : (linkEnd sel s).lock = s.lock := by cases sel <;> rfl
@[simp] theorem linkEnd_waiters (sel : Sel) (s : State) : (linkEnd sel s).waiters = s.waiters := by cases sel <;> rfl
@[simp] theorem linkEnd_buildErr (sel : Sel) (s : State) : (linkEnd sel s).buildErr = false := by cases sel <;> rfl
@[simp] theorem linkEnd_seqSel (sel : Sel) (s : State) : (linkEnd sel s).seqSel = s.seqSel := by cases sel <;> rfl
@[simp] theorem linkEnd_seqPtr (sel : Sel) (s : State) : (linkEnd sel s).seqPtr = s.seqPtr := by cases sel <;> rfl
@[simp] theorem linkEnd_inFrame (sel : Sel) (s : State) : (linkEnd sel s).inFrame = s.inFrame := by cases sel <;> rfl
@[simp] theorem linkEnd_rdata (sel : Sel) (s : State) : (linkEnd sel s).rdata = s.rdata := by cases sel <;> rfl
@[simp] theorem linkEnd_rdLen (sel : Sel) (s : State) : (linkEnd sel s).rdLen = s.rdLen := by cases sel <;> rfl
@[simp] theorem linkEnd_aset (sel : Sel) (s : State) : (linkEnd sel s).aset = s.aset := by cases sel <;> rfl
@[simp] theorem linkEnd_scanAddr (sel : Sel) (s : State) : (linkEnd sel s).scanAddr = s.scanAddr := by cases sel <;> rfl
@[simp] theorem linkEnd_toggleCnt (sel : Sel) (s : State) : (linkEnd sel s).toggleCnt = s.toggleCnt := by cases sel <;> rfl
@[simp] theorem linkEnd_engineUp (sel : Sel) (s : State) : (linkEnd sel s).engineUp = s.engineUp := by cases sel <;> rfl
@[simp] theorem linkEnd_sdaMode (sel : Sel) (s : State) : (linkEnd sel s).sdaMode = s.sdaMode := by cases sel <;> rfl
@[simp] theorem linkEnd_sclMode (sel : Sel) (s : State) : (linkEnd sel s).sclMode = s.sclMode := by cases sel <;> rfl
@[simp] theorem linkEnd_sclLevel (sel : Sel) (s : State) : (linkEnd sel s).sclLevel = s.sclLevel := by cases sel <;> rfl
@[simp] theorem linkEnd_tmoArmed (sel : Sel) (s : State) : (linkEnd sel s).tmoArmed = s.tmoArmed := by cases sel <;> rfl
@[simp] theorem linkEnd_tmoMs (sel : Sel) (s : State) : (linkEnd sel s).tmoMs = s.tmoMs := by cases sel <;> rfl
@[simp] theorem linkEnd_wire (sel : Sel) (s : State) : (linkEnd sel s).wire = s.wire := by cases sel <;> rfl
@[simp] theorem linkEnd_responses (sel : Sel) (s : State) : (linkEnd sel s).responses = s.responses := by cases sel <;> rfl
@[simp] theorem linkEnd_ports (sel : Sel) (s : State) : (linkEnd sel s).ports = s.ports := by cases sel <;> rfl
@[simp] theorem linkEnd_stimuli (sel : Sel) (s : State) : (linkEnd sel s).stimuli = s.stimuli := by cases sel <;> rfl
@[simp] theorem linkEnd_cur (sel : Sel) (s : State) : (linkEnd sel s).cur = s.cur := by cases sel <;> rfl
@[simp] theorem linkEnd_service (sel : Sel) (s : State) : (linkEnd sel s).service = s.service := by cases sel <;> rfl
@[simp] theorem linkEnd_linkResult (sel : Sel) (s : State) : (linkEnd sel s).linkResult = s.linkResult := by cases sel <;> rfl
@[simp] theorem linkEnd_point (sel : Sel) (s : State) : (linkEnd sel s).point = s.point := by cases sel <;> rfl
@[simp] theorem linkEnd_env (sel : Sel) (s : State) : (linkEnd sel s).env = s.env := by cases sel <;> rfl
@[simp] theorem linkEnd_params (sel : Sel) (s : State) : (linkEnd sel s).params = s.params := by cases sel <;> rfl

/-! The selected buffer and its length after the builder's updates. -/

@[simp] theorem State.len_setLen (s : State) (sel : Sel) (n : Nat) : (s.setLen sel n).len sel = n := by cases sel <;> rfl
@[simp] theorem State.buf_setLen (s : State) (sel : Sel) (n : Nat) : (s.setLen sel n).buf sel = s.buf sel := by cases sel <;> rfl
@[simp] theorem State.cap_setLen (s : State) (sel : Sel) (n : Nat) : (s.setLen sel n).cap sel = s.cap sel := by cases sel <;> rfl
@[simp] theorem State.len_setBuf (s : State) (sel : Sel) (m : Memory) : (s.setBuf sel m).len sel = s.len sel := by cases sel <;> rfl
@[simp] theorem State.buf_setBuf (s : State) (sel : Sel) (m : Memory) : (s.setBuf sel m).buf sel = m := by cases sel <;> rfl
@[simp] theorem State.cap_setBuf (s : State) (sel : Sel) (m : Memory) : (s.setBuf sel m).cap sel = s.cap sel := by cases sel <;> rfl
@[simp] theorem linkBegin_len (sel : Sel) (s : State) : (linkBegin sel s).len sel = 0 := by cases sel <;> rfl
@[simp] theorem linkBegin_cap (sel : Sel) (s : State) : (linkBegin sel s).cap sel = s.cap sel := by cases sel <;> rfl
@[simp] theorem linkEnd_len (sel : Sel) (s : State) : (linkEnd sel s).len sel = 0 := by cases sel <;> rfl
@[simp] theorem linkEnd_buf (sel : Sel) (s : State) : (linkEnd sel s).buf sel = [] := by cases sel <;> rfl
@[simp] theorem linkEnd_selCb_sbLen (s : State) : (linkEnd .selCb s).sbLen = s.sbLen := rfl
@[simp] theorem linkEnd_selCb_sb (s : State) : (linkEnd .selCb s).sb = s.sb := rfl
@[simp] theorem linkEnd_selCb_cbLen (s : State) : (linkEnd .selCb s).cbLen = 0 := rfl
@[simp] theorem linkEnd_selCb_cb (s : State) : (linkEnd .selCb s).cb = [] := rfl
@[simp] theorem linkEnd_selSb_cbLen (s : State) : (linkEnd .selSb s).cbLen = s.cbLen := rfl
@[simp] theorem linkEnd_selSb_cb (s : State) : (linkEnd .selSb s).cb = s.cb := rfl
@[simp] theorem linkEnd_selSb_sbLen (s : State) : (linkEnd .selSb s).sbLen = 0 := rfl
@[simp] theorem linkEnd_selSb_sb (s : State) : (linkEnd .selSb s).sb = [] := rfl
@[simp] theorem submit_len (sel x : Sel) (ms : BitVec 16) (s : State) : (submit sel ms s).len x = s.len x := by cases x <;> rfl
@[simp] theorem submit_buf (sel x : Sel) (ms : BitVec 16) (s : State) : (submit sel ms s).buf x = s.buf x := by cases x <;> rfl

end Sys2Proof.Machine
end

