-- ==== Sys2Proof/Laws/Builder.lean ====
section
/-! SUPPORT. Laws/Builder.lean: what the link builder leaves alone, and what stands in its buffer. -/

namespace Sys2Proof.Machine

/-- What no builder step writes: everything but the buffer it builds in, that buffer's length, BUILD_ERR, PHASE and RD_LEN. -/
structure BuildFrame (s t : State) : Prop where
  mode : t.mode = s.mode
  cfg : t.cfg = s.cfg
  lock : t.lock = s.lock
  waiters : t.waiters = s.waiters
  seqSel : t.seqSel = s.seqSel
  seqPtr : t.seqPtr = s.seqPtr
  inFrame : t.inFrame = s.inFrame
  rdata : t.rdata = s.rdata
  aset : t.aset = s.aset
  scanAddr : t.scanAddr = s.scanAddr
  toggleCnt : t.toggleCnt = s.toggleCnt
  engineUp : t.engineUp = s.engineUp
  sdaMode : t.sdaMode = s.sdaMode
  sclMode : t.sclMode = s.sclMode
  sclLevel : t.sclLevel = s.sclLevel
  tmoArmed : t.tmoArmed = s.tmoArmed
  tmoMs : t.tmoMs = s.tmoMs
  wire : t.wire = s.wire
  responses : t.responses = s.responses
  ports : t.ports = s.ports
  stimuli : t.stimuli = s.stimuli
  cur : t.cur = s.cur
  service : t.service = s.service
  linkResult : t.linkResult = s.linkResult
  env : t.env = s.env
  params : t.params = s.params

theorem BuildFrame.refl (s : State) : BuildFrame s s := by constructor <;> rfl

theorem BuildFrame.trans {s t u : State} (h : BuildFrame s t) (k : BuildFrame t u) : BuildFrame s u := by
  obtain ⟨⟩ := h; obtain ⟨⟩ := k; constructor <;> simp only [*]

theorem BuildFrame.cap {s t : State} (h : BuildFrame s t) (sel : Sel) : t.cap sel = s.cap sel := by
  cases sel <;> simp [State.cap, h.params]

/-- The buffer the builder does not work on. -/
def Sel.other : Sel → Sel
  | .selCb => .selSb
  | .selSb => .selCb


/-! ### The frames -/

theorem linkBegin_frame (sel : Sel) (s : State) : BuildFrame s (linkBegin sel s) := by cases sel <;> constructor <;> rfl
theorem linkEnd_frame (sel : Sel) (s : State) : BuildFrame s (linkEnd sel s) := by cases sel <;> constructor <;> rfl

theorem append_frame (sel : Sel) (bytes : List Byte) (s : State) : BuildFrame s (append sel bytes s) := by
  unfold append
  split
  · exact .refl s
  · split
    · constructor <;> rfl
    · cases sel <;> constructor <;> rfl

theorem appendRbuf_frame (sel : Sel) (n : Byte) (ln : Bool) (s : State) : BuildFrame s (appendRbuf sel n ln s) := by
  unfold appendRbuf
  split
  · exact .refl s
  · split
    · constructor <;> rfl
    · exact append_frame ..

theorem appendPayload_frame (sel : Sel) (data : List Byte) (s : State) : BuildFrame s (appendPayload sel data s) := by
  unfold appendPayload
  split
  · exact .refl s
  · exact append_frame ..

theorem appendReadPhase_frame (sel : Sel) (a : Addr7) (rlen : Byte) (s : State) :
    BuildFrame s (appendReadPhase sel a rlen s) := by
  unfold appendReadPhase
  split
  · exact .refl s
  · exact ((append_frame ..).trans (append_frame ..)).trans (appendRbuf_frame ..)

theorem buildTransaction_frame (a : Addr7) (data : List Byte) (rlen : Byte) (s : State) :
    BuildFrame s (buildTransaction a data rlen s) := by
  have h0 : BuildFrame s { s with rdLen := 0 } := by constructor <;> rfl
  exact (((((h0.trans (linkBegin_frame ..)).trans (append_frame ..)).trans (append_frame ..)).trans
    (appendPayload_frame ..)).trans (appendReadPhase_frame ..)).trans (append_frame ..)

theorem buildProbe_frame (a : Addr7) (s : State) : BuildFrame s (buildProbe a s) :=
  (((linkBegin_frame ..).trans (append_frame ..)).trans (append_frame ..)).trans (append_frame ..)

/-! ### The other buffer, PHASE and RD_LEN -/

/-- A builder step leaves the other buffer, PHASE and RD_LEN alone. -/
structure BuildsIn (sel : Sel) (s t : State) : Prop where
  buf : t.buf sel.other = s.buf sel.other
  len : t.len sel.other = s.len sel.other
  phase : t.phase = s.phase
  rdLen : t.rdLen = s.rdLen

theorem BuildsIn.refl (sel : Sel) (s : State) : BuildsIn sel s s := by constructor <;> rfl

theorem BuildsIn.trans {sel : Sel} {s t u : State} (h : BuildsIn sel s t) (k : BuildsIn sel t u) : BuildsIn sel s u := by
  obtain ⟨⟩ := h; obtain ⟨⟩ := k; constructor <;> simp only [*]

theorem append_in (sel : Sel) (bytes : List Byte) (s : State) : BuildsIn sel s (append sel bytes s) := by
  unfold append
  split
  · exact .refl sel s
  · split
    · cases sel <;> constructor <;> rfl
    · cases sel <;> constructor <;> rfl

theorem appendRbuf_in (sel : Sel) (n : Byte) (ln : Bool) (s : State) : BuildsIn sel s (appendRbuf sel n ln s) := by
  unfold appendRbuf
  split
  · exact .refl sel s
  · split
    · cases sel <;> constructor <;> rfl
    · exact append_in ..

theorem appendPayload_in (sel : Sel) (data : List Byte) (s : State) : BuildsIn sel s (appendPayload sel data s) := by
  unfold appendPayload
  split
  · exact .refl sel s
  · exact append_in ..

theorem appendReadPhase_in (sel : Sel) (a : Addr7) (rlen : Byte) (s : State) :
    BuildsIn sel s (appendReadPhase sel a rlen s) := by
  unfold appendReadPhase
  split
  · exact .refl sel s
  · exact ((append_in ..).trans (append_in ..)).trans (appendRbuf_in ..)

theorem buildTransaction_in (a : Addr7) (data : List Byte) (rlen : Byte) (s : State) :
    BuildsIn .selCb (linkBegin .selCb { s with rdLen := 0 }) (buildTransaction a data rlen s) :=
  ((((append_in ..).trans (append_in ..)).trans (appendPayload_in ..)).trans (appendReadPhase_in ..)).trans
    (append_in ..)

theorem buildProbe_in (a : Addr7) (s : State) : BuildsIn .selSb (linkBegin .selSb s) (buildProbe a s) :=
  ((append_in ..).trans (append_in ..)).trans (append_in ..)

/-! ### What stands in the buffer -/

/-- The construction has not failed, and the buffer holds these bytes. -/
structure Built (sel : Sel) (bytes : List Byte) (s : State) : Prop where
  err : s.buildErr = false
  len : s.len sel = bytes.length
  content : (s.buf sel).readRange 0 bytes.length = some bytes

theorem linkBegin_built (sel : Sel) (s : State) : Built sel [] (linkBegin sel s) := by
  constructor
  · cases sel <;> rfl
  · cases sel <;> rfl
  · rfl

/-- After a failure an append does nothing (41_command_link R131). -/
theorem append_failed {sel : Sel} {bytes : List Byte} {s : State} (h : s.buildErr = true) : append sel bytes s = s := by
  simp [append, h]

theorem appendRbuf_failed {sel : Sel} {n : Byte} {ln : Bool} {s : State} (h : s.buildErr = true) :
    appendRbuf sel n ln s = s := by
  simp [appendRbuf, h]

/-- An append that fits. -/
theorem append_built {sel : Sel} {bytes more : List Byte} {s : State} (h : Built sel bytes s)
    (fits : bytes.length + more.length ≤ s.cap sel) : Built sel (bytes ++ more) (append sel more s) := by
  have ho : overflows (s.len sel) more.length (s.cap sel) = false := by simp [overflows, h.len, fits]
  have he : append sel more s
      = (s.setBuf sel ((s.buf sel).writeRange (s.len sel) more)).setLen sel (s.len sel + more.length) := by
    simp [append, h.err, ho]
  have hb : ((s.buf sel).writeRange bytes.length more).readRange 0 (bytes.length + more.length) = some (bytes ++ more) := by
    refine Memory.readRange_add ?_ ?_
    · rw [← h.content]
      exact Memory.readRange_congr fun x _ hx => Memory.read_writeRange_outside _ _ _ (.inl (by omega))
    · rw [Nat.zero_add]
      exact Memory.readRange_writeRange ..
  rw [he]
  constructor
  · cases sel <;> exact h.err
  · simp [h.len]
  · simpa [h.len] using hb

/-- An append that does not fit. -/
theorem append_overflow {sel : Sel} {bytes more : List Byte} {s : State} (h : Built sel bytes s)
    (full : s.cap sel < bytes.length + more.length) : (append sel more s).buildErr = true := by
  simp [append, h.err, overflows, h.len, full]

/-- A read that fits the read buffer is appended like any operation (41_command_link R135). -/
theorem appendRbuf_fits {sel : Sel} {n : Byte} {ln : Bool} {s : State} (h : n.toNat ≤ s.params.rdCapacity) :
    appendRbuf sel n ln s = append sel (linkBytes (.readBuffer n ln)) s := by
  by_cases he : s.buildErr = true
  · simp [appendRbuf, he, append_failed]
  · have : readOverflows n.toNat s.params.rdCapacity = false := by simp [readOverflows, h]
    simp [appendRbuf, he, this]

/-- A read that does not fit the read buffer fails the construction. -/
theorem appendRbuf_overflow {sel : Sel} {n : Byte} {ln : Bool} {s : State} (h : s.params.rdCapacity < n.toNat) :
    (appendRbuf sel n ln s).buildErr = true := by
  by_cases he : s.buildErr = true
  · simp [appendRbuf, he]
  · simp [appendRbuf, he, readOverflows, h]

/-! ### The two kinds of link the block builds -/

/-- What a construction has come to: the bytes stand in the buffer if they fit and `reads` holds; else it has failed. -/
structure Construction (sel : Sel) (cap : Nat) (reads : Prop) (bytes : List Byte) (s : State) : Prop where
  room : s.cap sel = cap
  built : bytes.length ≤ cap → reads → Built sel bytes s
  failed : ¬(bytes.length ≤ cap ∧ reads) → s.buildErr = true

theorem linkBegin_construction (sel : Sel) (s : State) : Construction sel (s.cap sel) True [] (linkBegin sel s) where
  room := (linkBegin_frame sel s).cap sel
  built := fun _ _ => linkBegin_built sel s
  failed := fun h => absurd ⟨Nat.zero_le _, trivial⟩ h

theorem append_construction {sel : Sel} {cap : Nat} {reads : Prop} {bytes more : List Byte} {s : State}
    (h : Construction sel cap reads bytes s) : Construction sel cap reads (bytes ++ more) (append sel more s) where
  room := ((append_frame sel more s).cap sel).trans h.room
  built := fun hl hr => by
    rw [List.length_append] at hl
    exact append_built (h.built (by omega) hr) (by rw [h.room]; exact hl)
  failed := fun hn => by
    rw [List.length_append] at hn
    by_cases hb : bytes.length ≤ cap ∧ reads
    · refine append_overflow (h.built hb.1 hb.2) ?_
      rw [h.room]
      exact Nat.lt_of_not_le fun hl => hn ⟨hl, hb.2⟩
    · rw [append_failed (h.failed hb)]
      exact h.failed hb

theorem appendPayload_construction {sel : Sel} {cap : Nat} {reads : Prop} {bytes : List Byte} {s : State}
    (data : List Byte) (h : Construction sel cap reads bytes s) :
    Construction sel cap reads (bytes ++ if data = [] then [] else linkBytes (.writeBuffer data))
      (appendPayload sel data s) := by
  unfold appendPayload
  split
  · simpa using h
  · exact append_construction h

theorem appendRbuf_construction {sel : Sel} {cap : Nat} {bytes : List Byte} {s : State} (n : Byte) (ln : Bool)
    (h : Construction sel cap True bytes s) :
    Construction sel cap (n.toNat ≤ s.params.rdCapacity) (bytes ++ linkBytes (.readBuffer n ln))
      (appendRbuf sel n ln s) := by
  by_cases hn : n.toNat ≤ s.params.rdCapacity
  · rw [appendRbuf_fits hn]
    have := append_construction (more := linkBytes (.readBuffer n ln)) h
    exact ⟨this.room, fun hl _ => this.built hl trivial, fun hx => this.failed fun hy => hx ⟨hy.1, hn⟩⟩
  · exact ⟨((appendRbuf_frame ..).cap sel).trans h.room, fun _ hr => absurd hr hn,
      fun _ => appendRbuf_overflow (Nat.lt_of_not_le hn)⟩

/-- The read phase's part of a link (43_transactions R190). -/
def readPhaseBytes (a : Addr7) (rlen : Byte) : List Byte :=
  if rlen = 0 then []
  else linkBytes .start ++ linkBytes (.writeAddressedByte (addressByte a .read) true) ++ linkBytes (.readBuffer rlen true)

theorem appendReadPhase_construction {sel : Sel} {cap : Nat} {bytes : List Byte} {s : State} (a : Addr7) (rlen : Byte)
    (h : Construction sel cap True bytes s) :
    Construction sel cap (rlen.toNat ≤ s.params.rdCapacity) (bytes ++ readPhaseBytes a rlen)
      (appendReadPhase sel a rlen s) := by
  unfold appendReadPhase readPhaseBytes
  split
  · next hz =>
    subst hz
    simpa using h
  · have h1 := append_construction (more := linkBytes (.writeAddressedByte (addressByte a .read) true))
      (append_construction (more := linkBytes .start) h)
    have h2 := appendRbuf_construction rlen true h1
    have hp := ((append_frame sel (linkBytes .start) s).trans
      (append_frame sel (linkBytes (.writeAddressedByte (addressByte a .read) true)) _)).params
    rw [hp] at h2
    simpa only [List.append_assoc, appendWab, appendStart] using h2

/-- The bytes of a transaction's link, part by part (43_transactions R190, 30_encoding R92). -/
theorem linkBytesOf_transactionOps (a : Addr7) (data : List Byte) (rlen : Byte) :
    linkBytesOf (transactionOps a data rlen) =
      [] ++ linkBytes .start ++ linkBytes (.writeAddressedByte (addressByte a .write) true)
        ++ (if data = [] then [] else linkBytes (.writeBuffer data)) ++ readPhaseBytes a rlen ++ linkBytes .stop := by
  unfold linkBytesOf transactionOps readPhaseBytes
  split <;> split <;> simp

/-- What a transaction's construction comes to: the whole link where it fits CB and its read the read buffer; else
BUILD_ERR (41_command_link R131, R135). -/
theorem buildTransaction_construction (a : Addr7) (data : List Byte) (rlen : Byte) (s : State) :
    Construction .selCb s.params.cmdCapacity (rlen.toNat ≤ s.params.rdCapacity)
      (linkBytesOf (transactionOps a data rlen)) (buildTransaction a data rlen s) := by
  rw [linkBytesOf_transactionOps]
  have h0 := linkBegin_construction .selCb { s with rdLen := 0 }
  have h1 := appendPayload_construction data
    (append_construction (more := linkBytes (.writeAddressedByte (addressByte a .write) true))
      (append_construction (more := linkBytes .start) h0))
  have hp : (appendPayload .selCb data (appendWab .selCb (addressByte a .write) true
      (appendStart .selCb (linkBegin .selCb { s with rdLen := 0 })))).params = s.params :=
    ((((linkBegin_frame ..).trans (append_frame ..)).trans (append_frame ..)).trans (appendPayload_frame ..)).params
  have h2 := append_construction (more := linkBytes .stop) (appendReadPhase_construction a rlen h1)
  simp only [appendWab, appendStart] at hp
  rw [hp] at h2
  exact h2

/-- What a probe's construction comes to (44_scanner R211, R212). -/
theorem buildProbe_construction (a : Addr7) (s : State) :
    Construction .selSb s.params.scanCapacity True (linkBytesOf (probeOps a)) (buildProbe a s) := by
  have : linkBytesOf (probeOps a)
      = [] ++ linkBytes .start ++ linkBytes (.writeAddressedByte (addressByte a .write) true) ++ linkBytes .stop := rfl
  rw [this]
  exact append_construction (append_construction (append_construction (linkBegin_construction .selSb s)))

end Sys2Proof.Machine
end

