-- ==== Sys2Proof/Laws/Ops.lean ====
section
/-! SUPPORT. Laws/Ops.lean: one lemma for each shared operation that says once everything it can do, and what the operations of
EXECUTE and RECOVER leave alone. -/

namespace Sys2Proof.Machine

/-! ### `andThen` -/

@[simp] theorem andThen_next {α β : Type} (a : α) (k : α → Host.Outcome β Fault Refusal) : andThen (.next a) k = k a := rfl
@[simp] theorem andThen_fault {α β : Type} (f : Fault) (k : α → Host.Outcome β Fault Refusal) :
    andThen (.fault f) k = .fault f := rfl
@[simp] theorem andThen_refused {α β : Type} (r : Refusal) (k : α → Host.Outcome β Fault Refusal) :
    andThen (.refused r) k = .refused r := rfl

theorem andThen_eq_next {α β : Type} {o : Host.Outcome α Fault Refusal} {k : α → Host.Outcome β Fault Refusal} {b : β} :
    andThen o k = .next b ↔ ∃ a, o = .next a ∧ k a = .next b := by
  cases o <;> simp [andThen]

/-! ### Symbols: the three or two things each can do -/

theorem phyStart_done {s : State} (h : s.env.nextStart = .done) :
    phyStart s = (.done, { s with
      env := s.env.dropStart, wire := s.wire ++ [startEvent s.inFrame], inFrame := true }) := by
  simp [phyStart, h, State.emit]

theorem phyStart_hang {s : State} (h : s.env.nextStart = .hang) :
    phyStart s = (.hang, { s with env := s.env.dropStart }) := by simp [phyStart, h]

theorem phyWrite_ack {s : State} (b : Byte) (h : s.env.nextWrite = .ack) :
    phyWrite b s = (.ack, { s with env := s.env.dropWrite, wire := s.wire ++ [.w b .ack] }) := by
  simp [phyWrite, h, State.emit]

theorem phyWrite_nack {s : State} (b : Byte) (h : s.env.nextWrite = .nack) :
    phyWrite b s = (.nack, { s with env := s.env.dropWrite, wire := s.wire ++ [.w b .nack] }) := by
  simp [phyWrite, h, State.emit]

theorem phyWrite_hang {s : State} (b : Byte) (h : s.env.nextWrite = .hang) :
    phyWrite b s = (.hang, { s with env := s.env.dropWrite }) := by simp [phyWrite, h]

theorem phyRead_byte {s : State} (m : Ack) {v : Byte} (h : s.env.nextRead = .byte v) :
    phyRead m s = (.byte v, { s with env := s.env.dropRead, wire := s.wire ++ [.r v m] }) := by
  simp [phyRead, h, State.emit]

theorem phyRead_hang {s : State} (m : Ack) (h : s.env.nextRead = .hang) :
    phyRead m s = (.hang, { s with env := s.env.dropRead }) := by simp [phyRead, h]

theorem phyStop_done {s : State} (h : s.env.nextStop = .done) :
    phyStop s = (.done, { s with env := s.env.dropStop, wire := s.wire ++ [.p], inFrame := false }) := by
  simp [phyStop, h, State.emit]

theorem phyStop_hang {s : State} (h : s.env.nextStop = .hang) :
    phyStop s = (.hang, { s with env := s.env.dropStop }) := by simp [phyStop, h]

/-! ### Hardware-abstraction calls -/

theorem hal_ok {e : Event} {c : HalCall} {s : State} (h : s.env.nextHal = .ok) :
    hal e c s = (.ok, { s with env := s.env.dropHal, wire := s.wire ++ [e] }) := by simp [hal, h, State.emit]

theorem hal_fail {e : Event} {c : HalCall} {s : State} (h : s.env.nextHal = .fail) :
    hal e c s = (.fail, { s with env := s.env.dropHal, wire := s.wire ++ [e, .fail c] }) := by
  simp [hal, h, State.emit, List.append_assoc]

@[simp] theorem ifOk_ok (s : State) (k : State → HalAnswer × State) : ifOk (.ok, s) k = k s := rfl
@[simp] theorem ifOk_fail (s : State) (k : State → HalAnswer × State) : ifOk (.fail, s) k = (.fail, s) := rfl

/-! ### What EXECUTE and RECOVER leave alone -/

/-- What no symbol, no hardware-abstraction call and no abort of a link writes: the configuration, the lock, the buffers and
lengths, the scanner's state, the ports and responses, and everything that is not the block's. WIRE only grows. -/
structure LinkFrame (s t : State) : Prop where
  cfg : t.cfg = s.cfg
  lock : t.lock = s.lock
  waiters : t.waiters = s.waiters
  cb : t.cb = s.cb
  cbLen : t.cbLen = s.cbLen
  buildErr : t.buildErr = s.buildErr
  sb : t.sb = s.sb
  sbLen : t.sbLen = s.sbLen
  seqSel : t.seqSel = s.seqSel
  aset : t.aset = s.aset
  scanAddr : t.scanAddr = s.scanAddr
  tmoMs : t.tmoMs = s.tmoMs
  responses : t.responses = s.responses
  ports : t.ports = s.ports
  stimuli : t.stimuli = s.stimuli
  cur : t.cur = s.cur
  service : t.service = s.service
  params : t.params = s.params
  picks : t.env.picks = s.env.picks
  bytes : t.env.bytes = s.env.bytes
  wire : s.wire <+: t.wire

namespace LinkFrame

theorem refl (s : State) : LinkFrame s s := by constructor <;> rfl

theorem trans {s t u : State} (h : LinkFrame s t) (k : LinkFrame t u) : LinkFrame s u where
  cfg := k.cfg.trans h.cfg
  lock := k.lock.trans h.lock
  waiters := k.waiters.trans h.waiters
  cb := k.cb.trans h.cb
  cbLen := k.cbLen.trans h.cbLen
  buildErr := k.buildErr.trans h.buildErr
  sb := k.sb.trans h.sb
  sbLen := k.sbLen.trans h.sbLen
  seqSel := k.seqSel.trans h.seqSel
  aset := k.aset.trans h.aset
  scanAddr := k.scanAddr.trans h.scanAddr
  tmoMs := k.tmoMs.trans h.tmoMs
  responses := k.responses.trans h.responses
  ports := k.ports.trans h.ports
  stimuli := k.stimuli.trans h.stimuli
  cur := k.cur.trans h.cur
  service := k.service.trans h.service
  params := k.params.trans h.params
  picks := k.picks.trans h.picks
  bytes := k.bytes.trans h.bytes
  wire := h.wire.trans k.wire

end LinkFrame

theorem phyStart_frame (s : State) : LinkFrame s (phyStart s).2 := by
  cases h : s.env.nextStart <;> simp only [phyStart_done, phyStart_hang, h] <;>
    constructor <;> first | rfl | exact List.prefix_append ..

theorem phyWrite_frame (b : Byte) (s : State) : LinkFrame s (phyWrite b s).2 := by
  cases h : s.env.nextWrite <;> simp only [phyWrite_ack, phyWrite_nack, phyWrite_hang, h] <;>
    constructor <;> first | rfl | exact List.prefix_append ..

theorem phyRead_frame (m : Ack) (s : State) : LinkFrame s (phyRead m s).2 := by
  cases h : s.env.nextRead with
  | byte v =>
    rw [phyRead_byte m h]
    constructor <;> first | rfl | exact List.prefix_append ..
  | hang =>
    rw [phyRead_hang m h]
    constructor <;> rfl

theorem phyStop_frame (s : State) : LinkFrame s (phyStop s).2 := by
  cases h : s.env.nextStop <;> simp only [phyStop_done, phyStop_hang, h] <;>
    constructor <;> first | rfl | exact List.prefix_append ..

theorem hal_frame (e : Event) (c : HalCall) (s : State) : LinkFrame s (hal e c s).2 := by
  cases h : s.env.nextHal <;> simp only [hal_ok, hal_fail, h] <;>
    constructor <;> first | rfl | exact List.prefix_append ..

theorem ifOk_frame {s : State} {r : HalAnswer × State} {k : State → HalAnswer × State} (hr : LinkFrame s r.2)
    (hk : ∀ t, LinkFrame t (k t).2) : LinkFrame s (ifOk r k).2 := by
  obtain ⟨a, t⟩ := r
  cases a
  · exact hr.trans (hk t)
  · exact hr

theorem tearDownEngine_frame (s : State) : LinkFrame s (tearDownEngine s).2 :=
  ifOk_frame (hal_frame ..) fun t => by constructor <;> rfl

theorem dataLineToInput_frame (s : State) : LinkFrame s (dataLineToInput s).2 :=
  ifOk_frame (hal_frame ..) fun t => by constructor <;> rfl

theorem clockLineToOutput_frame (s : State) : LinkFrame s (clockLineToOutput s).2 :=
  ifOk_frame (hal_frame ..) fun t => by constructor <;> rfl

theorem driveClock_frame (level : Bool) (s : State) : LinkFrame s (driveClock level s).2 :=
  ifOk_frame (hal_frame ..) fun t => by constructor <;> rfl

theorem holdClock_frame (s : State) : LinkFrame s (holdClock s) := by
  constructor <;> first | rfl | exact List.prefix_append ..

theorem countToggle_frame (s : State) : LinkFrame s s.countToggle := by constructor <;> rfl

theorem halfToggle_frame (level : Bool) (s : State) : LinkFrame s (halfToggle level s).2 :=
  ifOk_frame (driveClock_frame ..) holdClock_frame

theorem toggle_frame (s : State) : LinkFrame s (toggle s).2 :=
  ifOk_frame (halfToggle_frame ..) fun _ => ifOk_frame (halfToggle_frame ..) countToggle_frame

theorem toggles_frame (n : Nat) (s : State) : LinkFrame s (toggles n s).2 := by
  induction n generalizing s with
  | zero => exact LinkFrame.refl s
  | succ n ih => exact ifOk_frame (toggle_frame s) ih

theorem reinitialiseEngine_frame (s : State) : LinkFrame s (reinitialiseEngine s).2 :=
  ifOk_frame (hal_frame ..) fun t => by constructor <;> rfl

theorem recover_frame (s : State) : LinkFrame s (recover s).2 :=
  ifOk_frame (tearDownEngine_frame s) fun _ => ifOk_frame (dataLineToInput_frame _) fun _ =>
    ifOk_frame (clockLineToOutput_frame _) fun _ => ifOk_frame (toggles_frame _ _) reinitialiseEngine_frame

theorem takeTimeoutTrap_frame (s : State) : LinkFrame s (takeTimeoutTrap s) := by
  constructor <;> first | rfl | exact List.prefix_append ..

theorem endLink_frame (s : State) (st : Status) : LinkFrame s (s.endLink st) := by
  constructor <;> rfl

theorem returnFromRecovery_frame {s : State} {r : HalAnswer × State} (h : LinkFrame s r.2) :
    LinkFrame s (returnFromRecovery r) := by
  obtain ⟨a, t⟩ := r
  cases a
  · exact h.trans (endLink_frame t .timeout)
  · refine h.trans ?_
    constructor <;> rfl

theorem timeoutAbort_frame (s : State) : LinkFrame s (timeoutAbort s) :=
  returnFromRecovery_frame ((takeTimeoutTrap_frame s).trans (recover_frame _))

theorem nackAbort_frame (s : State) : LinkFrame s (nackAbort s) := by
  have h := phyStop_frame s
  unfold nackAbort
  rcases hp : phyStop s with ⟨a, t⟩
  rw [hp] at h
  cases a
  · exact h.trans (endLink_frame t .nack)
  · exact h.trans (timeoutAbort_frame t)

/-! ### The bodies of the link operations -/

theorem performStart_frame (s : State) : LinkFrame s (performStart s).2 := by
  have h := phyStart_frame s
  unfold performStart
  rcases hp : phyStart s with ⟨a, t⟩
  rw [hp] at h
  cases a <;> exact h

theorem performStop_frame (s : State) : LinkFrame s (performStop s).2 := by
  have h := phyStop_frame s
  unfold performStop
  rcases hp : phyStop s with ⟨a, t⟩
  rw [hp] at h
  cases a <;> exact h

theorem performWriteAddressedByte_frame (b : Byte) (ackreq : Bool) (s : State) :
    LinkFrame s (performWriteAddressedByte b ackreq s).2 := by
  have h := phyWrite_frame b s
  unfold performWriteAddressedByte
  rcases hp : phyWrite b s with ⟨a, t⟩
  rw [hp] at h
  cases a <;> exact h

theorem thenNext_frame {s : State} {r : Perform × State} {k : State → Perform × State} (hr : LinkFrame s r.2)
    (hk : ∀ t, LinkFrame t (k t).2) : LinkFrame s (thenNext r k).2 := by
  obtain ⟨p, t⟩ := r
  cases p
  · exact hr.trans (hk t)
  all_goals exact hr

theorem sendByte_frame (b : Byte) (s : State) : LinkFrame s (sendByte b s).2 := by
  have h := phyWrite_frame b s
  unfold sendByte
  rcases hp : phyWrite b s with ⟨a, t⟩
  rw [hp] at h
  cases a <;> exact h

theorem performWriteBuffer_frame (data : List Byte) (s : State) : LinkFrame s (performWriteBuffer data s).2 := by
  induction data generalizing s with
  | nil => exact LinkFrame.refl s
  | cons b bs ih => exact thenNext_frame (sendByte_frame b s) ih

theorem receive_frame (s : State) (v : Byte) : LinkFrame s (s.receive v) := by
  constructor <;> rfl

theorem receiveByte_frame (m : Ack) (s : State) : LinkFrame s (receiveByte m s).2 := by
  have h := phyRead_frame m s
  unfold receiveByte
  rcases hp : phyRead m s with ⟨a, t⟩
  rw [hp] at h
  cases a with
  | hang => exact h
  | byte v =>
    dsimp only
    split
    · exact h.trans (receive_frame t v)
    · exact h

theorem performReadBuffer_frame (ln : Bool) (n : Nat) (s : State) : LinkFrame s (performReadBuffer ln n s).2 := by
  induction n generalizing s with
  | zero => exact LinkFrame.refl s
  | succ n ih => exact thenNext_frame (receiveByte_frame _ s) ih

theorem settle_frame {s : State} {size : Nat} {r : Perform × State} {t : State} (h : LinkFrame s r.2)
    (ht : settle size r = .next t) : LinkFrame s t := by
  obtain ⟨p, u⟩ := r
  cases p <;> simp only [settle, Host.Outcome.next.injEq, reduceCtorEq] at ht
  · subst ht; exact h.trans (by constructor <;> rfl)
  · subst ht; exact h.trans (by constructor <;> rfl)
  · subst ht; exact h.trans (nackAbort_frame u)
  · subst ht; exact h.trans (timeoutAbort_frame u)

end Sys2Proof.Machine
end

