-- ==== Sys2Proof/Laws/PerInstr.lean ====
section
/-! SUPPORT. Laws/PerInstr.lean: the statements about every instruction as syntax. The family LinkSize: the bytes of a link
operation are as many as 30_encoding R93 and R103 say, and a host operation has no bytes in a link buffer. -/

namespace Sys2Proof.Laws.LinkSize

/-- The encoded size of an instruction in a link buffer. -/
def Statement (i : Instr) : Prop := (linkBytes i).length = linkSize i

theorem start : Statement .start := rfl
theorem writeAddressedByte (b : Byte) (ackreq : Bool) : Statement (.writeAddressedByte b ackreq) := rfl
theorem writeBuffer (data : List Byte) : Statement (.writeBuffer data) := by
  simp only [Statement, linkBytes_wbuf, List.length_cons, linkSize]; omega
theorem readBuffer (len : Byte) (ln : Bool) : Statement (.readBuffer len ln) := rfl
theorem stop : Statement .stop := rfl
theorem init (port sda scl : Byte) (speed : Word32) : Statement (.init port sda scl speed) := rfl
theorem writeThenRead (a : Addr7) (data : List Byte) (rlen : Byte) : Statement (.writeThenRead a data rlen) := rfl
theorem readByte (a : Addr7) (reg : Byte) : Statement (.readByte a reg) := rfl
theorem writeByte (a : Addr7) (reg value : Byte) : Statement (.writeByte a reg value) := rfl
theorem scan : Statement .scan := rfl
theorem detectAndLog : Statement .detectAndLog := rfl

end Sys2Proof.Laws.LinkSize
end

