-- ==== Sys2Proof/Laws/Engine.lean ====
section
/-! SUPPORT. Laws/Engine.lean: the fetch of the sequencer, its next move, and the run of an operation. -/

namespace Sys2Proof.Machine

/-! ### The fetch -/

/-- The bytes ahead are as many as are left up to the link length. -/
theorem State.linkAhead_length {s : State} {bs : List Byte} (h : s.linkAhead = some bs) :
    bs.length = s.len s.seqSel - s.seqPtr := Memory.readRange_length h

/-- A link operation ahead has at least its header byte. -/
theorem linkBytes_pos {i : Instr} (hl : i.isLink = true) : 0 < (linkBytes i).length := by
  cases i <;> simp [Instr.isLink] at hl <;> simp [linkBytes, encode]

/-- With a link operation ahead the sequencer fetches it. -/
theorem fetchLinkOp_ahead {s : State} {i : Instr} {more : List Byte} (h : s.linkAhead = some (linkBytes i ++ more))
    (hl : i.isLink = true) (hw : i.WellFormed) : fetchLinkOp s = .next i := by
  simp [fetchLinkOp, h, decodeLink_append hl hw]

/-- Before symbol `k` of a link operation the next move is to produce it; before the first, to run the operation. -/
theorem nextMove_symbol {s : State} {i : Instr} {k : Nat} {more : List Byte} (hr : s.linkResult = none)
    (hk : s.point = .operation k) (h : s.linkAhead = some (linkBytes i ++ more)) (hl : i.isLink = true)
    (hw : i.WellFormed) : nextMove s = if k = 0 then .run i s else .settled (symbolStep i k s) := by
  have hp : s.seqPtr ≠ s.len s.seqSel := by
    have h1 := State.linkAhead_length h
    have h2 := linkBytes_pos hl
    rw [List.length_append] at h1
    omega
  simp [nextMove, hr, hk, hp, fetchLinkOp_ahead h hl hw]

theorem nextMove_ahead {s : State} {i : Instr} {more : List Byte} (hr : s.linkResult = none)
    (hk : s.point = .operation 0) (h : s.linkAhead = some (linkBytes i ++ more)) (hl : i.isLink = true)
    (hw : i.WellFormed) : nextMove s = .run i s := nextMove_symbol hr hk h hl hw

/-- After a rejected byte the next move is the STOP. -/
theorem nextMove_nackStop {s : State} (hr : s.linkResult = none) (hk : s.point = .nackStop) :
    nextMove s = .settled (nackStopStep s) := by simp [nextMove, hr, hk]

/-- Inside a recovery pass the next move is its next call. -/
theorem nextMove_recovery {s : State} {c : RecoveryCall} (hr : s.linkResult = none) (hk : s.point = .recovery c) :
    nextMove s = .settled (recoveryStep c s) := by simp [nextMove, hr, hk]

/-- With the result of its link decided the operation goes on with tear-down. -/
theorem nextMove_result {s : State} {st : Status} (hr : s.linkResult = some st) :
    nextMove s = .settled (endOfLink st s) := by simp [nextMove, hr]

/-- The sequencer's dispatch is the machine's. -/
theorem runLinkOp_eq_exec {i : Instr} (hl : i.isLink = true) (s : State) : runLinkOp i s = exec i s := by
  cases i <;> simp [Instr.isLink] at hl <;> rfl

theorem smallStep_ahead {s : State} {i : Instr} {more : List Byte} (hr : s.linkResult = none)
    (hk : s.point = .operation 0) (h : s.linkAhead = some (linkBytes i ++ more)) (hl : i.isLink = true) (hw : i.WellFormed) :
    smallStep s = exec i s := by
  simp [smallStep, nextMove_ahead hr hk h hl hw, runLinkOp_eq_exec hl]

theorem smallStep_result {s : State} {st : Status} (hr : s.linkResult = some st) : smallStep s = endOfLink st s := by
  simp [smallStep, nextMove_result hr]

/-- Past the operation just performed stands the rest of the link. -/
theorem State.linkAhead_advance {s t : State} {xs more : List Byte} (hcb : t.cb = s.cb) (hsb : t.sb = s.sb)
    (hcl : t.cbLen = s.cbLen) (hsl : t.sbLen = s.sbLen) (hsel : t.seqSel = s.seqSel)
    (hp : t.seqPtr = s.seqPtr + xs.length) (h : s.linkAhead = some (xs ++ more)) : t.linkAhead = some more := by
  have hb : t.buf t.seqSel = s.buf s.seqSel := by rw [hsel]; cases s.seqSel <;> simp [State.buf, hcb, hsb]
  have hl : t.len t.seqSel = s.len s.seqSel := by rw [hsel]; cases s.seqSel <;> simp [State.len, hcl, hsl]
  have h1 := State.linkAhead_length h
  rw [List.length_append] at h1
  have := Memory.readRange_drop h (k := xs.length) (by omega)
  rw [State.linkAhead, hb, hl, hp, show s.len s.seqSel - (s.seqPtr + xs.length) = s.len s.seqSel - s.seqPtr - xs.length by omega, this]
  simp

/-- After a link is submitted all of it is ahead. -/
theorem submit_linkAhead {sel : Sel} {bytes : List Byte} {s : State} (h : Built sel bytes s) (ms : BitVec 16) :
    (submit sel ms s).linkAhead = some bytes := by
  have hb : (submit sel ms s).buf sel = s.buf sel := by cases sel <;> rfl
  have hl : (submit sel ms s).len sel = bytes.length := by rw [← h.len]; cases sel <;> rfl
  have : (submit sel ms s).seqSel = sel := rfl
  rw [State.linkAhead, this, hb, hl]
  exact h.content

/-! ### The run of an operation -/

theorem drive_idle {s : State} (h : s.phase = .none) (n : Nat) : drive n s = .next s := by
  cases n <;> simp [drive, h]

theorem drive_step {s : State} (h : s.phase ≠ .none) (n : Nat) : drive (n + 1) s = andThen (smallStep s) (drive n) := by
  simp [drive, h]

theorem drive_step_next {s t : State} (h : s.phase ≠ .none) (hs : smallStep s = .next t) (n : Nat) :
    drive (n + 1) s = drive n t := by
  rw [drive_step h, hs, andThen_next]

/-- A run that ends within a bound ends the same within any larger one. -/
theorem drive_more {n : Nat} {s t : State} (h : drive n s = .next t) (k : Nat) : drive (n + k) s = .next t := by
  induction n generalizing s with
  | zero =>
    by_cases hp : s.phase = .none
    · rw [drive_idle hp] at h ⊢; exact h
    · simp [drive, hp] at h
  | succ n ih =>
    by_cases hp : s.phase = .none
    · rw [drive_idle hp] at h ⊢; exact h
    · rw [drive_step hp] at h
      obtain ⟨u, hu, hd⟩ := andThen_eq_next.1 h
      rw [Nat.add_right_comm, drive_step_next hp hu, ih hd]

/-- Where a run ends, the operation has completed. -/
theorem drive_phase {n : Nat} {s t : State} (h : drive n s = .next t) : t.phase = .none := by
  induction n generalizing s with
  | zero =>
    by_cases hp : s.phase = .none
    · rw [drive_idle hp] at h
      cases h
      exact hp
    · simp [drive, hp] at h
  | succ n ih =>
    by_cases hp : s.phase = .none
    · rw [drive_idle hp] at h
      cases h
      exact hp
    · rw [drive_step hp] at h
      obtain ⟨u, _, hd⟩ := andThen_eq_next.1 h
      exact ih hd

end Sys2Proof.Machine
end

