-- ==== Sys2Proof/Laws/Env.lean ====
section
/-! SUPPORT. Laws/Env.lean: the laws of the environment's tapes. -/

namespace Sys2Proof.Machine

variable {α : Type} (free : Nat → α)

@[simp] theorem Tape.ahead_zero (t : Tape α) : t.ahead free 0 = [] := rfl
theorem Tape.ahead_succ (n : Nat) (t : Tape α) : t.ahead free (n + 1) = t.head free :: t.tail.ahead free n := rfl
@[simp] theorem Tape.skip_zero (t : Tape α) : t.skip 0 = t := rfl
theorem Tape.skip_succ (n : Nat) (t : Tape α) : t.skip (n + 1) = t.tail.skip n := rfl

@[simp] theorem Tape.length_ahead (n : Nat) (t : Tape α) : (t.ahead free n).length = n := by
  induction n generalizing t with
  | zero => rfl
  | succ n ih => simp [Tape.ahead_succ, ih]

theorem Tape.skip_add (n k : Nat) (t : Tape α) : t.skip (n + k) = (t.skip n).skip k := by
  induction n generalizing t with
  | zero => simp
  | succ n ih => rw [Nat.add_right_comm, Tape.skip_succ, ih, Tape.skip_succ]

/-- The answers ahead, cut in two. -/
theorem Tape.ahead_add (n k : Nat) (t : Tape α) :
    t.ahead free (n + k) = t.ahead free n ++ (t.skip n).ahead free k := by
  induction n generalizing t with
  | zero => simp
  | succ n ih => rw [Nat.add_right_comm, Tape.ahead_succ, ih, Tape.ahead_succ, Tape.skip_succ, List.cons_append]

/-- One answer after the next `n`. -/
theorem Tape.skip_tail (n : Nat) (t : Tape α) : (t.skip n).tail = t.skip (n + 1) := by
  rw [Tape.skip_add]; rfl

/-- Answers laid down come first. -/
theorem Tape.ahead_lay (as : List α) (t : Tape α) : (t.lay as).ahead free as.length = as := by
  obtain ⟨q, d⟩ := t
  show Tape.ahead free as.length ⟨as ++ q, d⟩ = as
  induction as with
  | nil => rfl
  | cons a as ih => simpa [Tape.ahead_succ, Tape.head, Tape.tail] using ih

end Sys2Proof.Machine
end

