-- ==== Sys2Proof/Laws/LinkOps.lean ====
section
/-! SUPPORT. Laws/LinkOps.lean: what performing a link operation writes and puts on the wire, whatever the environment answers,
and the bodies of the two operations with a loop when it answers well. -/

namespace Sys2Proof.Machine

/-! ### Everything performing can do -/

/-- Performing a link operation writes WIRE (symbols only), IN_FRAME, RDATA, RD_LEN and the environment, nothing else. -/
structure Performs (s t : State) : Prop where
  frame : LinkFrame s t
  mode : t.mode = s.mode
  phase : t.phase = s.phase
  engineUp : t.engineUp = s.engineUp
  sdaMode : t.sdaMode = s.sdaMode
  sclMode : t.sclMode = s.sclMode
  sclLevel : t.sclLevel = s.sclLevel
  toggleCnt : t.toggleCnt = s.toggleCnt
  seqPtr : t.seqPtr = s.seqPtr
  tmoArmed : t.tmoArmed = s.tmoArmed
  linkResult : t.linkResult = s.linkResult
  point : t.point = s.point
  hals : t.env.hals = s.env.hals
  wire : ∃ syms : List Event, t.wire = s.wire ++ syms ∧ ∀ e ∈ syms, e.isSymbol = true

theorem Performs.refl (s : State) : Performs s s := by
  refine ⟨LinkFrame.refl s, rfl, rfl, rfl, rfl, rfl, rfl, rfl, rfl, rfl, rfl, rfl, rfl, [], by simp, by simp⟩

theorem Performs.trans {s t u : State} (h : Performs s t) (k : Performs t u) : Performs s u := by
  obtain ⟨xs, hx, hs⟩ := h.wire
  obtain ⟨ys, hy, ht⟩ := k.wire
  exact ⟨h.frame.trans k.frame, k.mode.trans h.mode, k.phase.trans h.phase, k.engineUp.trans h.engineUp,
    k.sdaMode.trans h.sdaMode, k.sclMode.trans h.sclMode, k.sclLevel.trans h.sclLevel, k.toggleCnt.trans h.toggleCnt,
    k.seqPtr.trans h.seqPtr, k.tmoArmed.trans h.tmoArmed, k.linkResult.trans h.linkResult, k.point.trans h.point, k.hals.trans h.hals,
    xs ++ ys, by rw [hy, hx, List.append_assoc],
    fun e he => (List.mem_append.1 he).elim (hs e) (ht e)⟩

theorem phyStart_performs (s : State) : Performs s (phyStart s).2 := by
  refine ⟨phyStart_frame s, ?_, ?_, ?_, ?_, ?_, ?_, ?_, ?_, ?_, ?_, ?_, ?_, ?_⟩
  case refine_13 =>
    cases h : s.env.nextStart
    · exact ⟨[startEvent s.inFrame], by simp [phyStart, h], by cases s.inFrame <;> simp [startEvent, Event.isSymbol]⟩
    · exact ⟨[], by simp [phyStart, h], by simp⟩
  all_goals cases h : s.env.nextStart <;> simp [phyStart, h, Env.dropStart]

theorem phyStop_performs (s : State) : Performs s (phyStop s).2 := by
  refine ⟨phyStop_frame s, ?_, ?_, ?_, ?_, ?_, ?_, ?_, ?_, ?_, ?_, ?_, ?_, ?_⟩
  case refine_13 =>
    cases h : s.env.nextStop
    · exact ⟨[.p], by simp [phyStop, h], by simp [Event.isSymbol]⟩
    · exact ⟨[], by simp [phyStop, h], by simp⟩
  all_goals cases h : s.env.nextStop <;> simp [phyStop, h, Env.dropStop]

theorem phyWrite_performs (b : Byte) (s : State) : Performs s (phyWrite b s).2 := by
  refine ⟨phyWrite_frame b s, ?_, ?_, ?_, ?_, ?_, ?_, ?_, ?_, ?_, ?_, ?_, ?_, ?_⟩
  case refine_13 =>
    cases h : s.env.nextWrite
    · exact ⟨[.w b .ack], by simp [phyWrite, h], by simp [Event.isSymbol]⟩
    · exact ⟨[.w b .nack], by simp [phyWrite, h], by simp [Event.isSymbol]⟩
    · exact ⟨[], by simp [phyWrite, h], by simp⟩
  all_goals cases h : s.env.nextWrite <;> simp [phyWrite, h, Env.dropWrite]

theorem phyRead_performs (m : Ack) (s : State) : Performs s (phyRead m s).2 := by
  refine ⟨phyRead_frame m s, ?_, ?_, ?_, ?_, ?_, ?_, ?_, ?_, ?_, ?_, ?_, ?_, ?_⟩
  case refine_13 =>
    cases h : s.env.nextRead with
    | byte v => exact ⟨[.r v m], by simp [phyRead, h], by simp [Event.isSymbol]⟩
    | hang => exact ⟨[], by simp [phyRead, h], by simp⟩
  all_goals cases h : s.env.nextRead <;> simp [phyRead, h, Env.dropRead]

theorem receive_performs (s : State) (v : Byte) : Performs s (s.receive v) := by
  refine ⟨receive_frame s v, rfl, rfl, rfl, rfl, rfl, rfl, rfl, rfl, rfl, rfl, rfl, rfl, [], ?_, by simp⟩
  simp [State.receive]

theorem performStart_performs (s : State) : Performs s (performStart s).2 := by
  have h := phyStart_performs s
  unfold performStart
  rcases hp : phyStart s with ⟨a, t⟩
  rw [hp] at h
  cases a <;> exact h

theorem performStop_performs (s : State) : Performs s (performStop s).2 := by
  have h := phyStop_performs s
  unfold performStop
  rcases hp : phyStop s with ⟨a, t⟩
  rw [hp] at h
  cases a <;> exact h

theorem performWriteAddressedByte_performs (b : Byte) (ackreq : Bool) (s : State) :
    Performs s (performWriteAddressedByte b ackreq s).2 := by
  have h := phyWrite_performs b s
  unfold performWriteAddressedByte
  rcases hp : phyWrite b s with ⟨a, t⟩
  rw [hp] at h
  cases a <;> exact h

theorem thenNext_performs {s : State} {r : Perform × State} {k : State → Perform × State} (hr : Performs s r.2)
    (hk : ∀ t, Performs t (k t).2) : Performs s (thenNext r k).2 := by
  obtain ⟨p, t⟩ := r
  cases p
  · exact hr.trans (hk t)
  all_goals exact hr

theorem sendByte_performs (b : Byte) (s : State) : Performs s (sendByte b s).2 := by
  have h := phyWrite_performs b s
  unfold sendByte
  rcases hp : phyWrite b s with ⟨a, t⟩
  rw [hp] at h
  cases a <;> exact h

theorem performWriteBuffer_performs (data : List Byte) (s : State) : Performs s (performWriteBuffer data s).2 := by
  induction data generalizing s with
  | nil => exact Performs.refl s
  | cons b bs ih => exact thenNext_performs (sendByte_performs b s) ih

theorem receiveByte_performs (m : Ack) (s : State) : Performs s (receiveByte m s).2 := by
  have h := phyRead_performs m s
  unfold receiveByte
  rcases hp : phyRead m s with ⟨a, t⟩
  rw [hp] at h
  cases a with
  | hang => exact h
  | byte v =>
    dsimp only
    split
    · exact h.trans (receive_performs t v)
    · exact h

theorem performReadBuffer_performs (ln : Bool) (n : Nat) (s : State) : Performs s (performReadBuffer ln n s).2 := by
  induction n generalizing s with
  | zero => exact Performs.refl s
  | succ n ih => exact thenNext_performs (receiveByte_performs _ s) ih

/-! ### One byte: the three or two things it can do -/

@[simp] theorem thenNext_next (s : State) (k : State → Perform × State) : thenNext (.next, s) k = k s := rfl
@[simp] theorem thenNext_nack (s : State) (k : State → Perform × State) : thenNext (.nack, s) k = (.nack, s) := rfl
@[simp] theorem thenNext_hang (s : State) (k : State → Perform × State) : thenNext (.hang, s) k = (.hang, s) := rfl
@[simp] theorem thenNext_overrun (s : State) (k : State → Perform × State) : thenNext (.overrun, s) k = (.overrun, s) := rfl

theorem sendByte_ack {s : State} (b : Byte) (h : s.env.nextWrite = .ack) :
    sendByte b s = (.next, { s with env := s.env.dropWrite, wire := s.wire ++ [.w b .ack] }) := by
  simp [sendByte, phyWrite_ack b h]

theorem sendByte_nack {s : State} (b : Byte) (h : s.env.nextWrite = .nack) :
    sendByte b s = (.nack, { s with env := s.env.dropWrite, wire := s.wire ++ [.w b .nack] }) := by
  simp [sendByte, phyWrite_nack b h]

theorem sendByte_hang {s : State} (b : Byte) (h : s.env.nextWrite = .hang) :
    sendByte b s = (.hang, { s with env := s.env.dropWrite }) := by simp [sendByte, phyWrite_hang b h]

theorem receiveByte_byte {s : State} (m : Ack) {v : Byte} (h : s.env.nextRead = .byte v)
    (room : s.rdLen < s.params.rdCapacity) :
    receiveByte m s = (.next, ({ s with env := s.env.dropRead, wire := s.wire ++ [.r v m] } : State).receive v) := by
  simp [receiveByte, phyRead_byte m h, room]

theorem receiveByte_hang {s : State} (m : Ack) (h : s.env.nextRead = .hang) :
    receiveByte m s = (.hang, { s with env := s.env.dropRead }) := by simp [receiveByte, phyRead_hang m h]

/-! ### The loops when the environment answers well -/

/-- The state after these bytes have been sent and acknowledged. -/
def State.sent (s : State) (data : List Byte) : State :=
  { s with env := { s.env with writes := s.env.writes.skip data.length }, wire := s.wire ++ data.map (.w · .ack) }

/-- The body of WRITE_BUFFER with every byte acknowledged. -/
theorem performWriteBuffer_acknowledged (data : List Byte) (s : State)
    (h : s.env.nextWrites data.length = List.replicate data.length .ack) :
    performWriteBuffer data s = (.next, s.sent data) := by
  induction data generalizing s with
  | nil => simp [performWriteBuffer, State.sent]
  | cons b bs ih =>
    rw [Env.nextWrites, List.length_cons, Tape.ahead_succ, List.replicate_succ, List.cons.injEq] at h
    have h1 : s.env.nextWrite = .ack := h.1
    simp only [performWriteBuffer, sendByte_ack b h1, thenNext_next]
    rw [ih _ (by simpa [Env.nextWrites, Env.dropWrite] using h.2)]
    simp [State.sent, Env.dropWrite, Tape.skip_succ]

/-- The body of WRITE_BUFFER does with the bytes after an acknowledged part what it would do with them alone. -/
theorem performWriteBuffer_append (before rest : List Byte) (s : State)
    (h : s.env.nextWrites before.length = List.replicate before.length .ack) :
    performWriteBuffer (before ++ rest) s = performWriteBuffer rest (s.sent before) := by
  induction before generalizing s with
  | nil => simp [State.sent]
  | cons b bs ih =>
    rw [Env.nextWrites, List.length_cons, Tape.ahead_succ, List.replicate_succ, List.cons.injEq] at h
    have h1 : s.env.nextWrite = .ack := h.1
    simp only [List.cons_append, performWriteBuffer, sendByte_ack b h1, thenNext_next]
    rw [ih _ (by simpa [Env.nextWrites, Env.dropWrite] using h.2)]
    simp [State.sent, Env.dropWrite, Tape.skip_succ]

/-- The body of READ_BUFFER when the slave sends every byte and RDATA has room for them. -/
theorem performReadBuffer_received (ln : Bool) (vs : List Byte) (s : State)
    (h : s.env.nextReads vs.length = vs.map .byte) (room : s.rdLen + vs.length ≤ s.params.rdCapacity) :
    ∃ es : List Event, es.length = vs.length ∧ performReadBuffer ln vs.length s = (.next, { s with
      env := { s.env with reads := s.env.reads.skip vs.length }
      wire := s.wire ++ es
      rdata := Memory.writeRange s.rdata s.rdLen vs, rdLen := s.rdLen + vs.length }) := by
  induction vs generalizing s with
  | nil => exact ⟨[], rfl, by simp [performReadBuffer, Memory.writeRange]⟩
  | cons v vs ih =>
    rw [Env.nextReads, List.length_cons, Tape.ahead_succ, List.map_cons, List.cons.injEq] at h
    have h1 : s.env.nextRead = .byte v := h.1
    have hr : s.rdLen < s.params.rdCapacity := by rw [List.length_cons] at room; omega
    obtain ⟨es, hl, he⟩ := ih (({ s with env := s.env.dropRead }.emit (.r v (readAck ln vs.length))).receive v)
      (by simpa [Env.nextReads, Env.dropRead, State.receive] using h.2)
      (by rw [List.length_cons] at room; simp [State.receive]; omega)
    refine ⟨.r v (readAck ln vs.length) :: es, by simp [hl], ?_⟩
    have hn : s.rdLen + 1 + vs.length = s.rdLen + (vs.length + 1) := by omega
    simp only [List.length_cons, performReadBuffer, receiveByte_byte _ h1 hr, thenNext_next]
    simp only [State.receive, State.emit] at he ⊢
    rw [he]
    simp [Env.dropRead, Tape.skip_succ, Memory.writeRange, hn]

end Sys2Proof.Machine
end

