-- ==== Sys2Proof/Laws/Symbols.lean ====
section
/-! SUPPORT. Laws/Symbols.lean: one symbol of a link operation and one call of the recovery pass, each in all it can do, and which
of them a step of 00_scope R3 takes. -/

namespace Sys2Proof.Machine

/-! ### One symbol -/

theorem inWalk_of {s : State} (h : s.walking = true) (k : Result) : inWalk s k = k := by simp [inWalk, h]
theorem inOpenFrame_of {s : State} (h : s.inFrame = true) (k : Result) : inOpenFrame s k = k := by simp [inOpenFrame, h]

/-- A symbol that completed, the last of its operation or not. -/
theorem settleSymbol_next (i : Instr) (k : Nat) (s : State) :
    settleSymbol i k (.next, s) = .next { s with
      seqPtr := if k + 1 < symbolCount i then s.seqPtr else s.seqPtr + linkSize i
      point := if k + 1 < symbolCount i then .operation (k + 1) else .operation 0 } := by
  simp only [settleSymbol]
  split <;> rfl

theorem symbolStep_start_done {s : State} (k : Nat) (hw : s.walking = true) (h : s.env.nextStart = .done) :
    symbolStep .start k s = .next { s with
      env := s.env.dropStart, wire := s.wire ++ [startEvent s.inFrame], inFrame := true,
      seqPtr := s.seqPtr + 1, point := .operation 0 } := by
  rw [symbolStep, inWalk_of hw, performStart, phyStart_done h]
  simp [settleSymbol, symbolCount, linkSize]

theorem symbolStep_start_hang {s : State} (k : Nat) (hw : s.walking = true) (h : s.env.nextStart = .hang) :
    symbolStep .start k s = .next (takeTimeoutTrap { s with env := s.env.dropStart }) := by
  rw [symbolStep, inWalk_of hw, performStart, phyStart_hang h]
  rfl

theorem symbolStep_stop_done {s : State} (k : Nat) (hw : s.walking = true) (h : s.env.nextStop = .done) :
    symbolStep .stop k s = .next (({ s with
      env := s.env.dropStop, wire := s.wire ++ [.p], inFrame := false, seqPtr := s.seqPtr + 1 } : State).endLink .ok) := by
  rw [symbolStep, inWalk_of hw, performStop, phyStop_done h]
  rfl

theorem symbolStep_stop_hang {s : State} (k : Nat) (hw : s.walking = true) (h : s.env.nextStop = .hang) :
    symbolStep .stop k s = .next (takeTimeoutTrap { s with env := s.env.dropStop }) := by
  rw [symbolStep, inWalk_of hw, performStop, phyStop_hang h]
  rfl

theorem symbolStep_wab_next {s : State} (b : Byte) (ackreq : Bool) (a : Ack) (k : Nat) (hw : s.walking = true)
    (hf : s.inFrame = true) (h : s.env.nextWrite = a.answer) (ha : a = .ack ∨ ackreq = false) :
    symbolStep (.writeAddressedByte b ackreq) k s = .next { s with
      env := s.env.dropWrite, wire := s.wire ++ [.w b a], seqPtr := s.seqPtr + 2, point := .operation 0 } := by
  rw [symbolStep, inWalk_of hw, inOpenFrame_of hf, performWriteAddressedByte]
  cases a with
  | ack => rw [phyWrite_ack b h]; simp [settleSymbol, symbolCount, linkSize]
  | nack =>
    obtain rfl : ackreq = false := by simpa using ha
    rw [phyWrite_nack b h]
    simp [settleSymbol, symbolCount, linkSize]

theorem symbolStep_wab_nack {s : State} (b : Byte) (k : Nat) (hw : s.walking = true) (hf : s.inFrame = true)
    (h : s.env.nextWrite = .nack) :
    symbolStep (.writeAddressedByte b true) k s = .next { s with
      env := s.env.dropWrite, wire := s.wire ++ [.w b .nack], point := .nackStop } := by
  rw [symbolStep, inWalk_of hw, inOpenFrame_of hf, performWriteAddressedByte, phyWrite_nack b h]
  rfl

theorem symbolStep_wab_hang {s : State} (b : Byte) (ackreq : Bool) (k : Nat) (hw : s.walking = true) (hf : s.inFrame = true)
    (h : s.env.nextWrite = .hang) :
    symbolStep (.writeAddressedByte b ackreq) k s = .next (takeTimeoutTrap { s with env := s.env.dropWrite }) := by
  rw [symbolStep, inWalk_of hw, inOpenFrame_of hf, performWriteAddressedByte, phyWrite_hang b h]
  rfl

theorem symbolStep_wbuf_ack {s : State} {data : List Byte} {b : Byte} {k : Nat} (hw : s.walking = true)
    (hf : s.inFrame = true) (hb : data[k]? = some b) (h : s.env.nextWrite = .ack) :
    symbolStep (.writeBuffer data) k s = .next { s with
      env := s.env.dropWrite, wire := s.wire ++ [.w b .ack]
      seqPtr := if k + 1 < data.length then s.seqPtr else s.seqPtr + (2 + data.length)
      point := if k + 1 < data.length then .operation (k + 1) else .operation 0 } := by
  rw [symbolStep, inWalk_of hw, inOpenFrame_of hf, symbolOfWriteBuffer, hb]
  simp only [sendByte_ack b h, settleSymbol_next]
  rfl

theorem symbolStep_wbuf_nack {s : State} {data : List Byte} {b : Byte} {k : Nat} (hw : s.walking = true)
    (hf : s.inFrame = true) (hb : data[k]? = some b) (h : s.env.nextWrite = .nack) :
    symbolStep (.writeBuffer data) k s = .next { s with
      env := s.env.dropWrite, wire := s.wire ++ [.w b .nack], point := .nackStop } := by
  rw [symbolStep, inWalk_of hw, inOpenFrame_of hf, symbolOfWriteBuffer, hb]
  simp only [sendByte_nack b h, settleSymbol]

theorem symbolStep_wbuf_hang {s : State} {data : List Byte} {k : Nat} (hw : s.walking = true) (hf : s.inFrame = true)
    (hk : k < data.length) (h : s.env.nextWrite = .hang) :
    symbolStep (.writeBuffer data) k s = .next (takeTimeoutTrap { s with env := s.env.dropWrite }) := by
  rw [symbolStep, inWalk_of hw, inOpenFrame_of hf, symbolOfWriteBuffer, List.getElem?_eq_getElem hk]
  simp only [sendByte_hang _ h, settleSymbol]

/-- The answer to byte `k` of `n`: NACK exactly to the final one with LN = 1 (41_command_link R145). -/
theorem readAck_at (ln : Bool) {k n : Nat} (hk : k < n) :
    readAck ln (n - (k + 1)) = if ln = true ∧ k + 1 = n then .nack else .ack := by
  have h : (n - (k + 1) == 0) = decide (k + 1 = n) := by
    rw [Bool.eq_iff_iff, beq_iff_eq, decide_eq_true_iff]
    omega
  rw [readAck, h]
  cases ln <;> simp

theorem symbolStep_rbuf_byte {s : State} {len : Byte} {ln : Bool} {v : Byte} {k : Nat} (hw : s.walking = true)
    (hf : s.inFrame = true) (hk : k < len.toNat) (room : s.rdLen < s.params.rdCapacity) (h : s.env.nextRead = .byte v) :
    symbolStep (.readBuffer len ln) k s = .next { s with
      env := s.env.dropRead
      wire := s.wire ++ [.r v (if ln = true ∧ k + 1 = len.toNat then .nack else .ack)]
      rdata := Memory.write s.rdata s.rdLen v, rdLen := s.rdLen + 1
      seqPtr := if k + 1 < len.toNat then s.seqPtr else s.seqPtr + 2
      point := if k + 1 < len.toNat then .operation (k + 1) else .operation 0 } := by
  rw [symbolStep, inWalk_of hw, inOpenFrame_of hf, symbolOfReadBuffer, if_pos hk, receiveByte_byte _ h room,
    settleSymbol_next, readAck_at ln hk]
  rfl

theorem symbolStep_rbuf_hang {s : State} {len : Byte} {ln : Bool} {k : Nat} (hw : s.walking = true) (hf : s.inFrame = true)
    (hk : k < len.toNat) (h : s.env.nextRead = .hang) :
    symbolStep (.readBuffer len ln) k s = .next (takeTimeoutTrap { s with env := s.env.dropRead }) := by
  rw [symbolStep, inWalk_of hw, inOpenFrame_of hf, symbolOfReadBuffer, if_pos hk, receiveByte_hang _ h]
  rfl

theorem nackStopStep_done {s : State} (hw : s.walking = true) (h : s.env.nextStop = .done) :
    nackStopStep s = .next
      (({ s with env := s.env.dropStop, wire := s.wire ++ [.p], inFrame := false } : State).endLink .nack) := by
  rw [nackStopStep, inWalk_of hw, phyStop_done h]

theorem nackStopStep_hang {s : State} (hw : s.walking = true) (h : s.env.nextStop = .hang) :
    nackStopStep s = .next (takeTimeoutTrap { s with env := s.env.dropStop }) := by
  rw [nackStopStep, inWalk_of hw, phyStop_hang h]

/-! ### One call of the recovery pass -/

/-- A call that fails ends the pass where it is (42_recovery R173). -/
theorem recoveryCall_fail {s : State} {c : RecoveryCall} {call : HalCall}
    (hc : (recoveryEvent s.cfg c).halCall = some call) (h : s.env.nextHal = .fail) :
    recoveryCall c s = (.fail, { s with
      env := s.env.dropHal, wire := s.wire ++ [recoveryEvent s.cfg c, .fail call] }) := by
  cases c <;> simp only [recoveryEvent, Event.halCall, Option.some.injEq, reduceCtorEq] at hc <;> subst hc <;>
    simp [recoveryCall, tearDownEngine, dataLineToInput, clockLineToOutput, driveClock, reinitialiseEngine, hal_fail h,
      recoveryEvent]

/-- A step of the pass is its next call and what follows it. -/
theorem recoveryStep_of {s : State} (c : RecoveryCall) (hp : s.phase = .recover) (hl : s.lock ≠ .free) :
    recoveryStep c s = .next (afterRecoveryCall c (recoveryCall c s)) := by simp [recoveryStep, hp, hl]

/-! ### Which of them a step takes -/

/-- With no input left, or with `tick`, the engine takes one step. -/
theorem step_oneStep {s : State} {rest : List Stimulus} (h : s.OneStep rest) :
    step s = perform (onlyBegin (engineMove { s with stimuli := rest })) := by
  rcases h with ⟨h, rfl⟩ | h
  · rw [show ({ s with stimuli := [] } : State) = s by rw [← h]]
    simp only [step, fetch, h]
  · simp only [step, fetch, h]

/-- What is not an instruction to fetch is done as it is. -/
theorem step_oneStep_settled {s : State} {rest : List Stimulus} {o : Result} (h : s.OneStep rest) (hu : s.unbegun = none)
    (hp : s.phase ≠ .none) (hm : nextMove { s with stimuli := rest } = .settled o) : step s = o := by
  have h1 : engineMove { s with stimuli := rest } = .settled o := by
    unfold engineMove
    rw [show State.unbegun { s with stimuli := rest } = none from hu, hm]
    exact if_neg hp
  rw [step_oneStep h, h1]
  rfl

/-- Before symbol `k` of a link operation the step produces it. -/
theorem step_beforeSymbol {s : State} {rest : List Stimulus} {i : Instr} {k : Nat} (h : s.OneStep rest)
    (hb : s.BeforeSymbol i k) (hl : i.isLink = true) (hw : i.WellFormed) :
    step s = symbolStep i k { s with stimuli := rest } := by
  obtain ⟨hu, hwalk, hk, more, ha⟩ := hb
  simp only [State.walking, Bool.and_eq_true, beq_iff_eq, bne_iff_ne] at hwalk
  obtain ⟨⟨⟨⟨hx, _⟩, _⟩, hr⟩, _⟩ := hwalk
  have hp : s.phase ≠ .none := by rw [hx]; decide
  have hm := nextMove_symbol (s := { s with stimuli := rest }) hr hk ha hl hw
  by_cases h0 : k = 0
  · subst h0
    have h1 : engineMove { s with stimuli := rest } = .run i { s with stimuli := rest } := by
      unfold engineMove
      rw [show State.unbegun { s with stimuli := rest } = none from hu, hm]
      exact if_neg hp
    rw [step_oneStep h, h1]
    have hlock : i.isLocked = false := by cases i <;> first | rfl | cases hl
    simp only [onlyBegin, hl, Bool.or_true, if_true, perform, firstStep, hlock, Bool.false_eq_true, if_false]
  · exact step_oneStep_settled h hu hp (by rw [hm, if_neg h0])

/-- After a rejected byte the step generates the STOP. -/
theorem step_nackStop {s : State} {rest : List Stimulus} (h : s.OneStep rest) (hu : s.unbegun = none)
    (hwalk : s.walking = true) (hk : s.point = .nackStop) : step s = nackStopStep { s with stimuli := rest } := by
  simp only [State.walking, Bool.and_eq_true, beq_iff_eq, bne_iff_ne] at hwalk
  obtain ⟨⟨⟨⟨hx, _⟩, _⟩, hr⟩, _⟩ := hwalk
  exact step_oneStep_settled h hu (by rw [hx]; decide) (nextMove_nackStop (s := { s with stimuli := rest }) hr hk)

/-- Inside a recovery pass the step makes its next call. -/
theorem step_beforeCall {s : State} {rest : List Stimulus} {c : RecoveryCall} (h : s.OneStep rest) (hb : s.BeforeCall c) :
    step s = .next (afterRecoveryCall c (recoveryCall c { s with stimuli := rest })) := by
  obtain ⟨hu, hp, hl, hr, hk⟩ := hb
  exact (step_oneStep_settled h hu (by rw [hp]; decide) (nextMove_recovery (s := { s with stimuli := rest }) hr hk)).trans
    (recoveryStep_of (s := { s with stimuli := rest }) c hp hl)

end Sys2Proof.Machine
end

