-- ==== Sys2Proof/Tests/Slice0.lean ====
section
/-! SUPPORT. Tests/Slice0.lean: tests whose expected results stand in the spec (30_encoding, 95_test_vectors), the ill-formed
terms WellFormed refuses, and for every statement with hypotheses a state and operands that meet them. -/

namespace Sys2Proof.Tests

open Sys2Proof.Machine

/-! ### WellFormed refuses what no encoding carries -/

theorem test_wellformed_refuses_write_buffer_256 : ¬(Instr.writeBuffer (List.replicate 256 0)).WellFormed := by
  decide +kernel
theorem test_wellformed_takes_write_buffer_255 : (Instr.writeBuffer (List.replicate 255 0)).WellFormed := by
  decide +kernel
theorem test_wellformed_refuses_payload_256 : ¬(Instr.writeThenRead 0x18 (List.replicate 256 0) 0).WellFormed := by
  decide +kernel

/-! ### Decoding: words written out bit by bit (30_encoding R91, R92, R97) -/

theorem test_decode_start : decode (.link [0b00010000]) = .ok .start := by decide +kernel
theorem test_decode_wab : decode (.link [0b00100001, 0b11010110]) = .ok (.writeAddressedByte 0xD6 true) := by decide +kernel
theorem test_decode_wab_noackreq : decode (.link [0b00100000, 0x32]) = .ok (.writeAddressedByte 0x32 false) := by
  decide +kernel
theorem test_decode_wbuf : decode (.link [0b00110000, 0b00000010, 0x20, 0x57]) = .ok (.writeBuffer [0x20, 0x57]) := by
  decide +kernel
theorem test_decode_rbuf : decode (.link [0b01000001, 0b00000011]) = .ok (.readBuffer 3 true) := by decide +kernel
theorem test_decode_rbuf_allack : decode (.link [0b01000000, 0b00000010]) = .ok (.readBuffer 2 false) := by decide +kernel
theorem test_decode_stop : decode (.link [0b01010000]) = .ok .stop := by decide +kernel
theorem test_decode_init : decode (.request ⟨0b001_00000001_00000100_00000101_00000, [100000], []⟩) = .ok (.init 1 4 5 100000) := by
  decide +kernel
theorem test_decode_write_then_read :
    decode (.request ⟨0b010_1110110_00000001_00000011_000000, [], [0xF7]⟩) = .ok (.writeThenRead 0x76 [0xF7] 3) := by
  decide +kernel
theorem test_decode_read_byte :
    decode (.request ⟨0b011_1111111_11111111_00000000000000, [], []⟩) = .ok (.readByte 0x7F 0xFF) := by decide +kernel
theorem test_decode_write_byte :
    decode (.request ⟨0b100_0011000_00100000_01010111_000000, [], []⟩) = .ok (.writeByte 0x18 0x20 0x57) := by
  decide +kernel
theorem test_decode_scan : decode (.request ⟨0b101_00000000000000000000000000000, [], []⟩) = .ok .scan := by decide +kernel
theorem test_decode_detect_and_log : decode (.request ⟨0b110_00000000000000000000000000000, [], []⟩) = .ok .detectAndLog := by
  decide +kernel
/-- V-X18, V-Q12: reserved headers, an overrun, reserved requests. -/
theorem test_decode_refuses :
    decode (.link [0x60]) = .error (.reservedHeader 0x60) ∧ decode (.link [0x11]) = .error (.reservedHeader 0x11) ∧
    decode (.link [0x30, 0x05, 0x01]) = .error .linkOverrun ∧
    decode (.request ⟨0xE0000000, [], []⟩) = .error (.reservedRequest 0xE0000000) ∧
    decode (.request ⟨0xA0000001, [], []⟩) = .error (.reservedRequest 0xA0000001) ∧
    decode (.request ⟨0x60000001, [], []⟩) = .error (.reservedRequest 0x60000001) := by decide +kernel
/-- V-Q1, V-Q3, V-Q8 the other way round. -/
theorem test_encode :
    encode (.init 0 21 22 400000) = .request ⟨0x2002A2C0, [0x00061A80], []⟩ ∧
    encode (.writeThenRead 0x76 [0xF7] 3) = .request ⟨0x5D8040C0, [], [0xF7]⟩ ∧
    encode (.writeByte 0x18 0x20 0x57) = .request ⟨0x860815C0, [], []⟩ := by decide +kernel

/-! ### Small states -/

/-- The environment with these answers laid down. -/
def answers (starts : List SymAnswer) (writes : List WriteAnswer) (reads : List ReadAnswer) (stops : List SymAnswer)
    (hals : List HalAnswer) : Env :=
  ⟨⟨starts, 0⟩, ⟨writes, 0⟩, ⟨reads, 0⟩, ⟨stops, 0⟩, ⟨hals, 0⟩, ⟨[0], 0⟩, ⟨[0, 0, 0, 0], 0⟩⟩

/-- Nothing ever fails in recovery. -/
def halsOk : List HalAnswer := List.replicate 68 .ok

/-- After `INIT 0, 21, 22, 100000` answered Ok (95_test_vectors section 3). -/
def ready (e : Env) : State :=
  { State.reset with
    mode := .ready, cfg := ⟨0, 21, 22, 100000⟩, engineUp := true, sdaMode := .engine, sclMode := .engine, env := e }

/-- EXECUTE walks this link in CB for requester 0. -/
def walking (bytes : List Byte) (e : Env) : State :=
  { ready e with
    phase := .exec, lock := .held 0, ports := [(0, ⟨0x40000000, [], []⟩)], service := some (.writeThenRead 0 [] 0)
    cb := Memory.writeRange [] 0 bytes, cbLen := bytes.length, tmoArmed := true, tmoMs := 100 }

/-- The same in an open frame. -/
def inFrame (bytes : List Byte) (e : Env) : State := { walking bytes e with inFrame := true }

/-- The state a step leaves. -/
def after : Result → State
  | .next s => s
  | .fault _ => State.reset
  | .refused _ => State.reset

/-- The step answers a next state. -/
def goesOn : Result → Bool
  | .next _ => true
  | .fault _ => false
  | .refused _ => false

theorem next_of_goesOn {o : Result} (h : goesOn o = true) : o = .next (after o) := by
  cases o with
  | next s => rfl
  | fault f => cases h
  | refused r => cases h

/-- The events of a clean recovery pass with CFG = (0, 21, 22, 100000), from V-R11. -/
def cleanPass : List Event :=
  [.engDown, .dir 21 .input, .dir 22 .output]
    ++ (List.replicate 32 [.lvl 22 false, .dly 10, .lvl 22 true, .dly 10]).flatten ++ [.engCfg 0 21 22 100000]

/-- Which addresses acknowledge in V-S4. -/
def twoDevices : List Ack := (List.range 128).map fun a => if a = 0x18 ∨ a = 0x6B then .ack else .nack

/-- A scan of the bus of V-S4 finds nothing hanging. -/
def scanEnv : Env := answers (List.replicate 128 .done) (twoDevices.map Ack.answer) [] (List.replicate 128 .done) []

/-! ### The link operations (95_test_vectors 2.4) -/

theorem test_start : (after (exec .start (walking [0x10] (answers [.done] [] [] [] [])))).wire = [.s] := by decide +kernel
theorem test_start_repeated : (after (exec .start (inFrame [0x10] (answers [.done] [] [] [] [])))).wire = [.sr] := by
  decide +kernel
/-- V-X15: with ACKREQ = 0 a NACK is recorded and ignored. -/
theorem test_wab_noackreq :
    let t := after (exec (.writeAddressedByte 0x32 false) (inFrame [0x20, 0x32] (answers [] [.nack] [] [] [])))
    t.wire = [.w 0x32 .nack] ∧ t.linkResult = none ∧ t.seqPtr = 2 := by decide +kernel
/-- V-X2. -/
theorem test_wab_nack :
    let t := after (exec (.writeAddressedByte 0x32 true) (inFrame [0x21, 0x32] (answers [] [.nack] [] [.done] [])))
    t.wire = [.w 0x32 .nack, .p] ∧ t.linkResult = some .nack ∧ t.seqPtr = 0 := by decide +kernel
/-- V-X3. -/
theorem test_wbuf :
    (after (exec (.writeBuffer [0x20, 0x57]) (inFrame [] (answers [] [.ack, .ack] [] [] [])))).wire
      = [.w 0x20 .ack, .w 0x57 .ack] := by decide +kernel
/-- V-X4: 0x57 is not sent. -/
theorem test_wbuf_nack :
    let t := after (exec (.writeBuffer [0x20, 0x57]) (inFrame [] (answers [] [.nack] [] [.done] [])))
    t.wire = [.w 0x20 .nack, .p] ∧ t.linkResult = some .nack := by decide +kernel
/-- V-X8: the last byte is answered with NACK. -/
theorem test_rbuf :
    let t := after (exec (.readBuffer 3 true) (inFrame [] (answers [] [] [.byte 0x11, .byte 0x22, .byte 0x33] [] [])))
    t.wire = [.r 0x11 .ack, .r 0x22 .ack, .r 0x33 .nack] ∧ t.rdata = [(0, 0x11), (1, 0x22), (2, 0x33)] ∧ t.rdLen = 3 := by
  decide +kernel
/-- V-X16: with LN = 0 every byte is acknowledged. -/
theorem test_rbuf_allack :
    (after (exec (.readBuffer 2 false) (inFrame [] (answers [] [] [.byte 1, .byte 2] [] [])))).wire
      = [.r 1 .ack, .r 2 .ack] := by decide +kernel
theorem test_stop :
    let t := after (exec .stop (inFrame [0x50] (answers [] [] [] [.done] [])))
    t.wire = [.p] ∧ t.linkResult = some .ok ∧ t.inFrame = false ∧ t.seqPtr = 1 := by decide +kernel
/-- V-X13: STOP hangs; V-R11: the recovery pass. -/
theorem test_stop_hangs :
    let t := after (exec .stop (inFrame [0x50] (answers [] [] [] [.hang] halsOk)))
    t.wire = .tmo :: cleanPass ∧ t.linkResult = some .timeout ∧ t.seqPtr = 0 ∧ t.toggleCnt = 32 := by decide +kernel
/-- V-R12: the tear-down of the engine fails. -/
theorem test_recovery_engine_down_fails :
    let t := after (exec .stop (inFrame [0x50] (answers [] [] [] [.hang] [.fail])))
    t.wire = [.tmo, .engDown, .fail .engDown] ∧ t.mode = .fatal ∧ t.engineUp = true := by decide +kernel
/-- V-R14: the low of the sixth toggle fails. -/
theorem test_recovery_sixth_low_fails :
    let t := after (exec .stop (inFrame [0x50] (answers [] [] [] [.hang] (List.replicate 13 .ok ++ [.fail]))))
    t.mode = .fatal ∧ t.toggleCnt = 5 ∧ t.sclMode = .gpioOut ∧ t.sclLevel = true ∧ t.engineUp = false := by decide +kernel
/-- V-R1 to V-R9. -/
theorem test_half_period :
    [100000, 400000, 1000000, 1000001, 999999, 333333, 50000, 1].map halfPeriod = [10, 2, 1, 0, 1, 3, 20, 1000000] := by
  decide +kernel

/-! ### The host operations (95_test_vectors 2.6 to 2.8) -/

/-- V-L1. -/
theorem test_init :
    let t := after (exec (.init 0 21 22 400000) { State.reset with env := answers [] [] [] [] [.ok] })
    t.wire = [.engCfg 0 21 22 400000] ∧ t.mode = .ready ∧ t.responses = [(0, .status .ok)] := by decide +kernel
/-- V-L3. -/
theorem test_init_speed_zero :
    let t := after (exec (.init 0 21 22 0) State.reset)
    t.wire = [] ∧ t.mode = .uninit ∧ t.responses = [(0, .status .configurationFault)] := by decide +kernel
/-- The second transaction of P2. -/
theorem test_write_then_read :
    let t := after (exec (.writeThenRead 0x76 [0xF7] 3)
      (ready (answers [.done, .done] [.ack, .ack, .ack] [.byte 0x11, .byte 0x22, .byte 0x33] [.done] [])))
    t.wire = [.s, .w 0xEC .ack, .w 0xF7 .ack, .sr, .w 0xED .ack, .r 0x11 .ack, .r 0x22 .ack, .r 0x33 .nack, .p] ∧
    t.responses = [(0, .bytes .ok [0x11, 0x22, 0x33])] := by decide +kernel
/-- P5. -/
theorem test_write_then_read_too_large :
    let t := after (exec (.writeThenRead 0x18 [1, 2, 3, 4, 5, 6, 7, 8, 9, 10, 11, 12] 0) (ready Env.empty))
    t.wire = [] ∧ t.responses = [(0, .bytes .noMemory [])] ∧ t.cbLen = 0 ∧ t.buildErr = false ∧ t.lock = .free := by
  decide +kernel
/-- V-T1. -/
theorem test_read_byte :
    let t := after (exec (.readByte 0x6B 0x0B)
      (ready (answers [.done, .done] [.ack, .ack, .ack] [.byte 0x5A] [.done] [])))
    t.wire = [.s, .w 0xD6 .ack, .w 0x0B .ack, .sr, .w 0xD7 .ack, .r 0x5A .nack, .p] ∧
    t.responses = [(0, .byte .ok 0x5A)] := by decide +kernel
/-- P3, its first operation. -/
theorem test_read_byte_hangs :
    let t := after (exec (.readByte 0x18 0x0F) (ready (answers [.done] [.ack, .hang] [] [] halsOk)))
    t.wire = [.s, .w 0x30 .ack, .tmo] ++ cleanPass ∧ t.seqPtr = 3 ∧ t.lock = .free ∧ t.mode = .ready ∧
    t.responses.map (fun p => p.2.st) = [.timeout] := by decide +kernel
/-- V-T2, with CMD_CAPACITY = 8 (V-T8). -/
theorem test_write_byte :
    let t := after (exec (.writeByte 0x18 0x20 0x57)
      { ready (answers [.done] [.ack, .ack, .ack] [] [.done] []) with params := ⟨8, 4, 4, 2⟩ })
    t.wire = [.s, .w 0x30 .ack, .w 0x20 .ack, .w 0x57 .ack, .p] ∧ t.responses = [(0, .status .ok)] := by decide +kernel
/-- P7, its first operation. -/
theorem test_write_byte_fatal :
    let t := after (exec (.writeByte 0x18 0x20 0x57)
      (ready (answers [.hang] [] [] [] (List.replicate 67 .ok ++ [.fail]))))
    t.wire = .tmo :: (cleanPass ++ [.fail .engCfg]) ∧ t.mode = .fatal ∧ t.engineUp = false ∧ t.sdaMode = .gpioIn ∧
    t.sclMode = .gpioOut ∧ t.lock = .free ∧ t.responses = [(0, .status .configurationFault)] := by decide +kernel
/-- V-S4. -/
theorem test_scan :
    let t := after (exec .scan (ready scanEnv))
    t.responses = [(0, .addressSet .ok 0x00000800000000000000000001000000)] ∧ t.wire.length = 384 ∧ t.scanAddr = 128 := by
  decide +kernel
/-- V-S5. -/
theorem test_scan_hangs :
    let t := after (exec .scan (ready (answers (List.replicate 33 .done)
      ((twoDevices.take 32).map Ack.answer ++ [.hang]) [] (List.replicate 32 .done) halsOk)))
    t.responses = [(0, .addressSet .timeout 0x1000000)] ∧ t.scanAddr = 0x20 ∧ t.toggleCnt = 32 ∧
    t.wire.drop 96 = [.s, .tmo] ++ cleanPass := by decide +kernel
/-- V-S8. -/
theorem test_detect_and_log :
    let t := after (exec .detectAndLog (ready scanEnv))
    t.wire.drop 384 = [.log 24, .log 107] ∧ t.responses = [(0, .status .ok)] := by decide +kernel
/-- V-T9, V-S9. -/
theorem test_fatal :
    let t := after (exec (.writeByte 0x18 0x20 0x57) { ready Env.empty with mode := .fatal })
    t.wire = [] ∧ t.lock = .free ∧ t.responses = [(0, .status .configurationFault)] := by decide +kernel

/-! ### One symbol a step (00_scope R3) -/

/-- V-X3, V-X4: the first byte is sent alone, and a byte rejected waits for its STOP. -/
theorem test_step_one_byte :
    let s (a : WriteAnswer) := after (step (inFrame [0x30, 0x02, 0x20, 0x57, 0x50] (answers [] [a] [] [] [])))
    (s .ack).wire = [.w 0x20 .ack] ∧ (s .ack).point = .operation 1 ∧ (s .ack).seqPtr = 0 ∧
    (s .nack).wire = [.w 0x20 .nack] ∧ (s .nack).point = .nackStop ∧ (s .nack).linkResult = none := by decide +kernel
/-- R171, R238: a hang is TMO alone, and step 1 of the pass comes next. -/
theorem test_step_hang :
    let t := after (step (inFrame [0x50] (answers [] [] [] [.hang] [])))
    t.wire = [.tmo] ∧ t.phase = .recover ∧ t.point = .recovery .tearDown ∧ t.tmoArmed = false ∧ t.inFrame = false := by
  decide +kernel

/-! ### The link a transaction builds (95_test_vectors 2.3) -/

/-- V-B3, V-B5, V-B8. -/
theorem test_builder :
    (buildTransaction 0x6B [0x0B] 1 (ready Env.empty)).cb.map Prod.snd
      = [0x10, 0x21, 0xD6, 0x30, 0x01, 0x0B, 0x10, 0x21, 0xD7, 0x41, 0x01, 0x50] ∧
    (buildTransaction 0x76 [] 2 (ready Env.empty)).cb.map Prod.snd = [0x10, 0x21, 0xEC, 0x10, 0x21, 0xED, 0x41, 0x02, 0x50] ∧
    (let t := buildTransaction 0x18 (List.replicate 11 7) 0 (ready Env.empty)
     t.cbLen = 16 ∧ t.buildErr = true) := by decide +kernel

/-! ### The word the host places -/

theorem test_fetchword_start : (after (step (State.reset.withFetchWord 8 0x10))).wire = [.s] := by decide +kernel
theorem test_fetchword_wab : (after (step (State.reset.withFetchWord 16 0xD621))).wire = [.w 0xD6 .ack] := by decide +kernel
theorem test_fetchword_wbuf :
    (after (step (State.reset.withFetchWord 24 0x570130))).wire = [.w 0x57 .ack] := by decide +kernel
theorem test_fetchword_rbuf : (after (step (State.reset.withFetchWord 16 0x0141))).wire = [.r 0 .nack] := by decide +kernel
theorem test_fetchword_stop : (after (step (State.reset.withFetchWord 8 0x50))).wire = [.p] := by decide +kernel
theorem test_fetchword_init :
    (after (step (State.reset.withFetchWord 64 0x00061A802002A2C0))).wire = [.engCfg 0 21 22 400000] := by decide +kernel
theorem test_fetchword_write_then_read :
    (after (step (State.reset.withFetchWord 40 0xF75D804000))).wire = [.s, .w 0xEC .ack, .w 0xF7 .ack, .p] := by
  decide +kernel
theorem test_fetchword_read_byte :
    (after (step (State.reset.withFetchWord 32 0x7AC2C000))).responses = [(0, .byte .ok 0)] := by decide +kernel
theorem test_fetchword_write_byte :
    (after (step (State.reset.withFetchWord 32 0x860815C0))).responses = [(0, .status .ok)] := by decide +kernel
theorem test_fetchword_scan : (after (step (State.reset.withFetchWord 32 0xA0000000))).scanAddr = 128 := by decide +kernel
theorem test_fetchword_detect_and_log :
    (after (step (State.reset.withFetchWord 32 0xC0000000))).scanAddr = 128 := by decide +kernel
theorem test_tableword :
    decodeTableWord 16 0x0230 = some (.writeBuffer [0, 0]) ∧ decodeTableWord 16 0x0030 = some (.writeBuffer []) ∧
    decodeTableWord 8 0x60 = none ∧ decodeTableWord 32 0x20000000 = some (.init 0 0 0 0) ∧
    decodeTableWord 32 0x54000000 = some (.writeThenRead 0x50 [] 0) := by decide +kernel

/-! ### Witnesses: for every statement with hypotheses, a state and operands that meet them -/

/-- A request of requester 0 waits for the free lock: `WRITE_THEN_READ 0x18, [], 0` (word 0x46000000). -/
def waiting : State :=
  { ready (answers [.done] [.ack] [] [.done] []) with ports := [(0, ⟨0x46000000, [], []⟩)], waiters := [0] }

/-- The same, and requester 0 presents a second request. -/
def secondRequest : State := { waiting with stimuli := [.present 0 ⟨0xA0000000, [], []⟩] }

/-- A READ_BYTE of requester 0 has just begun. -/
def begunIn (e : Env) : State := beginLocked (.readByte 0x18 0x0F) { ready e with ports := [(0, ⟨0x6603C000, [], []⟩)] }

/-- Its START will complete. -/
def begun : State := begunIn (answers [.done] [] [] [] [])

/-- Requester 0's READ_BYTE is inside a recovery pass, before this call; the answers of the calls to come. -/
def recovering (c : RecoveryCall) (hals : List HalAnswer) : State :=
  { begunIn (answers [] [] [] [] hals) with
    phase := .recover, tmoArmed := false, point := .recovery c, toggleCnt := 31, engineUp := false, sdaMode := .gpioIn,
    sclMode := .gpioOut, sclLevel := true }

/-- The first of two payload bytes has been sent. -/
def betweenBytes : State :=
  { inFrame [0x30, 2, 7, 8, 0x50] (answers [] [.ack] [] [] []) with point := .operation 1 }

theorem waiting_inv : waiting.Inv :=
  ⟨by decide +kernel, by decide +kernel, by decide +kernel, by decide +kernel, by decide +kernel, by decide +kernel,
    by decide +kernel, fun h => absurd rfl h⟩

theorem secondRequest_inv : secondRequest.Inv :=
  ⟨by decide +kernel, by decide +kernel, by decide +kernel, by decide +kernel, by decide +kernel, by decide +kernel,
    by decide +kernel, fun h => absurd rfl h⟩

/-- Between the last high level of the pass and its delay. -/
theorem recovering_inv : (recovering .holdHigh []).Inv := by
  refine ⟨by decide +kernel, by decide +kernel, by decide +kernel, by decide +kernel, by decide +kernel,
    by decide +kernel, by decide +kernel, fun _ => ⟨by decide +kernel, by decide +kernel, by decide +kernel, ?_⟩⟩
  intro i h
  have : some (Instr.readByte 0x18 0x0F) = some i := h
  cases this
  decide +kernel

theorem betweenBytes_inv : betweenBytes.Inv := by
  refine ⟨by decide +kernel, by decide +kernel, by decide +kernel, by decide +kernel, by decide +kernel,
    by decide +kernel, by decide +kernel, fun _ => ⟨by decide +kernel, by decide +kernel, by decide +kernel, ?_⟩⟩
  intro i h
  have : some (Instr.writeThenRead 0 [] 0) = some i := h
  cases this
  decide +kernel

theorem begun_inv : begun.Inv := by
  refine ⟨by decide +kernel, by decide +kernel, by decide +kernel, by decide +kernel, by decide +kernel,
    by decide +kernel, by decide +kernel, fun _ => ⟨by decide +kernel, by decide +kernel, by decide +kernel, ?_⟩⟩
  intro i h
  have : some (Instr.readByte 0x18 0x0F) = some i := h
  cases this
  decide +kernel

theorem witness_ResetInputDropsEverything : ({ begun with stimuli := [.reset] } : State).stimuli = .reset :: [] := rfl
theorem witness_StepKeepsInvariant_idle : waiting.Inv ∧ goesOn (step waiting) = true := ⟨waiting_inv, by decide +kernel⟩
theorem witness_StepKeepsInvariant_working : begun.Inv ∧ goesOn (step begun) = true := ⟨begun_inv, by decide +kernel⟩
theorem witness_StepKeepsInvariant_recovering :
    (recovering .holdHigh []).Inv ∧ goesOn (step (recovering .holdHigh [])) = true := ⟨recovering_inv, by decide +kernel⟩
theorem witness_StepKeepsInvariant_betweenBytes : betweenBytes.Inv ∧ goesOn (step betweenBytes) = true :=
  ⟨betweenBytes_inv, by decide +kernel⟩
theorem witness_OnlyCallersAreRefused :
    secondRequest.Inv ∧ (match step secondRequest with
      | .refused r => decide (r = .portBusy) | .next _ => false | .fault _ => false) = true :=
  ⟨secondRequest_inv, by decide +kernel⟩
theorem witness_DecodeOfEncode_longest : (Instr.writeThenRead 0x7F (List.replicate 255 0xFF) 0xFF).WellFormed := by
  decide +kernel
theorem witness_EncodeOfDecode : decode (.request ⟨0xA0000000, [], []⟩) = .ok .scan := by decide +kernel
theorem witness_ReservedHeadersRejected : decodeLink [0x51] = .error (.reservedHeader 0x51) ∧ (0x12 : Byte).extractLsb' 1 3 ≠ 0 := by
  decide +kernel
theorem witness_ReservedRequestsRejected :
    decodeRequest ⟨0xC0000001, [], []⟩ = .error (.reservedRequest 0xC0000001) ∧
    decodeRequest ⟨0, [], []⟩ = .error (.reservedRequest 0) := by decide +kernel
theorem witness_HalfPeriodIsTheQuotient : (0xFFFFFFFF : Word32) ≠ 0 ∧ (1 : Word32) ≠ 0 := by decide
/-- BUILD_ERR set; one byte too many; exactly full (the example of R131). -/
theorem witness_AppendFollowsItsRule :
    let s : State := { ready Env.empty with cbLen := 3 }
    ({ s with buildErr := true } : State).buildErr = true ∧ s.buildErr = false ∧
    s.cap .selCb < s.len .selCb + (List.replicate 14 (0 : Byte)).length ∧
    s.len .selCb + (List.replicate 13 (0 : Byte)).length ≤ s.cap .selCb := by decide +kernel
/-- RD_CAPACITY is 4: 4 fits, 5 does not. -/
theorem witness_BuilderStepsAppendTheirBytes :
    let s := ready Env.empty
    (4 : Byte).toNat ≤ s.params.rdCapacity ∧ s.params.rdCapacity < (5 : Byte).toNat ∧ s.buildErr = false ∧
    ({ s with buildErr := true } : State).buildErr = true := by decide +kernel
/-- START completes, and hangs. -/
theorem witness_StartCompletes :
    let s := walking [0x10] (answers [.done] [] [] [] [])
    let s2 := walking [0x10] (answers [.hang] [] [] [] halsOk)
    (s.executing = true ∧ s.env.nextStart = .done) ∧ (s2.executing = true ∧ s2.env.nextStart = .hang) := by decide +kernel
/-- Acknowledged with ACKREQ = 1, rejected with either, hanging; and outside a frame. -/
theorem witness_WriteAddressedByteCompletes :
    let s (a : WriteAnswer) := inFrame [0x21, 0x30] (answers [] [a] [] [.done] halsOk)
    (∀ a ∈ [WriteAnswer.ack, .nack, .hang], (s a).executing = true ∧ (s a).inFrame = true ∧ (s a).env.nextWrite = a) ∧
    Ack.ack.answer = .ack ∧ Ack.nack.answer = .nack ∧
    (walking [0x21, 0x30] Env.empty).executing = true ∧ (walking [0x21, 0x30] Env.empty).inFrame = false := by decide +kernel
/-- Two bytes acknowledged, and none to send; the first rejected, the second hanging; and outside a frame. -/
theorem witness_WriteBufferCompletes :
    let s := inFrame [] (answers [] [.ack, .ack] [] [] [])
    let s2 := inFrame [] (answers [] [.nack] [] [.done] [])
    let s3 := inFrame [] (answers [] [.ack, .hang] [] [] halsOk)
    (s.executing = true ∧ s.inFrame = true ∧ s.env.nextWrites 2 = List.replicate 2 .ack ∧ s.env.nextWrites 0 = []) ∧
    (s2.executing = true ∧ s2.inFrame = true ∧ s2.env.nextWrites (0 + 1) = List.replicate 0 .ack ++ [.nack]) ∧
    (s3.executing = true ∧ s3.inFrame = true ∧ s3.env.nextWrites (1 + 1) = List.replicate 1 .ack ++ [.hang]) ∧
    (walking [] Env.empty).executing = true ∧ (walking [] Env.empty).inFrame = false := by decide +kernel
/-- As many bytes as RDATA holds, and none; a hang on the first byte, and on the last of four. -/
theorem witness_ReadBufferCompletes :
    let s := inFrame [] (answers [] [] [.byte 1, .byte 2, .byte 3, .byte 4] [] [])
    let s2 := inFrame [] (answers [] [] [.hang] [] halsOk)
    let s3 := inFrame [] (answers [] [] [.byte 1, .byte 2, .byte 3, .hang] [] halsOk)
    (s.executing = true ∧ s.inFrame = true ∧ s.env.nextReads (4 : Byte).toNat = [1, 2, 3, 4].map .byte ∧
      s.rdLen + (4 : Byte).toNat ≤ s.params.rdCapacity ∧ s.env.nextReads (0 : Byte).toNat = []) ∧
    (s2.executing = true ∧ s2.inFrame = true ∧ s2.env.nextReads (0 + 1) = [] ++ [.hang]) ∧
    (s3.executing = true ∧ s3.inFrame = true ∧ s3.env.nextReads (3 + 1) = [1, 2, 3].map .byte ++ [.hang] ∧
      3 < (4 : Byte).toNat ∧ s3.rdLen + 3 ≤ s3.params.rdCapacity) ∧
    (walking [] Env.empty).executing = true ∧ (walking [] Env.empty).inFrame = false := by decide +kernel
theorem witness_StopCompletes :
    let s := inFrame [0x50] (answers [] [] [] [.done] [])
    let s2 := inFrame [0x50] (answers [] [] [] [.hang] halsOk)
    (s.executing = true ∧ s.env.nextStop = .done) ∧ (s2.executing = true ∧ s2.env.nextStop = .hang) := by decide +kernel
theorem witness_NackAbortGeneratesStop :
    (answers [] [] [] [.done] []).nextStop = .done ∧ (answers [] [] [] [.hang] []).nextStop = .hang := by decide +kernel
theorem witness_LinkOperationOutsideExecuteFaults : Instr.start.isLink = true ∧ (ready Env.empty).executing = false := by
  decide +kernel
/-- The five outcomes: still going, Ok, Nack, Timeout, ConfigurationFault. -/
theorem witness_LinkOperationOutcomes :
    let go (i : Instr) (e : Env) := (exec i (inFrame [] e))
    (inFrame [] Env.empty).executing = true ∧
    (after (go .start (answers [.done] [] [] [] []))).linkResult = none ∧
    (after (go .stop (answers [] [] [] [.done] []))).linkResult = some .ok ∧
    (after (go (.writeBuffer [1]) (answers [] [.nack] [] [.done] []))).linkResult = some .nack ∧
    (after (go (.readBuffer 1 true) (answers [] [] [.hang] [] halsOk))).linkResult = some .timeout ∧
    (after (go .start (answers [.hang] [] [] [] [.fail]))).linkResult = some .configurationFault ∧
    goesOn (go .start (answers [.done] [] [] [] [])) = true := by decide +kernel
theorem witness_LinkOperationFrame :
    goesOn (exec (.readBuffer 2 true) (inFrame [] (answers [] [] [.byte 1, .hang] [] halsOk))) = true ∧
    goesOn (exec .start (walking [0x10] (answers [.done] [] [] [] []))) = true := by decide +kernel
theorem witness_CleanRecoveryPass : (answers [] [] [] [] halsOk).nextHals 68 = List.replicate 68 .ok := by decide +kernel
theorem witness_FailedRecoveryPass :
    (answers [] [] [] [] [.fail]).nextHals (0 + 1) = List.replicate 0 .ok ++ [.fail] ∧
    (answers [] [] [] [] (List.replicate 67 .ok ++ [.fail])).nextHals (67 + 1) = List.replicate 67 .ok ++ [.fail] := by
  decide +kernel
/-- The configure call succeeds, and fails; the largest and the smallest speed but 0. -/
theorem witness_InitCompletes :
    let s (a : HalAnswer) : State :=
      { State.reset with ports := [(0, ⟨0x2002A2C0, [400000], []⟩)], env := answers [] [] [] [] [a] }
    (∀ a ∈ [HalAnswer.ok, .fail], (s a).mode = .uninit ∧ (s a).othersOutstanding = false ∧ (s a).env.nextHal = a) ∧
    (1 : Word32) ≠ 0 ∧ (0xFFFFFFFF : Word32) ≠ 0 := by decide +kernel
theorem witness_OutOfOrderOperationsRefused :
    let s : State := { State.reset with ports := [(1, ⟨0xA0000000, [], []⟩)] }
    Instr.scan.isLocked = true ∧ State.reset.mode = .uninit ∧ (ready Env.empty).mode ≠ .uninit ∧
    s.mode = .uninit ∧ s.othersOutstanding = true := by decide +kernel
theorem witness_WriteThenReadCompletes_read :
    let e := answers [.done, .done] [.ack, .ack, .ack] [.byte 0x11, .byte 0x22, .byte 0x33] [.done] []
    (ready e).CanServe ∧ (Instr.writeThenRead 0x76 [0xF7] 3).WellFormed ∧
    transactionFits (ready e).params 1 (3 : Byte).toNat = true ∧
    e.nextStarts 2 = List.replicate 2 .done ∧ e.nextWrites (1 + 2) = List.replicate (1 + 2) .ack ∧
    e.nextReads (3 : Byte).toNat = [0x11, 0x22, 0x33].map .byte ∧ e.nextStop = .done := by decide +kernel
/-- Exactly full: 10 payload bytes, nothing read (V-B7). -/
theorem witness_WriteThenReadCompletes_full :
    let e := answers [.done] (List.replicate 11 .ack) [] [.done] []
    (ready e).CanServe ∧ (Instr.writeThenRead 0x18 (List.replicate 10 7) 0).WellFormed ∧
    transactionFits (ready e).params 10 (0 : Byte).toNat = true ∧ transactionFits (ready e).params 11 (0 : Byte).toNat = false ∧
    e.nextStarts 1 = List.replicate 1 .done ∧ e.nextWrites (10 + 1) = List.replicate 11 .ack ∧
    e.nextReads (0 : Byte).toNat = [] ∧ e.nextStop = .done := by decide +kernel
theorem witness_ReadByteCompletes :
    let e := answers [.done, .done] [.ack, .ack, .ack] [.byte 0x5A] [.done] []
    (ready e).CanServe ∧ 12 ≤ (ready e).params.cmdCapacity ∧ 1 ≤ (ready e).params.rdCapacity ∧
    e.nextStarts 2 = [.done, .done] ∧ e.nextWrites 3 = [.ack, .ack, .ack] ∧ e.nextRead = .byte 0x5A ∧ e.nextStop = .done := by
  decide +kernel
theorem witness_WriteByteCompletes :
    let e := answers [.done] [.ack, .ack, .ack] [] [.done] []
    (ready e).CanServe ∧ 8 ≤ (ready e).params.cmdCapacity ∧ e.nextStart = .done ∧ e.nextWrites 3 = [.ack, .ack, .ack] ∧
    e.nextStop = .done := by decide +kernel
/-- One byte too many (V-B8), and a read longer than the read buffer (V-B11). -/
theorem witness_TransactionTooLarge :
    (ready Env.empty).CanServe ∧ (Instr.writeThenRead 0x18 (List.replicate 11 7) 0).WellFormed ∧
    transactionFits (ready Env.empty).params 11 0 = false ∧ (Instr.writeThenRead 0x18 [] 5).WellFormed ∧
    transactionFits (ready Env.empty).params 0 5 = false := by decide +kernel
theorem witness_ByteOperationsAreTransactions :
    let e := answers [.done, .done] [.ack, .ack, .ack] [.byte 1] [.done] []
    (ready e).CanServe ∧ goesOn (exec (.writeThenRead 0x6B [7] 1) (ready e)) = true ∧
    goesOn (exec (.writeThenRead 0x6B [7, 8] 0) (ready e)) = true := by decide +kernel
theorem witness_TransactionLinkIsBuilt :
    (Instr.writeThenRead 0x76 [0xF7] 3).WellFormed ∧ transactionFits Params.reset 1 (3 : Byte).toNat = true ∧
    (Instr.writeThenRead 0x50 [] 0).WellFormed ∧ transactionFits Params.reset 0 0 = true := by decide +kernel
/-- A transaction that is rejected at its address, one that does not fit, one that hangs, one whose recovery fails. -/
theorem witness_TransactionOnTheWire :
    let i := Instr.readByte 0x19 0
    let go (e : Env) := (exec i (ready e))
    i.isLocked = true ∧ i.isScan = false ∧ i.WellFormed ∧ (ready Env.empty).CanServe ∧
    (after (go (answers [.done] [.nack] [] [.done] []))).wire = [.s, .w 0x32 .nack, .p] ∧
    goesOn (exec (.writeThenRead 0 [] 5) (ready Env.empty)) = true ∧
    goesOn (go (answers [.hang] [] [] [] halsOk)) = true ∧ (after (go (answers [.hang] [] [] [] [.fail]))).mode = .fatal := by
  decide +kernel
theorem witness_TransactionFrame :
    let s := ready (answers [.done] [.nack] [] [.done] [])
    s.CanServe ∧ goesOn (exec (.readByte 0x19 0) s) = true := by decide +kernel
/-- P1, its second and third operation. -/
theorem witness_RoundTripThroughTheReferenceSlave :
    let slave : RefSlave := ⟨0x6B, [], 0, false, none, false⟩
    let s := ready (answers [.done] [.ack, .ack, .ack] [] [.done] [])
    let t := after (exec (.writeByte 0x6B 0x07 0x8C) s)
    let v := (slave.hears (t.wire ++ [.s, .w 0xD6 .ack, .w 0x07 .ack, .sr, .w 0xD7 .ack])).sends
    let s2 : State := { t with env := answers [.done, .done] [.ack, .ack, .ack] [.byte v] [.done] [] }
    let t2 := after (exec (.readByte 0x6B 0x07) s2)
    goesOn (exec (.writeByte 0x6B 0x07 0x8C) s) = true ∧ t.responses = s.responses ++ [(s.cur, .status .ok)] ∧
    s2.CanServe ∧ goesOn (exec (.readByte 0x6B 0x07) s2) = true ∧
    t2.responses = s2.responses ++ [(s2.cur, .byte .ok 0x8C)] := by decide +kernel
theorem witness_ScanCompletes :
    (ready scanEnv).CanServe ∧ 4 ≤ (ready scanEnv).params.scanCapacity ∧
    scanEnv.nextStarts 128 = List.replicate 128 .done ∧ scanEnv.nextWrites 128 = twoDevices.map Ack.answer ∧
    scanEnv.nextStops 128 = List.replicate 128 .done := by decide +kernel
theorem witness_DetectAndLogIsScanAndListing :
    goesOn (exec .scan { ready Env.empty with mode := .fatal }) = true ∧ goesOn (exec .scan (ready scanEnv)) = true := by
  decide +kernel
theorem witness_DetectAndLogCompletes :
    (ready scanEnv).CanServe ∧ 4 ≤ (ready scanEnv).params.scanCapacity ∧
    scanEnv.nextStarts 128 = List.replicate 128 .done ∧ scanEnv.nextWrites 128 = twoDevices.map Ack.answer ∧
    scanEnv.nextStops 128 = List.replicate 128 .done := witness_ScanCompletes
/-- The very first probe hangs, and the last one. -/
theorem witness_ScanStopsAtTimeout :
    let e (n : Nat) := answers (List.replicate (n + 1) .done) ((twoDevices.take n).map Ack.answer ++ [.hang]) []
      (List.replicate n .done) halsOk
    (ready (e 0)).CanServe ∧ 4 ≤ (ready (e 0)).params.scanCapacity ∧
    ((twoDevices.take 0).length < 128 ∧ (e 0).nextStarts 1 = List.replicate 1 .done ∧ (e 0).nextWrites 1 = [.hang] ∧
      (e 0).nextStops 0 = [] ∧ (e 0).nextHals 68 = List.replicate 68 .ok) ∧
    ((twoDevices.take 127).length < 128 ∧ (e 127).nextStarts 128 = List.replicate 128 .done ∧
      (e 127).nextWrites 128 = (twoDevices.take 127).map Ack.answer ++ [.hang] ∧
      (e 127).nextStops 127 = List.replicate 127 .done ∧ (e 127).nextHals 68 = List.replicate 68 .ok) := by decide +kernel
theorem witness_ScanWithoutRoomFindsNothing :
    ({ ready Env.empty with params := ⟨16, 4, 3, 2⟩ } : State).CanServe ∧ (⟨16, 4, 3, 2⟩ : Params).scanCapacity < 4 := by
  decide +kernel
theorem witness_ScanFrame : (ready scanEnv).CanServe ∧ goesOn (exec .scan (ready scanEnv)) = true := by decide +kernel
theorem witness_EveryLockedOperationCompletes :
    (ready Env.empty).CanServe ∧ Instr.scan.isLocked = true ∧ (Instr.readByte 0 0).WellFormed := by decide +kernel
theorem witness_FatalModeAnswersConfigurationFault :
    let s : State := { ready Env.empty with mode := .fatal }
    s.mode = .fatal ∧ s.lock = .free ∧ Instr.detectAndLog.isLocked = true ∧ (Instr.readByte 0 0).isLocked = true := by
  decide +kernel
theorem witness_HeldLockMakesWait : begun.mode ≠ .uninit ∧ begun.lock = .held 0 ∧ Instr.scan.isLocked = true := by
  decide +kernel
/-- With `engine`, with `tick`, with no input left; and INIT, which waits for no lock, and a locked operation before it. -/
theorem witness_StepRunsTheFetchedRequest :
    let s : State := { waiting with stimuli := [.engine] }
    let t : State := { waiting with stimuli := [.tick] }
    let u : State := { State.reset with ports := [(1, ⟨0x2002A2C0, [400000], []⟩)] }
    let v : State := { State.reset with ports := [(1, ⟨0xA0000000, [], []⟩)] }
    decodeRequest ⟨0x46000000, [], []⟩ = .ok (.writeThenRead 0x18 [] 0) ∧ waiting.unbegun = none ∧
    waiting.phase = .none ∧ waiting.lock = .free ∧ waiting.mode ≠ .uninit ∧ s.stimuli = .engine :: [] ∧ t.OneStep [] ∧
    waiting.OneStep [] ∧ Waiters.pick waiting.waiters waiting.env.nextPick = some 0 ∧
    Assoc.get waiting.ports 0 = some ⟨0x46000000, [], []⟩ ∧
    u.unbegun = some (1, ⟨0x2002A2C0, [400000], []⟩) ∧ u.OneStep [] ∧
    v.unbegun = some (1, ⟨0xA0000000, [], []⟩) ∧ Instr.scan.isLocked = true ∧ v.mode = .uninit := by decide +kernel
theorem witness_StepRunsTheLinkOperation :
    let s : State := { inFrame [0x30, 0x02, 0x20, 0x57, 0x50] Env.empty with stimuli := [.engine] }
    s.stimuli = .engine :: [] ∧ s.unbegun = none ∧ s.phase ≠ .none ∧ s.linkResult = none ∧ s.point = .operation 0 ∧
    s.seqPtr ≠ s.len s.seqSel ∧ s.linkAhead = some (linkBytes (.writeBuffer [0x20, 0x57]) ++ [0x50]) ∧
    (Instr.writeBuffer [0x20, 0x57]).WellFormed := by decide +kernel
/-- The port that does not exist (N_REQ itself), the busy port, the last free port. -/
theorem witness_PresentingARequest :
    waiting.params.nReq ≤ 2 ∧ (0 < waiting.params.nReq ∧ (Assoc.get waiting.ports 0).isSome = true) ∧
    (1 < waiting.params.nReq ∧ Assoc.get waiting.ports 1 = none) := by decide +kernel
theorem witness_ReservedRequestStops :
    let s (xs : List Stimulus) : State := { State.reset with ports := [(0, ⟨0xE0000000, [], []⟩)], stimuli := xs }
    (s []).OneStep [] ∧ (s [.tick]).OneStep [] ∧ (s [.engine]).stimuli = .engine :: [] ∧
    (s []).unbegun = some (0, ⟨0xE0000000, [], []⟩) ∧ requestKind 0xE0000000 = none := by decide +kernel
theorem witness_AnyWaiterMayBeGranted :
    let s : State := { waiting with stimuli := [.engine] }
    s.stimuli = .engine :: [] ∧ s.unbegun = none ∧ s.phase = .none ∧ s.lock = .free ∧ 0 ∈ s.waiters ∧
    Assoc.get s.ports 0 = some ⟨0x46000000, [], []⟩ := by decide +kernel
theorem witness_HolderIsNotInterrupted :
    begun.Inv ∧ begun.lock = .held 0 ∧ begun.stimuli = [] ∧ goesOn (step begun) = true :=
  ⟨begun_inv, by decide +kernel, by decide +kernel, by decide +kernel⟩
/-- A START; a delay of the recovery pass; and a link operation that is run whole and hangs. -/
theorem witness_EventsBelongToTheirPhase :
    let s2 := recovering .holdLow [.ok]
    let s3 : State := { begunIn (answers [.hang] [] [] [] halsOk) with stimuli := [.engine] }
    (begun.lock = .held 0 ∧ begun.stimuli = [] ∧ goesOn (step begun) = true ∧
      Event.s ∈ (after (step begun)).wire.drop begun.wire.length) ∧
    (s2.lock = .held 0 ∧ s2.stimuli = [] ∧ goesOn (step s2) = true ∧
      Event.dly 10 ∈ (after (step s2)).wire.drop s2.wire.length) ∧
    (s3.lock = .held 0 ∧ goesOn (step s3) = true ∧ Event.dly 10 ∈ (after (step s3)).wire.drop s3.wire.length) := by
  decide +kernel
theorem witness_WireIsAppendOnly : goesOn (step begun) = true ∧ begun.stimuli = [] := by
  decide +kernel
theorem witness_OnlyResetLeavesFatal :
    let s : State := { waiting with mode := .fatal }
    s.stimuli = [] ∧ s.mode = .fatal ∧ goesOn (step s) = true := by decide +kernel
theorem witness_ConfigurationIsFixed :
    let s := begunIn (answers [.hang] [] [] [] halsOk)
    s.stimuli = [] ∧ s.mode ≠ .uninit ∧ goesOn (step s) = true := by decide +kernel
theorem witness_OperationIsTheRunOfItsSteps :
    let s : State := { ready (answers [.done] [.nack] [] [.done] []) with ports := [(0, ⟨0x6603C000, [], []⟩)] }
    let u := inFrame [0x30, 0x02, 0x20, 0x57, 0x50] (answers [] [.ack, .hang] [] [] halsOk)
    (s.mode ≠ .uninit ∧ s.lock = .free ∧ s.stimuli = [] ∧ (∀ p ∈ s.ports, p.1 ∈ s.waiters ∨ p.1 = s.cur) ∧
      goesOn (exec (.readByte 0x18 0x0F) s) = true) ∧
    (u.stimuli = [] ∧ u.unbegun = none ∧ u.walking = true ∧ u.point = .operation 0 ∧
      u.linkAhead = some (linkBytes (.writeBuffer [0x20, 0x57]) ++ [0x50]) ∧
      goesOn (exec (.writeBuffer [0x20, 0x57]) u) = true) := by decide +kernel
/-- A scan that ends; one whose third probe hangs on START, one on its byte, one on STOP, one on the STOP after its NACK; one whose
recovery fails. -/
theorem witness_ScanOnTheWire :
    let e (starts : List SymAnswer) (writes : List WriteAnswer) (stops : List SymAnswer) (hals : List HalAnswer) :=
      after (exec .scan (ready (answers starts writes [] stops hals)))
    let d := [SymAnswer.done, .done]
    let w := [WriteAnswer.nack, .ack]
    (ready Env.empty).CanServe ∧ 4 ≤ (ready Env.empty).params.scanCapacity ∧ goesOn (exec .scan (ready scanEnv)) = true ∧
    (e (d ++ [.hang]) w d halsOk).wire.length = 6 + 133 ∧ (e (d ++ [.done]) (w ++ [.hang]) d halsOk).wire.length = 7 + 133 ∧
    (e (d ++ [.done]) (w ++ [.ack]) (d ++ [.hang]) halsOk).wire.length = 8 + 133 ∧
    (e (d ++ [.done]) (w ++ [.nack]) (d ++ [.hang]) halsOk).wire.length = 8 + 133 ∧
    (e (d ++ [.hang]) w d [.ok, .fail]).mode = .fatal := by decide +kernel
/-- Each symbol, the first and the last of two bytes; rejected, hanging; the STOP after a rejected byte. -/
theorem witness_StepProducesOneSymbol :
    let s (bytes : List Byte) (k : Nat) (e : Env) : State := { inFrame bytes e with point := .operation k }
    let at' (bytes : List Byte) (k : Nat) (i : Instr) : Bool :=
      let t := s bytes k Env.empty
      decide (t.OneStep [] ∧ t.unbegun = none ∧ t.walking = true ∧ t.point = .operation k ∧ t.inFrame = true ∧
        t.linkAhead = some (linkBytes i ++ [0x50]))
    let n : State := { inFrame [0x21, 0x32] (answers [] [] [] [.done] []) with point := .nackStop, stimuli := [.tick] }
    at' [0x10, 0x50] 0 .start = true ∧ at' [0x21, 0x32, 0x50] 0 (.writeAddressedByte 0x32 true) = true ∧
    at' [0x30, 2, 7, 8, 0x50] 0 (.writeBuffer [7, 8]) = true ∧ at' [0x30, 2, 7, 8, 0x50] 1 (.writeBuffer [7, 8]) = true ∧
    at' [0x41, 2, 0x50] 0 (.readBuffer 2 true) = true ∧ at' [0x41, 2, 0x50] 1 (.readBuffer 2 true) = true ∧
    at' [0x50, 0x50] 0 .stop = true ∧ (s [] 0 Env.empty).rdLen < (s [] 0 Env.empty).params.rdCapacity ∧
    (n.OneStep [] ∧ n.unbegun = none ∧ n.walking = true ∧ n.point = .nackStop ∧ n.env.nextStop = .done) ∧
    (∀ a ∈ [SymAnswer.done, .hang], (answers [a] [] [] [] []).nextStart = a ∧ (answers [] [] [] [a] []).nextStop = a) ∧
    (∀ a ∈ [WriteAnswer.ack, .nack, .hang], (answers [] [a] [] [] []).nextWrite = a) ∧
    (∀ a ∈ [ReadAnswer.byte 5, .hang], (answers [] [] [a] [] []).nextRead = a) := by decide +kernel
/-- Before every call, which succeeds or fails; the last toggle but one, and the last. -/
theorem witness_StepMakesOneRecoveryCall :
    (∀ c ∈ [RecoveryCall.tearDown, .dataLine, .clockLine, .clockLow, .holdLow, .clockHigh, .holdHigh, .configure],
      ∀ a ∈ [HalAnswer.ok, .fail],
        (recovering c [a]).OneStep [] ∧ (recovering c [a]).BeforeCall c ∧ (recovering c [a]).env.nextHal = a) ∧
    (recoveryEvent ⟨0, 21, 22, 100000⟩ .clockLow).halCall = some .lvl := by decide +kernel
/-- A symbol, a hang, a call that fails, a delay, an INIT, a listing in FATAL. -/
theorem witness_OneEventAStep :
    let i : State := { State.reset with ports := [(0, ⟨0x2002A2C0, [400000], []⟩)], env := answers [] [] [] [] [.fail] }
    let f : State := { waiting with mode := .fatal, aset := 6, ports := [(0, ⟨0xC0000000, [], []⟩)] }
    (after (step begun)).wire = [.s] ∧ (after (step (begunIn (answers [.hang] [] [] [] [])))).wire = [.tmo] ∧
    (after (step (recovering .dataLine [.fail]))).wire = [.dir 21 .input, .fail .dir] ∧
    (after (step (recovering .holdHigh []))).wire = [.dly 10] ∧
    (after (step i)).wire = [.engCfg 0 21 22 400000, .fail .engCfg] ∧ (after (step f)).wire = [.log 1, .log 2] := by
  decide +kernel

end Sys2Proof.Tests
end

section
/-! What the engine does next, what one symbol of a link operation is, and what one call of the recovery pass can do: each said
once, for the statements about the steps of 00_scope R3. -/

namespace Sys2Proof.Machine

/-! ### One call of the recovery pass -/

/-- What a call of the recovery pass that answers `ok` writes besides its event (42_recovery R171). -/
def State.called (s : State) (c : RecoveryCall) : State :=
  match c with
  | .tearDown => { s with engineUp := false, sdaMode := .unconf, sclMode := .unconf }
  | .dataLine => { s with sdaMode := .gpioIn }
  | .clockLine => { s with sclMode := .gpioOut }
  | .clockLow => { s with sclLevel := false }
  | .holdLow => s
  | .clockHigh => { s with sclLevel := true }
  | .holdHigh => s.countToggle
  | .configure => { s with engineUp := true, sdaMode := .engine, sclMode := .engine }

/-- A fallible call that answers `ok`; `recoveryCall_fail` is the other answer. -/
theorem recoveryCall_ok {s : State} {c : RecoveryCall} {call : HalCall}
    (hc : (recoveryEvent s.cfg c).halCall = some call) (h : s.env.nextHal = .ok) :
    recoveryCall c s = (.ok, State.called { s with
      env := s.env.dropHal, wire := s.wire ++ [recoveryEvent s.cfg c] } c) := by
  cases c <;> simp only [recoveryEvent, Event.halCall, reduceCtorEq] at hc <;>
    simp [recoveryCall, tearDownEngine, dataLineToInput, clockLineToOutput, driveClock, reinitialiseEngine, hal_ok h,
      recoveryEvent, State.called]

/-- A delay asks the environment for no answer. -/
theorem recoveryCall_delay {s : State} {c : RecoveryCall} (hc : (recoveryEvent s.cfg c).halCall = none) :
    recoveryCall c s = (.ok, State.called { s with wire := s.wire ++ [recoveryEvent s.cfg c] } c) := by
  cases c <;> simp only [recoveryEvent, Event.halCall, reduceCtorEq] at hc <;> rfl

/-- The two ways a call of the recovery pass can go. -/
theorem recoveryCall_cases (c : RecoveryCall) (s : State) :
    (∃ e : Env, recoveryCall c s = (.ok, State.called { s with env := e, wire := s.wire ++ [recoveryEvent s.cfg c] } c)) ∨
    (∃ call, (recoveryEvent s.cfg c).halCall = some call ∧ recoveryCall c s = (.fail, { s with
      env := s.env.dropHal, wire := s.wire ++ [recoveryEvent s.cfg c, .fail call] })) := by
  cases hc : (recoveryEvent s.cfg c).halCall with
  | none => exact .inl ⟨s.env, recoveryCall_delay hc⟩
  | some call =>
    cases h : s.env.nextHal with
    | ok => exact .inl ⟨_, recoveryCall_ok hc h⟩
    | fail => exact .inr ⟨call, rfl, recoveryCall_fail hc h⟩

/-! ### The next move of an operation in progress, case by case -/

/-- What the engine can stand before, and the move it makes there (41_command_link R140, R141, R147 to R149). -/
inductive NextMove (s : State) : Move → Prop where
  | result (st : Status) (hr : s.linkResult = some st) : NextMove s (.settled (endOfLink st s))
  | nackStop (hr : s.linkResult = none) (hk : s.point = .nackStop) : NextMove s (.settled (nackStopStep s))
  | call (c : RecoveryCall) (hr : s.linkResult = none) (hk : s.point = .recovery c) :
      NextMove s (.settled (recoveryStep c s))
  | linkEnd (hp : s.seqPtr = s.len s.seqSel) : NextMove s (.settled (.next (s.endLink .ok)))
  | operation (i : Instr) (hr : s.linkResult = none) (hk : s.point = .operation 0) (hp : s.seqPtr ≠ s.len s.seqSel)
      (hi : fetchLinkOp s = .next i) : NextMove s (.run i s)
  | symbol (i : Instr) (k : Nat) : NextMove s (.settled (symbolStep i k s))
  | stops (o : Result) (ho : ∀ t, o ≠ .next t) : NextMove s (.settled o)

theorem nextMove_cases (s : State) : NextMove s (nextMove s) := by
  cases hr : s.linkResult with
  | some st => rw [nextMove_result hr]; exact .result st hr
  | none =>
    cases hk : s.point with
    | nackStop => rw [nextMove_nackStop hr hk]; exact .nackStop hr hk
    | recovery c => rw [nextMove_recovery hr hk]; exact .call c hr hk
    | operation k =>
      by_cases hp : s.seqPtr = s.len s.seqSel
      · rw [show nextMove s = .settled (.next (s.endLink .ok)) by simp [nextMove, hr, hk, hp]]
        exact .linkEnd hp
      · cases hi : fetchLinkOp s with
        | fault f =>
          rw [show nextMove s = .settled (.fault f) by simp [nextMove, hr, hk, hp, hi]]
          exact .stops _ (by simp)
        | refused r =>
          rw [show nextMove s = .settled (.refused r) by simp [nextMove, hr, hk, hp, hi]]
          exact .stops _ (by simp)
        | next i =>
          by_cases h0 : k = 0
          · subst h0
            rw [show nextMove s = .run i s by simp [nextMove, hr, hk, hp, hi]]
            exact .operation i hr hk hp hi
          · rw [show nextMove s = .settled (symbolStep i k s) by simp [nextMove, hr, hk, hp, hi, h0]]
            exact .symbol i k

/-! ### One symbol of any link operation -/

theorem inWalk_eq_next {s t : State} {o : Result} : inWalk s o = .next t ↔ s.walking = true ∧ o = .next t := by
  unfold inWalk; split <;> simp [*]

theorem inExecute_eq_next {s t : State} {o : Result} : inExecute s o = .next t ↔ s.executing = true ∧ o = .next t := by
  unfold inExecute; split <;> simp [*]

theorem inOpenFrame_eq_next {s t : State} {o : Result} : inOpenFrame s o = .next t ↔ s.inFrame = true ∧ o = .next t := by
  unfold inOpenFrame; split <;> simp [*]

/-- The `require` of 41_command_link R142 to R146: only START and STOP may stand outside a frame. -/
abbrev FrameOk (i : Instr) (s : State) : Prop := s.inFrame = true ∨ i = .start ∨ i = .stop

/-- The body of symbol `k` of a link operation; a host operation has none. -/
def symbolOf (i : Instr) (k : Nat) (s : State) : Perform × State :=
  match i with
  | .start => performStart s
  | .writeAddressedByte b ackreq => performWriteAddressedByte b ackreq s
  | .writeBuffer data => symbolOfWriteBuffer data k s
  | .readBuffer len ln => symbolOfReadBuffer len ln k s
  | .stop => performStop s
  | .init _ _ _ _ => (.next, s)
  | .writeThenRead _ _ _ => (.next, s)
  | .readByte _ _ => (.next, s)
  | .writeByte _ _ _ => (.next, s)
  | .scan => (.next, s)
  | .detectAndLog => (.next, s)

/-- A single symbol goes on exactly inside EXECUTE, in a frame where one is required, and then as its body says. -/
theorem symbolStep_eq_next {i : Instr} {k : Nat} {s t : State} :
    symbolStep i k s = .next t ↔
      i.isLink = true ∧ s.walking = true ∧ FrameOk i s ∧ settleSymbol i k (symbolOf i k s) = .next t := by
  cases i <;> simp [symbolStep, symbolOf, inWalk_eq_next, inOpenFrame_eq_next, FrameOk, Instr.isLink]

end Sys2Proof.Machine
end

section
/-! One step of the sequencer is one symbol. -/

namespace Sys2Proof.Machine

theorem State.BeforeSymbol.walking {s : State} {i : Instr} {k : Nat} (h : s.BeforeSymbol i k) : s.walking = true := h.2.1

/-- A symbol that hangs takes the timeout trap, whichever link operation it belongs to (60_exceptions R238). -/
theorem symbolStep_hang {s : State} {i : Instr} {k : Nat} {e : Env} (hwalk : s.walking = true)
    (hf : s.inFrame = true ∨ i = .start ∨ i = .stop)
    (h : (i = .start ∧ s.env.nextStart = .hang ∧ e = s.env.dropStart) ∨
      (((∃ b ackreq, i = .writeAddressedByte b ackreq) ∨ ∃ data, i = .writeBuffer data ∧ k < data.length) ∧
        s.env.nextWrite = .hang ∧ e = s.env.dropWrite) ∨
      ((∃ len ln, i = .readBuffer len ln ∧ k < len.toNat) ∧ s.env.nextRead = .hang ∧ e = s.env.dropRead) ∨
      (i = .stop ∧ s.env.nextStop = .hang ∧ e = s.env.dropStop)) :
    symbolStep i k s = .next (takeTimeoutTrap { s with env := e }) := by
  rcases h with ⟨rfl, ha, rfl⟩ | ⟨⟨b, ackreq, rfl⟩ | ⟨data, rfl, hk⟩, ha, rfl⟩ | ⟨⟨len, ln, rfl, hk⟩, ha, rfl⟩ |
    ⟨rfl, ha, rfl⟩
  · exact symbolStep_start_hang k hwalk ha
  · exact symbolStep_wab_hang b ackreq k hwalk (by simpa using hf) ha
  · exact symbolStep_wbuf_hang hwalk (by simpa using hf) hk ha
  · exact symbolStep_rbuf_hang hwalk (by simpa using hf) hk ha
  · exact symbolStep_stop_hang k hwalk ha

/-- A byte that must be acknowledged and is rejected leaves the STOP of NACK_ABORT to come (41_command_link R143, R144). -/
theorem symbolStep_rejected {s : State} {i : Instr} {k : Nat} {b : Byte} (hwalk : s.walking = true) (hf : s.inFrame = true)
    (ha : s.env.nextWrite = .nack)
    (h : i = .writeAddressedByte b true ∨ ∃ data, i = .writeBuffer data ∧ data[k]? = some b) :
    symbolStep i k s = .next { s with
      env := s.env.dropWrite, wire := s.wire ++ [.w b .nack], point := .nackStop } := by
  rcases h with rfl | ⟨data, rfl, hb⟩
  · exact symbolStep_wab_nack b k hwalk hf ha
  · exact symbolStep_wbuf_nack hwalk hf hb ha

end Sys2Proof.Machine

open Sys2Proof Sys2Proof.Machine

/-- Settles O58: the step is the symbol (`step_beforeSymbol`), and each symbol is known with each answer. -/
theorem stepProducesOneSymbol : Obligations.StepProducesOneSymbol := by
  intro s rest k h
  refine ⟨fun hb ha => ?start, fun b ackreq a hb hf ha hn => ?addressed, fun data b hb hw hf hk ha => ?write,
    fun len ln v hb hf hk room ha => ?read, fun hb ha => ?stop, fun i b hb hw hf ha hi => ?rejected,
    fun hu hwalk hk ha => ?nackStop, fun i e hl hw hb hi => ?hang⟩
  case start => exact (step_beforeSymbol h hb rfl rfl).trans (symbolStep_start_done k hb.walking ha)
  case addressed => exact (step_beforeSymbol h hb rfl rfl).trans (symbolStep_wab_next b ackreq a k hb.walking hf ha hn)
  case write => exact (step_beforeSymbol h hb rfl hw).trans (symbolStep_wbuf_ack hb.walking hf hk ha)
  case read => exact (step_beforeSymbol h hb rfl rfl).trans (symbolStep_rbuf_byte hb.walking hf hk room ha)
  case stop => exact (step_beforeSymbol h hb rfl rfl).trans (symbolStep_stop_done k hb.walking ha)
  case rejected =>
    have hl : i.isLink = true := by rcases hi with rfl | ⟨data, rfl, _⟩ <;> rfl
    exact (step_beforeSymbol h hb hl hw).trans (symbolStep_rejected hb.walking hf ha hi)
  case nackStop => exact (step_nackStop h hu hwalk hk).trans (nackStopStep_done hwalk ha)
  case hang =>
    rcases hb with ⟨hb, hf⟩ | ⟨hu, hwalk, hp, rfl⟩
    · exact (step_beforeSymbol h hb hl hw).trans (symbolStep_hang hb.walking hf hi)
    · obtain ⟨ha, rfl⟩ : s.env.nextStop = .hang ∧ e = s.env.dropStop := by simpa using hi
      exact (step_nackStop h hu hwalk hp).trans (nackStopStep_hang hwalk ha)
end

section
/-! One step of the recovery controller is one call. -/

open Sys2Proof Sys2Proof.Machine

/-- Settles O59: the step is the call (`step_beforeCall`), and each call is known with each answer. -/
theorem stepMakesOneRecoveryCall : Obligations.StepMakesOneRecoveryCall := by
  intro s rest c h hb
  have hstep := step_beforeCall h hb
  refine ⟨fun call hc ha => ?fails, fun ha => ⟨?_, ?_, ?_, ?_, ?_, ?_⟩, ?holdLow, ?holdHigh⟩
  case fails => rw [hstep, recoveryCall_fail (s := { s with stimuli := rest }) hc ha]; rfl
  case holdLow => rintro rfl; rw [hstep, recoveryCall_delay (s := { s with stimuli := rest }) rfl]; rfl
  case holdHigh => rintro rfl; rw [hstep, recoveryCall_delay (s := { s with stimuli := rest }) rfl]; rfl
  all_goals rintro rfl; rw [hstep, recoveryCall_ok (s := { s with stimuli := rest }) rfl ha]; rfl
end

section
/-! A step adds at most one event of bus activity. -/

namespace Sys2Proof.Machine

/-! ### What a step adds to WIRE -/

/-- Nothing, or one event of bus activity. -/
abbrev AddsOne (w w' : List Event) : Prop := w' = w ∨ ∃ e, e.isBusActivity = true ∧ w' = w ++ [e]

/-- What a step may add: nothing, one event of bus activity, or a failing call with its FAIL; and LOG events (00_scope R3, R8). -/
def StepAdds (w w' : List Event) : Prop :=
  ∃ es logs : List Event, w' = w ++ es ++ logs ∧ (∀ e ∈ logs, ∃ a, e = .log a) ∧
    (es = [] ∨ (∃ e, e.isBusActivity = true ∧ es = [e]) ∨ ∃ e call, e.halCall = some call ∧ es = [e, .fail call])

theorem StepAdds.of_addsOne {w w' : List Event} (h : AddsOne w w') : StepAdds w w' := by
  rcases h with rfl | ⟨e, he, rfl⟩
  · exact ⟨[], [], by simp, by simp, .inl rfl⟩
  · exact ⟨[e], [], by simp, by simp, .inr (.inl ⟨e, he, rfl⟩)⟩

theorem StepAdds.nothing {w w' : List Event} (h : w' = w) : StepAdds w w' := .of_addsOne (.inl h)

theorem StepAdds.failing {w w' : List Event} {e : Event} {call : HalCall} (he : e.halCall = some call)
    (h : w' = w ++ [e, .fail call]) : StepAdds w w' :=
  ⟨[e, .fail call], [], by simp [h], by simp, .inr (.inr ⟨e, call, he, rfl⟩)⟩

theorem StepAdds.listing {w w' : List Event} {i : Instr} {set : AddrSet} (h : w' = w ++ listing i set) : StepAdds w w' := by
  refine ⟨[], Machine.listing i set, by simp [h], fun e he => ?_, .inl rfl⟩
  cases i <;> simp only [Machine.listing, List.not_mem_nil, List.mem_map] at he
  obtain ⟨a, _, rfl⟩ := he
  exact ⟨a, rfl⟩

/-! ### One symbol -/

/-- What a symbol adds; one that hangs adds nothing yet, its TMO comes with the trap (60_exceptions R238). -/
structure SymbolAdds (s : State) (r : Perform × State) : Prop where
  one : AddsOne s.wire r.2.wire
  hang : r.1 = .hang → r.2.wire = s.wire

theorem performStart_adds (s : State) : SymbolAdds s (performStart s) := by
  unfold performStart
  cases h : s.env.nextStart with
  | done => rw [phyStart_done h]; exact ⟨.inr ⟨startEvent s.inFrame, by cases s.inFrame <;> rfl, rfl⟩, nofun⟩
  | hang => rw [phyStart_hang h]; exact ⟨.inl rfl, fun _ => rfl⟩

theorem performStop_adds (s : State) : SymbolAdds s (performStop s) := by
  unfold performStop
  cases h : s.env.nextStop with
  | done => rw [phyStop_done h]; exact ⟨.inr ⟨.p, rfl, rfl⟩, nofun⟩
  | hang => rw [phyStop_hang h]; exact ⟨.inl rfl, fun _ => rfl⟩

theorem performWriteAddressedByte_adds (b : Byte) (ackreq : Bool) (s : State) :
    SymbolAdds s (performWriteAddressedByte b ackreq s) := by
  unfold performWriteAddressedByte
  cases h : s.env.nextWrite with
  | ack => rw [phyWrite_ack b h]; exact ⟨.inr ⟨.w b .ack, rfl, rfl⟩, nofun⟩
  | nack => rw [phyWrite_nack b h]; exact ⟨.inr ⟨.w b .nack, rfl, rfl⟩, by cases ackreq <;> nofun⟩
  | hang => rw [phyWrite_hang b h]; exact ⟨.inl rfl, fun _ => rfl⟩

theorem sendByte_adds (b : Byte) (s : State) : SymbolAdds s (sendByte b s) := by
  cases h : s.env.nextWrite with
  | ack => rw [sendByte_ack b h]; exact ⟨.inr ⟨.w b .ack, rfl, rfl⟩, nofun⟩
  | nack => rw [sendByte_nack b h]; exact ⟨.inr ⟨.w b .nack, rfl, rfl⟩, nofun⟩
  | hang => rw [sendByte_hang b h]; exact ⟨.inl rfl, fun _ => rfl⟩

theorem receiveByte_adds (m : Ack) (s : State) : SymbolAdds s (receiveByte m s) := by
  cases h : s.env.nextRead with
  | byte v =>
    have hadd : AddsOne s.wire (s.wire ++ [.r v m]) := .inr ⟨.r v m, rfl, rfl⟩
    simp only [receiveByte, phyRead_byte m h]
    split
    · exact ⟨hadd, nofun⟩
    · exact ⟨hadd, nofun⟩
  | hang => rw [receiveByte_hang m h]; exact ⟨.inl rfl, fun _ => rfl⟩

theorem symbolOf_adds (i : Instr) (k : Nat) (s : State) : SymbolAdds s (symbolOf i k s) := by
  have hnone : SymbolAdds s (.next, s) := ⟨.inl rfl, nofun⟩
  cases i with
  | start => exact performStart_adds s
  | stop => exact performStop_adds s
  | writeAddressedByte b ackreq => exact performWriteAddressedByte_adds b ackreq s
  | writeBuffer data =>
    simp only [symbolOf, symbolOfWriteBuffer]
    split
    · exact sendByte_adds _ s
    · exact hnone
  | readBuffer len ln =>
    simp only [symbolOf, symbolOfReadBuffer]
    split
    · exact receiveByte_adds _ s
    · exact hnone
  | init | writeThenRead | readByte | writeByte | scan | detectAndLog => exact hnone

/-- What follows a symbol adds nothing, unless it hung: then its TMO. -/
theorem settleSymbol_addsOne {s t : State} {i : Instr} {k : Nat} {r : Perform × State} (hr : SymbolAdds s r)
    (h : settleSymbol i k r = .next t) : AddsOne s.wire t.wire := by
  obtain ⟨p, u⟩ := r
  obtain ⟨hone, hhang⟩ := hr
  cases p with
  | next => rw [settleSymbol_next, Host.Outcome.next.injEq] at h; subst h; exact hone
  | done => simp only [settleSymbol, Host.Outcome.next.injEq] at h; subst h; exact hone
  | nack => simp only [settleSymbol, Host.Outcome.next.injEq] at h; subst h; exact hone
  | hang =>
    simp only [settleSymbol, Host.Outcome.next.injEq] at h
    subst h
    exact .inr ⟨.tmo, rfl, by rw [takeTimeoutTrap_wire, hhang rfl]⟩
  | overrun => cases h

theorem symbolStep_addsOne {i : Instr} {k : Nat} {s t : State} (h : symbolStep i k s = .next t) :
    AddsOne s.wire t.wire := by
  obtain ⟨-, -, -, h⟩ := symbolStep_eq_next.1 h
  exact settleSymbol_addsOne (symbolOf_adds i k s) h

theorem nackStopStep_addsOne {s t : State} (h : nackStopStep s = .next t) : AddsOne s.wire t.wire := by
  obtain ⟨hwalk, -⟩ := inWalk_eq_next.1 h
  cases ha : s.env.nextStop with
  | done =>
    rw [nackStopStep_done hwalk ha, Host.Outcome.next.injEq] at h
    subst h
    exact .inr ⟨.p, rfl, rfl⟩
  | hang =>
    rw [nackStopStep_hang hwalk ha, Host.Outcome.next.injEq] at h
    subst h
    exact .inr ⟨.tmo, rfl, rfl⟩

/-! ### One call -/

theorem returnFromRecovery_wire (r : HalAnswer × State) : (returnFromRecovery r).wire = r.2.wire := by
  obtain ⟨_ | _, u⟩ := r <;> rfl

theorem afterRecoveryCall_wire (c : RecoveryCall) (r : HalAnswer × State) :
    (afterRecoveryCall c r).wire = r.2.wire := by
  obtain ⟨_ | _, u⟩ := r
  · simp only [afterRecoveryCall]
    split
    · rfl
    · rfl
  · rfl

theorem recoveryEvent_isBusActivity (cfg : Cfg) (c : RecoveryCall) : (recoveryEvent cfg c).isBusActivity = true := by
  cases c <;> rfl

@[simp] theorem State.called_wire (s : State) (c : RecoveryCall) : (s.called c).wire = s.wire := by cases c <;> rfl

theorem recoveryStep_stepAdds {c : RecoveryCall} {s t : State} (h : recoveryStep c s = .next t) :
    StepAdds s.wire t.wire := by
  unfold recoveryStep at h
  split at h
  · rw [Host.Outcome.next.injEq] at h
    subst h
    rw [afterRecoveryCall_wire]
    rcases recoveryCall_cases c s with ⟨e, hc⟩ | ⟨call, hcall, hc⟩
    · rw [hc]
      exact .of_addsOne (.inr ⟨recoveryEvent s.cfg c, recoveryEvent_isBusActivity .., by simp⟩)
    · rw [hc]
      exact .failing hcall rfl
  · cases h

/-! ### Beginning and ending an operation -/

@[simp] theorem submitBuilt_wire (sel : Sel) (s : State) : (submitBuilt sel s).wire = s.wire := by
  unfold submitBuilt
  split
  · rfl
  · rfl

theorem beginProbe_wire (s : State) : (beginProbe s).wire = s.wire :=
  (submitBuilt_wire ..).trans (buildProbe_frame ..).wire

theorem beginTransaction_wire (a : Addr7) (data : List Byte) (rlen : Byte) (s : State) :
    (beginTransaction a data rlen s).wire = s.wire :=
  (submitBuilt_wire ..).trans (buildTransaction_frame ..).wire

theorem beginBody_wire (i : Instr) (s : State) : (beginBody i s).wire = s.wire := by
  cases i with
  | writeThenRead | readByte | writeByte => exact beginTransaction_wire ..
  | scan | detectAndLog => exact beginProbe_wire _
  | start | writeAddressedByte | writeBuffer | readBuffer | stop | init => rfl

@[simp] theorem completeLocked_wire (i : Instr) (st : Status) (s : State) :
    (completeLocked i st s).wire = s.wire ++ listing i s.aset := rfl

theorem beginLocked_stepAdds (i : Instr) (s : State) : StepAdds s.wire (beginLocked i s).wire := by
  unfold beginLocked
  dsimp only
  split
  · exact .listing (completeLocked_wire ..)
  · exact .nothing (beginBody_wire ..)

theorem issueLocked_stepAdds {i : Instr} {s t : State} (h : issueLocked i s = .next t) : StepAdds s.wire t.wire := by
  unfold issueLocked at h
  split at h
  · cases h
  · split at h
    · cases h; exact beginLocked_stepAdds i s
    · cases h; exact .nothing rfl

theorem nextProbe_stepAdds (i : Instr) (s : State) : StepAdds s.wire (nextProbe i s).wire := by
  unfold nextProbe
  dsimp only
  split
  · exact .nothing (beginProbe_wire _)
  · exact .listing (completeLocked_wire ..)

@[simp] theorem recordProbe_wire (st : Status) (s : State) : (recordProbe st s).wire = s.wire := by
  unfold recordProbe
  split
  · rfl
  · rfl

theorem endProbe_stepAdds (i : Instr) (st : Status) (s : State) : StepAdds s.wire (endProbe i st s).wire := by
  have hnext : StepAdds s.wire (nextProbe i (recordProbe st (linkEnd .selSb s))).wire := by
    simpa using nextProbe_stepAdds i (recordProbe st (linkEnd .selSb s))
  cases st with
  | ok | nack | noMemory => exact hnext
  | timeout | configurationFault => exact .listing (completeLocked_wire ..)

theorem endOfLink_stepAdds {st : Status} {s t : State} (h : endOfLink st s = .next t) : StepAdds s.wire t.wire := by
  unfold endOfLink at h
  split at h
  · cases h
  · next i _ =>
    split at h
    · cases h; exact endProbe_stepAdds i st s
    · cases h; exact .listing (completeLocked_wire ..)

/-- INIT makes at most one call (40_init R120). -/
theorem execInit_stepAdds {port sda scl : Byte} {speed : Word32} {s t : State}
    (h : execInit port sda scl speed s = .next t) : StepAdds s.wire t.wire := by
  unfold execInit at h
  split at h
  · cases h
  · split at h
    · cases h
    · split at h
      · cases h; exact .nothing rfl
      · cases ha : s.env.nextHal with
        | ok => rw [hal_ok ha] at h; cases h; exact .of_addsOne (.inr ⟨_, rfl, rfl⟩)
        | fail => rw [hal_fail ha] at h; cases h; exact .failing rfl rfl

/-! ### The step -/

theorem nextMove_settled_stepAdds {o : Result} {s t : State} (h : nextMove s = .settled o) (ho : o = .next t) :
    StepAdds s.wire t.wire := by
  have hc := nextMove_cases s
  rw [h] at hc
  cases hc with
  | result st _ => exact endOfLink_stepAdds ho
  | nackStop => exact .of_addsOne (nackStopStep_addsOne ho)
  | call c => exact recoveryStep_stepAdds ho
  | linkEnd => cases ho; exact .nothing rfl
  | symbol i k => exact .of_addsOne (symbolStep_addsOne ho)
  | stops _ hstop => exact absurd ho (hstop t)

theorem present_wire {r : Nat} {q : RawRequest} {s t : State} (h : present r q s = .next t) : t.wire = s.wire := by
  unfold present at h
  split at h
  · cases h
  · split at h
    · cases h
    · dsimp only at h
      split at h
      · cases h; rfl
      · cases h; rfl

/-- The first step of an instruction, or the whole of one that has no more (INIT). -/
theorem onlyBegin_run_stepAdds {i : Instr} {s t : State} (h : perform (onlyBegin (.run i s)) = .next t) :
    StepAdds s.wire t.wire := by
  have hfirst (h : firstStep i s = .next t) : StepAdds s.wire t.wire := by
    unfold firstStep at h
    split at h
    · exact issueLocked_stepAdds h
    · exact .of_addsOne (symbolStep_addsOne h)
  cases i with
  | init port sda scl speed => exact execInit_stepAdds h
  | start | writeAddressedByte | writeBuffer | readBuffer | stop => exact hfirst h
  | writeThenRead | readByte | writeByte | scan | detectAndLog => exact hfirst h

theorem fetchRequest_stepAdds {r : Nat} {q : RawRequest} {s t : State}
    (h : perform (onlyBegin (fetchRequest r q s)) = .next t) : StepAdds s.wire t.wire := by
  unfold fetchRequest at h
  split at h
  · exact onlyBegin_run_stepAdds (s := { s with cur := r }) h
  · cases h

theorem grant_stepAdds {s t : State} (h : perform (onlyBegin (grant s)) = .next t) : StepAdds s.wire t.wire := by
  unfold grant at h
  split at h
  · cases h; exact .nothing rfl
  · split at h
    · cases h; exact .nothing rfl
    · split at h
      · cases h
      · exact fetchRequest_stepAdds (s := { s with env := s.env.dropPick }) h

theorem engineMove_stepAdds {s t : State} (h : perform (onlyBegin (engineMove s)) = .next t) :
    StepAdds s.wire t.wire := by
  unfold engineMove at h
  split at h
  · exact fetchRequest_stepAdds h
  · split at h
    · exact grant_stepAdds h
    · have hc := nextMove_cases s
      split at h
      · next i u hm =>
        rw [hm] at hc
        cases hc
        exact onlyBegin_run_stepAdds h
      · next o hm => exact nextMove_settled_stepAdds hm h

end Sys2Proof.Machine

open Sys2Proof Sys2Proof.Machine

/-- Settles O60: a request presented adds nothing, and for the engine's move each of its cases is known. -/
theorem oneEventAStep : Obligations.OneEventAStep := by
  intro s t hs h
  have hadds : StepAdds s.wire t.wire := by
    unfold step fetch at h
    split at h
    · exact engineMove_stepAdds h
    · next rest _ => exact engineMove_stepAdds (s := { s with stimuli := rest }) h
    · next rest hq => exact absurd hq (hs rest).2
    · next r q rest _ => exact .nothing (present_wire (s := { s with stimuli := rest }) h)
    · next rest hq => exact absurd hq (hs rest).1
  exact hadds
end

section
/-! Runs of the machine, and the recovery pass as the run of its calls. -/

namespace Sys2Proof.Machine

/-! ### Runs of the machine -/

/-- The machine gets from `s` to `t` in some number of steps. -/
def Reaches (s t : State) : Prop := ∃ n : Nat, Host.Core.run Sys2Proof.core n s = Host.Outcome.next t

theorem Reaches.refl (s : State) : Reaches s s := ⟨0, rfl⟩

theorem Reaches.head {s t u : State} (h : step s = .next t) (k : Reaches t u) : Reaches s u := by
  obtain ⟨n, hn⟩ := k
  have hstep : Sys2Proof.core.step s = .next t := h
  exact ⟨n + 1, by simp only [Host.Core.run, hstep]; exact hn⟩

theorem Reaches.one {s t : State} (h : step s = .next t) : Reaches s t := .head h (.refl t)

theorem Reaches.trans {s t u : State} (h : Reaches s t) (k : Reaches t u) : Reaches s u := by
  obtain ⟨n, hn⟩ := h
  induction n generalizing s with
  | zero => cases hn; exact k
  | succ n ih =>
    simp only [Host.Core.run] at hn
    split at hn
    · next v hv => exact .head hv (ih hn)
    · cases hn
    · cases hn

/-! ### The engine is not disturbed -/

/-- No input comes in, and no request is to be served before the operation in progress. -/
abbrev State.Alone (s : State) : Prop := s.stimuli = [] ∧ s.unbegun = none

/-- Two states agree on what decides whether the engine is disturbed. -/
structure SameClaims (s t : State) : Prop where
  lock : t.lock = s.lock
  waiters : t.waiters = s.waiters
  ports : t.ports = s.ports
  stimuli : t.stimuli = s.stimuli

theorem SameClaims.alone {s t : State} (h : SameClaims s t) (hs : s.Alone) : t.Alone := by
  obtain ⟨hin, hu⟩ := hs
  refine ⟨h.stimuli.trans hin, ?_⟩
  rw [← hu, State.unbegun, State.unbegun, h.lock, h.waiters, h.ports]

theorem LinkFrame.claims {s t : State} (h : LinkFrame s t) : SameClaims s t := ⟨h.lock, h.waiters, h.ports, h.stimuli⟩

theorem BuildFrame.claims {s t : State} (h : BuildFrame s t) : SameClaims s t := ⟨h.lock, h.waiters, h.ports, h.stimuli⟩

theorem SameClaims.trans {s t u : State} (h : SameClaims s t) (k : SameClaims t u) : SameClaims s u :=
  ⟨k.lock.trans h.lock, k.waiters.trans h.waiters, k.ports.trans h.ports, k.stimuli.trans h.stimuli⟩

theorem State.Alone.oneStep {s : State} (h : s.Alone) : s.OneStep [] := .inl ⟨h.1, rfl⟩

/-- With no input there is none to take away. -/
theorem State.Alone.noStimuli {s : State} (h : s.Alone) : ({ s with stimuli := [] } : State) = s := by rw [← h.1]

/-- A move that fetches no instruction is one step of the machine. -/
theorem step_settled {s : State} {o : Result} (h : s.Alone) (hp : s.phase ≠ .none) (hm : nextMove s = .settled o) :
    step s = o :=
  step_oneStep_settled h.oneStep h.2 hp (by rw [h.noStimuli]; exact hm)

/-! ### The operations do not read where the engine stands -/

/-- The engine stands at `q`. -/
def State.stand (s : State) (q : Point) : State := { s with point := q }

/-- What an operation does, and what it leaves but for `point`, does not depend on `point`; and it leaves `point` alone. -/
def IgnoresPoint {α : Type} (f : State → α × State) : Prop := ∀ s q, f (s.stand q) = ((f s).1, (f s).2.stand q)

theorem recoveryCall_ignoresPoint (c : RecoveryCall) : IgnoresPoint (recoveryCall c) := by
  intro s q
  cases hc : (recoveryEvent s.cfg c).halCall with
  | none => rw [recoveryCall_delay hc, recoveryCall_delay (s := s.stand q) hc]; cases c <;> rfl
  | some call =>
    cases h : s.env.nextHal with
    | ok => rw [recoveryCall_ok hc h, recoveryCall_ok (s := s.stand q) hc h]; cases c <;> rfl
    | fail => rw [recoveryCall_fail hc h, recoveryCall_fail (s := s.stand q) hc h]; rfl

theorem ifOk_assoc (r : HalAnswer × State) (f g : State → HalAnswer × State) :
    ifOk (ifOk r f) g = ifOk r fun s => ifOk (f s) g := by
  obtain ⟨_ | _, u⟩ := r
  · rfl
  · rfl

theorem ifOk_ignoresPoint {f g : State → HalAnswer × State} (hf : IgnoresPoint f) (hg : IgnoresPoint g) :
    IgnoresPoint fun s => ifOk (f s) g := by
  intro s q
  dsimp only
  rw [hf s q]
  rcases f s with ⟨_ | _, u⟩
  · exact hg u q
  · rfl

theorem toggles_succ (n : Nat) (f : State → HalAnswer × State) (s : State) :
    ifOk (toggles (n + 1) s) f =
      ifOk (recoveryCall .clockLow s) fun s => ifOk (recoveryCall .holdLow s) fun s =>
        ifOk (recoveryCall .clockHigh s) fun s => ifOk (recoveryCall .holdHigh s) fun s => ifOk (toggles n s) f := by
  simp only [toggles, toggle, halfToggle, ifOk_assoc, recoveryCall, ifOk_ok]

theorem toggles_ignoresPoint {f : State → HalAnswer × State} (hf : IgnoresPoint f) (n : Nat) :
    IgnoresPoint fun s => ifOk (toggles n s) f := by
  induction n with
  | zero => exact hf
  | succ n ih =>
    simp only [toggles_succ]
    exact ifOk_ignoresPoint (recoveryCall_ignoresPoint _) <| ifOk_ignoresPoint (recoveryCall_ignoresPoint _) <|
      ifOk_ignoresPoint (recoveryCall_ignoresPoint _) <| ifOk_ignoresPoint (recoveryCall_ignoresPoint _) ih

theorem returnFromRecovery_stand (r : HalAnswer × State) (q : Point) :
    returnFromRecovery (r.1, r.2.stand q) = returnFromRecovery r := by
  obtain ⟨_ | _, u⟩ := r
  · rfl
  · rfl

/-! ### The recovery pass, call by call -/

/-- The engine stands before call `c` of a recovery pass, and nothing comes in. -/
abbrev InPass (c : RecoveryCall) (s : State) : Prop := s.stimuli = [] ∧ s.BeforeCall c

theorem step_inPass {c : RecoveryCall} {s : State} (h : InPass c s) :
    step s = .next (afterRecoveryCall c (recoveryCall c s)) := by
  obtain ⟨hin, hb⟩ := h
  have hstep := step_beforeCall (.inl ⟨hin, rfl⟩) hb
  rwa [State.Alone.noStimuli ⟨hin, hb.1⟩] at hstep

/-- The toggles done after call `c` (10_state R29). -/
def togglesAfter (c : RecoveryCall) (n : BitVec 6) : BitVec 6 := if c = .holdHigh then n + 1 else n

/-- A call that answers `ok` leaves the engine inside the pass. -/
theorem inPass_next {c : RecoveryCall} {s u : State} (h : InPass c s) (hu : recoveryCall c s = (.ok, u))
    (c' : RecoveryCall) :
    InPass c' (u.stand (.recovery c')) ∧ u.toggleCnt = togglesAfter c s.toggleCnt := by
  obtain ⟨hin, hun, hp, hl, hr, -⟩ := h
  rcases recoveryCall_cases c s with ⟨e, hc⟩ | ⟨call, -, hc⟩
  · obtain rfl : State.called { s with env := e, wire := s.wire ++ [recoveryEvent s.cfg c] } c = u := by
      simpa [hc] using hu
    cases c <;> exact ⟨⟨hin, hun, hp, hl, hr, rfl⟩, rfl⟩
  · simp [hc] at hu

theorem nextRecoveryCall_isSome {c : RecoveryCall} (hc : c ≠ .configure) (s : State) :
    ∃ c', nextRecoveryCall c s = some c' := by
  cases c with
  | configure => exact absurd rfl hc
  | tearDown | dataLine | clockLine | clockLow | holdLow | clockHigh | holdHigh => exact ⟨_, rfl⟩

theorem nextRecoveryCall_stand (c : RecoveryCall) (s : State) (q : Point) :
    nextRecoveryCall c (s.stand q) = nextRecoveryCall c s := by
  cases c <;> rfl

/-- The machine makes call `c`; where it fails the pass is over, and where it answers `ok` the rest `f` of the pass follows,
from the next call on. -/
theorem reaches_call {c : RecoveryCall} {f : State → HalAnswer × State} {s : State} (h : InPass c s)
    (hc : c ≠ .configure) (hf : IgnoresPoint f)
    (hk : ∀ c' v, nextRecoveryCall c v = some c' → InPass c' v → v.toggleCnt = togglesAfter c s.toggleCnt →
      Reaches v (returnFromRecovery (f v))) :
    Reaches s (returnFromRecovery (ifOk (recoveryCall c s) f)) := by
  have hstep := step_inPass h
  rcases hr : recoveryCall c s with ⟨_ | _, u⟩
  · obtain ⟨c', hn⟩ := nextRecoveryCall_isSome hc u
    obtain ⟨hin, ht⟩ := inPass_next h hr c'
    have hrest := hk c' (u.stand (.recovery c')) ((nextRecoveryCall_stand ..).trans hn) hin ht
    rw [hf, returnFromRecovery_stand] at hrest
    refine .head (hstep.trans ?_) hrest
    rw [hr]
    simp only [afterRecoveryCall, hn]
    rfl
  · rw [hr] at hstep
    exact .one hstep

theorem reaches_configure {s : State} (h : InPass .configure s) :
    Reaches s (returnFromRecovery (reinitialiseEngine s)) := by
  have hlast (r : HalAnswer × State) : afterRecoveryCall .configure r = returnFromRecovery r := by
    obtain ⟨_ | _, u⟩ := r
    · rfl
    · rfl
  have hstep := step_inPass h
  rw [hlast] at hstep
  exact .one hstep

theorem toggleLoop_more {s : State} (h : s.toggleCnt.toNat < 32) : toggleLoop s = .clockLow := if_pos h
theorem toggleLoop_done {s : State} (h : ¬s.toggleCnt.toNat < 32) : toggleLoop s = .configure := if_neg h

theorem reinitialiseEngine_ignoresPoint : IgnoresPoint reinitialiseEngine := recoveryCall_ignoresPoint .configure

/-- The loop of step 4 with `n` toggles still to do, and step 5. -/
theorem reaches_toggles (n : Nat) {s : State} (h : InPass (toggleLoop s) s) (hn : s.toggleCnt.toNat + n = 32) :
    Reaches s (returnFromRecovery (ifOk (toggles n s) reinitialiseEngine)) := by
  induction n generalizing s with
  | zero =>
    rw [toggleLoop_done (by omega)] at h
    exact reaches_configure h
  | succ n ih =>
    rw [toggleLoop_more (by omega)] at h
    have hrest := toggles_ignoresPoint reinitialiseEngine_ignoresPoint n
    have hheld := ifOk_ignoresPoint (recoveryCall_ignoresPoint .holdHigh) hrest
    have hhigh := ifOk_ignoresPoint (recoveryCall_ignoresPoint .clockHigh) hheld
    have hlow := ifOk_ignoresPoint (recoveryCall_ignoresPoint .holdLow) hhigh
    rw [toggles_succ]
    refine reaches_call h nofun hlow ?_
    rintro _ v ⟨⟩ hv hv'
    refine reaches_call hv nofun hhigh ?_
    rintro _ w ⟨⟩ hw hw'
    refine reaches_call hw nofun hheld ?_
    rintro _ x ⟨⟩ hx hx'
    refine reaches_call hx nofun hrest ?_
    rintro _ y ⟨⟩ hy hy'
    have hcount : y.toggleCnt = s.toggleCnt + 1 := by simp [hy', hx', hw', hv', togglesAfter]
    refine ih hy ?_
    rw [hcount]
    bv_omega

/-- A recovery pass, from the trap that enters it to its return, call by call (42_recovery R171). -/
theorem reaches_timeoutAbort {s : State} (hs : s.Alone) (hl : s.lock ≠ .free) (hr : s.linkResult = none) :
    Reaches (takeTimeoutTrap s) (timeoutAbort s) := by
  obtain ⟨hin, hu⟩ := hs
  have hloop := toggles_ignoresPoint reinitialiseEngine_ignoresPoint Config.recoveryToggles
  have hclock := ifOk_ignoresPoint (recoveryCall_ignoresPoint .clockLine) hloop
  have hdata := ifOk_ignoresPoint (recoveryCall_ignoresPoint .dataLine) hclock
  refine reaches_call (c := .tearDown) ⟨hin, hu, rfl, hl, hr, rfl⟩ nofun hdata ?_
  rintro _ v ⟨⟩ hv hv'
  refine reaches_call hv nofun hclock ?_
  rintro _ w ⟨⟩ hw hw'
  refine reaches_call hw nofun hloop ?_
  rintro _ x ⟨⟩ hx hx'
  have hcount : x.toggleCnt = 0 := by simp [hx', hw', hv', togglesAfter]
  exact reaches_toggles Config.recoveryToggles hx (by rw [hcount]; rfl)

end Sys2Proof.Machine
end

section
/-! A link operation as the run of its symbols. -/

namespace Sys2Proof.Machine

/-! ### A link operation as its symbols -/

/-- `m` symbols of a link operation from symbol `k` on, until one of them is rejected or hangs. -/
def symbolsFrom (i : Instr) : Nat → Nat → State → Perform × State
  | 0, _, s => (.next, s)
  | m + 1, k, s => thenNext (symbolOf i k s) (symbolsFrom i m (k + 1))

theorem thenNext_stop (r : Perform × State) : (thenNext r fun s => (.next, s)) = r := by
  obtain ⟨p, u⟩ := r
  cases p <;> rfl

theorem thenNext_of_ne {p : Perform} (hp : p ≠ .next) (u : State) (k : State → Perform × State) :
    thenNext (p, u) k = (p, u) := by
  cases p with
  | next => exact absurd rfl hp
  | done | nack | hang | overrun => rfl

theorem symbolsFrom_one (i : Instr) (s : State) : symbolsFrom i 1 0 s = symbolOf i 0 s := thenNext_stop (symbolOf i 0 s)

/-- The loop of WRITE_BUFFER (41_command_link R144) is its symbols in order. -/
theorem symbolsFrom_writeBuffer (before rest : List Byte) (s : State) :
    symbolsFrom (.writeBuffer (before ++ rest)) rest.length before.length s = performWriteBuffer rest s := by
  induction rest generalizing before s with
  | nil => rfl
  | cons b bs ih =>
    have hb : symbolOf (.writeBuffer (before ++ b :: bs)) before.length s = sendByte b s := by
      simp [symbolOf, symbolOfWriteBuffer]
    have hrest : symbolsFrom (.writeBuffer (before ++ b :: bs)) bs.length (before.length + 1) = performWriteBuffer bs := by
      funext u
      simpa using ih (before ++ [b]) u
    rw [List.length_cons, symbolsFrom, hb, hrest]
    rfl

/-- The loop of READ_BUFFER (R145) is its symbols in order. -/
theorem symbolsFrom_readBuffer (len : Byte) (ln : Bool) (n k : Nat) (h : k + n = len.toNat) (s : State) :
    symbolsFrom (.readBuffer len ln) n k s = performReadBuffer ln n s := by
  induction n generalizing k s with
  | zero => rfl
  | succ n ih =>
    have hb : symbolOf (.readBuffer len ln) k s = receiveByte (readAck ln n) s := by
      simp only [symbolOf, symbolOfReadBuffer]
      rw [if_pos (by omega), show len.toNat - (k + 1) = n by omega]
    have hrest : symbolsFrom (.readBuffer len ln) n (k + 1) = performReadBuffer ln n :=
      funext fun u => ih (k + 1) (by omega) u
    rw [symbolsFrom, hb, hrest]
    rfl

/-- The steps an operation takes: one for each symbol, and one where there is none. -/
def stepCount (i : Instr) : Nat := max 1 (symbolCount i)

/-- A link operation goes on exactly inside EXECUTE, in a frame where one is required, and then as its symbols say. -/
theorem exec_link_eq_next {i : Instr} (hl : i.isLink = true) {s t : State} :
    exec i s = .next t ↔
      s.executing = true ∧ FrameOk i s ∧ settle (linkSize i) (symbolsFrom i (stepCount i) 0 s) = .next t := by
  cases i with
  | start | stop =>
    simp [exec, execStart, execStop, inExecute_eq_next, FrameOk, stepCount, symbolCount, symbolsFrom_one, symbolOf]
  | writeAddressedByte b ackreq =>
    simp [exec, execWriteAddressedByte, inExecute_eq_next, inOpenFrame_eq_next, FrameOk, stepCount, symbolCount,
      symbolsFrom_one, symbolOf]
  | writeBuffer data =>
    have hbody : symbolsFrom (.writeBuffer data) (stepCount (.writeBuffer data)) 0 s = performWriteBuffer data s := by
      cases data with
      | nil => rfl
      | cons b bs => simpa [stepCount, symbolCount] using symbolsFrom_writeBuffer [] (b :: bs) s
    simp [exec, execWriteBuffer, inExecute_eq_next, inOpenFrame_eq_next, FrameOk, hbody]
  | readBuffer len ln =>
    have hbody : symbolsFrom (.readBuffer len ln) (stepCount (.readBuffer len ln)) 0 s
        = performReadBuffer ln len.toNat s := by
      by_cases h0 : len.toNat = 0
      · simp [stepCount, symbolCount, h0, symbolsFrom_one, symbolOf, symbolOfReadBuffer, performReadBuffer]
      · have hmax : stepCount (.readBuffer len ln) = len.toNat := by simp only [stepCount, symbolCount]; omega
        rw [hmax]
        exact symbolsFrom_readBuffer len ln len.toNat 0 (by omega) s
    simp [exec, execReadBuffer, inExecute_eq_next, inOpenFrame_eq_next, FrameOk, hbody]
  | init | writeThenRead | readByte | writeByte | scan | detectAndLog => cases hl

/-! ### What a symbol leaves alone, and that it does not read where the engine stands -/

theorem symbolOf_performs (i : Instr) (k : Nat) (s : State) : Performs s (symbolOf i k s).2 := by
  cases i with
  | start => exact performStart_performs s
  | stop => exact performStop_performs s
  | writeAddressedByte b ackreq => exact performWriteAddressedByte_performs b ackreq s
  | writeBuffer data =>
    simp only [symbolOf, symbolOfWriteBuffer]
    split
    · exact sendByte_performs _ s
    · exact .refl s
  | readBuffer len ln =>
    simp only [symbolOf, symbolOfReadBuffer]
    split
    · exact receiveByte_performs _ s
    · exact .refl s
  | init | writeThenRead | readByte | writeByte | scan | detectAndLog => exact .refl s

theorem symbolsFrom_performs (i : Instr) (m k : Nat) (s : State) : Performs s (symbolsFrom i m k s).2 := by
  induction m generalizing k s with
  | zero => exact .refl s
  | succ m ih => exact thenNext_performs (symbolOf_performs i k s) (ih (k + 1))

theorem sendByte_inFrame (b : Byte) (s : State) : (sendByte b s).2.inFrame = s.inFrame := by
  cases h : s.env.nextWrite with
  | ack => rw [sendByte_ack b h]
  | nack => rw [sendByte_nack b h]
  | hang => rw [sendByte_hang b h]

theorem receiveByte_inFrame (m : Ack) (s : State) : (receiveByte m s).2.inFrame = s.inFrame := by
  cases h : s.env.nextRead with
  | byte v =>
    simp only [receiveByte, phyRead_byte m h]
    split
    · rfl
    · rfl
  | hang => rw [receiveByte_hang m h]

theorem performWriteAddressedByte_inFrame (b : Byte) (ackreq : Bool) (s : State) :
    (performWriteAddressedByte b ackreq s).2.inFrame = s.inFrame := by
  unfold performWriteAddressedByte
  cases h : s.env.nextWrite with
  | ack => rw [phyWrite_ack b h]
  | nack => rw [phyWrite_nack b h]
  | hang => rw [phyWrite_hang b h]

/-- The frame a data operation needs stays open through its symbols. -/
theorem symbolOf_frameOk {i : Instr} {s : State} (h : FrameOk i s) (k : Nat) : FrameOk i (symbolOf i k s).2 := by
  rcases h with hf | h
  · cases i with
    | start => exact .inr (.inl rfl)
    | stop => exact .inr (.inr rfl)
    | writeAddressedByte b ackreq => exact .inl ((performWriteAddressedByte_inFrame b ackreq s).trans hf)
    | writeBuffer data =>
      refine .inl ?_
      simp only [symbolOf, symbolOfWriteBuffer]
      split
      · exact (sendByte_inFrame _ s).trans hf
      · exact hf
    | readBuffer len ln =>
      refine .inl ?_
      simp only [symbolOf, symbolOfReadBuffer]
      split
      · exact (receiveByte_inFrame _ s).trans hf
      · exact hf
    | init | writeThenRead | readByte | writeByte | scan | detectAndLog => exact .inl hf
  · exact .inr h

theorem phyStop_ignoresPoint : IgnoresPoint phyStop := by
  intro s q
  cases h : s.env.nextStop with
  | done => rw [phyStop_done h, phyStop_done (s := s.stand q) h]; rfl
  | hang => rw [phyStop_hang h, phyStop_hang (s := s.stand q) h]; rfl

theorem performStop_ignoresPoint : IgnoresPoint performStop := by
  intro s q
  simp only [performStop, phyStop_ignoresPoint s q]
  rcases phyStop s with ⟨_ | _, u⟩
  · rfl
  · rfl

theorem performStart_ignoresPoint : IgnoresPoint performStart := by
  intro s q
  unfold performStart
  cases h : s.env.nextStart with
  | done => rw [phyStart_done h, phyStart_done (s := s.stand q) h]; rfl
  | hang => rw [phyStart_hang h, phyStart_hang (s := s.stand q) h]; rfl

theorem performWriteAddressedByte_ignoresPoint (b : Byte) (ackreq : Bool) :
    IgnoresPoint (performWriteAddressedByte b ackreq) := by
  intro s q
  unfold performWriteAddressedByte
  cases h : s.env.nextWrite with
  | ack => rw [phyWrite_ack b h, phyWrite_ack (s := s.stand q) b h]; rfl
  | nack => rw [phyWrite_nack b h, phyWrite_nack (s := s.stand q) b h]; rfl
  | hang => rw [phyWrite_hang b h, phyWrite_hang (s := s.stand q) b h]; rfl

theorem sendByte_ignoresPoint (b : Byte) : IgnoresPoint (sendByte b) := by
  intro s q
  cases h : s.env.nextWrite with
  | ack => rw [sendByte_ack b h, sendByte_ack (s := s.stand q) b h]; rfl
  | nack => rw [sendByte_nack b h, sendByte_nack (s := s.stand q) b h]; rfl
  | hang => rw [sendByte_hang b h, sendByte_hang (s := s.stand q) b h]; rfl

theorem receiveByte_ignoresPoint (m : Ack) : IgnoresPoint (receiveByte m) := by
  intro s q
  unfold receiveByte
  cases h : s.env.nextRead with
  | byte v =>
    rw [phyRead_byte m h, phyRead_byte (s := s.stand q) m h]
    by_cases hr : s.rdLen < s.params.rdCapacity
    · simp only [State.stand, hr, if_true]; rfl
    · simp only [State.stand, hr, if_false]
  | hang => rw [phyRead_hang m h, phyRead_hang (s := s.stand q) m h]; rfl

theorem symbolOf_ignoresPoint (i : Instr) (k : Nat) : IgnoresPoint (symbolOf i k) := by
  cases i with
  | start => exact performStart_ignoresPoint
  | stop => exact performStop_ignoresPoint
  | writeAddressedByte b ackreq => exact performWriteAddressedByte_ignoresPoint b ackreq
  | writeBuffer data =>
    cases hb : data[k]? with
    | some b => simpa only [IgnoresPoint, symbolOf, symbolOfWriteBuffer, hb] using sendByte_ignoresPoint b
    | none => simp only [IgnoresPoint, symbolOf, symbolOfWriteBuffer, hb, implies_true]
  | readBuffer len ln =>
    by_cases hk : k < len.toNat
    · simpa only [IgnoresPoint, symbolOf, symbolOfReadBuffer, hk, if_true] using receiveByte_ignoresPoint _
    · simp only [IgnoresPoint, symbolOf, symbolOfReadBuffer, hk, if_false, implies_true]
  | init | writeThenRead | readByte | writeByte | scan | detectAndLog => exact fun _ _ => rfl

theorem nackAbort_stand (s : State) (q : Point) : nackAbort (s.stand q) = nackAbort s := by
  simp only [nackAbort, phyStop_ignoresPoint s q]
  rcases phyStop s with ⟨_ | _, u⟩
  · rfl
  · rfl

/-! ### A link operation, symbol by symbol -/

/-- The engine stands before symbol `k` of the link operation `i`, which it will fetch, and nothing comes in. -/
structure AtSymbol (i : Instr) (k : Nat) (s : State) : Prop where
  alone : s.Alone
  walking : s.walking = true
  point : s.point = .operation k
  inside : s.seqPtr ≠ s.len s.seqSel
  fetch : fetchLinkOp s = .next i
  link : i.isLink = true
  frame : FrameOk i s

theorem State.walking_iff {s : State} :
    s.walking = true ↔
      s.phase = .exec ∧ s.engineUp = true ∧ s.lock ≠ .free ∧ s.linkResult = none ∧ s.buildErr = false := by
  simp [State.walking, and_assoc]

theorem Performs.walking {s t : State} (h : Performs s t) (hs : s.walking = true) : t.walking = true := by
  rw [State.walking_iff] at hs ⊢
  rwa [h.phase, h.engineUp, h.frame.lock, h.linkResult, h.frame.buildErr]

theorem LinkFrame.len {s t : State} (h : LinkFrame s t) : t.len t.seqSel = s.len s.seqSel := by
  rw [h.seqSel]
  cases s.seqSel
  · exact h.cbLen
  · exact h.sbLen

theorem LinkFrame.buf {s t : State} (h : LinkFrame s t) : t.buf t.seqSel = s.buf s.seqSel := by
  rw [h.seqSel]
  cases s.seqSel
  · exact h.cb
  · exact h.sb

theorem Performs.fetch {s t : State} (h : Performs s t) : fetchLinkOp t = fetchLinkOp s := by
  simp only [fetchLinkOp, State.linkAhead, h.frame.buf, h.frame.len, h.seqPtr]

/-- After a symbol that is not its last the operation is fetched again, before its next symbol. -/
theorem AtSymbol.next {i : Instr} {k : Nat} {s : State} (h : AtSymbol i k s) :
    AtSymbol i (k + 1) ((symbolOf i k s).2.stand (.operation (k + 1))) where
  alone := (symbolOf_performs i k s).frame.claims.alone h.alone
  walking := (symbolOf_performs i k s).walking h.walking
  point := rfl
  inside := by
    have hp := symbolOf_performs i k s
    intro he
    exact h.inside (hp.seqPtr.symm.trans (he.trans hp.frame.len))
  fetch := (symbolOf_performs i k s).fetch.trans h.fetch
  link := h.link
  frame := symbolOf_frameOk h.frame k

theorem isLocked_of_isLink {i : Instr} (h : i.isLink = true) : i.isLocked = false := by
  cases i with
  | start | writeAddressedByte | writeBuffer | readBuffer | stop => rfl
  | init | writeThenRead | readByte | writeByte | scan | detectAndLog => cases h

/-- Before a symbol the step is the symbol. -/
theorem AtSymbol.step {i : Instr} {k : Nat} {s t : State} (h : AtSymbol i k s)
    (ht : settleSymbol i k (symbolOf i k s) = .next t) : step s = .next t := by
  obtain ⟨halone, hwalk, hpoint, hin, hfetch, hlink, hframe⟩ := h
  have hsym : symbolStep i k s = .next t := symbolStep_eq_next.2 ⟨hlink, hwalk, hframe, ht⟩
  obtain ⟨hphase, -, -, hr, -⟩ := State.walking_iff.1 hwalk
  have hp : s.phase ≠ .none := by rw [hphase]; decide
  have hm : nextMove s = if k = 0 then .run i s else .settled (symbolStep i k s) := by
    simp [nextMove, hr, hpoint, hin, hfetch]
  by_cases h0 : k = 0
  · subst h0
    have hmove : engineMove s = .run i s := by simp [engineMove, halone.2, hp, hm]
    rw [step_oneStep halone.oneStep, halone.noStimuli, hmove]
    simpa [onlyBegin, hlink, perform, firstStep, isLocked_of_isLink hlink] using hsym
  · rw [if_neg h0] at hm
    exact (step_settled halone hp hm).trans hsym

/-- The abort of a link after a rejected byte, in two parts: the STOP, and, where it hangs, the recovery pass. -/
theorem reaches_nackAbort {s : State} (hs : s.Alone) (hwalk : s.walking = true) :
    Reaches (s.stand .nackStop) (nackAbort s) := by
  have hstep : step (s.stand .nackStop) = nackStopStep (s.stand .nackStop) :=
    (step_nackStop (s := s.stand .nackStop) (.inl ⟨hs.1, rfl⟩) hs.2 hwalk rfl).trans
      (by rw [State.Alone.noStimuli (s := s.stand .nackStop) hs])
  obtain ⟨-, -, hl, hr, -⟩ := State.walking_iff.1 hwalk
  cases ha : s.env.nextStop with
  | done =>
    refine .one (hstep.trans ?_)
    rw [nackStopStep_done (s := s.stand .nackStop) hwalk ha, nackAbort, phyStop_done ha]
    rfl
  | hang =>
    rw [nackStopStep_hang (s := s.stand .nackStop) hwalk ha] at hstep
    rw [nackAbort, phyStop_hang ha]
    exact .head hstep (reaches_timeoutAbort (s := { s with env := s.env.dropStop }) hs hl hr)

/-- A symbol after which the operation does not go on: its step, and the abort of the link if there is one. -/
theorem reaches_settle_stop {i : Instr} {k : Nat} {p : Perform} {s t u : State} (h : AtSymbol i k s)
    (hr : symbolOf i k s = (p, u)) (hp : p ≠ .next)
    (ht : settle (linkSize i) (p, u.stand (.operation 0)) = .next t) : Reaches s t := by
  have hu : Performs s u := by simpa [hr] using symbolOf_performs i k s
  have halone : u.Alone := hu.frame.claims.alone h.alone
  have hwalk : u.walking = true := hu.walking h.walking
  cases p with
  | next => exact absurd rfl hp
  | done =>
    rw [settle, Host.Outcome.next.injEq] at ht
    subst ht
    exact .one (h.step (by rw [hr]; rfl))
  | nack =>
    rw [settle, Host.Outcome.next.injEq, nackAbort_stand] at ht
    subst ht
    exact .head (h.step (by rw [hr]; rfl)) (reaches_nackAbort halone hwalk)
  | hang =>
    rw [settle, Host.Outcome.next.injEq] at ht
    subst ht
    obtain ⟨-, -, hl, hnone, -⟩ := State.walking_iff.1 hwalk
    exact .head (h.step (by rw [hr]; rfl)) (reaches_timeoutAbort halone hl hnone)
  | overrun => cases ht

/-- From symbol `k` of an operation on, with `m` steps after it: the machine gets where EXECUTE goes with the outcome. -/
theorem reaches_settle {i : Instr} {m k : Nat} {s t : State} (h : AtSymbol i k s) (hm : k + 1 + m = stepCount i)
    (ht : settle (linkSize i) (symbolsFrom i (m + 1) k (s.stand (.operation 0))) = .next t) : Reaches s t := by
  induction m generalizing k s with
  | zero =>
    rcases hr : symbolOf i k s with ⟨p, u⟩
    have hlast : ¬k + 1 < symbolCount i := by simp only [stepCount] at hm; omega
    rw [symbolsFrom, symbolOf_ignoresPoint, hr, show symbolsFrom i 0 (k + 1) = fun s => (.next, s) from rfl,
      thenNext_stop] at ht
    by_cases hp : p = .next
    · subst hp
      rw [settle, Host.Outcome.next.injEq] at ht
      subst ht
      exact .one (h.step (by rw [hr, settleSymbol_next, if_neg hlast, if_neg hlast]; rfl))
    · exact reaches_settle_stop h hr hp ht
  | succ m ih =>
    rcases hr : symbolOf i k s with ⟨p, u⟩
    have hmore : k + 1 < symbolCount i := by simp only [stepCount] at hm; omega
    rw [symbolsFrom, symbolOf_ignoresPoint, hr] at ht
    by_cases hp : p = .next
    · subst hp
      have hnext : AtSymbol i (k + 1) (u.stand (.operation (k + 1))) := by simpa [hr] using h.next
      exact .head (h.step (by rw [hr, settleSymbol_next, if_pos hmore, if_pos hmore]; rfl))
        (ih hnext (by omega) ht)
    · rw [thenNext_of_ne hp] at ht
      exact reaches_settle_stop h hr hp ht

/-- A link operation is the run of its symbols (00_scope R3). -/
theorem reaches_exec {i : Instr} {s t : State} (h : AtSymbol i 0 s) (ht : exec i s = .next t) : Reaches s t := by
  obtain ⟨-, -, ht⟩ := (exec_link_eq_next h.link).1 ht
  have hcount : 0 + 1 + (stepCount i - 1) = stepCount i := by simp only [stepCount]; omega
  refine reaches_settle h hcount ?_
  rw [show s.stand (.operation 0) = s by rw [← h.point]; rfl, show stepCount i - 1 + 1 = stepCount i by omega]
  exact ht

end Sys2Proof.Machine
end

section
/-! A locked operation as the run of its moves. -/

namespace Sys2Proof.Machine

theorem runLinkOp_eq_next {i : Instr} {s t : State} (h : runLinkOp i s = .next t) :
    i.isLink = true ∧ exec i s = .next t := by
  cases i with
  | start | writeAddressedByte | writeBuffer | readBuffer | stop => exact ⟨rfl, h⟩
  | init | writeThenRead | readByte | writeByte | scan | detectAndLog => cases h

/-- One move of the operation in progress is the run of its steps. -/
theorem reaches_smallStep {s t : State} (hs : s.Alone) (hp : s.phase ≠ .none) (h : smallStep s = .next t) :
    Reaches s t := by
  have hc := nextMove_cases s
  unfold smallStep at h
  split at h
  · next i u hm =>
    rw [hm] at hc
    cases hc with
    | operation _ hr hk hin hfetch =>
      obtain ⟨hlink, hexec⟩ := runLinkOp_eq_next h
      obtain ⟨hx, hframe, -⟩ := (exec_link_eq_next hlink).1 hexec
      have hwalk : s.walking = true := by
        rw [State.executing, Bool.and_eq_true] at hx
        exact hx.1
      exact reaches_exec ⟨hs, hwalk, hk, hin, hfetch, hlink, hframe⟩ hexec
  · next o hm => exact .one ((step_settled hs hp hm).trans h)

theorem settleSymbol_frame {s t : State} {i : Instr} {k : Nat} {r : Perform × State} (h : LinkFrame s r.2)
    (ht : settleSymbol i k r = .next t) : LinkFrame s t := by
  obtain ⟨p, u⟩ := r
  cases p with
  | next => rw [settleSymbol_next] at ht; cases ht; exact h.trans (by constructor <;> rfl)
  | done => cases ht; exact h.trans (by constructor <;> rfl)
  | nack => cases ht; exact h.trans (by constructor <;> rfl)
  | hang => cases ht; exact h.trans (takeTimeoutTrap_frame u)
  | overrun => cases ht

theorem symbolStep_frame {i : Instr} {k : Nat} {s t : State} (h : symbolStep i k s = .next t) : LinkFrame s t := by
  obtain ⟨-, -, -, h⟩ := symbolStep_eq_next.1 h
  exact settleSymbol_frame (symbolOf_performs i k s).frame h

theorem nackStopStep_frame {s t : State} (h : nackStopStep s = .next t) : LinkFrame s t := by
  obtain ⟨-, h⟩ := inWalk_eq_next.1 h
  have hf := phyStop_frame s
  rcases hp : phyStop s with ⟨_ | _, u⟩
  · rw [hp] at h hf; cases h; exact hf.trans (endLink_frame u .nack)
  · rw [hp] at h hf; cases h; exact hf.trans (takeTimeoutTrap_frame u)

theorem recoveryCall_frame (c : RecoveryCall) (s : State) : LinkFrame s (recoveryCall c s).2 := by
  cases c with
  | tearDown => exact tearDownEngine_frame s
  | dataLine => exact dataLineToInput_frame s
  | clockLine => exact clockLineToOutput_frame s
  | clockLow => exact driveClock_frame false s
  | clockHigh => exact driveClock_frame true s
  | holdLow => exact holdClock_frame s
  | holdHigh => exact (holdClock_frame s).trans (countToggle_frame _)
  | configure => exact reinitialiseEngine_frame s

theorem recoveryStep_frame {c : RecoveryCall} {s t : State} (h : recoveryStep c s = .next t) : LinkFrame s t := by
  unfold recoveryStep at h
  split at h
  · cases h
    have hf := recoveryCall_frame c s
    rcases hr : recoveryCall c s with ⟨_ | _, u⟩
    · rw [hr] at hf
      simp only [afterRecoveryCall]
      split
      · exact hf.trans (by constructor <;> rfl)
      · exact returnFromRecovery_frame (r := (.ok, u)) hf
    · rw [hr] at hf
      exact returnFromRecovery_frame (r := (.fail, u)) hf
  · cases h

theorem submitBuilt_claims (sel : Sel) (s : State) : SameClaims s (submitBuilt sel s) := by
  unfold submitBuilt
  split
  · constructor <;> rfl
  · constructor <;> rfl

theorem beginProbe_claims (s : State) : SameClaims s (beginProbe s) :=
  (buildProbe_frame ..).claims.trans (submitBuilt_claims ..)

theorem beginTransaction_claims (a : Addr7) (data : List Byte) (rlen : Byte) (s : State) :
    SameClaims s (beginTransaction a data rlen s) :=
  (buildTransaction_frame ..).claims.trans (submitBuilt_claims ..)

theorem beginBody_claims (i : Instr) (s : State) : SameClaims s (beginBody i s) := by
  have hrefl : SameClaims s s := ⟨rfl, rfl, rfl, rfl⟩
  cases i with
  | writeThenRead | readByte | writeByte => exact beginTransaction_claims ..
  | scan | detectAndLog =>
    have h0 : SameClaims s { s with aset := 0, scanAddr := 0 } := ⟨rfl, rfl, rfl, rfl⟩
    exact h0.trans (beginProbe_claims _)
  | start | writeAddressedByte | writeBuffer | readBuffer | stop | init => exact hrefl

/-- The operation has completed, or nobody's claim on the engine has changed. -/
abbrev EndsOrKeeps (s t : State) : Prop := t.phase = .none ∨ SameClaims s t

theorem nextProbe_keeps (i : Instr) (s : State) : EndsOrKeeps s (nextProbe i s) := by
  have h0 : SameClaims s { s with scanAddr := s.scanAddr + 1 } := ⟨rfl, rfl, rfl, rfl⟩
  unfold nextProbe
  dsimp only
  split
  · exact .inr (h0.trans (beginProbe_claims _))
  · exact .inl rfl

theorem recordProbe_claims (st : Status) (s : State) : SameClaims s (recordProbe st s) := by
  unfold recordProbe
  split
  · constructor <;> rfl
  · constructor <;> rfl

theorem endProbe_keeps (i : Instr) (st : Status) (s : State) : EndsOrKeeps s (endProbe i st s) := by
  have hnext : EndsOrKeeps s (nextProbe i (recordProbe st (linkEnd .selSb s))) :=
    (nextProbe_keeps i _).imp_right ((linkEnd_frame .selSb s).claims.trans (recordProbe_claims st _)).trans
  cases st with
  | ok | nack | noMemory => exact hnext
  | timeout | configurationFault => exact .inl rfl

theorem endOfLink_keeps {st : Status} {s t : State} (h : endOfLink st s = .next t) : EndsOrKeeps s t := by
  unfold endOfLink at h
  split at h
  · cases h
  · next i _ =>
    split at h
    · cases h; exact endProbe_keeps i st s
    · cases h; exact .inl rfl

theorem smallStep_keeps {s t : State} (h : smallStep s = .next t) : EndsOrKeeps s t := by
  have hc := nextMove_cases s
  unfold smallStep at h
  split at h
  · next i u hm =>
    rw [hm] at hc
    cases hc with
    | operation =>
      obtain ⟨hlink, hexec⟩ := runLinkOp_eq_next h
      obtain ⟨-, -, hset⟩ := (exec_link_eq_next hlink).1 hexec
      exact .inr (settle_frame (symbolsFrom_performs ..).frame hset).claims
  · next o hm =>
    rw [hm] at hc
    cases hc with
    | result st _ => exact endOfLink_keeps h
    | nackStop => exact .inr (nackStopStep_frame h).claims
    | call c => exact .inr (recoveryStep_frame h).claims
    | linkEnd => cases h; exact .inr (endLink_frame s .ok).claims
    | symbol i k => exact .inr (symbolStep_frame h).claims
    | stops _ hstop => exact absurd h (hstop t)

/-- The run of an operation is a run of the machine. -/
theorem reaches_drive {n : Nat} {s t : State} (hs : s.phase ≠ .none → s.Alone) (h : drive n s = .next t) :
    Reaches s t := by
  induction n generalizing s with
  | zero =>
    have hp : s.phase = .none := by
      by_contra hp
      simp [drive, hp] at h
    rw [drive_idle hp] at h
    cases h
    exact .refl _
  | succ n ih =>
    by_cases hp : s.phase = .none
    · rw [drive_idle hp] at h
      cases h
      exact .refl _
    · rw [drive_step hp] at h
      obtain ⟨u, hu, hd⟩ := andThen_eq_next.1 h
      have halone : u.phase ≠ .none → u.Alone := fun hup =>
        ((smallStep_keeps hu).resolve_left hup).alone (hs hp)
      exact (reaches_smallStep (hs hp) hp hu).trans (ih halone hd)

theorem exec_locked {i : Instr} (h : i.isLocked = true) (s : State) : exec i s = runLocked i s := by
  cases i with
  | writeThenRead | readByte | writeByte | scan | detectAndLog => rfl
  | start | writeAddressedByte | writeBuffer | readBuffer | stop | init => cases h

theorem beginLocked_keeps (i : Instr) (s : State) :
    EndsOrKeeps { s.acquire with service := some i } (beginLocked i s) := by
  unfold beginLocked
  dsimp only
  split
  · exact .inl rfl
  · exact .inr (beginBody_claims ..)

/-- Where every other request waits for the lock, an operation that begins is not disturbed. -/
theorem beginLocked_alone {i : Instr} {s : State} (hin : s.stimuli = [])
    (hports : ∀ p ∈ s.ports, p.1 ∈ s.waiters ∨ p.1 = s.cur) (hp : (beginLocked i s).phase ≠ .none) :
    (beginLocked i s).Alone := by
  refine ((beginLocked_keeps i s).resolve_left hp).alone ⟨hin, List.find?_eq_none.2 fun p hmem => ?_⟩
  rcases hports p hmem with hwaits | hcur
  · by_cases hcur : p.1 = s.cur
    · simp [hcur]
    · simp [Waiters.mem_erase, hcur, hwaits]
  · simp [hcur]

end Sys2Proof.Machine

open Sys2Proof Sys2Proof.Machine

/-- Settles O56: the run of an operation is made of moves, and each move is one step or the symbols of a link operation with
the calls of the recovery pass they may end in. -/
theorem operationIsTheRunOfItsSteps : Obligations.OperationIsTheRunOfItsSteps := by
  refine ⟨fun i s t hlocked hmode hfree hin hports h => ?_, fun i s t hlink hw hin hb h => ?_⟩
  · rw [exec_locked hlocked, runLocked, if_neg hmode, if_pos hfree] at h
    exact reaches_drive (beginLocked_alone hin hports) h
  · obtain ⟨hu, hwalk, hpoint, more, hahead⟩ := hb
    have hinside : s.seqPtr ≠ s.len s.seqSel := by
      have hlen := State.linkAhead_length hahead
      have hpos := linkBytes_pos hlink
      rw [List.length_append] at hlen
      omega
    obtain ⟨-, hframe, -⟩ := (exec_link_eq_next hlink).1 h
    exact reaches_exec ⟨⟨hin, hu⟩, hwalk, hpoint, hinside, fetchLinkOp_ahead hahead hlink hw, hlink, hframe⟩ h
end

section
/-! What a step that goes on has done, said once (00_scope R3, R7): an input, a request taken up, or one move of the operation in
progress; and the history no such step rewrites. -/

namespace Sys2Proof.Machine

/-! ### The two decoders give instructions of their own level -/

/-- What the sequencer decodes is a link operation that stands whole at the front (30_encoding R92, R93). -/
theorem decodeLink_ok {bytes more : List Byte} {i : Instr} (h : decodeLink bytes = .ok (i, more)) :
    i.isLink = true ∧ ∃ front, bytes = front ++ more ∧ front.length = linkSize i := by
  cases bytes with
  | nil => cases h
  | cons b bs =>
    simp only [decodeLink] at h
    split at h
    · cases h
    · cases h; exact ⟨rfl, [b], rfl, rfl⟩
    · split at h
      · cases h
      · next x after => cases h; exact ⟨rfl, [b, x], rfl, rfl⟩
    · split at h
      · cases h
      · next n after =>
        split at h
        · next hn =>
          cases h
          exact ⟨rfl, b :: n :: after.take n.toNat, by simp, by simp [linkSize]; omega⟩
        · cases h
    · split at h
      · cases h
      · next n after => cases h; exact ⟨rfl, [b, n], rfl, rfl⟩
    · cases h; exact ⟨rfl, [b], rfl, rfl⟩

theorem linkSize_pos {i : Instr} (h : i.isLink = true) : 0 < linkSize i := by
  cases i with
  | start | writeAddressedByte | readBuffer | stop => simp [linkSize]
  | writeBuffer data => simp only [linkSize]; omega
  | init | writeThenRead | readByte | writeByte | scan | detectAndLog => cases h

theorem fetchLinkOp_isLink {s : State} {i : Instr} (h : fetchLinkOp s = .next i) : i.isLink = true := by
  unfold fetchLinkOp at h
  split at h
  · cases h
  · split at h
    · next hd => cases h; exact (decodeLink_ok hd).1
    · cases h

/-- The instruction is a host operation, and its payload has a length the request word can carry (30_encoding R97). -/
structure HostOp (i : Instr) : Prop where
  link : i.isLink = false
  wellFormed : i.WellFormed

theorem alone_ok {q : RawRequest} {i j : Instr} (h : alone q i = .ok j) : j = i := by
  unfold alone at h
  split at h
  · cases h; rfl
  · cases h

/-- What a request decodes to is a host operation. -/
theorem decodeRequest_ok {q : RawRequest} {i : Instr} (h : decodeRequest q = .ok i) : HostOp i := by
  unfold decodeRequest at h
  split at h
  · cases h
  · split at h
    · cases h; exact ⟨rfl, rfl⟩
    · cases h
  · split at h
    · next hq =>
      cases h
      refine ⟨rfl, ?_⟩
      have hlt := (fieldWlen q.word).isLt
      simp only [Instr.WellFormed, Instr.wellFormed, fitsLength, decide_eq_true_eq]
      omega
    · cases h
  · rw [alone_ok h]; exact ⟨rfl, rfl⟩
  · rw [alone_ok h]; exact ⟨rfl, rfl⟩
  · rw [alone_ok h]; exact ⟨rfl, rfl⟩
  · rw [alone_ok h]; exact ⟨rfl, rfl⟩

/-! ### An instruction taken up -/

/-- What an input lets the engine take of the instruction it fetches: the whole of it, or its first step (log 1). -/
def taken (whole : Bool) (f : Fetched) : Fetched := if whole then f else onlyBegin f

/-- The instruction fetched is done, whole or only its first step. -/
def serve (whole : Bool) (i : Instr) (s : State) : Result := perform (taken whole (.run i s))

/-- The moves of an operation in progress, one after another. -/
abbrev Moves : State → State → Prop := Relation.ReflTransGen fun u v => u.phase ≠ .none ∧ smallStep u = .next v

theorem moves_of_drive {n : Nat} {s t : State} (h : drive n s = .next t) : Moves s t := by
  induction n generalizing s with
  | zero =>
    unfold drive at h
    split at h
    · cases h; exact .refl
    · cases h
  | succ n ih =>
    by_cases hp : s.phase = .none
    · rw [drive_idle hp] at h; cases h; exact .refl
    · rw [drive_step hp] at h
      obtain ⟨u, hu, hd⟩ := andThen_eq_next.1 h
      exact .head ⟨hp, hu⟩ (ih hd)

/-- What taking up a host operation can come to: INIT; a wait for the lock; or the free lock, the beginning, and of the moves
after it none or all. -/
inductive Served (i : Instr) (s : State) : State → Prop where
  | init {port sda scl : Byte} {speed : Word32} {t : State} (hi : i = .init port sda scl speed)
      (h : execInit port sda scl speed s = .next t) : Served i s t
  | waits (hi : i.isLocked = true) (hm : s.mode ≠ .uninit) (hl : s.lock ≠ .free) : Served i s (s.enqueue s.cur)
  | begins {t : State} (hi : i.isLocked = true) (hm : s.mode ≠ .uninit) (hl : s.lock = .free)
      (h : Moves (beginLocked i s) t) : Served i s t

theorem issueLocked_served {i : Instr} {s t : State} (hi : i.isLocked = true) (h : issueLocked i s = .next t) :
    Served i s t := by
  unfold issueLocked at h
  split at h
  · cases h
  · next hm =>
    split at h
    · next hl => cases h; exact .begins hi hm hl .refl
    · next hl => cases h; exact .waits hi hm hl

theorem runLocked_served {i : Instr} {s t : State} (hi : i.isLocked = true) (h : runLocked i s = .next t) :
    Served i s t := by
  unfold runLocked at h
  split at h
  · cases h
  · next hm =>
    split at h
    · next hl => exact .begins hi hm hl (moves_of_drive h)
    · next hl => cases h; exact .waits hi hm hl

theorem serve_locked {i : Instr} (hi : i.isLocked = true) (whole : Bool) (s : State) :
    serve whole i s = if whole then runLocked i s else issueLocked i s := by
  cases whole with
  | true => exact exec_locked hi s
  | false => simp [serve, taken, onlyBegin, hi, perform, firstStep]

theorem serve_link {i : Instr} (hi : i.isLink = true) (whole : Bool) (s : State) :
    serve whole i s = if whole then exec i s else symbolStep i 0 s := by
  cases whole with
  | true => rfl
  | false => simp [serve, taken, onlyBegin, hi, perform, firstStep, isLocked_of_isLink hi]

theorem serve_host {i : Instr} (hi : HostOp i) {whole : Bool} {s t : State} (h : serve whole i s = .next t) :
    Served i s t := by
  have hlocked (hk : i.isLocked = true) : Served i s t := by
    rw [serve_locked hk] at h
    split at h
    · exact runLocked_served hk h
    · exact issueLocked_served hk h
  cases i with
  | init port sda scl speed => exact .init rfl (by cases whole <;> exact h)
  | writeThenRead | readByte | writeByte | scan | detectAndLog => exact hlocked rfl
  | start | writeAddressedByte | writeBuffer | readBuffer | stop => cases hi.link

/-! ### A move of the operation in progress -/

/-- What a move of the operation in progress can be, with what the engine stood before. -/
inductive Moved (whole : Bool) (s : State) : State → Prop where
  | result {st : Status} {t : State} (hr : s.linkResult = some st) (h : endOfLink st s = .next t) : Moved whole s t
  | nackStop {t : State} (hr : s.linkResult = none) (hk : s.point = .nackStop) (h : nackStopStep s = .next t) :
      Moved whole s t
  | call {c : RecoveryCall} {t : State} (hr : s.linkResult = none) (hk : s.point = .recovery c)
      (h : recoveryStep c s = .next t) : Moved whole s t
  | linkEnd {k : Nat} (hr : s.linkResult = none) (hk : s.point = .operation k) (hp : s.seqPtr = s.len s.seqSel) :
      Moved whole s (s.endLink .ok)
  | symbol {i : Instr} {k : Nat} {t : State} (hr : s.linkResult = none) (hk : s.point = .operation k)
      (hi : fetchLinkOp s = .next i) (h : symbolStep i k s = .next t) : Moved whole s t
  | operation {i : Instr} {t : State} (hw : whole = true) (hr : s.linkResult = none) (hk : s.point = .operation 0)
      (hi : fetchLinkOp s = .next i) (h : exec i s = .next t) : Moved whole s t

/-- The next move, taken; of an instruction whole or only its first step. -/
def takeMove (whole : Bool) (s : State) : Result :=
  match nextMove s with
  | .run i s => serve whole i s
  | .settled o => o

theorem takeMove_run {s u : State} {i : Instr} (h : nextMove s = .run i u) (whole : Bool) :
    takeMove whole s = serve whole i u := by simp only [takeMove, h]

theorem takeMove_settled {s : State} {o : Result} (h : nextMove s = .settled o) (whole : Bool) : takeMove whole s = o := by
  simp only [takeMove, h]

theorem takeMove_moved {whole : Bool} {s t : State} (h : takeMove whole s = .next t) : Moved whole s t := by
  cases hr : s.linkResult with
  | some st => rw [takeMove_settled (nextMove_result hr)] at h; exact .result hr h
  | none =>
    cases hk : s.point with
    | nackStop => rw [takeMove_settled (nextMove_nackStop hr hk)] at h; exact .nackStop hr hk h
    | recovery c => rw [takeMove_settled (nextMove_recovery hr hk)] at h; exact .call hr hk h
    | operation k =>
      simp only [takeMove, nextMove, hr, hk] at h
      by_cases hp : s.seqPtr = s.len s.seqSel
      · simp only [hp, if_true] at h
        cases h
        exact .linkEnd hr hk hp
      · simp only [hp, if_false] at h
        cases hi : fetchLinkOp s with
        | fault f => simp [hi] at h
        | refused r => simp [hi] at h
        | next i =>
          have hlink := fetchLinkOp_isLink hi
          by_cases h0 : k = 0
          · subst h0
            simp only [hi, if_true, serve_link hlink] at h
            cases whole with
            | true => exact .operation rfl hr hk hi h
            | false => exact .symbol hr hk hi h
          · simp only [hi, h0, if_false] at h
            exact .symbol hr hk hi h

theorem smallStep_moved {s t : State} (h : smallStep s = .next t) : Moved true s t := by
  refine takeMove_moved ?_
  unfold smallStep at h
  split at h
  · next i u hm => rw [takeMove_run hm]; exact (runLinkOp_eq_next h).2
  · next o hm => rw [takeMove_settled hm]; exact h

/-! ### A step -/

/-- What the engine's part of a step can be (60_exceptions R244, R245; log 10): a request that stands in no line is taken up;
the picked waiter is granted the lock; nobody waits; or a move of the operation in progress. -/
inductive EngineStep (whole : Bool) (s : State) : State → Prop where
  | request {r : Nat} {q : RawRequest} {i : Instr} {t : State} (hu : s.unbegun = some (r, q)) (hi : HostOp i)
      (h : Served i { s with cur := r } t) : EngineStep whole s t
  | grant {r : Nat} {q : RawRequest} {i : Instr} {t : State} (hl : s.lock = .free)
      (hw : Waiters.pick s.waiters s.env.nextPick = some r) (hq : Assoc.get s.ports r = some q) (hi : HostOp i)
      (h : Served i { s with env := s.env.dropPick, cur := r } t) : EngineStep whole s t
  | idle : EngineStep whole s s
  | move {t : State} (hp : s.phase ≠ .none) (h : Moved whole s t) : EngineStep whole s t

theorem perform_taken_settled (whole : Bool) (o : Result) : perform (taken whole (.settled o)) = o := by cases whole <;> rfl

theorem perform_taken_run (whole : Bool) (i : Instr) (s : State) : perform (taken whole (.run i s)) = serve whole i s := rfl

/-- A request fetched is taken up for its requester. -/
theorem fetchRequest_served {whole : Bool} {r : Nat} {q : RawRequest} {s t : State}
    (h : perform (taken whole (fetchRequest r q s)) = .next t) : ∃ i, HostOp i ∧ Served i { s with cur := r } t := by
  unfold fetchRequest at h
  split at h
  · next i hi =>
    rw [perform_taken_run] at h
    exact ⟨i, decodeRequest_ok hi, serve_host (decodeRequest_ok hi) h⟩
  · rw [perform_taken_settled] at h
    cases h

theorem grant_engineStep {whole : Bool} {s t : State} (h : perform (taken whole (grant s)) = .next t) :
    EngineStep whole s t := by
  unfold grant at h
  split at h
  · rw [perform_taken_settled] at h; cases h; exact .idle
  · next hl =>
    split at h
    · rw [perform_taken_settled] at h; cases h; exact .idle
    · next r hw =>
      split at h
      · rw [perform_taken_settled] at h; cases h
      · next q hq =>
        obtain ⟨i, hi, hserved⟩ := fetchRequest_served h
        exact .grant hl hw hq hi hserved

theorem engineMove_engineStep {whole : Bool} {s t : State} (h : perform (taken whole (engineMove s)) = .next t) :
    EngineStep whole s t := by
  unfold engineMove at h
  split at h
  · next r q hu =>
    obtain ⟨i, hi, hserved⟩ := fetchRequest_served h
    exact .request hu hi hserved
  · split at h
    · exact grant_engineStep h
    · next hp =>
      refine .move hp (takeMove_moved ?_)
      split at h
      · next i u hm => rw [takeMove_run hm]; exact h
      · next o hm => rw [perform_taken_settled] at h; rw [takeMove_settled hm]; exact h

/-- What a step that goes on has done; `rest` are the inputs after it. -/
inductive Stepped (s : State) : State → Prop where
  | presented {r : Nat} {q : RawRequest} {rest : List Stimulus} {t : State}
      (h : present r q { s with stimuli := rest } = .next t) : Stepped s t
  | reset {rest : List Stimulus} (hs : s.stimuli = .reset :: rest) : Stepped s { s with stimuli := rest }.afterReset
  | engine {whole : Bool} {rest : List Stimulus} {t : State} (hw : whole = true → s.stimuli = .engine :: rest)
      (h : EngineStep whole { s with stimuli := rest } t) : Stepped s t

theorem step_stepped {s t : State} (h : step s = .next t) : Stepped s t := by
  unfold step fetch at h
  split at h
  · next hs =>
    refine .engine (whole := false) (rest := []) nofun (engineMove_engineStep ?_)
    rw [show ({ s with stimuli := [] } : State) = s by rw [← hs]]
    exact h
  · exact .engine (whole := false) nofun (engineMove_engineStep h)
  · next hs => exact .engine (whole := true) (fun _ => hs) (engineMove_engineStep h)
  · exact .presented h
  · next hs => cases h; exact .reset hs

end Sys2Proof.Machine
end

section
/-! A recovery pass as a whole: what it leaves alone, the toggles it makes, and the pins it leaves (42_recovery R171 to R175). -/

namespace Sys2Proof.Machine

/-- What a part of a recovery pass leaves alone, however it ends; it puts no symbol on the wire. -/
structure PassFrame (s t : State) : Prop where
  mode : t.mode = s.mode
  phase : t.phase = s.phase
  inFrame : t.inFrame = s.inFrame
  rdata : t.rdata = s.rdata
  rdLen : t.rdLen = s.rdLen
  params : t.params = s.params
  tmoArmed : t.tmoArmed = s.tmoArmed
  linkResult : t.linkResult = s.linkResult
  wire : ∃ es : List Event, t.wire = s.wire ++ es ∧ ∀ e ∈ es, e.isSymbol = false

theorem PassFrame.refl (s : State) : PassFrame s s := ⟨rfl, rfl, rfl, rfl, rfl, rfl, rfl, rfl, [], by simp, by simp⟩

theorem PassFrame.trans {s t u : State} (h : PassFrame s t) (k : PassFrame t u) : PassFrame s u := by
  obtain ⟨xs, hx, hs⟩ := h.wire
  obtain ⟨ys, hy, ht⟩ := k.wire
  exact ⟨k.mode.trans h.mode, k.phase.trans h.phase, k.inFrame.trans h.inFrame, k.rdata.trans h.rdata,
    k.rdLen.trans h.rdLen, k.params.trans h.params, k.tmoArmed.trans h.tmoArmed,
    k.linkResult.trans h.linkResult, xs ++ ys, by rw [hy, hx, List.append_assoc],
    fun e he => (List.mem_append.1 he).elim (hs e) (ht e)⟩

theorem recoveryEvent_isSymbol (cfg : Cfg) (c : RecoveryCall) : (recoveryEvent cfg c).isSymbol = false := by
  cases c <;> rfl

theorem called_passFrame (s : State) (c : RecoveryCall) : PassFrame s (s.called c) := by
  cases c <;> exact ⟨rfl, rfl, rfl, rfl, rfl, rfl, rfl, rfl, [], by simp, by simp⟩

theorem recoveryCall_passFrame (c : RecoveryCall) (s : State) : PassFrame s (recoveryCall c s).2 := by
  rcases recoveryCall_cases c s with ⟨e, hc⟩ | ⟨call, -, hc⟩
  · rw [hc]
    refine PassFrame.trans ?_ (called_passFrame _ c)
    exact ⟨rfl, rfl, rfl, rfl, rfl, rfl, rfl, rfl, [recoveryEvent s.cfg c], rfl, by simp [recoveryEvent_isSymbol]⟩
  · rw [hc]
    exact ⟨rfl, rfl, rfl, rfl, rfl, rfl, rfl, rfl, [recoveryEvent s.cfg c, .fail call], rfl,
      by simp [recoveryEvent_isSymbol, show (Event.fail call).isSymbol = false from rfl]⟩

theorem ifOk_passFrame {s : State} {r : HalAnswer × State} {k : State → HalAnswer × State} (hr : PassFrame s r.2)
    (hk : ∀ t, PassFrame t (k t).2) : PassFrame s (ifOk r k).2 := by
  obtain ⟨_ | _, t⟩ := r
  · exact hr.trans (hk t)
  · exact hr

theorem toggles_passFrame {f : State → HalAnswer × State} (hf : ∀ t, PassFrame t (f t).2) (n : Nat) (s : State) :
    PassFrame s (ifOk (toggles n s) f).2 := by
  induction n generalizing s with
  | zero => exact hf s
  | succ n ih =>
    rw [toggles_succ]
    exact ifOk_passFrame (recoveryCall_passFrame ..) fun _ => ifOk_passFrame (recoveryCall_passFrame ..) fun _ =>
      ifOk_passFrame (recoveryCall_passFrame ..) fun _ => ifOk_passFrame (recoveryCall_passFrame ..) ih

theorem recover_passFrame (s : State) : PassFrame s (recover s).2 :=
  ifOk_passFrame (recoveryCall_passFrame .tearDown s) fun _ => ifOk_passFrame (recoveryCall_passFrame .dataLine _) fun _ =>
    ifOk_passFrame (recoveryCall_passFrame .clockLine _) fun _ =>
      toggles_passFrame (recoveryCall_passFrame .configure) Config.recoveryToggles _

/-! ### TOGGLE_CNT -/

/-- TOGGLE_CNT is at most `n` after this, if it is at most `m` before. -/
abbrev TogglesWithin (m n : Nat) (f : State → HalAnswer × State) : Prop :=
  ∀ s : State, s.toggleCnt.toNat ≤ m → (f s).2.toggleCnt.toNat ≤ n

theorem recoveryCall_toggles {c : RecoveryCall} (hc : c ≠ .holdHigh) (m : Nat) :
    TogglesWithin m m (recoveryCall c) := by
  intro s hs
  rcases recoveryCall_cases c s with ⟨e, he⟩ | ⟨call, -, he⟩
  · rw [he]
    cases c with
    | holdHigh => exact absurd rfl hc
    | tearDown | dataLine | clockLine | clockLow | holdLow | clockHigh | configure => exact hs
  · rw [he]; exact hs

theorem holdHigh_toggles {m : Nat} (hm : m < 63) : TogglesWithin m (m + 1) (recoveryCall .holdHigh) := by
  intro s hs
  show (s.toggleCnt + 1).toNat ≤ m + 1
  bv_omega

theorem ifOk_toggles {m n k : Nat} {f g : State → HalAnswer × State} (hf : TogglesWithin m n f)
    (hg : TogglesWithin n k g) (hnk : n ≤ k) : TogglesWithin m k fun s => ifOk (f s) g := by
  intro s hs
  have hr := hf s hs
  rcases hfs : f s with ⟨_ | _, t⟩
  · rw [hfs] at hr; simp only [hfs, ifOk_ok]; exact hg t hr
  · rw [hfs] at hr; simp only [hfs, ifOk_fail]; exact hr.trans hnk

/-- `n` toggles more, if that is not more than a whole pass makes. -/
theorem toggles_toggles {f : State → HalAnswer × State} {m n : Nat} (hmn : m + n ≤ 32)
    (hf : TogglesWithin (m + n) (m + n) f) : TogglesWithin m (m + n) fun s => ifOk (toggles n s) f := by
  induction n generalizing m with
  | zero => exact hf
  | succ n ih =>
    simp only [toggles_succ]
    have hrest : TogglesWithin (m + 1) (m + (n + 1)) fun s => ifOk (toggles n s) f := by
      rw [show m + (n + 1) = m + 1 + n by omega] at hf ⊢
      exact ih (by omega) hf
    have hheld := ifOk_toggles (holdHigh_toggles (m := m) (by omega)) hrest (by omega)
    have hhigh := ifOk_toggles (recoveryCall_toggles (c := .clockHigh) nofun m) hheld (by omega)
    have hlow := ifOk_toggles (recoveryCall_toggles (c := .holdLow) nofun m) hhigh (by omega)
    exact ifOk_toggles (recoveryCall_toggles (c := .clockLow) nofun m) hlow (by omega)

theorem recover_toggles : TogglesWithin 0 32 recover := by
  have hloop : TogglesWithin 0 (0 + 32) fun s => ifOk (toggles 32 s) reinitialiseEngine :=
    toggles_toggles (m := 0) (n := 32) (by omega) (recoveryCall_toggles (c := .configure) nofun 32)
  have hclock := ifOk_toggles (recoveryCall_toggles (c := .clockLine) nofun 0) hloop (by omega)
  have hdata := ifOk_toggles (recoveryCall_toggles (c := .dataLine) nofun 0) hclock (by omega)
  exact ifOk_toggles (recoveryCall_toggles (c := .tearDown) nofun 0) hdata (by omega)

/-! ### The pins -/

theorem ifOk_eq_ok {r : HalAnswer × State} {k : State → HalAnswer × State} {u : State} :
    ifOk r k = (.ok, u) ↔ ∃ v, r = (.ok, v) ∧ k v = (.ok, u) := by
  obtain ⟨_ | _, v⟩ := r <;> simp

/-- A clean pass leaves the engine in charge of its pins (42_recovery R175). -/
theorem recover_pins {s u : State} (h : recover s = (.ok, u)) : u.EngineOwnsPins := by
  obtain ⟨v, -, h⟩ := ifOk_eq_ok.1 h
  obtain ⟨v, -, h⟩ := ifOk_eq_ok.1 h
  obtain ⟨v, -, h⟩ := ifOk_eq_ok.1 h
  obtain ⟨v, -, h⟩ := ifOk_eq_ok.1 h
  obtain ⟨v, -, h⟩ := ifOk_eq_ok.1 h
  cases h
  exact ⟨rfl, rfl, rfl⟩

end Sys2Proof.Machine
end

section
/-! The link ahead of the sequencer and its walk: what a symbol does to the frame, to RDATA, and to what is left of the
link (30_encoding R96; 41_command_link R141 to R146). -/

namespace Sys2Proof.Machine

/-! ### Decoding a link -/

/-- An operation takes at least its header byte (30_encoding R92). -/
theorem decodeLink_shorter {b : Byte} {bs more : List Byte} {i : Instr} (h : decodeLink (b :: bs) = .ok (i, more)) :
    more.length ≤ bs.length := by
  obtain ⟨hl, front, hb, hf⟩ := decodeLink_ok h
  have hlen := congrArg List.length hb
  have hpos := linkSize_pos hl
  rw [List.length_cons, List.length_append] at hlen
  omega

/-- More fuel than bytes changes nothing. -/
theorem decodeLinkOps_fuel {n : Nat} {bytes : List Byte} (h : bytes.length ≤ n) :
    decodeLinkOps n bytes = decodeLinkOps bytes.length bytes := by
  induction n using Nat.strong_induction_on generalizing bytes with
  | _ n ih =>
    cases bytes with
    | nil => cases n <;> rfl
    | cons b bs =>
      rw [List.length_cons] at h
      obtain ⟨m, rfl⟩ : ∃ m, n = m + 1 := ⟨n - 1, by omega⟩
      rw [List.length_cons, decodeLinkOps, decodeLinkOps]
      cases hd : decodeLink (b :: bs) with
      | error e => rfl
      | ok p =>
        obtain ⟨i, more⟩ := p
        have hlen := decodeLink_shorter hd
        simp only [ih m (by omega) (bytes := more) (by omega), ih bs.length (by omega) hlen]

/-- A link that begins with an operation decodes to that operation and the rest. -/
theorem decodeLinkOps_eq_ok {bytes more : List Byte} {i : Instr} {ops : List Instr}
    (hd : decodeLink bytes = .ok (i, more)) :
    decodeLinkOps bytes.length bytes = .ok ops ↔ ∃ rest, decodeLinkOps more.length more = .ok rest ∧ ops = i :: rest := by
  cases bytes with
  | nil => cases hd
  | cons b bs =>
    rw [List.length_cons, decodeLinkOps]
    simp only [hd, decodeLinkOps_fuel (decodeLink_shorter hd)]
    cases decodeLinkOps more.length more with
    | error e => simp
    | ok rest => simp [eq_comm]

/-- The bytes of link operations decode to them (30_encoding R96). -/
theorem decodeLinkOps_linkBytesOf {ops : List Instr} (h : ∀ i ∈ ops, i.isLink = true ∧ i.WellFormed) :
    decodeLinkOps (linkBytesOf ops).length (linkBytesOf ops) = .ok ops := by
  induction ops with
  | nil => rfl
  | cons i ops ih =>
    obtain ⟨hl, hw⟩ := h i List.mem_cons_self
    have hd : decodeLink (linkBytesOf (i :: ops)) = .ok (i, linkBytesOf ops) := decodeLink_append hl hw _
    exact (decodeLinkOps_eq_ok hd).2 ⟨ops, ih fun j hj => h j (List.mem_cons_of_mem _ hj), rfl⟩

/-! ### What stands ahead -/

/-- The bytes RDATA has room for. -/
abbrev State.room (s : State) : Nat := s.params.rdCapacity - s.rdLen

/-- The link ahead is this operation and then these. -/
structure State.LinkAhead (s : State) (i : Instr) (rest : List Instr) : Prop where
  fetch : fetchLinkOp s = .next i
  inside : s.seqPtr ≠ s.len s.seqSel
  whole : ∃ bytes, s.linkAhead = some bytes ∧ decodeLinkOps bytes.length bytes = .ok (i :: rest)
  after : ∃ front more, s.linkAhead = some (front ++ more) ∧ front.length = linkSize i ∧
    decodeLinkOps more.length more = .ok rest

theorem State.linkOk_of {s : State} {k : Nat} {bytes : List Byte} {ops : List Instr} (ha : s.linkAhead = some bytes)
    (hd : decodeLinkOps bytes.length bytes = .ok ops) (ht : tailOkFrom k s.inFrame s.room ops = true) :
    s.linkOk k = true := by
  simpa [State.linkOk, ha, hd] using ht

/-- A link that can be walked on has an operation ahead. -/
theorem State.linkOk_ahead {s : State} {k : Nat} (h : s.linkOk k = true) :
    ∃ i rest, s.LinkAhead i rest ∧ tailOkFrom k s.inFrame s.room (i :: rest) = true := by
  unfold State.linkOk at h
  split at h
  · cases h
  · next bytes ha =>
    split at h
    · next ops hd =>
      cases bytes with
      | nil => cases hd; cases h
      | cons b bs =>
        cases hdl : decodeLink (b :: bs) with
        | error e => rw [List.length_cons, decodeLinkOps, hdl] at hd; cases hd
        | ok p =>
          obtain ⟨i, more⟩ := p
          obtain ⟨rest, hrest, rfl⟩ := (decodeLinkOps_eq_ok hdl).1 hd
          obtain ⟨-, front, hb, hf⟩ := decodeLink_ok hdl
          refine ⟨i, rest, ⟨?_, ?_, ⟨_, ha, hd⟩, front, more, by rw [ha, hb], hf, hrest⟩, h⟩
          · simp [fetchLinkOp, ha, hdl]
          · have := State.linkAhead_length ha
            rw [List.length_cons] at this
            omega
    · cases h

theorem tailOkFrom_zero (inFrame : Bool) (room : Nat) (ops : List Instr) :
    tailOkFrom 0 inFrame room ops = tailOk inFrame room ops := by
  cases ops with
  | nil => rfl
  | cons i rest => cases i <;> simp [tailOkFrom]

/-! ### What a symbol does -/

/-- RDATA is canonical and holds no more bytes than it can (10_state R37 I-b). -/
abbrev State.ReadsOk (s : State) : Prop := Memory.wf s.rdata ∧ s.rdLen ≤ s.params.rdCapacity

/-- Sending or ending: RDATA and RD_LEN stay. -/
structure ReadsNothing (s t : State) : Prop where
  rdata : t.rdata = s.rdata
  rdLen : t.rdLen = s.rdLen
  params : t.params = s.params

theorem ReadsNothing.readsOk {s t : State} (h : ReadsNothing s t) (hs : s.ReadsOk) : t.ReadsOk := by
  rw [State.ReadsOk, h.rdata, h.rdLen, h.params]
  exact hs

theorem ReadsNothing.room {s t : State} (h : ReadsNothing s t) : t.room = s.room := by
  rw [State.room, h.rdLen, h.params]

/-- What symbol `k` of a link operation can do to IN_FRAME, RDATA and RD_LEN (41_command_link R142 to R146). -/
inductive SymbolDoes (s : State) (k : Nat) : Instr → Perform × State → Prop where
  | started {u : State} (hf : u.inFrame = true) (hr : ReadsNothing s u) : SymbolDoes s k .start (.next, u)
  | addressed {b : Byte} {ackreq : Bool} {u : State} (hf : u.inFrame = s.inFrame) (hr : ReadsNothing s u) :
      SymbolDoes s k (.writeAddressedByte b ackreq) (.next, u)
  | sent {data : List Byte} {u : State} (hf : u.inFrame = s.inFrame) (hr : ReadsNothing s u) :
      SymbolDoes s k (.writeBuffer data) (.next, u)
  | received {len : Byte} {ln : Bool} {u : State} {v : Byte} (hk : k < len.toNat) (room : s.rdLen < s.params.rdCapacity)
      (hf : u.inFrame = s.inFrame) (hm : u.rdata = Memory.write s.rdata s.rdLen v) (hl : u.rdLen = s.rdLen + 1)
      (hp : u.params = s.params) : SymbolDoes s k (.readBuffer len ln) (.next, u)
  | nothing {len : Byte} {ln : Bool} (hk : ¬k < len.toNat) : SymbolDoes s k (.readBuffer len ln) (.next, s)
  | stopped {u : State} (hf : u.inFrame = false) (hr : ReadsNothing s u) : SymbolDoes s k .stop (.done, u)
  | rejected {i : Instr} {u : State} (hr : ReadsNothing s u) : SymbolDoes s k i (.nack, u)
  | hung {i : Instr} {u : State} (hr : ReadsNothing s u) : SymbolDoes s k i (.hang, u)
  | overrun {len : Byte} {ln : Bool} {u : State} (full : s.params.rdCapacity ≤ s.rdLen) (hr : ReadsNothing s u) :
      SymbolDoes s k (.readBuffer len ln) (.overrun, u)

theorem performStart_does (k : Nat) (s : State) : SymbolDoes s k .start (performStart s) := by
  unfold performStart
  cases h : s.env.nextStart with
  | done => rw [phyStart_done h]; exact .started rfl ⟨rfl, rfl, rfl⟩
  | hang => rw [phyStart_hang h]; exact .hung ⟨rfl, rfl, rfl⟩

theorem performStop_does (k : Nat) (s : State) : SymbolDoes s k .stop (performStop s) := by
  unfold performStop
  cases h : s.env.nextStop with
  | done => rw [phyStop_done h]; exact .stopped rfl ⟨rfl, rfl, rfl⟩
  | hang => rw [phyStop_hang h]; exact .hung ⟨rfl, rfl, rfl⟩

theorem performWriteAddressedByte_does (b : Byte) (ackreq : Bool) (k : Nat) (s : State) :
    SymbolDoes s k (.writeAddressedByte b ackreq) (performWriteAddressedByte b ackreq s) := by
  unfold performWriteAddressedByte
  cases h : s.env.nextWrite with
  | ack => rw [phyWrite_ack b h]; exact .addressed rfl ⟨rfl, rfl, rfl⟩
  | nack =>
    rw [phyWrite_nack b h]
    cases ackreq with
    | true => exact .rejected ⟨rfl, rfl, rfl⟩
    | false => exact .addressed rfl ⟨rfl, rfl, rfl⟩
  | hang => rw [phyWrite_hang b h]; exact .hung ⟨rfl, rfl, rfl⟩

theorem sendByte_does (data : List Byte) (b : Byte) (k : Nat) (s : State) :
    SymbolDoes s k (.writeBuffer data) (sendByte b s) := by
  cases h : s.env.nextWrite with
  | ack => rw [sendByte_ack b h]; exact .sent rfl ⟨rfl, rfl, rfl⟩
  | nack => rw [sendByte_nack b h]; exact .rejected ⟨rfl, rfl, rfl⟩
  | hang => rw [sendByte_hang b h]; exact .hung ⟨rfl, rfl, rfl⟩

theorem receiveByte_does {len : Byte} (ln : Bool) {k : Nat} (hk : k < len.toNat) (m : Ack) (s : State) :
    SymbolDoes s k (.readBuffer len ln) (receiveByte m s) := by
  cases h : s.env.nextRead with
  | byte v =>
    by_cases room : s.rdLen < s.params.rdCapacity
    · rw [receiveByte_byte m h room]; exact .received hk room rfl rfl rfl rfl
    · simp only [receiveByte, phyRead_byte m h, if_neg room]
      exact .overrun (Nat.le_of_not_lt room) ⟨rfl, rfl, rfl⟩
  | hang => rw [receiveByte_hang m h]; exact .hung ⟨rfl, rfl, rfl⟩

theorem symbolOf_does {i : Instr} (hi : i.isLink = true) (k : Nat) (s : State) : SymbolDoes s k i (symbolOf i k s) := by
  cases i with
  | start => exact performStart_does k s
  | stop => exact performStop_does k s
  | writeAddressedByte b ackreq => exact performWriteAddressedByte_does b ackreq k s
  | writeBuffer data =>
    simp only [symbolOf, symbolOfWriteBuffer]
    split
    · exact sendByte_does data _ k s
    · exact .sent rfl ⟨rfl, rfl, rfl⟩
  | readBuffer len ln =>
    simp only [symbolOf, symbolOfReadBuffer]
    split
    · next hk => exact receiveByte_does ln hk _ s
    · next hk => exact .nothing hk
  | init | writeThenRead | readByte | writeByte | scan | detectAndLog => cases hi

theorem SymbolDoes.readsOk {s : State} {k : Nat} {i : Instr} {r : Perform × State} (h : SymbolDoes s k i r)
    (hs : s.ReadsOk) : r.2.ReadsOk := by
  cases h with
  | started _ hr | addressed _ hr | sent _ hr | stopped _ hr | rejected hr | hung hr | overrun _ hr => exact hr.readsOk hs
  | nothing => exact hs
  | received _ room _ hm hl hp =>
    rw [State.ReadsOk, hm, hl, hp]
    exact ⟨Memory.wf_write hs.1 _ _, room⟩

/-- Only STOP ends a link, and it closes the frame. -/
theorem SymbolDoes.closes {s u : State} {k : Nat} {i : Instr} (h : SymbolDoes s k i (.done, u)) : u.inFrame = false := by
  cases h with
  | stopped hf _ => exact hf

/-- After a symbol that completed what is left of the link can still be walked: the rest of the operation, or after its last
symbol the operations after it. -/
theorem SymbolDoes.tail {s u : State} {k : Nat} {i : Instr} {rest : List Instr} (h : SymbolDoes s k i (.next, u))
    (ht : tailOkFrom k s.inFrame s.room (i :: rest) = true) :
    (k + 1 < symbolCount i → tailOkFrom (k + 1) u.inFrame u.room (i :: rest) = true) ∧
    (¬k + 1 < symbolCount i → tailOk u.inFrame u.room rest = true) := by
  simp only [tailOkFrom, Bool.and_eq_true, Bool.or_eq_true, beq_iff_eq, decide_eq_true_eq] at ht ⊢
  obtain ⟨hk, ht⟩ := ht
  cases h with
  | started hf hr => simpa [symbolCount, tailOk, hf, hr.room] using ht
  | addressed hf hr =>
    simp only [tailOk, Bool.and_eq_true] at ht
    simp [symbolCount, hf, hr.room, ht.2]
  | @sent data u hf hr =>
    have htail : tailOk u.inFrame u.room (.writeBuffer data :: rest) = true := by rw [hf, hr.room]; exact ht
    refine ⟨fun hmore => ⟨.inr hmore, htail⟩, fun _ => ?_⟩
    simp only [tailOk, Bool.and_eq_true] at htail
    exact htail.2
  | @received len ln u v hlt room hf hm hl hp =>
    have hroom : u.room = s.room - 1 := by simp only [State.room, hl, hp]; omega
    have hpos : 1 ≤ s.room := by simp only [State.room]; omega
    simp only [symbolCount, tailOk, Bool.and_eq_true, decide_eq_true_eq, hf, hroom] at hk ht ⊢
    obtain ⟨⟨hframe, hfits⟩, ht⟩ := ht
    refine ⟨fun hmore => ⟨.inr hmore, ⟨hframe, by omega⟩, ?_⟩, fun hlast => ?_⟩
    · rwa [show s.room - 1 + (k + 1) = s.room + k by omega]
    · rwa [show s.room - 1 = s.room + k - len.toNat by omega]
  | @nothing len ln hge =>
    simp only [symbolCount, tailOk, Bool.and_eq_true, decide_eq_true_eq] at hk ht ⊢
    obtain ⟨-, ht⟩ := ht
    obtain rfl : k = 0 := by omega
    refine ⟨fun hmore => by omega, fun _ => ?_⟩
    rwa [show s.room = s.room + 0 - len.toNat by omega]

/-! ### Several symbols of a link operation -/

theorem symbolsFrom_succ {i : Instr} {m k : Nat} {s : State} :
    (∃ v, symbolOf i k s = (.next, v) ∧ symbolsFrom i (m + 1) k s = symbolsFrom i m (k + 1) v) ∨
    ((symbolOf i k s).1 ≠ .next ∧ symbolsFrom i (m + 1) k s = symbolOf i k s) := by
  rw [symbolsFrom]
  rcases symbolOf i k s with ⟨p, v⟩
  by_cases hp : p = .next
  · subst hp; exact .inl ⟨v, rfl, rfl⟩
  · exact .inr ⟨hp, thenNext_of_ne hp v _⟩

theorem symbolsFrom_readsOk {i : Instr} (hi : i.isLink = true) (m k : Nat) {s : State} (hs : s.ReadsOk) :
    (symbolsFrom i m k s).2.ReadsOk := by
  induction m generalizing k s with
  | zero => exact hs
  | succ m ih =>
    have hone := (symbolOf_does hi k s).readsOk hs
    rcases symbolsFrom_succ (i := i) (m := m) (k := k) (s := s) with ⟨v, hv, heq⟩ | ⟨-, heq⟩
    · rw [heq]; rw [hv] at hone; exact ih (k + 1) hone
    · rw [heq]; exact hone

theorem symbolsFrom_closes {i : Instr} (hi : i.isLink = true) {m k : Nat} {s u : State}
    (h : symbolsFrom i m k s = (.done, u)) : u.inFrame = false := by
  induction m generalizing k s with
  | zero => cases h
  | succ m ih =>
    rcases symbolsFrom_succ (i := i) (m := m) (k := k) (s := s) with ⟨v, -, heq⟩ | ⟨-, heq⟩
    · exact ih (heq.symm.trans h)
    · have hdoes := symbolOf_does hi k s
      rw [← heq, h] at hdoes
      exact hdoes.closes

/-- After all symbols of an operation the rest of the link can be walked. -/
theorem symbolsFrom_tail {i : Instr} (hi : i.isLink = true) {m k : Nat} {s u : State} {rest : List Instr}
    (hm : k + 1 + m = stepCount i) (ht : tailOkFrom k s.inFrame s.room (i :: rest) = true)
    (h : symbolsFrom i (m + 1) k s = (.next, u)) : tailOk u.inFrame u.room rest = true := by
  have hdoes := symbolOf_does hi k s
  induction m generalizing k s with
  | zero =>
    rw [stepCount] at hm
    rw [symbolsFrom, show symbolsFrom i 0 (k + 1) = fun s => (.next, s) from rfl, thenNext_stop] at h
    rw [h] at hdoes
    exact (hdoes.tail ht).2 (by omega)
  | succ m ih =>
    rcases symbolsFrom_succ (i := i) (m := m + 1) (k := k) (s := s) with ⟨v, hv, heq⟩ | ⟨hne, heq⟩
    · rw [hv] at hdoes
      rw [heq] at h
      exact ih (by omega) ((hdoes.tail ht).1 (by rw [stepCount] at hm; omega)) h (symbolOf_does hi _ v)
    · rw [← heq, h] at hne
      exact absurd rfl hne

end Sys2Proof.Machine
end

section
/-! The invariant through the walk of a link: every symbol, call and abort keeps it (10_state R37). -/

namespace Sys2Proof.Machine

/-! ### What a walk shows of the invariant -/

/-- A link is being walked, and has no result yet. -/
structure State.OnWalk (s : State) : Prop where
  result : s.linkResult = none
  mode : s.mode = .ready
  point : s.pointOk = true
  pins : s.inRecovery = false → s.EngineOwnsPins

/-- The walk of a link has ended with this result: FATAL exactly with ConfigurationFault (42_recovery R173). -/
structure State.WalkOver (s : State) (st : Status) : Prop where
  result : s.linkResult = some st
  inFrame : s.inFrame = false
  tmoArmed : s.tmoArmed = false
  point : s.point = .operation 0
  mode : (st ≠ .configurationFault ∧ s.mode = .ready ∧ s.EngineOwnsPins) ∨ (st = .configurationFault ∧ s.mode = .fatal)

/-- What the invariant says of the fields that the walk of a link writes. -/
structure State.Underway (s : State) : Prop where
  reads : s.ReadsOk
  toggles : s.toggleCnt.toNat ≤ 32
  phase : s.phase ≠ .none
  walk : s.OnWalk ∨ ∃ st, s.WalkOver st

theorem LinkFrame.requester {s t : State} (h : LinkFrame s t) : t.requester = s.requester := by
  rw [State.requester, State.requester, h.lock, h.cur]

/-- What the walk of a link leaves alone keeps its part of the invariant. -/
theorem State.Inv.walk {s t : State} (h : s.Inv) (hl : s.lock ≠ .free) (hr : s.linkResult = none) (hf : LinkFrame s t)
    (ht : t.Underway) : t.Inv := by
  obtain ⟨⟨hcb, hsb, -, hports, hws, hmem⟩, ⟨-, hservice, hholder⟩, ⟨hcbLen, hsbLen, -, hscan, -⟩, -, -, -, hspeed,
    hwork⟩ := h
  obtain ⟨hup, hwaits, hport⟩ := hholder hl
  obtain ⟨hnone, -, -, hserves⟩ := hwork hl
  obtain ⟨-, hbuild, -⟩ := hnone hr
  obtain ⟨⟨hrd, hrdLen⟩, htoggles, hphase, hwalk⟩ := ht
  have htup : t.mode ≠ .uninit := by
    rcases hwalk with hon | ⟨st, hover⟩
    · rw [hon.mode]; decide
    · rcases hover.mode with ⟨-, hm, -⟩ | ⟨-, hm⟩
      · rw [hm]; decide
      · rw [hm]; decide
  have hcanon : t.Canonical := by
    rw [State.Canonical, hf.cb, hf.sb, hf.ports, hf.waiters]
    exact ⟨hcb, hsb, hrd, hports, hws, hmem⟩
  have hlocked : t.LockPhase := by
    rw [State.LockPhase, hf.lock, hf.service, hf.requester, hf.waiters, hf.ports]
    exact ⟨iff_of_true hphase hl, hservice, fun _ => ⟨htup, hwaits, hport⟩⟩
  have hlengths : t.Lengths := by
    rw [State.Lengths, hf.cbLen, hf.sbLen, hf.scanAddr]
    rw [hf.params] at hrdLen ⊢
    exact ⟨hcbLen, hsbLen, hrdLen, hscan, htoggles⟩
  have hready : t.EngineReady := by
    intro hm hrec
    rcases hwalk with hon | ⟨st, hover⟩
    · exact hon.pins hrec
    · rcases hover.mode with ⟨-, -, hpins⟩ | ⟨-, hfatal⟩
      · exact hpins
      · rw [hfatal] at hm; cases hm
  have hworking : t.Working := by
    refine fun _ => ⟨fun hn => ?_, fun hn => ?_, ?_, fun i hi => ?_⟩
    · rcases hwalk with hon | ⟨st, hover⟩
      · exact ⟨hon.mode, hf.buildErr.trans hbuild, hon.point⟩
      · rw [hover.result] at hn; cases hn
    · rcases hwalk with hon | ⟨st, hover⟩
      · exact absurd hon.result hn
      · exact ⟨hover.inFrame, hover.tmoArmed, hover.point⟩
    · rcases hwalk with hon | ⟨st, hover⟩
      · simp [hon.mode, hon.result]
      · rcases hover.mode with ⟨hst, hm, -⟩ | ⟨hst, hm⟩
        · simp [hm, hover.result, hst]
        · simp [hm, hover.result, hst]
    · obtain ⟨htakes, hscans, hhelps⟩ := hserves i (hf.service ▸ hi)
      rw [hf.cbLen, hf.sbLen, hf.scanAddr, hf.seqSel]
      refine ⟨htakes, fun hs => ?_, fun hs => ?_⟩
      · obtain ⟨hempty, haddr, hsel⟩ := hscans hs
        exact ⟨hempty, haddr, fun _ => hsel hr⟩
      · obtain ⟨hempty, hsel⟩ := hhelps hs
        exact ⟨hempty, fun _ => hsel hr⟩
  exact ⟨hcanon, hlocked, hlengths, fun hfree => absurd (hf.lock ▸ hfree) hl, hready, fun hm => absurd hm htup,
    fun _ => hf.cfg ▸ hspeed hup, hworking⟩

/-! ### Where the engine stands -/

theorem State.pointOk_operation {s : State} {k : Nat} (hk : s.point = .operation k) :
    s.pointOk = true ↔ (s.phase = .exec ∧ s.tmoArmed = true) ∧ s.linkOk k = true := by
  simp [State.pointOk, hk]

theorem State.pointOk_nackStop {s : State} (hk : s.point = .nackStop) :
    s.pointOk = true ↔ s.phase = .exec ∧ s.tmoArmed = true := by
  simp [State.pointOk, hk]

theorem State.pointOk_recovery {s : State} {c : RecoveryCall} (hk : s.point = .recovery c) :
    s.pointOk = true ↔ (s.phase = .recover ∧ s.tmoArmed = false ∧ s.inFrame = false) ∧ s.recoveryOk c = true := by
  simp [State.pointOk, hk]

theorem State.inRecovery_eq_false {s : State} : s.inRecovery = false ↔ ∀ c, s.point ≠ .recovery c := by
  unfold State.inRecovery
  split <;> simp [*]

/-- The sequencer walks a link, with the engine up and the watchdog armed. -/
structure State.Live (s : State) : Prop where
  result : s.linkResult = none
  mode : s.mode = .ready
  phase : s.phase = .exec
  armed : s.tmoArmed = true
  pins : s.EngineOwnsPins
  toggles : s.toggleCnt.toNat ≤ 32
  reads : s.ReadsOk

theorem State.Live.busy {s : State} (h : s.Live) : s.phase ≠ .none := by rw [h.phase]; decide

theorem State.Live.performs {s t : State} (h : s.Live) (hp : Performs s t) (hr : t.ReadsOk) : t.Live where
  result := hp.linkResult.trans h.result
  mode := hp.mode.trans h.mode
  phase := hp.phase.trans h.phase
  armed := hp.tmoArmed.trans h.armed
  pins := by rw [State.EngineOwnsPins, hp.engineUp, hp.sdaMode, hp.sclMode]; exact h.pins
  toggles := by rw [hp.toggleCnt]; exact h.toggles
  reads := hr

theorem State.Inv.readsOk {s : State} (h : s.Inv) : s.ReadsOk := by
  obtain ⟨⟨-, -, hrd, -⟩, -, ⟨-, -, hrdLen, -⟩, -⟩ := h
  exact ⟨hrd, hrdLen⟩

theorem State.Inv.toggles {s : State} (h : s.Inv) : s.toggleCnt.toNat ≤ 32 := by
  obtain ⟨-, -, ⟨-, -, -, -, htoggles⟩, -⟩ := h
  exact htoggles

/-- An operation in progress whose link has no result yet is walking it. -/
theorem State.Inv.onWalk {s : State} (h : s.Inv) (hl : s.lock ≠ .free) (hr : s.linkResult = none) : s.OnWalk := by
  obtain ⟨-, -, -, -, hready, -, -, hwork⟩ := h
  obtain ⟨hmode, -, hpoint⟩ := (hwork hl).1 hr
  exact ⟨hr, hmode, hpoint, hready hmode⟩

theorem State.Inv.live {s : State} (h : s.Inv) (hl : s.lock ≠ .free) (hr : s.linkResult = none)
    (hk : ∀ c, s.point ≠ .recovery c) : s.Live := by
  have hwalk := h.onWalk hl hr
  have hexec : s.phase = .exec ∧ s.tmoArmed = true := by
    cases hp : s.point with
    | operation k => exact ((State.pointOk_operation hp).1 hwalk.point).1
    | nackStop => exact (State.pointOk_nackStop hp).1 hwalk.point
    | recovery c => exact absurd hp (hk c)
  exact ⟨hr, hwalk.mode, hexec.1, hexec.2, hwalk.pins (State.inRecovery_eq_false.2 hk), h.toggles, h.readsOk⟩

/-! ### What can follow a symbol -/

/-- The next symbol or operation stands ahead. -/
theorem State.Live.before {s : State} (h : s.Live) {k p : Nat}
    (hok : State.linkOk { s with seqPtr := p, point := .operation k } k = true) :
    State.Underway { s with seqPtr := p, point := .operation k } where
  reads := h.reads
  toggles := h.toggles
  phase := h.busy
  walk := .inl ⟨h.result, h.mode, (State.pointOk_operation rfl).2 ⟨⟨h.phase, h.armed⟩, hok⟩, fun _ => h.pins⟩

/-- A rejected byte waits for its STOP. -/
theorem State.Live.rejected {s : State} (h : s.Live) : State.Underway { s with point := .nackStop } where
  reads := h.reads
  toggles := h.toggles
  phase := h.busy
  walk := .inl ⟨h.result, h.mode, (State.pointOk_nackStop rfl).2 ⟨h.phase, h.armed⟩, fun _ => h.pins⟩

/-- The timeout trap stands before the first call of its pass. -/
theorem State.Live.trapped {s : State} (h : s.Live) : (takeTimeoutTrap s).Underway where
  reads := h.reads
  toggles := by simp
  phase := by simp
  walk := by
    have hok : (takeTimeoutTrap s).recoveryOk .tearDown = true := decide_eq_true (p := _ ∧ _) ⟨h.pins, rfl⟩
    exact .inl ⟨h.result, h.mode, (State.pointOk_recovery rfl).2 ⟨⟨rfl, rfl, rfl⟩, hok⟩, nofun⟩

/-- The link has ended, at its STOP or at the STOP of the abort. -/
theorem State.Live.ended {s : State} (h : s.Live) (hf : s.inFrame = false) (p : Nat) {st : Status}
    (hst : st ≠ .configurationFault) : (State.endLink { s with seqPtr := p } st).Underway where
  reads := h.reads
  toggles := h.toggles
  phase := h.busy
  walk := .inr ⟨st, rfl, hf, rfl, rfl, .inl ⟨hst, h.mode, h.pins⟩⟩

/-- A recovery pass, whole (42_recovery R173, R175). -/
theorem State.Live.recovered {s : State} (h : s.Live) : (timeoutAbort s).Underway := by
  have hf := recover_passFrame (takeTimeoutTrap s)
  have hcount := recover_toggles (takeTimeoutTrap s) (by simp)
  have hreads : (recover (takeTimeoutTrap s)).2.ReadsOk := by
    rw [State.ReadsOk, hf.rdata, hf.rdLen, hf.params]
    exact h.reads
  have hphase : (recover (takeTimeoutTrap s)).2.phase ≠ .none := by rw [hf.phase]; simp
  have hmode := hf.mode.trans h.mode
  have hframe : (recover (takeTimeoutTrap s)).2.inFrame = false := hf.inFrame
  rw [timeoutAbort]
  rcases hr : recover (takeTimeoutTrap s) with ⟨_ | _, u⟩
  · have hpins : u.EngineOwnsPins := recover_pins hr
    rw [hr] at hcount hreads hphase hmode hframe
    exact ⟨hreads, hcount, hphase, .inr ⟨.timeout, rfl, hframe, rfl, rfl, .inl ⟨nofun, hmode, hpins⟩⟩⟩
  · rw [hr] at hcount hreads hphase hmode hframe
    exact ⟨hreads, hcount, hphase, .inr ⟨.configurationFault, rfl, hframe, rfl, rfl, .inr ⟨rfl, rfl⟩⟩⟩

theorem phyStop_readsOk {s : State} (h : s.ReadsOk) : (phyStop s).2.ReadsOk := by
  cases ha : s.env.nextStop with
  | done => rw [phyStop_done ha]; exact h
  | hang => rw [phyStop_hang ha]; exact h

theorem phyStop_closes {s u : State} (h : phyStop s = (.done, u)) : u.inFrame = false := by
  cases ha : s.env.nextStop with
  | done => rw [phyStop_done ha] at h; cases h; rfl
  | hang => rw [phyStop_hang ha] at h; cases h

theorem State.Live.phyStop {s : State} (h : s.Live) : (phyStop s).2.Live :=
  h.performs (phyStop_performs s) (phyStop_readsOk h.reads)

/-- The abort after a rejected byte, whole (41_command_link R147). -/
theorem State.Live.aborted {s : State} (h : s.Live) : (nackAbort s).Underway := by
  have hstop := h.phyStop
  rw [nackAbort]
  rcases hp : Machine.phyStop s with ⟨_ | _, u⟩
  · rw [hp] at hstop
    exact hstop.ended (phyStop_closes hp) u.seqPtr nofun
  · rw [hp] at hstop
    exact hstop.recovered

/-! ### A symbol, and a whole link operation -/

/-- With the link ahead walkable it stays walkable within the operation. -/
theorem State.LinkAhead.same {s t : State} {i : Instr} {rest : List Instr} {k : Nat} (h : s.LinkAhead i rest)
    (hp : Performs s t) (ht : tailOkFrom k t.inFrame t.room (i :: rest) = true) : t.linkOk k = true := by
  obtain ⟨bytes, ha, hd⟩ := h.whole
  refine State.linkOk_of (bytes := bytes) ?_ hd ht
  rw [← ha, State.linkAhead, State.linkAhead, hp.frame.buf, hp.frame.len, hp.seqPtr]

/-- And beyond it. -/
theorem State.LinkAhead.advance {s t : State} {i : Instr} {rest : List Instr} (h : s.LinkAhead i rest)
    (hp : Performs s t) (ht : tailOk t.inFrame t.room rest = true) :
    State.linkOk { t with seqPtr := t.seqPtr + linkSize i, point := .operation 0 } 0 = true := by
  obtain ⟨front, more, ha, hlen, hd⟩ := h.after
  have hadv : State.linkAhead { t with seqPtr := t.seqPtr + linkSize i, point := .operation 0 } = some more :=
    State.linkAhead_advance hp.frame.cb hp.frame.sb hp.frame.cbLen hp.frame.sbLen hp.frame.seqSel
      (by rw [hlen, ← hp.seqPtr]) ha
  exact State.linkOk_of hadv hd (by rw [tailOkFrom_zero]; exact ht)

theorem settleSymbol_underway {s t : State} {i : Instr} {k : Nat} {rest : List Instr} (hs : s.Live) (hl : i.isLink = true)
    (ha : s.LinkAhead i rest) (htail : tailOkFrom k s.inFrame s.room (i :: rest) = true)
    (h : settleSymbol i k (symbolOf i k s) = .next t) : t.Underway := by
  have hdoes := symbolOf_does hl k s
  have hp := symbolOf_performs i k s
  have hlive := hs.performs hp (hdoes.readsOk hs.reads)
  rcases hr : symbolOf i k s with ⟨p, u⟩
  rw [hr] at h hdoes hp hlive
  cases p with
  | next =>
    rw [settleSymbol_next] at h
    cases h
    obtain ⟨hmore, hlast⟩ := hdoes.tail htail
    by_cases hk : k + 1 < symbolCount i
    · simp only [hk, if_true]
      exact hlive.before (ha.same (t := u) hp (hmore hk))
    · simp only [hk, if_false]
      exact hlive.before (ha.advance hp (hlast hk))
  | done => cases h; exact hlive.ended hdoes.closes _ nofun
  | nack => cases h; exact hlive.rejected
  | hang => cases h; exact hlive.trapped
  | overrun => cases h

theorem settle_underway {s t : State} {i : Instr} {rest : List Instr} (hs : s.Live) (hl : i.isLink = true)
    (hk : s.point = .operation 0) (ha : s.LinkAhead i rest) (htail : tailOkFrom 0 s.inFrame s.room (i :: rest) = true)
    (h : settle (linkSize i) (symbolsFrom i (stepCount i) 0 s) = .next t) : t.Underway := by
  have hp := symbolsFrom_performs i (stepCount i) 0 s
  have hlive := hs.performs hp (symbolsFrom_readsOk hl (stepCount i) 0 hs.reads)
  rcases hr : symbolsFrom i (stepCount i) 0 s with ⟨p, u⟩
  rw [hr] at h hp hlive
  cases p with
  | next =>
    cases h
    obtain ⟨m, hm⟩ : ∃ m, stepCount i = m + 1 := ⟨stepCount i - 1, by rw [stepCount]; omega⟩
    have hrest := symbolsFrom_tail hl (by omega) htail (hm ▸ hr)
    have hstand : u.point = .operation 0 := hp.point.trans hk
    have hsame : ({ u with seqPtr := u.seqPtr + linkSize i } : State)
        = { u with seqPtr := u.seqPtr + linkSize i, point := .operation 0 } := by rw [← hstand]
    rw [hsame]
    exact hlive.before (ha.advance hp hrest)
  | done => cases h; exact hlive.ended (symbolsFrom_closes hl hr) _ nofun
  | nack => cases h; exact hlive.aborted
  | hang => cases h; exact hlive.recovered
  | overrun => cases h

end Sys2Proof.Machine
end

section
/-! The invariant through a recovery pass, call by call, and through every move on the walk of a link. -/

namespace Sys2Proof.Machine

/-! ### The recovery pass, call by call -/

/-- A call that answers `ok` leaves the pins and TOGGLE_CNT as the next call needs them (42_recovery R171). -/
theorem State.called_recoveryOk {s : State} {c c' : RecoveryCall} (h : s.recoveryOk c = true)
    (hn : nextRecoveryCall c (s.called c) = some c') : (s.called c).recoveryOk c' = true := by
  cases c with
  | tearDown | dataLine => cases hn; simp_all [State.recoveryOk, State.called]
  | clockLow | holdLow | clockHigh => cases hn; simp_all [State.recoveryOk, State.called]
  | clockLine =>
    cases hn
    simp_all [State.recoveryOk, State.called, toggleLoop, Config.recoveryToggles]
  | holdHigh =>
    cases hn
    simp only [State.recoveryOk, decide_eq_true_eq] at h
    obtain ⟨hpins, hlt, hlevel⟩ := h
    unfold toggleLoop
    split
    · next hmore => simpa [State.recoveryOk, hpins] using ⟨hpins, hmore⟩
    · next hdone =>
      have hcount : s.toggleCnt + 1 = 32 := by
        have hge : ¬(s.toggleCnt + 1).toNat < 32 := hdone
        bv_omega
      simpa [State.recoveryOk, hpins] using ⟨hpins, hcount, hlevel⟩
  | configure => cases hn

theorem State.called_toggles {s : State} {c : RecoveryCall} (h : s.recoveryOk c = true) (hs : s.toggleCnt.toNat ≤ 32) :
    (s.called c).toggleCnt.toNat ≤ 32 := by
  cases c with
  | holdHigh =>
    simp only [State.recoveryOk, decide_eq_true_eq] at h
    obtain ⟨-, hlt, -⟩ := h
    show (s.toggleCnt + 1).toNat ≤ 32
    bv_omega
  | tearDown | dataLine | clockLine | clockLow | holdLow | clockHigh | configure => exact hs

theorem nextRecoveryCall_eq_none {c : RecoveryCall} {s : State} (h : nextRecoveryCall c s = none) : c = .configure := by
  by_contra hc
  obtain ⟨c', hn⟩ := nextRecoveryCall_isSome hc s
  rw [hn] at h
  cases h

theorem afterRecoveryCall_underway {s : State} {c : RecoveryCall} (hr : s.ReadsOk) (ht : s.toggleCnt.toNat ≤ 32)
    (hw : s.OnWalk) (hk : s.point = .recovery c) : (afterRecoveryCall c (recoveryCall c s)).Underway := by
  obtain ⟨⟨hphase, harmed, hframe⟩, hok⟩ := (State.pointOk_recovery hk).1 hw.point
  have hbusy : s.phase ≠ .none := by rw [hphase]; decide
  have hf := recoveryCall_passFrame c s
  have hreads : (recoveryCall c s).2.ReadsOk := by
    rw [State.ReadsOk, hf.rdata, hf.rdLen, hf.params]
    exact hr
  have hphase' : (recoveryCall c s).2.phase ≠ .none := by rw [hf.phase]; exact hbusy
  rcases recoveryCall_cases c s with ⟨e, hc⟩ | ⟨call, -, hc⟩
  · rw [hc] at hf hreads hphase' ⊢
    rw [afterRecoveryCall]
    split
    · next c' hn =>
      have htoggles := State.called_toggles (s := { s with env := e, wire := s.wire ++ [recoveryEvent s.cfg c] }) hok ht
      have hok' := State.called_recoveryOk (s := { s with env := e, wire := s.wire ++ [recoveryEvent s.cfg c] }) hok hn
      exact ⟨hreads, htoggles, hphase', .inl ⟨hf.linkResult.trans hw.result, hf.mode.trans hw.mode,
        (State.pointOk_recovery rfl).2
          ⟨⟨hf.phase.trans hphase, hf.tmoArmed.trans harmed, hf.inFrame.trans hframe⟩, hok'⟩, nofun⟩⟩
    · next hn =>
      obtain rfl := nextRecoveryCall_eq_none hn
      exact ⟨hr, ht, hbusy, .inr ⟨.timeout, rfl, hframe, rfl, rfl, .inl ⟨nofun, hw.mode, rfl, rfl, rfl⟩⟩⟩
  · rw [hc]
    exact ⟨hr, ht, hbusy, .inr ⟨.configurationFault, rfl, hframe, rfl, rfl, .inr ⟨rfl, rfl⟩⟩⟩

/-! ### The moves of a walk -/

theorem recoveryStep_inv {s t : State} {c : RecoveryCall} (h : s.Inv) (hl : s.lock ≠ .free) (hr : s.linkResult = none)
    (hk : s.point = .recovery c) (ht : recoveryStep c s = .next t) : t.Inv := by
  refine h.walk hl hr (recoveryStep_frame ht) ?_
  unfold recoveryStep at ht
  split at ht
  · cases ht; exact afterRecoveryCall_underway h.readsOk h.toggles (h.onWalk hl hr) hk
  · cases ht

theorem nackStopStep_inv {s t : State} (h : s.Inv) (hl : s.lock ≠ .free) (hr : s.linkResult = none)
    (hk : s.point = .nackStop) (ht : nackStopStep s = .next t) : t.Inv := by
  refine h.walk hl hr (nackStopStep_frame ht) ?_
  have hlive := (h.live hl hr (by rw [hk]; nofun)).phyStop
  obtain ⟨-, ht⟩ := inWalk_eq_next.1 ht
  rcases hp : phyStop s with ⟨_ | _, u⟩
  · rw [hp] at ht hlive
    cases ht
    exact hlive.ended (phyStop_closes hp) u.seqPtr nofun
  · rw [hp] at ht hlive
    cases ht
    exact hlive.trapped

/-- Between two operations, or two symbols of one, the link ahead can be walked. -/
theorem State.Inv.ahead {s : State} {k : Nat} (h : s.Inv) (hl : s.lock ≠ .free) (hr : s.linkResult = none)
    (hk : s.point = .operation k) :
    ∃ i rest, s.LinkAhead i rest ∧ tailOkFrom k s.inFrame s.room (i :: rest) = true :=
  State.linkOk_ahead ((State.pointOk_operation hk).1 (h.onWalk hl hr).point).2

theorem symbolStep_inv {s t : State} {i : Instr} {k : Nat} (h : s.Inv) (hl : s.lock ≠ .free) (hr : s.linkResult = none)
    (hk : s.point = .operation k) (hi : fetchLinkOp s = .next i) (ht : symbolStep i k s = .next t) : t.Inv := by
  refine h.walk hl hr (symbolStep_frame ht) ?_
  obtain ⟨j, rest, ha, htail⟩ := h.ahead hl hr hk
  obtain rfl : j = i := by simpa [ha.fetch] using hi
  obtain ⟨hlink, -, -, ht⟩ := symbolStep_eq_next.1 ht
  exact settleSymbol_underway (h.live hl hr (by rw [hk]; nofun)) hlink ha htail ht

theorem exec_link_inv {s t : State} {i : Instr} (h : s.Inv) (hl : s.lock ≠ .free) (hr : s.linkResult = none)
    (hk : s.point = .operation 0) (hi : fetchLinkOp s = .next i) (ht : exec i s = .next t) : t.Inv := by
  have hlink := fetchLinkOp_isLink hi
  obtain ⟨-, -, ht⟩ := (exec_link_eq_next hlink).1 ht
  refine h.walk hl hr (settle_frame (symbolsFrom_performs ..).frame ht) ?_
  obtain ⟨j, rest, ha, htail⟩ := h.ahead hl hr hk
  obtain rfl : j = i := by simpa [ha.fetch] using hi
  exact settle_underway (h.live hl hr (by rw [hk]; nofun)) hlink hk ha htail ht

end Sys2Proof.Machine
end

section
/-! The invariant where an operation begins, goes on from one link to the next, and completes (43_transactions R195, 44_scanner
R210 to R213). -/

namespace Sys2Proof.Machine

/-! ### Between two links -/

/-- No link is in the buffers and none is being walked: so when the lock has just been granted, and after tear-down. -/
structure State.Rests (s : State) : Prop where
  canonical : s.Canonical
  lengths : s.Lengths
  mode : s.mode ≠ .uninit
  pins : s.mode = .ready → s.EngineOwnsPins
  speed : s.cfg.speedHz ≠ 0
  cbLen : s.cbLen = 0
  sbLen : s.sbLen = 0
  buildErr : s.buildErr = false
  inFrame : s.inFrame = false
  tmoArmed : s.tmoArmed = false
  point : s.point = .operation 0
  waits : s.requester ∉ s.waiters

/-- The lock's holder is in the host operation `i`, and its request is outstanding. -/
structure State.InService (s : State) (i : Instr) : Prop where
  lock : s.lock ≠ .free
  service : s.service = some i
  locked : i.isLocked = true
  port : (Assoc.get s.ports s.requester).isSome

/-- An operation that completes leaves the engine idle (43_transactions R195). -/
theorem completeLocked_inv {s : State} (h : s.Rests) (i : Instr) (st : Status) : (completeLocked i st s).Inv := by
  obtain ⟨⟨hcb, hsb, hrd, hports, hws, hmem⟩, hlen, hmode, hpins, hspeed, hcbLen, hsbLen, hbuild, hframe, harmed, hpoint,
    hwaits⟩ := h
  refine ⟨⟨hcb, hsb, hrd, Assoc.wf_del hports _, hws, fun r hr => ?_⟩,
    ⟨iff_of_false (fun h => h rfl) (fun h => h rfl), iff_of_false nofun (fun h => h rfl), fun h => absurd rfl h⟩, hlen,
    fun _ => ⟨hcbLen, hsbLen, hbuild, hframe, harmed, rfl, hpoint⟩, fun hm _ => hpins hm, fun hm => absurd hm hmode,
    fun _ => hspeed, fun h => absurd rfl h⟩
  have hne : r ≠ s.requester := fun he => hwaits (he ▸ hr)
  exact (congrArg Option.isSome (Assoc.get_del_other s.ports hne)).trans (hmem r hr)

/-! ### The builder -/

/-- A builder step keeps its buffer canonical and within its capacity, and does not move the engine. -/
structure BuildSafe (sel : Sel) (s t : State) : Prop where
  wf : (s.buf sel).wf → (t.buf sel).wf
  len : s.len sel ≤ s.cap sel → t.len sel ≤ t.cap sel
  point : t.point = s.point

theorem BuildSafe.refl (sel : Sel) (s : State) : BuildSafe sel s s := ⟨id, id, rfl⟩

theorem BuildSafe.trans {sel : Sel} {s t u : State} (h : BuildSafe sel s t) (k : BuildSafe sel t u) : BuildSafe sel s u :=
  ⟨k.wf ∘ h.wf, k.len ∘ h.len, k.point.trans h.point⟩

theorem linkBegin_safe (sel : Sel) (s : State) : BuildSafe sel s (linkBegin sel s) := by
  refine ⟨fun h => ?_, fun _ => ?_, linkBegin_point sel s⟩
  · cases sel <;> exact h
  · rw [linkBegin_len]; exact Nat.zero_le _

theorem append_safe (sel : Sel) (bytes : List Byte) (s : State) : BuildSafe sel s (append sel bytes s) := by
  unfold append
  split
  · exact .refl sel s
  · split
    · cases sel <;> exact ⟨id, id, rfl⟩
    · next hfits =>
      have hroom : s.len sel + bytes.length ≤ s.cap sel := by simpa [overflows] using hfits
      refine ⟨fun h => ?_, fun _ => ?_, by cases sel <;> rfl⟩
      · rw [State.buf_setLen, State.buf_setBuf]; exact Memory.wf_writeRange h _ _
      · rw [State.len_setLen, State.cap_setLen, State.cap_setBuf]; exact hroom

theorem appendRbuf_safe (sel : Sel) (n : Byte) (ln : Bool) (s : State) : BuildSafe sel s (appendRbuf sel n ln s) := by
  unfold appendRbuf
  split
  · exact .refl sel s
  · split
    · cases sel <;> exact ⟨id, id, rfl⟩
    · exact append_safe ..

theorem appendPayload_safe (sel : Sel) (data : List Byte) (s : State) : BuildSafe sel s (appendPayload sel data s) := by
  unfold appendPayload
  split
  · exact .refl sel s
  · exact append_safe ..

theorem appendReadPhase_safe (sel : Sel) (a : Addr7) (rlen : Byte) (s : State) :
    BuildSafe sel s (appendReadPhase sel a rlen s) := by
  unfold appendReadPhase
  split
  · exact .refl sel s
  · exact ((append_safe ..).trans (append_safe ..)).trans (appendRbuf_safe ..)

theorem buildTransaction_safe (a : Addr7) (data : List Byte) (rlen : Byte) (s : State) :
    BuildSafe .selCb s (buildTransaction a data rlen s) := by
  have h0 : BuildSafe .selCb s { s with rdLen := 0 } := ⟨id, id, rfl⟩
  exact (((((h0.trans (linkBegin_safe ..)).trans (append_safe ..)).trans (append_safe ..)).trans
    (appendPayload_safe ..)).trans (appendReadPhase_safe ..)).trans (append_safe ..)

theorem buildProbe_safe (a : Addr7) (s : State) : BuildSafe .selSb s (buildProbe a s) :=
  (((linkBegin_safe ..).trans (append_safe ..)).trans (append_safe ..)).trans (append_safe ..)

/-! ### The link that is submitted -/

theorem transactionOps_wellFormed (a : Addr7) {data : List Byte} (hd : data.length ≤ 255) (rlen : Byte) :
    ∀ i ∈ transactionOps a data rlen, i.isLink = true ∧ i.WellFormed := by
  intro i hi
  simp only [transactionOps, List.mem_append, List.mem_cons, List.not_mem_nil, or_false] at hi
  rcases hi with (((rfl | rfl) | hi) | hi) | rfl
  · exact ⟨rfl, rfl⟩
  · exact ⟨rfl, rfl⟩
  · split at hi
    · cases hi
    · obtain rfl := List.mem_singleton.1 hi
      exact ⟨rfl, decide_eq_true hd⟩
  · split at hi
    · cases hi
    · simp only [List.mem_cons, List.not_mem_nil, or_false] at hi
      rcases hi with rfl | rfl | rfl <;> exact ⟨rfl, rfl⟩
  · exact ⟨rfl, rfl⟩

theorem transactionOps_tail (a : Addr7) (data : List Byte) {rlen : Byte} {room : Nat} (h : rlen.toNat ≤ room) :
    tailOk false room (transactionOps a data rlen) = true := by
  unfold transactionOps
  split
  · split
    · rfl
    · simp [tailOk, h]
  · split
    · simp [tailOk]
    · simp [tailOk, h]

theorem probeOps_wellFormed (a : Addr7) : ∀ i ∈ probeOps a, i.isLink = true ∧ i.WellFormed := by
  intro i hi
  simp only [probeOps, List.mem_cons, List.not_mem_nil, or_false] at hi
  rcases hi with rfl | rfl | rfl <;> exact ⟨rfl, rfl⟩

theorem probeOps_tail (a : Addr7) (room : Nat) : tailOk false room (probeOps a) = true := rfl

/-- A construction that came to its end without a failure: the bytes stand in the buffer. -/
theorem Construction.succeeded {sel : Sel} {cap : Nat} {reads : Prop} {bytes : List Byte} {s : State}
    (h : Construction sel cap reads bytes s) (he : s.buildErr = false) : Built sel bytes s ∧ reads := by
  by_cases hfits : bytes.length ≤ cap ∧ reads
  · exact ⟨h.built hfits.1 hfits.2, hfits.2⟩
  · rw [h.failed hfits] at he; cases he

end Sys2Proof.Machine
end

section
/-! The invariant where a link is submitted, and where an operation begins, goes on from one link to the next, and completes
(41_command_link R140; 43_transactions R190, R195; 44_scanner R210 to R213). -/

namespace Sys2Proof.Machine

/-! ### A link built and submitted -/

/-- The buffer the link of a host operation is built in (43_transactions R190, 44_scanner R211). -/
def linkBuffer (i : Instr) : Sel := if i.isScan then .selSb else .selCb

theorem linkBuffer_scan {i : Instr} (h : i.isScan = true) : linkBuffer i = .selSb := if_pos h
theorem linkBuffer_helper {i : Instr} (h : i.isScan = false) : linkBuffer i = .selCb := if_neg (by rw [h]; decide)

/-- What the construction of a link of these operations has done: it fails, or the link stands in the buffer and its reads fit
RDATA. -/
structure Constructed (sel : Sel) (ops : List Instr) (s t : State) : Prop where
  frame : BuildFrame s t
  safe : BuildSafe sel s t
  otherBuf : t.buf sel.other = s.buf sel.other
  otherLen : t.len sel.other = s.len sel.other
  phase : t.phase = .build
  rdLen : t.rdLen ≤ s.rdLen
  links : ∀ i ∈ ops, i.isLink = true ∧ i.WellFormed
  built : t.buildErr = false → Built sel (linkBytesOf ops) t ∧ tailOk false t.room ops = true

theorem buildTransaction_constructed (a : Addr7) {data : List Byte} (hd : data.length ≤ 255) (rlen : Byte) (s : State) :
    Constructed .selCb (transactionOps a data rlen) s (buildTransaction a data rlen s) := by
  have hin := buildTransaction_in a data rlen s
  have hframe := buildTransaction_frame a data rlen s
  have hrd : (buildTransaction a data rlen s).rdLen = 0 := hin.rdLen
  refine ⟨hframe, buildTransaction_safe a data rlen s, hin.buf, hin.len, hin.phase, hrd ▸ Nat.zero_le _,
    transactionOps_wellFormed a hd rlen, fun he => ?_⟩
  obtain ⟨hbuilt, hreads⟩ := (buildTransaction_construction a data rlen s).succeeded he
  refine ⟨hbuilt, transactionOps_tail a data ?_⟩
  rw [State.room, hrd, hframe.params]
  exact hreads

theorem buildProbe_constructed (a : Addr7) (s : State) : Constructed .selSb (probeOps a) s (buildProbe a s) := by
  have hin := buildProbe_in a s
  have hrd : (buildProbe a s).rdLen = s.rdLen := hin.rdLen
  exact ⟨buildProbe_frame a s, buildProbe_safe a s, hin.buf, hin.len, hin.phase, hrd.le, probeOps_wellFormed a,
    fun he => ⟨((buildProbe_construction a s).succeeded he).1, probeOps_tail a _⟩⟩

/-- What the invariant says of an operation in progress, besides where the walk of its link stands. -/
structure State.Held (s : State) (i : Instr) : Prop where
  canonical : s.Canonical
  lengths : s.Lengths
  mode : s.mode = .ready
  pins : s.EngineOwnsPins
  speed : s.cfg.speedHz ≠ 0
  waits : s.requester ∉ s.waiters
  inService : s.InService i
  scan : i.isScan = true → s.cbLen = 0 ∧ s.scanAddr.toNat < 128
  helper : i.isScan = false → s.sbLen = 0

/-- An operation that has not submitted its link, or submitted one that can be walked. -/
theorem State.Held.inv {s : State} {i : Instr} (h : s.Held i) (hp : s.phase ≠ .none)
    (hnone : s.linkResult = none → s.buildErr = false ∧ s.pointOk = true ∧ s.seqSel = linkBuffer i)
    (hsome : s.linkResult ≠ none → s.inFrame = false ∧ s.tmoArmed = false ∧ s.point = .operation 0)
    (hok : s.linkResult ≠ some .configurationFault) : s.Inv := by
  obtain ⟨hcanon, hlen, hmode, hpins, hspeed, hwaits, ⟨hlock, hservice, hlocked, hport⟩, hscan, hhelper⟩ := h
  have hup : s.mode ≠ .uninit := by rw [hmode]; decide
  refine ⟨hcanon, ⟨iff_of_true hp hlock, iff_of_true (by rw [hservice]; rfl) hlock, fun _ => ⟨hup, hwaits, hport⟩⟩, hlen,
    fun hfree => absurd hfree hlock, fun _ _ => hpins, fun hm => absurd hm hup, fun _ => hspeed,
    fun _ => ⟨fun hn => ?_, hsome, iff_of_false (by rw [hmode]; decide) hok, ?_⟩⟩
  · obtain ⟨hbuild, hpoint, -⟩ := hnone hn
    exact ⟨hmode, hbuild, hpoint⟩
  · intro j hj
    obtain rfl : i = j := by simpa [hservice] using hj
    refine ⟨hlocked, fun hs => ⟨(hscan hs).1, (hscan hs).2, fun hn => ?_⟩, fun hs => ⟨hhelper hs, fun hn => ?_⟩⟩
    · obtain ⟨-, -, hsel⟩ := hnone hn
      rw [hsel, linkBuffer_scan hs]
    · obtain ⟨-, -, hsel⟩ := hnone hn
      rw [hsel, linkBuffer_helper hs]

theorem BuildFrame.requester {s t : State} (h : BuildFrame s t) : t.requester = s.requester := by
  rw [State.requester, State.requester, h.lock, h.cur]

/-- No builder step touches the operation in service. -/
theorem State.InService.of_frame {s t : State} {i : Instr} (h : s.InService i) (hf : BuildFrame s t) : t.InService i where
  lock := by rw [hf.lock]; exact h.lock
  service := hf.service.trans h.service
  locked := h.locked
  port := by rw [hf.requester, hf.ports]; exact h.port

/-- The two buffers and lengths after a construction: one is built in, the other stays empty. -/
theorem Constructed.buffers {i : Instr} {ops : List Instr} {s t : State} (h : Constructed (linkBuffer i) ops s t)
    (hs : s.Rests) :
    (Memory.wf t.cb ∧ t.cbLen ≤ t.params.cmdCapacity) ∧ (Memory.wf t.sb ∧ t.sbLen ≤ t.params.scanCapacity) ∧
      (i.isScan = true → t.cbLen = 0) ∧ (i.isScan = false → t.sbLen = 0) := by
  obtain ⟨-, ⟨hwf, hlen, -⟩, hbuf, hother, -⟩ := h
  obtain ⟨hcb, hsb, -⟩ := hs.canonical
  obtain ⟨hcbLen, hsbLen, -⟩ := hs.lengths
  cases hk : i.isScan with
  | true =>
    simp only [linkBuffer, hk, if_true] at hwf hlen hbuf hother
    have hcb' : t.cb = s.cb := hbuf
    have hempty : t.cbLen = 0 := Eq.trans hother hs.cbLen
    exact ⟨⟨hcb' ▸ hcb, by rw [hempty]; exact Nat.zero_le _⟩, ⟨hwf hsb, hlen hsbLen⟩, fun _ => hempty, nofun⟩
  | false =>
    simp only [linkBuffer, hk, Bool.false_eq_true, if_false] at hwf hlen hbuf hother
    have hsb' : t.sb = s.sb := hbuf
    have hempty : t.sbLen = 0 := Eq.trans hother hs.sbLen
    exact ⟨⟨hwf hcb, hlen hcbLen⟩, ⟨hsb' ▸ hsb, by rw [hempty]; exact Nat.zero_le _⟩, nofun, fun _ => hempty⟩

theorem Constructed.held {i : Instr} {ops : List Instr} {s t : State} (h : Constructed (linkBuffer i) ops s t)
    (hs : s.Rests) (hi : s.InService i) (hm : s.mode = .ready) (ha : i.isScan = true → s.scanAddr.toNat < 128) :
    t.Held i := by
  obtain ⟨⟨hcb, hcbLen⟩, ⟨hsb, hsbLen⟩, hscans, hhelps⟩ := h.buffers hs
  obtain ⟨-, -, hrdata, hports, hws, hmem⟩ := hs.canonical
  obtain ⟨-, -, hrdLen, haddr, htoggles⟩ := hs.lengths
  have hf := h.frame
  exact {
    canonical := by
      rw [State.Canonical, hf.rdata, hf.ports, hf.waiters]
      exact ⟨hcb, hsb, hrdata, hports, hws, hmem⟩
    lengths := by
      rw [State.Lengths, hf.scanAddr, hf.toggleCnt]
      exact ⟨hcbLen, hsbLen, h.rdLen.trans (hf.params ▸ hrdLen), haddr, htoggles⟩
    mode := hf.mode.trans hm
    pins := by
      rw [State.EngineOwnsPins, hf.engineUp, hf.sdaMode, hf.sclMode]
      exact hs.pins hm
    speed := by rw [hf.cfg]; exact hs.speed
    waits := by rw [hf.requester, hf.waiters]; exact hs.waits
    inService := hi.of_frame hf
    scan := fun hk => ⟨hscans hk, by rw [hf.scanAddr]; exact ha hk⟩
    helper := hhelps }

theorem submit_linkOk {sel : Sel} {ops : List Instr} {s t : State} (h : Constructed sel ops s t)
    (he : t.buildErr = false) (ms : BitVec 16) : (submit sel ms t).linkOk 0 = true := by
  obtain ⟨hbuilt, htail⟩ := h.built he
  refine State.linkOk_of (submit_linkAhead hbuilt ms) (decodeLinkOps_linkBytesOf h.links) ?_
  rw [tailOkFrom_zero]
  exact htail

/-- A link constructed is submitted, or its construction has failed (41_command_link R138, R140). -/
theorem submitBuilt_inv {i : Instr} {ops : List Instr} {s t : State} (h : Constructed (linkBuffer i) ops s t)
    (hs : s.Rests) (hi : s.InService i) (hm : s.mode = .ready) (ha : i.isScan = true → s.scanAddr.toNat < 128) :
    (submitBuilt (linkBuffer i) t).Inv := by
  obtain ⟨hcanon, hlen, hmode, hpins, hspeed, hwaits, ⟨hlock, hservice, hlocked, hport⟩, hscan, hhelper⟩ :=
    h.held hs hi hm ha
  unfold submitBuilt
  split
  · refine State.Held.inv (i := i) ⟨hcanon, hlen, hmode, hpins, hspeed, hwaits, ⟨hlock, hservice, hlocked, hport⟩, hscan,
      hhelper⟩ ?_ nofun (fun _ => ?_) nofun
    · rw [show State.phase _ = .build from h.phase]; decide
    · exact ⟨h.frame.inFrame.trans hs.inFrame, h.frame.tmoArmed.trans hs.tmoArmed, h.safe.point.trans hs.point⟩
  · next he =>
    have hbuild : t.buildErr = false := by simpa using he
    refine State.Held.inv (i := i) ⟨hcanon, hlen, hmode, hpins, hspeed, hwaits, ⟨hlock, hservice, hlocked, hport⟩, hscan,
      hhelper⟩ (by simp) (fun _ => ⟨hbuild, ?_, rfl⟩) (fun hn => absurd rfl hn) nofun
    exact (State.pointOk_operation rfl).2 ⟨⟨rfl, rfl⟩, submit_linkOk h hbuild _⟩

/-! ### An operation begins -/

theorem beginTransaction_inv {i : Instr} {s : State} (hs : s.Rests) (hi : s.InService i) (hm : s.mode = .ready)
    (hk : i.isScan = false) (a : Addr7) {data : List Byte} (hd : data.length ≤ 255) (rlen : Byte) :
    (beginTransaction a data rlen s).Inv := by
  have hsel := linkBuffer_helper hk
  have hc := buildTransaction_constructed a hd rlen s
  rw [← hsel] at hc
  have h := submitBuilt_inv hc hs hi hm (by rw [hk]; nofun)
  rw [hsel] at h
  exact h

theorem beginProbe_inv {i : Instr} {s : State} (hs : s.Rests) (hi : s.InService i) (hm : s.mode = .ready)
    (hk : i.isScan = true) (ha : s.scanAddr.toNat < 128) : (beginProbe s).Inv := by
  have hsel := linkBuffer_scan hk
  have hc := buildProbe_constructed (scanAddress s.scanAddr) s
  rw [← hsel] at hc
  have h := submitBuilt_inv hc hs hi hm fun _ => ha
  rw [hsel] at h
  exact h

/-- The scanner's own state is free to change between two links. -/
theorem State.Rests.scanner {s : State} (h : s.Rests) (set : AddrSet) {c : BitVec 8} (hc : c.toNat ≤ 128) :
    State.Rests { s with aset := set, scanAddr := c } := by
  obtain ⟨hcbLen, hsbLen, hrdLen, -, htoggles⟩ := h.lengths
  exact { h with lengths := ⟨hcbLen, hsbLen, hrdLen, hc, htoggles⟩ }

theorem State.InService.scanner {s : State} {i : Instr} (h : s.InService i) (set : AddrSet) (c : BitVec 8) :
    State.InService { s with aset := set, scanAddr := c } i := ⟨h.lock, h.service, h.locked, h.port⟩

theorem beginBody_inv {i : Instr} {s : State} (hs : s.Rests) (hi : s.InService i) (hm : s.mode = .ready)
    (hw : i.WellFormed) : (beginBody i s).Inv := by
  cases i with
  | writeThenRead a data rlen =>
    have hd : data.length ≤ 255 := by simpa only [Instr.WellFormed, Instr.wellFormed, fitsLength, decide_eq_true_eq] using hw
    exact beginTransaction_inv hs hi hm rfl a hd rlen
  | readByte a reg => exact beginTransaction_inv hs hi hm rfl a (by simp) 1
  | writeByte a reg value => exact beginTransaction_inv hs hi hm rfl a (by simp) 0
  | scan | detectAndLog =>
    exact beginProbe_inv (hs.scanner 0 (c := 0) (by decide)) (hi.scanner 0 0) hm rfl (Nat.zero_lt_succ 127)
  | start | writeAddressedByte | writeBuffer | readBuffer | stop | init => cases hi.locked

/-- With the lock free the engine rests, for whomever it is granted to. -/
theorem State.Inv.granted {s : State} {i : Instr} (h : s.Inv) (hm : s.mode ≠ .uninit) (hl : s.lock = .free)
    (hp : (Assoc.get s.ports s.cur).isSome) (hi : i.isLocked = true) :
    State.Rests { s.acquire with service := some i } ∧ State.InService { s.acquire with service := some i } i := by
  obtain ⟨⟨hcb, hsb, hrd, hports, hws, hmem⟩, -, hlen, hidle, hready, -, hspeed, -⟩ := h
  obtain ⟨hcbLen, hsbLen, hbuild, hframe, harmed, -, hpoint⟩ := hidle hl
  have hrec : s.inRecovery = false := by rw [State.inRecovery_eq_false, hpoint]; nofun
  refine ⟨⟨⟨hcb, hsb, hrd, hports, Waiters.wf_erase hws _, fun r hr => hmem r (Waiters.mem_erase.1 hr).2⟩, hlen, hm,
    fun hm' => hready hm' hrec, hspeed hm, hcbLen, hsbLen, hbuild, hframe, harmed, hpoint, fun hr => ?_⟩,
    ⟨nofun, rfl, hi, hp⟩⟩
  exact (Waiters.mem_erase.1 hr).1 rfl

theorem beginLocked_inv {i : Instr} {s : State} (h : s.Inv) (hm : s.mode ≠ .uninit) (hl : s.lock = .free)
    (hp : (Assoc.get s.ports s.cur).isSome) (hi : i.isLocked = true) (hw : i.WellFormed) : (beginLocked i s).Inv := by
  obtain ⟨hrests, hserves⟩ := h.granted hm hl hp hi
  unfold beginLocked
  dsimp only
  split
  · exact completeLocked_inv hrests i _
  · next hfatal =>
    refine beginBody_inv hrests hserves ?_ hw
    cases hmode : s.mode with
    | uninit => exact absurd hmode hm
    | ready => exact hmode
    | fatal => exact absurd hmode hfatal

/-! ### A link ends -/

/-- Tear-down clears the buffer of the link that has ended; the other is empty throughout. -/
theorem linkEnd_buffers {s : State} {i : Instr} (h : s.Inv) (hl : s.lock ≠ .free) (hi : s.service = some i) :
    Memory.wf (linkEnd (linkBuffer i) s).cb ∧ Memory.wf (linkEnd (linkBuffer i) s).sb ∧
      (linkEnd (linkBuffer i) s).cbLen = 0 ∧ (linkEnd (linkBuffer i) s).sbLen = 0 := by
  obtain ⟨⟨hcb, hsb, -⟩, -, -, -, -, -, -, hwork⟩ := h
  obtain ⟨-, -, -, hserves⟩ := hwork hl
  obtain ⟨-, hscans, hhelps⟩ := hserves i hi
  cases hk : i.isScan with
  | true =>
    obtain ⟨hempty, -⟩ := hscans hk
    rw [linkBuffer_scan hk]
    exact ⟨hcb, .nil, hempty, rfl⟩
  | false =>
    obtain ⟨hempty, -⟩ := hhelps hk
    rw [linkBuffer_helper hk]
    exact ⟨.nil, hsb, rfl, hempty⟩

theorem State.Inv.tornDown {s : State} {st : Status} {i : Instr} (h : s.Inv) (hr : s.linkResult = some st)
    (hi : s.service = some i) :
    (linkEnd (linkBuffer i) s).Rests ∧ (linkEnd (linkBuffer i) s).InService i ∧
      (s.mode = .fatal ↔ st = .configurationFault) ∧ (i.isScan = true → s.scanAddr.toNat < 128) := by
  have hlock : s.lock ≠ .free := by
    obtain ⟨-, ⟨-, hservice, -⟩, -⟩ := h
    exact hservice.1 (by rw [hi]; rfl)
  obtain ⟨hcb, hsb, hcbLen, hsbLen⟩ := linkEnd_buffers h hlock hi
  have hf := linkEnd_frame (linkBuffer i) s
  obtain ⟨⟨-, -, hrd, hports, hws, hmem⟩, ⟨-, -, hholder⟩, ⟨-, -, hrdLen, haddr, htoggles⟩, -, hready, -, hspeed,
    hwork⟩ := h
  obtain ⟨hup, hwaits, hport⟩ := hholder hlock
  obtain ⟨-, hsome, hfatal, hserves⟩ := hwork hlock
  obtain ⟨hframe, harmed, hpoint⟩ := hsome (by rw [hr]; nofun)
  obtain ⟨hlocked, hscans, -⟩ := hserves i hi
  have hrec : s.inRecovery = false := by rw [State.inRecovery_eq_false, hpoint]; nofun
  have hserves' : s.InService i := ⟨hlock, hi, hlocked, hport⟩
  refine ⟨?_, hserves'.of_frame hf, by rw [hfatal, hr]; simp, fun hk => ?_⟩
  · exact {
      canonical := by
        rw [State.Canonical, hf.rdata, hf.ports, hf.waiters]
        exact ⟨hcb, hsb, hrd, hports, hws, hmem⟩
      lengths := by
        rw [State.Lengths, hcbLen, hsbLen, linkEnd_rdLen, hf.params, hf.scanAddr, hf.toggleCnt]
        exact ⟨Nat.zero_le _, Nat.zero_le _, hrdLen, haddr, htoggles⟩
      mode := by rw [hf.mode]; exact hup
      pins := by
        rw [State.EngineOwnsPins, hf.mode, hf.engineUp, hf.sdaMode, hf.sclMode]
        exact fun hm => hready hm hrec
      speed := by rw [hf.cfg]; exact hspeed hup
      cbLen := hcbLen
      sbLen := hsbLen
      buildErr := linkEnd_buildErr ..
      inFrame := hf.inFrame.trans hframe
      tmoArmed := hf.tmoArmed.trans harmed
      point := (linkEnd_point ..).trans hpoint
      waits := by rw [hf.requester, hf.waiters]; exact hwaits }
  · obtain ⟨-, hlt, -⟩ := hscans hk
    exact hlt

/-- The next probe, or the end of the scan after address 127 (44_scanner R210). -/
theorem nextProbe_inv {i : Instr} {s : State} (hs : s.Rests) (hi : s.InService i) (hm : s.mode = .ready)
    (hk : i.isScan = true) (ha : s.scanAddr.toNat < 128) : (nextProbe i s).Inv := by
  have hstep : (s.scanAddr + 1).toNat ≤ 128 := by bv_omega
  have hrests := hs.scanner s.aset hstep
  unfold nextProbe
  dsimp only
  split
  · next hmore => exact beginProbe_inv hrests (hi.scanner s.aset _) hm hk hmore
  · exact completeLocked_inv hrests i .ok

theorem recordProbe_eq (st : Status) (s : State) : ∃ set, recordProbe st s = { s with aset := set } := by
  unfold recordProbe
  split
  · exact ⟨_, rfl⟩
  · exact ⟨s.aset, rfl⟩

theorem endProbe_inv {i : Instr} {st : Status} {s : State} (hs : (linkEnd .selSb s).Rests)
    (hi : (linkEnd .selSb s).InService i) (hm : st ≠ .configurationFault → s.mode = .ready) (hk : i.isScan = true)
    (ha : s.scanAddr.toNat < 128) : (endProbe i st s).Inv := by
  have hnext (hst : st ≠ .configurationFault) : (nextProbe i (recordProbe st (linkEnd .selSb s))).Inv := by
    obtain ⟨set, hset⟩ := recordProbe_eq st (linkEnd .selSb s)
    rw [hset]
    exact nextProbe_inv (hs.scanner set ha.le) (hi.scanner set _) (hm hst) hk ha
  cases st with
  | ok | nack | noMemory => exact hnext nofun
  | timeout | configurationFault => exact completeLocked_inv hs i _

theorem endOfLink_inv {st : Status} {s t : State} (h : s.Inv) (hr : s.linkResult = some st)
    (ht : endOfLink st s = .next t) : t.Inv := by
  unfold endOfLink at ht
  split at ht
  · cases ht
  · next i hi =>
    obtain ⟨hrests, hserves, hfatal, hscan⟩ := h.tornDown hr hi
    have hready (hst : st ≠ .configurationFault) : s.mode = .ready := by
      have hup := hrests.mode
      rw [linkEnd_mode] at hup
      cases hmode : s.mode with
      | uninit => exact absurd hmode hup
      | ready => rfl
      | fatal => exact absurd (hfatal.1 hmode) hst
    split at ht
    · next hk =>
      rw [linkBuffer_scan hk] at hrests hserves
      cases ht
      exact endProbe_inv hrests hserves hready hk (hscan hk)
    · next hk =>
      rw [linkBuffer_helper (by simpa using hk)] at hrests hserves
      cases ht
      exact completeLocked_inv hrests i st

end Sys2Proof.Machine
end

section
/-! Every step keeps the invariant (10_state R37). -/

namespace Sys2Proof.Machine

/-! ### Moves of an operation in progress -/

theorem State.Inv.lock_of_phase {s : State} (h : s.Inv) (hp : s.phase ≠ .none) : s.lock ≠ .free := by
  obtain ⟨-, ⟨hphase, -⟩, -⟩ := h
  exact hphase.1 hp

theorem Moved.inv {whole : Bool} {s t : State} (h : Moved whole s t) (hs : s.Inv) (hp : s.phase ≠ .none) : t.Inv := by
  have hl := hs.lock_of_phase hp
  cases h with
  | result hr h => exact endOfLink_inv hs hr h
  | nackStop hr hk h => exact nackStopStep_inv hs hl hr hk h
  | call hr hk h => exact recoveryStep_inv hs hl hr hk h
  | linkEnd hr hk hend =>
    obtain ⟨i, rest, ha, -⟩ := hs.ahead hl hr hk
    exact absurd hend ha.inside
  | symbol hr hk hi h => exact symbolStep_inv hs hl hr hk hi h
  | operation _ hr hk hi h => exact exec_link_inv hs hl hr hk hi h

theorem Moves.inv {s t : State} (h : Moves s t) (hs : s.Inv) : t.Inv := by
  induction h with
  | refl => exact hs
  | tail _ hmove ih => exact (smallStep_moved hmove.2).inv ih hmove.1

/-! ### A host operation taken up -/

/-- A requester with a request outstanding, other than the lock's holder, may join WAITERS (60_exceptions R244). -/
theorem enqueue_inv {s : State} {r : Nat} (h : s.Inv) (hm : s.mode ≠ .uninit) (hp : (Assoc.get s.ports r).isSome)
    (hr : s.lock ≠ .free → s.requester ≠ r) : (s.enqueue r).Inv := by
  obtain ⟨⟨hcb, hsb, hrd, hports, hws, hmem⟩, ⟨hphase, hservice, hholder⟩, hlen, hidle, hready, -, hspeed, hwork⟩ := h
  refine ⟨⟨hcb, hsb, hrd, hports, Waiters.wf_insert hws r, fun x hx => ?_⟩, ⟨hphase, hservice, fun hl => ?_⟩, hlen, hidle,
    hready, fun hu => absurd hu hm, hspeed, hwork⟩
  · rcases Waiters.mem_insert.1 hx with rfl | hx
    · exact hp
    · exact hmem x hx
  · obtain ⟨hup, hwaits, hport⟩ := hholder hl
    exact ⟨hup, fun hx => (Waiters.mem_insert.1 hx).elim (hr hl) hwaits, hport⟩

/-- Without a bus handle nothing is in progress and nobody waits. -/
theorem State.Inv.uninit {s : State} (h : s.Inv) (hm : s.mode = .uninit) :
    s.lock = .free ∧ s.waiters = [] ∧ ∀ e ∈ s.wire, e.isSymbol = false := by
  obtain ⟨-, ⟨-, -, hholder⟩, -, -, -, huninit, -⟩ := h
  obtain ⟨-, hwaiters, hwire⟩ := huninit hm
  refine ⟨?_, hwaiters, hwire⟩
  by_contra hl
  exact (hholder hl).1 hm

/-- A response to INIT frees a port, on which nobody waits. -/
theorem completeInit_inv {s : State} (h : s.Inv) (hl : s.lock = .free) (hw : s.waiters = []) (st : Status) :
    (completeInit st s).Inv := by
  obtain ⟨⟨hcb, hsb, hrd, hports, hws, -⟩, ⟨hphase, hservice, -⟩, hrest⟩ := h
  refine ⟨⟨hcb, hsb, hrd, Assoc.wf_del hports _, hws, fun r hr => ?_⟩, ⟨hphase, hservice, fun hx => absurd hl hx⟩, hrest⟩
  have hr' : r ∈ s.waiters := hr
  rw [hw] at hr'
  cases hr'

/-- The invariant says of the environment nothing, and of WIRE only that no symbol stands there before INIT. -/
theorem State.Inv.adds {s : State} (h : s.Inv) (env : Env) {es : List Event} (hes : ∀ e ∈ es, e.isSymbol = false) :
    State.Inv { s with env := env, wire := s.wire ++ es } := by
  obtain ⟨hcanon, hlock, hlen, hidle, hready, huninit, hspeed, hwork⟩ := h
  refine ⟨hcanon, hlock, hlen, hidle, hready, fun hm => ?_, hspeed, hwork⟩
  obtain ⟨hdown, hwaiters, hwire⟩ := huninit hm
  exact ⟨hdown, hwaiters, fun e he => (List.mem_append.1 he).elim (hwire e) (hes e)⟩

theorem initialised_inv {s : State} (h : s.Inv) (hl : s.lock = .free) (port sda scl : Byte) {speed : Word32}
    (hspeed : speed ≠ 0) : (initialised port sda scl speed s).Inv := by
  obtain ⟨⟨hcb, hsb, hrd, hports, -, -⟩, ⟨hphase, hservice, -⟩, ⟨-, -, -, hscan, htoggles⟩, hidle, -, -, -, -⟩ := h
  obtain ⟨-, -, -, -, harmed, hresult, hpoint⟩ := hidle hl
  rw [hl] at hphase hservice
  exact ⟨⟨hcb, hsb, hrd, hports, .nil, nofun⟩, ⟨hphase, hservice, fun hx => absurd rfl hx⟩,
    ⟨Nat.zero_le _, Nat.zero_le _, Nat.zero_le _, hscan, htoggles⟩,
    fun _ => ⟨rfl, rfl, rfl, rfl, harmed, hresult, hpoint⟩, fun _ _ => ⟨rfl, rfl, rfl⟩, nofun, fun _ => hspeed,
    fun hx => absurd rfl hx⟩

theorem execInit_inv {port sda scl : Byte} {speed : Word32} {s t : State} (h : s.Inv)
    (ht : execInit port sda scl speed s = .next t) : t.Inv := by
  unfold execInit at ht
  split at ht
  · cases ht
  · next hm =>
    obtain ⟨hl, hw, -⟩ := h.uninit (not_not.1 hm)
    split at ht
    · cases ht
    · split at ht
      · cases ht; exact completeInit_inv h hl hw _
      · next hspeed =>
        cases ha : s.env.nextHal with
        | ok =>
          rw [hal_ok ha] at ht
          cases ht
          refine completeInit_inv (initialised_inv (h.adds s.env.dropHal ?_) hl port sda scl hspeed) rfl rfl .ok
          exact fun e he => by obtain rfl := List.mem_singleton.1 he; rfl
        | fail =>
          rw [hal_fail ha] at ht
          cases ht
          refine completeInit_inv (h.adds s.env.dropHal ?_) hl hw _
          intro e he
          simp only [List.mem_cons, List.not_mem_nil, or_false] at he
          rcases he with rfl | rfl <;> rfl

theorem Served.inv {i : Instr} {s t : State} (h : Served i s t) (hs : s.Inv) (hi : i.WellFormed)
    (hp : (Assoc.get s.ports s.cur).isSome) (hr : s.lock ≠ .free → s.requester ≠ s.cur) : t.Inv := by
  cases h with
  | init _ h => exact execInit_inv hs h
  | waits _ hm _ => exact enqueue_inv hs hm hp hr
  | begins hlocked hm hl h => exact h.inv (beginLocked_inv hs hm hl hp hlocked hi)

/-! ### A step -/

/-- The invariant says nothing of the requester fetched last, the environment and the inputs to come. -/
theorem State.Inv.fetched {s : State} (h : s.Inv) (r : Nat) (env : Env) :
    State.Inv { s with cur := r, env := env } ∧
      (s.lock ≠ .free → State.requester { s with cur := r, env := env } = s.requester) := by
  have hreq (hl : s.lock ≠ .free) : State.requester { s with cur := r, env := env } = s.requester := by
    cases hheld : s.lock with
    | free => exact absurd hheld hl
    | held x => simp only [State.requester, hheld]
  obtain ⟨hcanon, ⟨hphase, hservice, hholder⟩, hrest⟩ := h
  refine ⟨⟨hcanon, ⟨hphase, hservice, fun hl => ?_⟩, hrest⟩, hreq⟩
  rw [hreq hl]
  exact hholder hl

theorem Assoc.get_of_mem {α : Type} {m : List (Nat × α)} {a : Nat} {v : α} (h : (a, v) ∈ m) : (Assoc.get m a).isSome := by
  induction m with
  | nil => cases h
  | cons p m ih =>
    obtain ⟨k, w⟩ := p
    simp only [Assoc.get]
    split
    · rfl
    · next hk =>
      rcases List.mem_cons.1 h with h | h
      · cases h; exact absurd rfl hk
      · exact ih h

/-- A request that stands in no line is outstanding, and not the holder's. -/
theorem unbegun_some {s : State} {r : Nat} {q : RawRequest} (h : s.unbegun = some (r, q)) :
    (Assoc.get s.ports r).isSome ∧ r ∉ s.waiters ∧ s.lock ≠ .held r := by
  have hp := List.find?_some h
  simp only [Bool.and_eq_true, Bool.not_eq_true', bne_iff_ne, List.contains_eq_mem, decide_eq_false_iff_not] at hp
  exact ⟨Assoc.get_of_mem (List.mem_of_find?_eq_some h), hp⟩

theorem EngineStep.inv {whole : Bool} {s t : State} (h : EngineStep whole s t) (hs : s.Inv) : t.Inv := by
  cases h with
  | @request r q i _ hu hi h =>
    obtain ⟨hport, -, hlock⟩ := unbegun_some hu
    obtain ⟨hinv, hreq⟩ := hs.fetched r s.env
    refine h.inv hinv hi.wellFormed hport fun hl he => hlock ?_
    rw [hreq hl] at he
    cases hheld : s.lock with
    | free => exact absurd hheld hl
    | held x => rw [State.requester, hheld] at he; exact congrArg Lock.held he
  | @grant r q i _ hl hw hq hi h =>
    obtain ⟨hinv, -⟩ := hs.fetched r s.env.dropPick
    exact h.inv hinv hi.wellFormed (by rw [show Assoc.get _ _ = some q from hq]; rfl) fun hx => absurd hl hx
  | idle => exact hs
  | move hp h => exact h.inv hs hp

theorem present_inv {r : Nat} {q : RawRequest} {s t : State} (h : s.Inv) (ht : present r q s = .next t) : t.Inv := by
  unfold present at ht
  split at ht
  · cases ht
  · split at ht
    · cases ht
    · next hbusy =>
      have hport : ∀ x, (Assoc.get s.ports x).isSome → (Assoc.get (Assoc.set s.ports r q) x).isSome := fun x hx => by
        rw [Assoc.get_set_other]
        · exact hx
        · rintro rfl; exact hbusy hx
      have hinv : State.Inv { s with ports := Assoc.set s.ports r q } := by
        obtain ⟨⟨hcb, hsb, hrd, hports, hws, hmem⟩, ⟨hphase, hservice, hholder⟩, hrest⟩ := h
        refine ⟨⟨hcb, hsb, hrd, Assoc.wf_set hports r q, hws, fun x hx => hport x (hmem x hx)⟩,
          ⟨hphase, hservice, fun hl => ?_⟩, hrest⟩
        obtain ⟨hup, hwaits, hheld⟩ := hholder hl
        exact ⟨hup, hwaits, hport _ hheld⟩
      dsimp only at ht
      split at ht
      · next hjoins =>
        cases ht
        refine enqueue_inv hinv hjoins.1 (by rw [Assoc.get_set_same]; rfl) fun hl he => hbusy ?_
        obtain ⟨-, ⟨-, -, hholder⟩, -⟩ := h
        obtain ⟨-, -, hheld⟩ := hholder hl
        exact he ▸ hheld
      · cases ht; exact hinv

theorem afterReset_inv (s : State) : s.afterReset.Inv :=
  ⟨⟨.nil, .nil, .nil, .nil, .nil, nofun⟩,
    ⟨iff_of_false (fun h => h rfl) (fun h => h rfl), iff_of_false nofun (fun h => h rfl), fun h => absurd rfl h⟩,
    ⟨Nat.zero_le _, Nat.zero_le _, Nat.zero_le _, Nat.zero_le _, Nat.zero_le _⟩,
    fun _ => ⟨rfl, rfl, rfl, rfl, rfl, rfl, rfl⟩, nofun, fun _ => ⟨rfl, rfl, nofun⟩, fun h => absurd rfl h,
    fun h => absurd rfl h⟩

theorem Stepped.inv {s t : State} (h : Stepped s t) (hs : s.Inv) : t.Inv := by
  cases h with
  | @presented r q rest _ h => exact present_inv (s := { s with stimuli := rest }) hs h
  | reset => exact afterReset_inv _
  | engine _ h => exact h.inv hs

end Sys2Proof.Machine

open Sys2Proof Sys2Proof.Machine

/-- Settles O4: each of the things a step can be keeps the invariant. -/
theorem stepKeepsInvariant : Obligations.StepKeepsInvariant := fun _ _ hs h => (step_stepped h).inv hs

/-- Settles O3: the reset state is what the reset input makes of itself. -/
theorem resetMeetsInvariant : Obligations.ResetMeetsInvariant := afterReset_inv State.reset

/-- Settles O1: the reset state is a literal, so each value is read off it. -/
theorem resetValues : Obligations.ResetValues := by
  unfold Obligations.ResetValues
  decide
end

section
/-! What no step but the reset input rewrites: the parameters, CFG once INIT has written it, and the events on WIRE (10_state R22,
R33; 00_scope R5). -/

namespace Sys2Proof.Machine

/-- The parameters and CFG are the same, and WIRE has only grown. -/
structure History (s t : State) : Prop where
  params : t.params = s.params
  cfg : t.cfg = s.cfg
  wire : s.wire <+: t.wire

/-- Nothing of the three is written. -/
theorem History.same {s t : State} (hp : t.params = s.params) (hc : t.cfg = s.cfg) (hw : t.wire = s.wire) : History s t :=
  ⟨hp, hc, hw ▸ List.prefix_rfl⟩

theorem History.refl (s : State) : History s s := .same rfl rfl rfl

theorem History.trans {s t u : State} (h : History s t) (k : History t u) : History s u :=
  ⟨k.params.trans h.params, k.cfg.trans h.cfg, h.wire.trans k.wire⟩

theorem LinkFrame.history {s t : State} (h : LinkFrame s t) : History s t := ⟨h.params, h.cfg, h.wire⟩

theorem BuildFrame.history {s t : State} (h : BuildFrame s t) : History s t := .same h.params h.cfg h.wire

/-! ### Beginning and ending an operation -/

theorem completeLocked_history (i : Instr) (st : Status) (s : State) : History s (completeLocked i st s) :=
  ⟨rfl, rfl, List.prefix_append ..⟩

theorem submitBuilt_history (sel : Sel) (s : State) : History s (submitBuilt sel s) := by
  unfold submitBuilt
  split
  · exact .same rfl rfl rfl
  · exact .same rfl rfl rfl

theorem beginProbe_history (s : State) : History s (beginProbe s) :=
  (buildProbe_frame ..).history.trans (submitBuilt_history ..)

theorem beginBody_history (i : Instr) (s : State) : History s (beginBody i s) := by
  cases i with
  | writeThenRead | readByte | writeByte => exact (buildTransaction_frame ..).history.trans (submitBuilt_history ..)
  | scan | detectAndLog =>
    have hclear : History s { s with aset := 0, scanAddr := 0 } := .same rfl rfl rfl
    exact hclear.trans (beginProbe_history _)
  | start | writeAddressedByte | writeBuffer | readBuffer | stop | init => exact .refl s

theorem beginLocked_history (i : Instr) (s : State) : History s (beginLocked i s) := by
  have hgrant : History s { s.acquire with service := some i } := .same rfl rfl rfl
  unfold beginLocked
  dsimp only
  split
  · exact hgrant.trans (completeLocked_history ..)
  · exact hgrant.trans (beginBody_history ..)

theorem nextProbe_history (i : Instr) (s : State) : History s (nextProbe i s) := by
  have hnext : History s { s with scanAddr := s.scanAddr + 1 } := .same rfl rfl rfl
  unfold nextProbe
  dsimp only
  split
  · exact hnext.trans (beginProbe_history _)
  · exact hnext.trans (completeLocked_history ..)

theorem endProbe_history (i : Instr) (st : Status) (s : State) : History s (endProbe i st s) := by
  have hnext : History s (nextProbe i (recordProbe st (linkEnd .selSb s))) := by
    obtain ⟨set, hset⟩ := recordProbe_eq st (linkEnd .selSb s)
    rw [hset]
    have hrecord : History s { linkEnd .selSb s with aset := set } := .same rfl rfl rfl
    exact hrecord.trans (nextProbe_history ..)
  cases st with
  | ok | nack | noMemory => exact hnext
  | timeout | configurationFault => exact (linkEnd_frame .selSb s).history.trans (completeLocked_history ..)

theorem endOfLink_history {st : Status} {s t : State} (h : endOfLink st s = .next t) : History s t := by
  unfold endOfLink at h
  split at h
  · cases h
  · next i _ =>
    split at h
    · cases h; exact endProbe_history i st s
    · cases h; exact (linkEnd_frame .selCb s).history.trans (completeLocked_history ..)

/-! ### A step -/

theorem exec_link_frame {i : Instr} {s t : State} (hi : i.isLink = true) (h : exec i s = .next t) : LinkFrame s t := by
  obtain ⟨-, -, h⟩ := (exec_link_eq_next hi).1 h
  exact settle_frame (symbolsFrom_performs ..).frame h

/-- A move is the end of a link, or part of the walk of one. -/
theorem Moved.end_or_frame {whole : Bool} {s t : State} (h : Moved whole s t) :
    (∃ st, s.linkResult = some st ∧ endOfLink st s = .next t) ∨ LinkFrame s t := by
  cases h with
  | result hr h => exact .inl ⟨_, hr, h⟩
  | nackStop _ _ h => exact .inr (nackStopStep_frame h)
  | call _ _ h => exact .inr (recoveryStep_frame h)
  | linkEnd => exact .inr (endLink_frame s .ok)
  | symbol _ _ _ h => exact .inr (symbolStep_frame h)
  | operation _ _ _ hi h => exact .inr (exec_link_frame (fetchLinkOp_isLink hi) h)

theorem Moved.history {whole : Bool} {s t : State} (h : Moved whole s t) : History s t := by
  rcases h.end_or_frame with ⟨st, -, h⟩ | h
  · exact endOfLink_history h
  · exact h.history

theorem Moves.history {s t : State} (h : Moves s t) : History s t := by
  induction h with
  | refl => exact .refl s
  | tail _ hmove ih => exact ih.trans (smallStep_moved hmove.2).history

/-- The parameters are the same, WIRE has only grown, and CFG is the same unless there was none yet. -/
structure Keeps (s t : State) : Prop where
  params : t.params = s.params
  cfg : s.mode ≠ .uninit → t.cfg = s.cfg
  wire : s.wire <+: t.wire

theorem History.keeps {s t : State} (h : History s t) : Keeps s t := ⟨h.params, fun _ => h.cfg, h.wire⟩

/-- INIT writes CFG, and only where there is no bus handle yet (40_init R120, R121). -/
theorem execInit_keeps {port sda scl : Byte} {speed : Word32} {s t : State}
    (h : execInit port sda scl speed s = .next t) : Keeps s t := by
  unfold execInit at h
  split at h
  · cases h
  · next hm =>
    have hcfg (x : Cfg) (hup : s.mode ≠ .uninit) : x = s.cfg := absurd hup hm
    split at h
    · cases h
    · split at h
      · cases h; exact ⟨rfl, hcfg _, List.prefix_rfl⟩
      · cases ha : s.env.nextHal with
        | ok => rw [hal_ok ha] at h; cases h; exact ⟨rfl, hcfg _, List.prefix_append ..⟩
        | fail => rw [hal_fail ha] at h; cases h; exact ⟨rfl, hcfg _, List.prefix_append ..⟩

theorem Served.keeps {i : Instr} {s t : State} (h : Served i s t) : Keeps s t := by
  cases h with
  | init _ h => exact execInit_keeps h
  | waits => exact (History.same (s := s) (t := s.enqueue s.cur) rfl rfl rfl).keeps
  | begins _ _ _ h => exact ((beginLocked_history i s).trans h.history).keeps

theorem EngineStep.keeps {whole : Bool} {s t : State} (h : EngineStep whole s t) : Keeps s t := by
  cases h with
  | @request r q i _ _ _ h => exact ⟨h.keeps.params, h.keeps.cfg, h.keeps.wire⟩
  | @grant r q i _ _ _ _ _ h => exact ⟨h.keeps.params, h.keeps.cfg, h.keeps.wire⟩
  | idle => exact (History.refl s).keeps
  | move _ h => exact h.history.keeps

theorem present_history {r : Nat} {q : RawRequest} {s t : State} (h : present r q s = .next t) : History s t := by
  unfold present at h
  split at h
  · cases h
  · split at h
    · cases h
    · dsimp only at h
      split at h
      · cases h; exact .same rfl rfl rfl
      · cases h; exact .same rfl rfl rfl

theorem step_keeps {s t : State} (hs : ∀ rest, s.stimuli ≠ .reset :: rest) (h : step s = .next t) : Keeps s t := by
  cases step_stepped h with
  | @presented r q rest _ h =>
    have hk := present_history h
    exact ⟨hk.params, fun _ => hk.cfg, hk.wire⟩
  | reset hq => exact absurd hq (hs _)
  | engine _ h => exact ⟨h.keeps.params, h.keeps.cfg, h.keeps.wire⟩

end Sys2Proof.Machine

open Sys2Proof Sys2Proof.Machine

/-- Settles O53: every part of a step keeps what stands on WIRE, and adds behind it. -/
theorem wireIsAppendOnly : Obligations.WireIsAppendOnly := fun _ _ hs h => (step_keeps hs h).wire

/-- Settles O55: of all that a step can do only INIT writes CFG. -/
theorem configurationIsFixed : Obligations.ConfigurationIsFixed := fun _ _ hs h =>
  ⟨(step_keeps hs h).params, (step_keeps hs h).cfg⟩
end

section
/-! Symbols appear on WIRE only in EXEC with the engine up, the calls and delays of a recovery pass only in RECOVER (10_state R37
I-d). -/

namespace Sys2Proof.Machine

/-- An event of a recovery pass: a hardware-abstraction call or a delay (42_recovery R171). -/
abbrev Event.OfPass (e : Event) : Prop := e.halCall.isSome = true ∨ ∃ n, e = .dly n

theorem Event.not_ofPass_of_isSymbol {e : Event} (h : e.isSymbol = true) : ¬e.OfPass := by
  cases e with
  | s | sr | w | r | p => rintro (h | ⟨n, h⟩) <;> cases h
  | tmo | engCfg | engDown | dir | lvl | dly | log | fail => cases h

theorem tmo_not_ofPass : ¬Event.tmo.OfPass := by rintro (h | ⟨n, h⟩) <;> cases h

/-- What a step, or a whole link operation, has added to WIRE, each event in the phase it belongs to. -/
def PhaseEvents (whole : Bool) (s t : State) : Prop :=
  ∃ es : List Event, t.wire = s.wire ++ es ∧ ∀ e ∈ es,
    (e.isSymbol = true → s.phase = .exec ∧ s.engineUp = true) ∧
    (e.OfPass → t.phase = .recover ∧ (whole = false → s.phase = .recover))

theorem PhaseEvents.nothing {whole : Bool} {s t : State} (h : t.wire = s.wire) : PhaseEvents whole s t :=
  ⟨[], by rw [h, List.append_nil], nofun⟩

/-- Symbols of a walk, and the TMO of one that hangs. -/
theorem PhaseEvents.walk {whole : Bool} {s t : State} {es : List Event} (hw : s.walking = true) (h : t.wire = s.wire ++ es)
    (hes : ∀ e ∈ es, e.isSymbol = true ∨ e = .tmo) : PhaseEvents whole s t := by
  obtain ⟨hphase, hup, -⟩ := State.walking_iff.1 hw
  refine ⟨es, h, fun e he => ⟨fun _ => ⟨hphase, hup⟩, fun hpass => ?_⟩⟩
  rcases hes e he with hsym | rfl
  · exact absurd hpass (Event.not_ofPass_of_isSymbol hsym)
  · exact absurd hpass tmo_not_ofPass

/-- Symbols of a walk and then a recovery pass, in the one step of a whole link operation. -/
theorem PhaseEvents.abort {s t : State} {xs ys : List Event} (hw : s.walking = true) (h : t.wire = s.wire ++ xs ++ ys)
    (ht : t.phase = .recover) : PhaseEvents true s t := by
  obtain ⟨hphase, hup, -⟩ := State.walking_iff.1 hw
  exact ⟨xs ++ ys, by rw [h, List.append_assoc], fun e _ => ⟨fun _ => ⟨hphase, hup⟩, fun _ => ⟨ht, nofun⟩⟩⟩

/-! ### A symbol, and a whole link operation -/

theorem settleSymbol_phaseEvents {s t : State} {i : Instr} {k : Nat} (hw : s.walking = true)
    (h : settleSymbol i k (symbolOf i k s) = .next t) : PhaseEvents false s t := by
  obtain ⟨syms, hwire, hsyms⟩ := (symbolOf_performs i k s).wire
  have hone : ∀ e ∈ syms, e.isSymbol = true ∨ e = .tmo := fun e he => .inl (hsyms e he)
  rcases hr : symbolOf i k s with ⟨p, u⟩
  rw [hr] at h hwire
  cases p with
  | next => rw [settleSymbol_next] at h; cases h; exact .walk hw hwire hone
  | done | nack => cases h; exact .walk hw hwire hone
  | hang =>
    cases h
    refine .walk (es := syms ++ [.tmo]) hw ?_ fun e he => (List.mem_append.1 he).imp (hsyms e) List.mem_singleton.1
    rw [takeTimeoutTrap_wire, hwire, List.append_assoc]
  | overrun => cases h

theorem timeoutAbort_wire (s : State) : ∃ es, (timeoutAbort s).wire = s.wire ++ es := by
  obtain ⟨es, h⟩ := (timeoutAbort_frame s).wire
  exact ⟨es, h.symm⟩

theorem returnFromRecovery_phase (r : HalAnswer × State) : (returnFromRecovery r).phase = r.2.phase := by
  obtain ⟨_ | _, u⟩ := r <;> rfl

theorem timeoutAbort_phase (s : State) : (timeoutAbort s).phase = .recover := by
  rw [timeoutAbort, returnFromRecovery_phase, (recover_passFrame _).phase, takeTimeoutTrap_phase]

theorem nackAbort_phaseEvents {s u : State} {xs : List Event} (hw : s.walking = true) (hwire : u.wire = s.wire ++ xs)
    (hxs : ∀ e ∈ xs, e.isSymbol = true) : PhaseEvents true s (nackAbort u) := by
  obtain ⟨ys, hy, hys⟩ := (phyStop_performs u).wire
  unfold nackAbort
  rcases hr : phyStop u with ⟨_ | _, v⟩
  · rw [hr] at hy
    refine .walk (es := xs ++ ys) hw ?_ fun e he => .inl ((List.mem_append.1 he).elim (hxs e) (hys e))
    rw [← List.append_assoc, ← hwire, ← hy]
    rfl
  · rw [hr] at hy
    obtain ⟨zs, hz⟩ := timeoutAbort_wire v
    refine .abort (xs := xs ++ ys) (ys := zs) hw ?_ (timeoutAbort_phase v)
    rw [← List.append_assoc, ← hwire, ← hy]
    exact hz

theorem settle_phaseEvents {s t : State} {i : Instr} (hw : s.walking = true)
    (h : settle (linkSize i) (symbolsFrom i (stepCount i) 0 s) = .next t) : PhaseEvents true s t := by
  obtain ⟨syms, hwire, hsyms⟩ := (symbolsFrom_performs i (stepCount i) 0 s).wire
  have hone : ∀ e ∈ syms, e.isSymbol = true ∨ e = .tmo := fun e he => .inl (hsyms e he)
  rcases hr : symbolsFrom i (stepCount i) 0 s with ⟨p, u⟩
  rw [hr] at h hwire
  cases p with
  | next | done => cases h; exact .walk hw hwire hone
  | nack => cases h; exact nackAbort_phaseEvents hw hwire hsyms
  | hang =>
    cases h
    obtain ⟨zs, hz⟩ := timeoutAbort_wire u
    exact .abort hw (by rw [hz, hwire]) (timeoutAbort_phase u)
  | overrun => cases h

theorem nackStopStep_phaseEvents {s t : State} {whole : Bool} (h : nackStopStep s = .next t) : PhaseEvents whole s t := by
  obtain ⟨hw, h⟩ := inWalk_eq_next.1 h
  obtain ⟨ys, hy, hys⟩ := (phyStop_performs s).wire
  rcases hr : phyStop s with ⟨_ | _, v⟩
  · rw [hr] at h hy
    cases h
    exact .walk hw hy fun e he => .inl (hys e he)
  · rw [hr] at h hy
    cases h
    refine .walk (es := ys ++ [.tmo]) hw ?_ fun e he => (List.mem_append.1 he).imp (hys e) List.mem_singleton.1
    rw [takeTimeoutTrap_wire, hy, List.append_assoc]

/-! ### A call of the recovery pass -/

theorem afterRecoveryCall_phase (c : RecoveryCall) (r : HalAnswer × State) : (afterRecoveryCall c r).phase = r.2.phase := by
  obtain ⟨_ | _, u⟩ := r
  · simp only [afterRecoveryCall]
    split
    · rfl
    · rfl
  · rfl

theorem recoveryStep_phaseEvents {s t : State} {c : RecoveryCall} {whole : Bool} (h : recoveryStep c s = .next t) :
    PhaseEvents whole s t := by
  unfold recoveryStep at h
  split at h
  · next hin =>
    cases h
    have hf := recoveryCall_passFrame c s
    obtain ⟨es, hwire, hes⟩ := hf.wire
    refine ⟨es, (afterRecoveryCall_wire ..).trans hwire, fun e he => ⟨fun hsym => ?_, fun _ => ⟨?_, fun _ => hin.1⟩⟩⟩
    · rw [hes e he] at hsym; cases hsym
    · rw [afterRecoveryCall_phase, hf.phase, hin.1]
  · cases h

/-! ### The end of a link -/

/-- Only the listing of DETECT_AND_LOG is added where a link ends (44_scanner R215). -/
theorem listing_phaseEvents {whole : Bool} {s t : State} {i : Instr} {set : AddrSet}
    (h : t.wire = s.wire ++ listing i set) : PhaseEvents whole s t := by
  refine ⟨listing i set, h, fun e he => ?_⟩
  obtain ⟨a, rfl⟩ : ∃ a, e = .log a := by
    cases i with
    | detectAndLog => obtain ⟨a, -, ha⟩ := List.mem_map.1 he; exact ⟨a, ha.symm⟩
    | start | writeAddressedByte | writeBuffer | readBuffer | stop | init | writeThenRead | readByte | writeByte | scan =>
      cases he
  exact ⟨nofun, by rintro (h | ⟨n, h⟩) <;> cases h⟩

theorem nextProbe_phaseEvents (whole : Bool) (i : Instr) {s u : State} (hu : u.wire = s.wire) :
    PhaseEvents whole s (nextProbe i u) := by
  unfold nextProbe
  dsimp only
  split
  · exact .nothing ((beginProbe_wire _).trans hu)
  · exact listing_phaseEvents (by rw [completeLocked_wire, ← hu])

theorem endOfLink_phaseEvents {whole : Bool} {st : Status} {s t : State} (h : endOfLink st s = .next t) :
    PhaseEvents whole s t := by
  unfold endOfLink at h
  split at h
  · cases h
  · next i _ =>
    split at h
    · cases h
      have hnext : PhaseEvents whole s (nextProbe i (recordProbe st (linkEnd .selSb s))) :=
        nextProbe_phaseEvents whole i (by rw [recordProbe_wire, linkEnd_wire])
      cases st with
      | ok | nack | noMemory => exact hnext
      | timeout | configurationFault => exact listing_phaseEvents (completeLocked_wire ..)
    · cases h; exact listing_phaseEvents (completeLocked_wire ..)

/-! ### A step with the lock held -/

theorem Moved.phaseEvents {whole : Bool} {s t : State} (h : Moved whole s t) : PhaseEvents whole s t := by
  cases h with
  | result _ h => exact endOfLink_phaseEvents h
  | nackStop _ _ h => exact nackStopStep_phaseEvents h
  | call _ _ h => exact recoveryStep_phaseEvents h
  | linkEnd => exact .nothing rfl
  | symbol _ _ _ h =>
    obtain ⟨-, hw, -, h⟩ := symbolStep_eq_next.1 h
    obtain ⟨es, hwire, hes⟩ := settleSymbol_phaseEvents hw h
    exact ⟨es, hwire, fun e he => ⟨(hes e he).1, fun hpass =>
      ⟨((hes e he).2 hpass).1, fun _ => ((hes e he).2 hpass).2 rfl⟩⟩⟩
  | operation hwhole _ _ hi h =>
    obtain ⟨hx, -, h⟩ := (exec_link_eq_next (fetchLinkOp_isLink hi)).1 h
    rw [State.executing, Bool.and_eq_true] at hx
    exact hwhole ▸ settle_phaseEvents hx.1 h

/-- With the lock held no host operation that is taken up adds an event: INIT is refused, the others wait. -/
theorem Served.wire_of_held {i : Instr} {s t : State} (h : Served i s t) (hl : s.lock ≠ .free) : t.wire = s.wire := by
  cases h with
  | init _ h =>
    have hothers : s.othersOutstanding = true := by simp [State.othersOutstanding, hl]
    simp only [execInit, hothers, if_true] at h
    split at h
    · cases h
    · cases h
  | waits => rfl
  | begins _ _ hfree => exact absurd hfree hl

theorem EngineStep.phaseEvents {whole : Bool} {s t : State} (h : EngineStep whole s t) (hl : s.lock ≠ .free) :
    PhaseEvents whole s t := by
  cases h with
  | request _ _ h => exact .nothing (h.wire_of_held hl)
  | grant hfree => exact absurd hfree hl
  | idle => exact .nothing rfl
  | move _ h => exact h.phaseEvents

end Sys2Proof.Machine

open Sys2Proof Sys2Proof.Machine

/-- Settles O52: with the lock held a step adds events only by a move of the operation in progress. -/
theorem eventsBelongToTheirPhase : Obligations.EventsBelongToTheirPhase := by
  intro s t r e hlock hs h he
  have hl : s.lock ≠ .free := by rw [hlock]; nofun
  cases step_stepped h with
  | @presented r q rest _ h =>
    have hwire : t.wire = s.wire := present_wire (s := { s with stimuli := rest }) h
    rw [hwire, List.drop_length] at he
    cases he
  | reset hq => exact absurd hq (hs _)
  | engine hw h =>
    obtain ⟨es, hwire, hes⟩ := h.phaseEvents hl
    rw [hwire, List.drop_left] at he
    obtain ⟨hsym, hpass⟩ := hes e he
    refine ⟨hsym, fun hp => ⟨(hpass hp).1, fun hne => (hpass hp).2 ?_⟩⟩
    exact Bool.eq_false_iff.2 fun hwhole => hne _ (hw hwhole)
end

section
/-! The address byte as a number (20_memory R61) and the codes of the statuses (30_encoding R100). -/

namespace Sys2Proof.Machine

/-- The intent bit is one bit wide, so putting it behind the address is doubling the address and adding the bit. -/
theorem addressByte_toNat (a : Addr7) (rw : Intent) : (addressByte a rw).toNat = 2 * a.toNat + rw.bit.toNat := by
  rw [addressByte, BitVec.toNat_append, ← Nat.shiftLeft_add_eq_or_of_lt rw.bit.isLt, Nat.shiftLeft_eq, pow_one,
    Nat.mul_comm]

end Sys2Proof.Machine

open Sys2Proof Sys2Proof.Machine

/-- Settles O11: the address byte is known for every intent (`addressByte_toNat`), and the codes are read off their table. -/
theorem addressBytesAndStatusCodes : Obligations.AddressBytesAndStatusCodes :=
  ⟨fun a => ⟨addressByte_toNat a .write, addressByte_toNat a .read⟩, rfl, rfl, rfl, rfl, rfl⟩
end

section
/-! The fields of a request word and of a link header, and the two decoders' tables said by them (30_encoding R91 to R99). -/

namespace Sys2Proof

/-! ### Bit fields -/

theorem bits_append_inj {v w : Nat} {x x' : BitVec v} {y y' : BitVec w} : x ++ y = x' ++ y' ↔ x = x' ∧ y = y' := by
  refine ⟨fun h => ⟨?_, ?_⟩, fun ⟨hx, hy⟩ => by rw [hx, hy]⟩
  · have hhigh := congrArg (BitVec.extractLsb' w v) h
    rwa [BitVec.extractLsb'_append_eq_left, BitVec.extractLsb'_append_eq_left] at hhigh
  · have hlow := congrArg (BitVec.extractLsb' 0 w) h
    rwa [BitVec.extractLsb'_append_eq_right, BitVec.extractLsb'_append_eq_right] at hlow

/-- Two adjoining fields of a word. -/
theorem extractLsb'_eq_append_iff {n v w : Nat} (q : BitVec n) (s : Nat) (x : BitVec v) (y : BitVec w) :
    q.extractLsb' s (v + w) = x ++ y ↔ q.extractLsb' (s + w) v = x ∧ q.extractLsb' s w = y := by
  rw [← BitVec.extractLsb'_append_extractLsb'_eq_extractLsb' rfl, bits_append_inj]

/-- A word of two fields. -/
theorem eq_append_iff {a b : Nat} (q : BitVec (a + b)) (x : BitVec a) (y : BitVec b) :
    q = x ++ y ↔ q.extractLsb' b a = x ∧ q.extractLsb' 0 b = y := by
  have h := extractLsb'_eq_append_iff q 0 x y
  rwa [BitVec.extractLsb'_eq_self, Nat.zero_add] at h

/-- A word of four fields. -/
theorem eq_append_four_iff {a b c d : Nat} (q : BitVec (a + b + c + d)) (x : BitVec a) (y : BitVec b) (z : BitVec c)
    (u : BitVec d) :
    q = x ++ y ++ z ++ u ↔
      q.extractLsb' (d + c + b) a = x ∧ q.extractLsb' (d + c) b = y ∧ q.extractLsb' d c = z ∧ q.extractLsb' 0 d = u := by
  rw [eq_append_iff, extractLsb'_eq_append_iff, extractLsb'_eq_append_iff, and_assoc, and_assoc]

/-- A word of five fields. -/
theorem eq_append_five_iff {a b c d e : Nat} (q : BitVec (a + b + c + d + e)) (x : BitVec a) (y : BitVec b)
    (z : BitVec c) (u : BitVec d) (v : BitVec e) :
    q = x ++ y ++ z ++ u ++ v ↔
      q.extractLsb' (e + d + c + b) a = x ∧ q.extractLsb' (e + d + c) b = y ∧ q.extractLsb' (e + d) c = z ∧
        q.extractLsb' e d = u ∧ q.extractLsb' 0 e = v := by
  rw [eq_append_iff, extractLsb'_eq_append_iff, extractLsb'_eq_append_iff, extractLsb'_eq_append_iff, and_assoc, and_assoc,
    and_assoc]

/-- A row of a match and mask list that fixes the top `n` bits and wants the bottom `k` bits 0 (30_encoding R97). -/
theorem masked_eq_iff {n m k : Nat} (q : BitVec (n + m + k)) (p : BitVec n) :
    q &&& (BitVec.allOnes n ++ 0#m ++ BitVec.allOnes k) = p ++ 0#m ++ 0#k ↔
      q.extractLsb' (m + k) n = p ∧ q.extractLsb' 0 k = 0#k := by
  have hq : q = q.extractLsb' (k + m) n ++ q.extractLsb' k m ++ q.extractLsb' 0 k := by
    rw [eq_append_iff, extractLsb'_eq_append_iff]
    exact ⟨⟨rfl, rfl⟩, rfl⟩
  conv_lhs => rw [hq]
  rw [BitVec.and_append, BitVec.and_append, bits_append_inj, bits_append_inj, Nat.add_comm m k]
  simp

/-! ### Request words -/

/-- OP, the operation code of a request word (30_encoding R97). -/
def fieldOp (q : Word32) : BitVec 3 := q.extractLsb' 29 3

/-- The bottom `k` bits of a request word are 0. -/
abbrev LowZero (k : Nat) (q : Word32) : Prop := q.extractLsb' 0 k = 0

theorem init_row_iff (q : Word32) : q &&& 0xE000001F = 0x20000000 ↔ fieldOp q = 1 ∧ LowZero 5 q :=
  masked_eq_iff (n := 3) (m := 24) (k := 5) q 1
theorem writeThenRead_row_iff (q : Word32) : q &&& 0xE000003F = 0x40000000 ↔ fieldOp q = 2 ∧ LowZero 6 q :=
  masked_eq_iff (n := 3) (m := 23) (k := 6) q 2
theorem readByte_row_iff (q : Word32) : q &&& 0xE0003FFF = 0x60000000 ↔ fieldOp q = 3 ∧ LowZero 14 q :=
  masked_eq_iff (n := 3) (m := 15) (k := 14) q 3
theorem writeByte_row_iff (q : Word32) : q &&& 0xE000003F = 0x80000000 ↔ fieldOp q = 4 ∧ LowZero 6 q :=
  masked_eq_iff (n := 3) (m := 23) (k := 6) q 4
theorem scan_row_iff (q : Word32) : q &&& 0xFFFFFFFF = 0xA0000000 ↔ fieldOp q = 5 ∧ LowZero 29 q :=
  masked_eq_iff (n := 3) (m := 0) (k := 29) q 5
theorem detectAndLog_row_iff (q : Word32) : q &&& 0xFFFFFFFF = 0xC0000000 ↔ fieldOp q = 6 ∧ LowZero 29 q :=
  masked_eq_iff (n := 3) (m := 0) (k := 29) q 6

/-- The search of a table, one row at a time. -/
theorem find?_cons_map {α β : Type} (p : α → Bool) (f : α → β) (a : α) (as : List α) :
    ((a :: as).find? p).map f = if p a = true then some (f a) else (as.find? p).map f := by
  cases h : p a with
  | true => simp [h]
  | false => simp [h]

/-- The match and mask list of R97 as the formats put it: each row an operation code and reserved bits. -/
theorem requestKind_eq (q : Word32) :
    requestKind q =
      if fieldOp q = 1 ∧ LowZero 5 q then some .init
      else if fieldOp q = 2 ∧ LowZero 6 q then some .writeThenRead
      else if fieldOp q = 3 ∧ LowZero 14 q then some .readByte
      else if fieldOp q = 4 ∧ LowZero 6 q then some .writeByte
      else if fieldOp q = 5 ∧ LowZero 29 q then some .scan
      else if fieldOp q = 6 ∧ LowZero 29 q then some .detectAndLog
      else none := by
  simp only [requestKind, requestTable, find?_cons_map, List.find?_nil, Option.map_none, beq_iff_eq, init_row_iff,
    writeThenRead_row_iff, readByte_row_iff, writeByte_row_iff, scan_row_iff, detectAndLog_row_iff]

theorem op_cases : ∀ op : BitVec 3, op = 0 ∨ op = 1 ∨ op = 2 ∨ op = 3 ∨ op = 4 ∨ op = 5 ∨ op = 6 ∨ op = 7 := by decide

/-- A request word matches no row exactly when its operation code is no operation's, or a reserved bit is set (R99). -/
theorem requestKind_eq_none_iff (q : Word32) :
    requestKind q = none ↔
      fieldOp q = 0 ∨ fieldOp q = 7 ∨ (fieldOp q = 1 ∧ ¬LowZero 5 q) ∨ (fieldOp q = 2 ∧ ¬LowZero 6 q) ∨
      (fieldOp q = 3 ∧ ¬LowZero 14 q) ∨ (fieldOp q = 4 ∧ ¬LowZero 6 q) ∨ (fieldOp q = 5 ∧ ¬LowZero 29 q) ∨
      (fieldOp q = 6 ∧ ¬LowZero 29 q) := by
  rw [requestKind_eq]
  rcases op_cases (fieldOp q) with h | h | h | h | h | h | h | h <;> simp [h]

/-- The operation code of an operation (R97). -/
def RequestKind.op : RequestKind → BitVec 3
  | .init => 1
  | .writeThenRead => 2
  | .readByte => 3
  | .writeByte => 4
  | .scan => 5
  | .detectAndLog => 6

/-- How many bits at the bottom of an operation's word are reserved (R97). -/
def RequestKind.reserved : RequestKind → Nat
  | .init => 5
  | .writeThenRead => 6
  | .readByte => 14
  | .writeByte => 6
  | .scan => 29
  | .detectAndLog => 29

theorem requestKind_eq_some_iff {q : Word32} {kind : RequestKind} :
    requestKind q = some kind ↔ fieldOp q = kind.op ∧ LowZero kind.reserved q := by
  rw [requestKind_eq]
  constructor
  · intro h
    split_ifs at h with hrow hrow hrow hrow hrow hrow <;> cases h <;> exact hrow
  · rintro ⟨hop, hlow⟩
    cases kind <;> simp only [RequestKind.op, RequestKind.reserved] at hop hlow <;> simp [hop, hlow]

/-! ### The words the encoder writes, field by field (30_encoding R97) -/

theorem eq_wordInit_iff (q : Word32) (port sda scl : Byte) :
    q = wordInit port sda scl ↔
      fieldOp q = 1 ∧ fieldPort q = port ∧ fieldSda q = sda ∧ fieldScl q = scl ∧ LowZero 5 q :=
  eq_append_five_iff (a := 3) (b := 8) (c := 8) (d := 8) (e := 5) q _ port sda scl _

theorem eq_wordWriteThenRead_iff (q : Word32) (addr : Addr7) (wlen rlen : Byte) :
    q = wordWriteThenRead addr wlen rlen ↔
      fieldOp q = 2 ∧ fieldAddr q = addr ∧ fieldWlen q = wlen ∧ fieldRlen q = rlen ∧ LowZero 6 q :=
  eq_append_five_iff (a := 3) (b := 7) (c := 8) (d := 8) (e := 6) q _ addr wlen rlen _

theorem eq_wordReadByte_iff (q : Word32) (addr : Addr7) (reg : Byte) :
    q = wordReadByte addr reg ↔ fieldOp q = 3 ∧ fieldAddr q = addr ∧ fieldReg q = reg ∧ LowZero 14 q :=
  eq_append_four_iff (a := 3) (b := 7) (c := 8) (d := 14) q _ addr reg _

theorem eq_wordWriteByte_iff (q : Word32) (addr : Addr7) (reg value : Byte) :
    q = wordWriteByte addr reg value ↔
      fieldOp q = 4 ∧ fieldAddr q = addr ∧ fieldReg q = reg ∧ fieldValue q = value ∧ LowZero 6 q :=
  eq_append_five_iff (a := 3) (b := 7) (c := 8) (d := 8) (e := 6) q _ addr reg value _

theorem eq_wordScan_iff (q : Word32) : q = wordScan ↔ fieldOp q = 5 ∧ LowZero 29 q :=
  eq_append_iff (a := 3) (b := 29) q _ _

theorem eq_wordDetectAndLog_iff (q : Word32) : q = wordDetectAndLog ↔ fieldOp q = 6 ∧ LowZero 29 q :=
  eq_append_iff (a := 3) (b := 29) q _ _

end Sys2Proof
end

section
/-! The decoder and the encoder of requests undo each other (30_encoding R97, R99). -/

namespace Sys2Proof

theorem alone_ok_request {q : RawRequest} {i j : Instr} (h : alone q i = .ok j) : j = i ∧ q = ⟨q.word, [], []⟩ := by
  refine ⟨Machine.alone_ok h, ?_⟩
  unfold alone at h
  split at h
  · next hq => rw [← hq.1, ← hq.2]
  · cases h

theorem alone_error {q : RawRequest} {i : Instr} {e : DecodeError} (h : alone q i = .error e) :
    e = .malformedRequest q.word := by
  unfold alone at h
  split at h
  · cases h
  · cases h; rfl

/-- A request is rejected as reserved or as malformed, and for nothing else. -/
theorem decodeRequest_error {q : RawRequest} {e : DecodeError} (h : decodeRequest q = .error e) :
    (requestKind q.word = none ∧ e = .reservedRequest q.word) ∨
      (requestKind q.word ≠ none ∧ e = .malformedRequest q.word) := by
  unfold decodeRequest at h
  split at h
  · next hk => cases h; exact .inl ⟨hk, rfl⟩
  · next hk =>
    split at h
    · cases h
    · cases h; exact .inr ⟨by simp [hk], rfl⟩
  · next hk =>
    split at h
    · cases h
    · cases h; exact .inr ⟨by simp [hk], rfl⟩
  · next hk => exact .inr ⟨by simp [hk], alone_error h⟩
  · next hk => exact .inr ⟨by simp [hk], alone_error h⟩
  · next hk => exact .inr ⟨by simp [hk], alone_error h⟩
  · next hk => exact .inr ⟨by simp [hk], alone_error h⟩

theorem decodeRequest_reserved_iff {q : RawRequest} :
    decodeRequest q = .error (.reservedRequest q.word) ↔ requestKind q.word = none := by
  refine ⟨fun h => ?_, fun h => by simp [decodeRequest, h]⟩
  rcases decodeRequest_error h with ⟨hk, -⟩ | ⟨-, he⟩
  · exact hk
  · cases he

/-- What a request of a well-formed host operation decodes to. -/
theorem decode_encode_host {i : Instr} (hl : i.isLink = false) (hw : i.WellFormed) : decode (encode i) = .ok i := by
  cases i with
  | init port sda scl speed =>
    obtain ⟨hop, hport, hsda, hscl, hlow⟩ := (eq_wordInit_iff _ port sda scl).1 rfl
    have hk : requestKind (wordInit port sda scl) = some .init := requestKind_eq_some_iff.2 ⟨hop, hlow⟩
    simp [decode, encode, decodeRequest, hk, hport, hsda, hscl]
  | writeThenRead addr data rlen =>
    obtain ⟨hop, haddr, hwlen, hrlen, hlow⟩ := (eq_wordWriteThenRead_iff _ addr (lengthField data) rlen).1 rfl
    have hk : requestKind (wordWriteThenRead addr (lengthField data) rlen) = some .writeThenRead :=
      requestKind_eq_some_iff.2 ⟨hop, hlow⟩
    have hd : data.length ≤ 255 := by simpa only [Instr.WellFormed, Instr.wellFormed, fitsLength, decide_eq_true_eq] using hw
    simp [decode, encode, decodeRequest, hk, haddr, hwlen, hrlen, lengthField_toNat hd]
  | readByte addr reg =>
    obtain ⟨hop, haddr, hreg, hlow⟩ := (eq_wordReadByte_iff _ addr reg).1 rfl
    have hk : requestKind (wordReadByte addr reg) = some .readByte := requestKind_eq_some_iff.2 ⟨hop, hlow⟩
    simp [decode, encode, decodeRequest, hk, haddr, hreg, alone]
  | writeByte addr reg value =>
    obtain ⟨hop, haddr, hreg, hvalue, hlow⟩ := (eq_wordWriteByte_iff _ addr reg value).1 rfl
    have hk : requestKind (wordWriteByte addr reg value) = some .writeByte := requestKind_eq_some_iff.2 ⟨hop, hlow⟩
    simp [decode, encode, decodeRequest, hk, haddr, hreg, hvalue, alone]
  | scan | detectAndLog => rfl
  | start | writeAddressedByte | writeBuffer | readBuffer | stop => cases hl

/-- A request that decodes is the encoding of what it decodes to. -/
theorem encode_decodeRequest {q : RawRequest} {i : Instr} (h : decodeRequest q = .ok i) : encode i = .request q := by
  unfold decodeRequest at h
  split at h
  · cases h
  · next hk =>
    obtain ⟨hop, hlow⟩ := requestKind_eq_some_iff.1 hk
    split at h
    · next speed hmore hpayload =>
      cases h
      rw [encode, ← (eq_wordInit_iff q.word _ _ _).2 ⟨hop, rfl, rfl, rfl, hlow⟩, ← hmore, ← hpayload]
    · cases h
  · next hk =>
    obtain ⟨hop, hlow⟩ := requestKind_eq_some_iff.1 hk
    split at h
    · next hq =>
      cases h
      have hwlen : fieldWlen q.word = lengthField q.payload := by
        rw [lengthField, hq.2, BitVec.ofNat_toNat, BitVec.setWidth_eq]
      rw [encode, ← (eq_wordWriteThenRead_iff q.word _ _ _).2 ⟨hop, rfl, hwlen, rfl, hlow⟩, ← hq.1]
    · cases h
  · next hk =>
    obtain ⟨hop, hlow⟩ := requestKind_eq_some_iff.1 hk
    obtain ⟨rfl, hq⟩ := alone_ok_request h
    rw [encode, ← (eq_wordReadByte_iff q.word _ _).2 ⟨hop, rfl, rfl, hlow⟩, ← hq]
  · next hk =>
    obtain ⟨hop, hlow⟩ := requestKind_eq_some_iff.1 hk
    obtain ⟨rfl, hq⟩ := alone_ok_request h
    rw [encode, ← (eq_wordWriteByte_iff q.word _ _ _).2 ⟨hop, rfl, rfl, rfl, hlow⟩, ← hq]
  · next hk =>
    obtain ⟨hop, hlow⟩ := requestKind_eq_some_iff.1 hk
    obtain ⟨rfl, hq⟩ := alone_ok_request h
    rw [encode, ← (eq_wordScan_iff q.word).2 ⟨hop, hlow⟩, ← hq]
  · next hk =>
    obtain ⟨hop, hlow⟩ := requestKind_eq_some_iff.1 hk
    obtain ⟨rfl, hq⟩ := alone_ok_request h
    rw [encode, ← (eq_wordDetectAndLog_iff q.word).2 ⟨hop, hlow⟩, ← hq]

end Sys2Proof
end

section
/-! The decoder and the encoder of link operations undo each other, and with them the two levels (30_encoding R91 to R95). -/

namespace Sys2Proof

/-! ### Headers -/

/-- A header byte matches no row exactly when R95 says so: a header has 256 values. -/
theorem linkKind_eq_none_iff :
    ∀ h : Byte, linkKind h = none ↔
      (h.extractLsb' 4 4 = 0 ∨ 6 ≤ (h.extractLsb' 4 4).toNat) ∨ h.extractLsb' 1 3 ≠ 0 ∨
        h = 0x11 ∨ h = 0x31 ∨ h = 0x51 := by decide

theorem decodeLink_reserved_iff {h : Byte} {rest : List Byte} :
    decodeLink (h :: rest) = .error (.reservedHeader h) ↔ linkKind h = none := by
  refine ⟨fun he => ?_, fun hk => by simp [decodeLink, hk]⟩
  cases hk : linkKind h with
  | none => rfl
  | some kind =>
    cases kind with
    | start | stop => simp [decodeLink, hk] at he
    | writeAddressedByte | readBuffer => cases rest <;> simp [decodeLink, hk] at he
    | writeBuffer =>
      cases rest with
      | nil => simp [decodeLink, hk] at he
      | cons n after =>
        simp only [decodeLink, hk] at he
        split at he <;> cases he

/-- The header byte of each operation: its code and, in two of them, the flag (R91, R94). -/
theorem header_of_linkKind :
    ∀ h : Byte,
      (linkKind h = some .start → h = header opcStart false) ∧
      (linkKind h = some .writeAddressedByte → h = header opcWriteAddressedByte (h.getLsbD 0)) ∧
      (linkKind h = some .writeBuffer → h = header opcWriteBuffer false) ∧
      (linkKind h = some .readBuffer → h = header opcReadBuffer (h.getLsbD 0)) ∧
      (linkKind h = some .stop → h = header opcStop false) := by decide

/-- The bytes of a link operation that decodes are its encoding. -/
theorem linkBytes_decodeLink {bytes more : List Byte} {i : Instr} (h : decodeLink bytes = .ok (i, more)) :
    i.isLink = true ∧ bytes = linkBytes i ++ more := by
  cases bytes with
  | nil => cases h
  | cons b bs =>
    obtain ⟨hstart, hwab, hwbuf, hrbuf, hstop⟩ := header_of_linkKind b
    simp only [decodeLink] at h
    split at h
    · cases h
    · next hk => cases h; exact ⟨rfl, by rw [hstart hk]; rfl⟩
    · next hk =>
      split at h
      · cases h
      · cases h
        exact ⟨rfl, by rw [linkBytes_wab, ← hwab hk]; rfl⟩
    · next hk =>
      split at h
      · cases h
      · next n after =>
        split at h
        · next hn =>
          cases h
          have hlen : lengthField (after.take n.toNat) = n := by
            rw [lengthField, List.length_take_of_le hn, BitVec.ofNat_toNat, BitVec.setWidth_eq]
          exact ⟨rfl, by rw [linkBytes_wbuf, ← hwbuf hk, hlen]; simp⟩
        · cases h
    · next hk =>
      split at h
      · cases h
      · cases h
        exact ⟨rfl, by rw [linkBytes_rbuf, ← hrbuf hk]; rfl⟩
    · next hk => cases h; exact ⟨rfl, by rw [hstop hk]; rfl⟩

theorem encode_link {i : Instr} (h : i.isLink = true) : encode i = .link (linkBytes i) := by
  cases i with
  | start | writeAddressedByte | writeBuffer | readBuffer | stop => rfl
  | init | writeThenRead | readByte | writeByte | scan | detectAndLog => cases h

theorem decode_encode_link {i : Instr} (hl : i.isLink = true) (hw : i.WellFormed) : decode (encode i) = .ok i := by
  have h := decodeLink_append hl hw []
  rw [List.append_nil] at h
  simp [encode_link hl, decode, h]

theorem encode_decode_link {bytes : List Byte} {i : Instr} (h : decode (.link bytes) = .ok i) : encode i = .link bytes := by
  simp only [decode] at h
  split at h
  · next hd =>
    cases h
    obtain ⟨hl, hbytes⟩ := linkBytes_decodeLink hd
    rw [encode_link hl, hbytes, List.append_nil]
  · cases h
  · cases h

end Sys2Proof

open Sys2Proof Sys2Proof.Machine

/-- Settles O6: a link operation stands whole at the front of its bytes (`decodeLink_append`), and a request word has the
fields it was put together from. -/
theorem decodeOfEncode : Obligations.DecodeOfEncode := by
  intro i hw
  cases hl : i.isLink with
  | true => exact decode_encode_link hl hw
  | false => exact decode_encode_host hl hw

/-- Settles O7: a header and a request word are put together from the fields the decoder reads and the bits it fixes. -/
theorem encodeOfDecode : Obligations.EncodeOfDecode := by
  intro c i h
  cases c with
  | link bytes => exact encode_decode_link h
  | request q => exact encode_decodeRequest h

/-- Settles O9: reserved is a header that matches no row, whatever follows it. -/
theorem reservedHeadersRejected : Obligations.ReservedHeadersRejected := fun h _ =>
  decodeLink_reserved_iff.trans (linkKind_eq_none_iff h)

/-- Settles O10: reserved is a request whose word matches no row, whatever follows it. -/
theorem reservedRequestsRejected : Obligations.ReservedRequestsRejected := fun q =>
  decodeRequest_reserved_iff.trans (requestKind_eq_none_iff q.word)

/-- Settles O8: fixed words, evaluated. -/
theorem specWordsDecode : Obligations.SpecWordsDecode := by
  unfold Obligations.SpecWordsDecode
  decide
end

section
/-! A reserved request is refused when its turn comes (30_encoding R99). -/

namespace Sys2Proof.Machine

/-- With no input left, with `tick` and with `engine` the step is the engine's move. -/
theorem step_engineMove {s : State} {rest : List Stimulus} (h : s.OneStep rest ∨ s.stimuli = .engine :: rest) :
    ∃ whole, step s = perform (taken whole (engineMove { s with stimuli := rest })) := by
  rcases h with h | h
  · exact ⟨false, step_oneStep h⟩
  · exact ⟨true, by simp only [step, fetch, h]; rfl⟩

end Sys2Proof.Machine

open Sys2Proof Sys2Proof.Machine

/-- Settles O49: the request is the next to be fetched, and it does not decode (`decodeRequest_reserved_iff`). -/
theorem reservedRequestStops : Obligations.ReservedRequestStops := by
  intro s rest r q h hu hk
  obtain ⟨whole, hstep⟩ := step_engineMove h
  have hmove : engineMove { s with stimuli := rest } = .settled (.refused .reservedRequest) := by
    have hu' : State.unbegun { s with stimuli := rest } = some (r, q) := hu
    simp only [engineMove, hu', fetchRequest, decodeRequest_reserved_iff.2 hk, refusalOf]
  rw [hstep, hmove, perform_taken_settled]
end

section
/-! No move of an operation in progress stops: while the link ahead can be walked, nothing that EXECUTE or RECOVER requires can
fail (41_command_link R140 to R145, 42_recovery R171). -/

namespace Sys2Proof.Machine

/-! ### A symbol of a link that can be walked -/

theorem tailOkFrom_frameOk {i : Instr} {rest : List Instr} {k room : Nat} {s : State}
    (h : tailOkFrom k s.inFrame room (i :: rest) = true) : FrameOk i s := by
  simp only [tailOkFrom, Bool.and_eq_true] at h
  obtain ⟨-, h⟩ := h
  cases i with
  | start => exact .inr (.inl rfl)
  | stop => exact .inr (.inr rfl)
  | writeAddressedByte | writeBuffer | readBuffer =>
    simp only [tailOk, Bool.and_eq_true] at h
    exact .inl (by tauto)
  | init | writeThenRead | readByte | writeByte | scan | detectAndLog => cases h

/-- A read the builder let through has a place for each of its bytes (41_command_link R135, R145). -/
theorem symbolOf_ne_overrun {i : Instr} (hi : i.isLink = true) {rest : List Instr} {k : Nat} {s : State}
    (ht : tailOkFrom k s.inFrame s.room (i :: rest) = true) : (symbolOf i k s).1 ≠ .overrun := by
  intro he
  have hdoes := symbolOf_does hi k s
  rcases hr : symbolOf i k s with ⟨p, u⟩
  rw [hr] at hdoes he
  obtain rfl : p = .overrun := he
  cases hdoes with
  | @overrun len ln _ full _ =>
    by_cases hk : k < len.toNat
    · simp only [tailOkFrom, tailOk, Bool.and_eq_true, decide_eq_true_eq] at ht
      obtain ⟨-, ⟨-, hfits⟩, -⟩ := ht
      simp only [State.room] at hfits
      omega
    · simp [symbolOf, symbolOfReadBuffer, hk] at hr

theorem symbolsFrom_ne_overrun {i : Instr} (hi : i.isLink = true) {m k : Nat} {s : State} {rest : List Instr}
    (hm : k + 1 + m = stepCount i) (ht : tailOkFrom k s.inFrame s.room (i :: rest) = true) :
    (symbolsFrom i (m + 1) k s).1 ≠ .overrun := by
  induction m generalizing k s with
  | zero =>
    rw [symbolsFrom, show symbolsFrom i 0 (k + 1) = fun s => (.next, s) from rfl, thenNext_stop]
    exact symbolOf_ne_overrun hi ht
  | succ m ih =>
    rcases symbolsFrom_succ (i := i) (m := m + 1) (k := k) (s := s) with ⟨v, hv, heq⟩ | ⟨-, heq⟩
    · have hdoes := symbolOf_does hi k s
      rw [hv] at hdoes
      rw [heq]
      exact ih (by omega) ((hdoes.tail ht).1 (by rw [stepCount] at hm; omega))
    · rw [heq]
      exact symbolOf_ne_overrun hi ht

theorem settleSymbol_goesOn {i : Instr} {k : Nat} {r : Perform × State} (h : r.1 ≠ .overrun) :
    ∃ t, settleSymbol i k r = .next t := by
  obtain ⟨p, u⟩ := r
  cases p with
  | next => exact ⟨_, settleSymbol_next i k u⟩
  | done | nack | hang => exact ⟨_, rfl⟩
  | overrun => exact absurd rfl h

theorem settle_goesOn {size : Nat} {r : Perform × State} (h : r.1 ≠ .overrun) : ∃ t, settle size r = .next t := by
  obtain ⟨p, u⟩ := r
  cases p with
  | next | done | nack | hang => exact ⟨_, rfl⟩
  | overrun => exact absurd rfl h

/-! ### The moves -/

/-- Outside a recovery pass an operation whose link has no result meets EXECUTE's `require` (41_command_link R140). -/
theorem State.Inv.walking {s : State} (h : s.Inv) (hl : s.lock ≠ .free) (hr : s.linkResult = none)
    (hk : ∀ c, s.point ≠ .recovery c) : s.walking = true := by
  have hlive := h.live hl hr hk
  obtain ⟨-, -, -, -, -, -, -, hwork⟩ := h
  obtain ⟨-, hbuild, -⟩ := (hwork hl).1 hr
  exact State.walking_iff.2 ⟨hlive.phase, hlive.pins.1, hl, hr, hbuild⟩

theorem nackStopStep_goesOn {s : State} (h : s.walking = true) : ∃ t, nackStopStep s = .next t := by
  cases ha : s.env.nextStop with
  | done => exact ⟨_, nackStopStep_done h ha⟩
  | hang => exact ⟨_, nackStopStep_hang h ha⟩

theorem endOfLink_goesOn {s : State} {i : Instr} (h : s.service = some i) (st : Status) : ∃ t, endOfLink st s = .next t := by
  simp only [endOfLink, h]
  split
  · exact ⟨_, rfl⟩
  · exact ⟨_, rfl⟩

theorem symbolStep_goesOn {s : State} {i : Instr} {k : Nat} {rest : List Instr} (h : s.Inv) (hl : s.lock ≠ .free)
    (hr : s.linkResult = none) (hk : s.point = .operation k) (ha : s.LinkAhead i rest)
    (ht : tailOkFrom k s.inFrame s.room (i :: rest) = true) : ∃ t, symbolStep i k s = .next t := by
  have hlink := fetchLinkOp_isLink ha.fetch
  obtain ⟨t, hset⟩ := settleSymbol_goesOn (i := i) (k := k) (symbolOf_ne_overrun hlink ht)
  exact ⟨t, symbolStep_eq_next.2 ⟨hlink, h.walking hl hr (by rw [hk]; nofun), tailOkFrom_frameOk ht, hset⟩⟩

theorem exec_link_goesOn {s : State} {i : Instr} {rest : List Instr} (h : s.Inv) (hl : s.lock ≠ .free)
    (hr : s.linkResult = none) (hk : s.point = .operation 0) (ha : s.LinkAhead i rest)
    (ht : tailOkFrom 0 s.inFrame s.room (i :: rest) = true) : ∃ t, exec i s = .next t := by
  have hlink := fetchLinkOp_isLink ha.fetch
  have hx : s.executing = true := by simp [State.executing, h.walking hl hr (by rw [hk]; nofun), hk]
  obtain ⟨m, hm⟩ : ∃ m, stepCount i = m + 1 := ⟨stepCount i - 1, by rw [stepCount]; omega⟩
  have hne : (symbolsFrom i (stepCount i) 0 s).1 ≠ .overrun := by
    rw [hm]
    exact symbolsFrom_ne_overrun hlink (by omega) ht
  obtain ⟨t, hset⟩ := settle_goesOn (size := linkSize i) hne
  exact ⟨t, (exec_link_eq_next hlink).2 ⟨hx, tailOkFrom_frameOk ht, hset⟩⟩

/-- Before an operation or one of its symbols that is what the engine moves on to. -/
theorem State.LinkAhead.nextMove_eq {s : State} {i : Instr} {rest : List Instr} {k : Nat} (ha : s.LinkAhead i rest)
    (hr : s.linkResult = none) (hk : s.point = .operation k) :
    nextMove s = if k = 0 then .run i s else .settled (symbolStep i k s) := by
  simp [nextMove, hr, hk, ha.inside, ha.fetch]

/-- The move of an operation in progress goes on, whatever the environment answers. -/
theorem takeMove_goesOn {s : State} (whole : Bool) (h : s.Inv) (hp : s.phase ≠ .none) :
    ∃ t, takeMove whole s = .next t := by
  have hl := h.lock_of_phase hp
  cases hr : s.linkResult with
  | some st =>
    obtain ⟨-, ⟨-, hservice, -⟩, -⟩ := h
    obtain ⟨i, hi⟩ := Option.isSome_iff_exists.1 (hservice.2 hl)
    rw [takeMove_settled (nextMove_result hr)]
    exact endOfLink_goesOn hi st
  | none =>
    cases hk : s.point with
    | nackStop =>
      rw [takeMove_settled (nextMove_nackStop hr hk)]
      exact nackStopStep_goesOn (h.walking hl hr (by rw [hk]; nofun))
    | recovery c =>
      obtain ⟨⟨hphase, -⟩, -⟩ := (State.pointOk_recovery hk).1 (h.onWalk hl hr).point
      rw [takeMove_settled (nextMove_recovery hr hk)]
      exact ⟨_, recoveryStep_of c hphase hl⟩
    | operation k =>
      obtain ⟨i, rest, ha, ht⟩ := h.ahead hl hr hk
      have hm := ha.nextMove_eq hr hk
      by_cases h0 : k = 0
      · subst h0
        rw [takeMove_run hm, serve_link (fetchLinkOp_isLink ha.fetch)]
        cases whole with
        | true => exact exec_link_goesOn h hl hr hk ha ht
        | false => exact symbolStep_goesOn h hl hr hk ha ht
      · rw [if_neg h0] at hm
        rw [takeMove_settled hm]
        exact symbolStep_goesOn h hl hr hk ha ht

/-- A move of the run of an operation is the engine's move, of each link operation the whole. -/
theorem smallStep_eq_takeMove (s : State) : smallStep s = takeMove true s := by
  have hc := nextMove_cases s
  unfold smallStep
  split
  · next i u hm =>
    rw [hm] at hc
    cases hc with
    | operation _ _ _ _ hi =>
      have hlink := fetchLinkOp_isLink hi
      rw [takeMove_run hm, serve_link hlink, if_pos rfl, runLinkOp_eq_exec hlink]
  · next o hm => rw [takeMove_settled hm]

end Sys2Proof.Machine
end

section
/-! The run of an operation ends within its bound (70_reset R284): every move leaves fewer to come. -/

namespace Sys2Proof.Machine

/-! ### How many moves are left -/

/-- How many link operations stand ahead of the sequencer. -/
def State.opsAhead (s : State) : Nat :=
  match s.linkAhead with
  | none => 0
  | some bytes =>
    match decodeLinkOps bytes.length bytes with
    | .ok ops => ops.length
    | .error _ => 0

/-- The moves the present link has left: one for each operation ahead, and its end. -/
def State.linkMoves (s : State) : Nat := if s.linkResult = none then s.opsAhead + 1 else 1

/-- The moves of the probes after the present one: three operations and the end of the link for each (44_scanner R210, R211). -/
def State.probeMoves (s : State) : Nat :=
  if s.service.any Instr.isScan then 4 * (127 - s.scanAddr.toNat) else 0

/-- A bound of the moves an operation in progress has left. -/
def State.movesLeft (s : State) : Nat := s.linkMoves + s.probeMoves

theorem State.opsAhead_of {s : State} {bytes : List Byte} {ops : List Instr} (ha : s.linkAhead = some bytes)
    (hd : decodeLinkOps bytes.length bytes = .ok ops) : s.opsAhead = ops.length := by
  simp [State.opsAhead, ha, hd]

theorem State.linkMoves_result {s : State} (h : s.linkResult ≠ none) : s.linkMoves = 1 := if_neg h

theorem State.linkMoves_walk {s : State} (h : s.linkResult = none) : s.linkMoves = s.opsAhead + 1 := if_pos h

theorem State.probeMoves_of {s t : State} (hs : t.service = s.service) (ha : t.scanAddr = s.scanAddr) :
    t.probeMoves = s.probeMoves := by
  rw [State.probeMoves, State.probeMoves, hs, ha]

/-! ### A link operation, whole -/

/-- EXECUTE has its result. -/
def State.LinkOver (s : State) : Prop := s.linkResult ≠ none ∧ s.point = .operation 0

theorem endLink_over (s : State) (st : Status) : (s.endLink st).LinkOver := ⟨nofun, rfl⟩

theorem timeoutAbort_over (s : State) : (timeoutAbort s).LinkOver := by
  rw [timeoutAbort]
  rcases recover (takeTimeoutTrap s) with ⟨_ | _, u⟩
  · exact endLink_over u .timeout
  · exact endLink_over _ .configurationFault

theorem nackAbort_over (s : State) : (nackAbort s).LinkOver := by
  rw [nackAbort]
  rcases phyStop s with ⟨_ | _, u⟩
  · exact endLink_over u .nack
  · exact timeoutAbort_over u

/-- After a link operation, whole, the engine stands before the next one or the link is over; in either case it has a move
less to make. -/
theorem exec_link_linkMoves {s t : State} {i : Instr} {rest : List Instr} (hr : s.linkResult = none)
    (hk : s.point = .operation 0) (ha : s.LinkAhead i rest) (h : exec i s = .next t) :
    t.point = .operation 0 ∧ t.linkMoves < s.linkMoves := by
  obtain ⟨bytes, hbytes, hops⟩ := ha.whole
  have hs : s.linkMoves = rest.length + 2 := by
    rw [State.linkMoves_walk hr, State.opsAhead_of hbytes hops, List.length_cons]
  have hover (ht : t.LinkOver) : t.point = .operation 0 ∧ t.linkMoves < s.linkMoves :=
    ⟨ht.2, by rw [State.linkMoves_result ht.1]; omega⟩
  obtain ⟨-, -, h⟩ := (exec_link_eq_next (fetchLinkOp_isLink ha.fetch)).1 h
  have hp := symbolsFrom_performs i (stepCount i) 0 s
  rcases hsym : symbolsFrom i (stepCount i) 0 s with ⟨p, u⟩
  rw [hsym] at h hp
  cases p with
  | next =>
    cases h
    obtain ⟨front, more, hahead, hlen, hmore⟩ := ha.after
    have hadv : State.linkAhead { u with seqPtr := u.seqPtr + linkSize i } = some more :=
      State.linkAhead_advance hp.frame.cb hp.frame.sb hp.frame.cbLen hp.frame.sbLen hp.frame.seqSel
        (by rw [hlen, ← hp.seqPtr]) hahead
    have hnone : State.linkResult { u with seqPtr := u.seqPtr + linkSize i } = none := hp.linkResult.trans hr
    refine ⟨hp.point.trans hk, ?_⟩
    rw [hs, State.linkMoves_walk hnone, State.opsAhead_of hadv hmore]
    omega
  | done => cases h; exact hover (endLink_over _ .ok)
  | nack => cases h; exact hover (nackAbort_over u)
  | hang => cases h; exact hover (timeoutAbort_over u)
  | overrun => cases h

/-! ### A link submitted -/

/-- A link of `n` operations has one move for each of them, and its end. -/
theorem submitBuilt_linkMoves {sel : Sel} {ops : List Instr} {s t : State} (h : Constructed sel ops s t)
    (hk : s.point = .operation 0) :
    (submitBuilt sel t).point = .operation 0 ∧ (submitBuilt sel t).linkMoves ≤ ops.length + 1 := by
  unfold submitBuilt
  split
  · refine ⟨h.safe.point.trans hk, ?_⟩
    rw [State.linkMoves_result (by simp)]
    omega
  · next he =>
    obtain ⟨hbuilt, -⟩ := h.built (by simpa using he)
    refine ⟨rfl, le_of_eq ?_⟩
    rw [State.linkMoves_walk rfl, State.opsAhead_of (submit_linkAhead hbuilt _) (decodeLinkOps_linkBytesOf h.links)]

theorem submitBuilt_probeMoves (sel : Sel) (s : State) : (submitBuilt sel s).probeMoves = s.probeMoves := by
  unfold submitBuilt
  split
  · rfl
  · rfl

theorem BuildFrame.probeMoves {s t : State} (h : BuildFrame s t) : t.probeMoves = s.probeMoves :=
  State.probeMoves_of h.service h.scanAddr

theorem beginProbe_movesLeft {s : State} (hk : s.point = .operation 0) :
    (beginProbe s).point = .operation 0 ∧ (beginProbe s).movesLeft ≤ 4 + s.probeMoves := by
  obtain ⟨hpoint, hlink⟩ := submitBuilt_linkMoves (buildProbe_constructed (scanAddress s.scanAddr) s) hk
  refine ⟨hpoint, Nat.add_le_add hlink (le_of_eq ?_)⟩
  exact (submitBuilt_probeMoves ..).trans (buildProbe_frame ..).probeMoves

theorem transactionOps_length (a : Addr7) (data : List Byte) (rlen : Byte) : (transactionOps a data rlen).length ≤ 7 := by
  unfold transactionOps
  split <;> split <;> simp

theorem beginTransaction_movesLeft {s : State} (hk : s.point = .operation 0) (a : Addr7) {data : List Byte}
    (hd : data.length ≤ 255) (rlen : Byte) :
    (beginTransaction a data rlen s).point = .operation 0 ∧
      (beginTransaction a data rlen s).movesLeft ≤ 8 + s.probeMoves := by
  obtain ⟨hpoint, hlink⟩ := submitBuilt_linkMoves (buildTransaction_constructed a hd rlen s) hk
  have hops := transactionOps_length a data rlen
  refine ⟨hpoint, Nat.add_le_add (hlink.trans (by omega)) (le_of_eq ?_)⟩
  exact (submitBuilt_probeMoves ..).trans (buildTransaction_frame ..).probeMoves

/-! ### The end of a link -/

/-- The operation has completed, or it stands before a link operation or the end of a link and has fewer than `n` moves left. -/
def EndsWithin (n : Nat) (t : State) : Prop := t.phase = .none ∨ (t.point = .operation 0 ∧ t.movesLeft < n)

theorem nextProbe_within {i : Instr} {s : State} (hk : s.point = .operation 0) (hi : s.service = some i)
    (hscan : i.isScan = true) (ha : s.scanAddr.toNat < 128) : EndsWithin (1 + s.probeMoves) (nextProbe i s) := by
  unfold nextProbe
  dsimp only
  split
  · next hmore =>
    obtain ⟨hpoint, hleft⟩ := beginProbe_movesLeft (s := { s with scanAddr := s.scanAddr + 1 }) hk
    have hlt : (s.scanAddr + 1).toNat < 128 := hmore
    have hnext : (s.scanAddr + 1).toNat = s.scanAddr.toNat + 1 := by bv_omega
    refine .inr ⟨hpoint, lt_of_le_of_lt hleft ?_⟩
    simp only [State.probeMoves, hi, Option.any_some, hscan, if_true]
    omega
  · exact .inl rfl

theorem endProbe_within {i : Instr} {st : Status} {s : State} (hk : s.point = .operation 0) (hi : s.service = some i)
    (hscan : i.isScan = true) (ha : s.scanAddr.toNat < 128) : EndsWithin (1 + s.probeMoves) (endProbe i st s) := by
  have hnext : EndsWithin (1 + s.probeMoves) (nextProbe i (recordProbe st (linkEnd .selSb s))) := by
    obtain ⟨set, hset⟩ := recordProbe_eq st (linkEnd .selSb s)
    rw [hset]
    exact nextProbe_within (s := { linkEnd .selSb s with aset := set }) hk hi hscan ha
  cases st with
  | ok | nack | noMemory => exact hnext
  | timeout | configurationFault => exact .inl rfl

theorem endOfLink_within {st : Status} {s t : State} (h : s.Inv) (hk : s.point = .operation 0)
    (hr : s.linkResult = some st) (ht : endOfLink st s = .next t) : EndsWithin s.movesLeft t := by
  unfold endOfLink at ht
  split at ht
  · cases ht
  · next i hi =>
    obtain ⟨-, -, -, hscan⟩ := h.tornDown hr hi
    split at ht
    · next hs =>
      cases ht
      rw [State.movesLeft, State.linkMoves_result (by rw [hr]; nofun)]
      exact endProbe_within hk hi hs (hscan hs)
    · cases ht; exact .inl rfl

/-! ### The run of an operation -/

/-- A move of the run of an operation goes on, and leaves fewer moves to come. -/
theorem smallStep_within {s : State} (h : s.Inv) (hp : s.phase ≠ .none) (hk : s.point = .operation 0) :
    ∃ t, smallStep s = .next t ∧ EndsWithin s.movesLeft t := by
  obtain ⟨t, ht⟩ := takeMove_goesOn true h hp
  rw [← smallStep_eq_takeMove] at ht
  refine ⟨t, ht, ?_⟩
  cases hr : s.linkResult with
  | some st =>
    rw [smallStep_result hr] at ht
    exact endOfLink_within h hk hr ht
  | none =>
    obtain ⟨i, rest, ha, -⟩ := h.ahead (h.lock_of_phase hp) hr hk
    have hlink := fetchLinkOp_isLink ha.fetch
    rw [smallStep_eq_takeMove, takeMove_run (ha.nextMove_eq hr hk), serve_link hlink, if_pos rfl] at ht
    obtain ⟨hpoint, hmoves⟩ := exec_link_linkMoves hr hk ha ht
    obtain ⟨-, -, hset⟩ := (exec_link_eq_next hlink).1 ht
    have hf := settle_frame (symbolsFrom_performs ..).frame hset
    refine .inr ⟨hpoint, ?_⟩
    rw [State.movesLeft, State.movesLeft, State.probeMoves_of hf.service hf.scanAddr]
    omega

/-- An operation in progress runs to its completion within as many moves as it has left. -/
theorem drive_goesOn {n : Nat} {s : State} (h : s.Inv) (hs : EndsWithin (n + 1) s) : ∃ t, drive n s = .next t := by
  induction n generalizing s with
  | zero =>
    rcases hs with hp | ⟨-, hleft⟩
    · exact ⟨s, drive_idle hp 0⟩
    · have : 1 ≤ s.linkMoves := by unfold State.linkMoves; split <;> omega
      rw [State.movesLeft] at hleft
      omega
  | succ n ih =>
    by_cases hp : s.phase = .none
    · exact ⟨s, drive_idle hp _⟩
    · obtain ⟨hk, hleft⟩ := hs.resolve_left hp
      obtain ⟨u, hu, hwithin⟩ := smallStep_within h hp hk
      rw [drive_step_next hp hu]
      refine ih ((smallStep_moved hu).inv h hp) (hwithin.imp_right fun hw => ⟨hw.1, ?_⟩)
      have := hw.2
      omega

/-- Every host operation begins with no more moves to come than the bound of its run (log 23). -/
theorem beginBody_within {i : Instr} {s : State} (hk : s.point = .operation 0) (hi : s.service = some i)
    (hl : i.isLocked = true) (hw : i.WellFormed) : EndsWithin 521 (beginBody i s) := by
  have htransaction (hscan : i.isScan = false) (a : Addr7) {data : List Byte} (hd : data.length ≤ 255) (rlen : Byte) :
      EndsWithin 521 (beginTransaction a data rlen s) := by
    obtain ⟨hpoint, hleft⟩ := beginTransaction_movesLeft hk a hd rlen
    have hnone : s.probeMoves = 0 := by simp [State.probeMoves, hi, hscan]
    exact .inr ⟨hpoint, by omega⟩
  have hscanner : EndsWithin 521 (beginScanner s) := by
    obtain ⟨hpoint, hleft⟩ := beginProbe_movesLeft (s := { s with aset := 0, scanAddr := 0 }) hk
    have hmost : State.probeMoves { s with aset := 0, scanAddr := 0 } ≤ 508 := by
      simp only [State.probeMoves]
      split <;> omega
    exact .inr ⟨hpoint, lt_of_le_of_lt hleft (by omega)⟩
  cases i with
  | writeThenRead a data rlen =>
    have hd : data.length ≤ 255 := by simpa only [Instr.WellFormed, Instr.wellFormed, fitsLength, decide_eq_true_eq] using hw
    exact htransaction rfl a hd rlen
  | readByte a reg => exact htransaction rfl a (by simp) 1
  | writeByte a reg value => exact htransaction rfl a (by simp) 0
  | scan | detectAndLog => exact hscanner
  | start | writeAddressedByte | writeBuffer | readBuffer | stop | init => cases hl

/-- A locked operation that finds the lock free runs to its completion (70_reset R284). -/
theorem runLocked_goesOn {i : Instr} {s : State} (h : s.Inv) (hm : s.mode ≠ .uninit) (hl : s.lock = .free)
    (hp : (Assoc.get s.ports s.cur).isSome) (hi : i.isLocked = true) (hw : i.WellFormed) :
    ∃ t, runLocked i s = .next t := by
  rw [runLocked, if_neg hm, if_pos hl]
  refine drive_goesOn (beginLocked_inv h hm hl hp hi hw) ?_
  have hwithin : EndsWithin 521 (beginLocked i s) := by
    obtain ⟨hrests, hserves⟩ := h.granted hm hl hp hi
    unfold beginLocked
    dsimp only
    split
    · exact .inl rfl
    · exact beginBody_within hrests.point hserves.service hi hw
  exact hwithin.imp_right fun ⟨hk, hleft⟩ => ⟨hk, by simp only [driveBound]; omega⟩

end Sys2Proof.Machine
end

section
/-! From the invariant a step goes on, or a requester has breached its duties (40_init R121, 30_encoding R99, 60_exceptions
R250). -/

namespace Sys2Proof.Machine

/-- What may come of a step: a next state, or a refusal that a requester's breach of its duties causes. -/
inductive CallersOnly : Result → Prop where
  | goesOn (t : State) : CallersOnly (.next t)
  | refused {r : Refusal} (h : r.isCallers = true) : CallersOnly (.refused r)

theorem CallersOnly.of_goesOn {o : Result} (h : ∃ t, o = .next t) : CallersOnly o := by
  obtain ⟨t, rfl⟩ := h
  exact .goesOn t

/-! ### A request taken up -/

theorem execInit_callersOnly (port sda scl : Byte) (speed : Word32) (s : State) :
    CallersOnly (execInit port sda scl speed s) := by
  unfold execInit
  split
  · exact .refused rfl
  · split
    · exact .refused rfl
    · split
      · exact .goesOn _
      · cases ha : s.env.nextHal with
        | ok => rw [hal_ok ha]; exact .goesOn _
        | fail => rw [hal_fail ha]; exact .goesOn _

/-- A locked operation taken up, whole or only its first step: refused before INIT, else it waits, begins, or completes. -/
theorem serve_locked_callersOnly {i : Instr} {s : State} (whole : Bool) (h : s.Inv) (hi : i.isLocked = true)
    (hw : i.WellFormed) (hp : (Assoc.get s.ports s.cur).isSome) : CallersOnly (serve whole i s) := by
  rw [serve_locked hi]
  by_cases hm : s.mode = .uninit
  · simp only [runLocked, issueLocked, hm, if_true, ite_self]
    exact .refused rfl
  · by_cases hl : s.lock = .free
    · cases whole with
      | true => exact .of_goesOn (runLocked_goesOn h hm hl hp hi hw)
      | false =>
        simp only [issueLocked, hm, hl, if_true, if_false, Bool.false_eq_true]
        exact .goesOn _
    · simp only [runLocked, issueLocked, hm, hl, if_false, ite_self]
      exact .goesOn _

theorem serve_host_callersOnly {i : Instr} {s : State} (whole : Bool) (h : s.Inv) (hi : HostOp i)
    (hp : (Assoc.get s.ports s.cur).isSome) : CallersOnly (serve whole i s) := by
  cases i with
  | init port sda scl speed =>
    have hserve : serve whole (.init port sda scl speed) s = execInit port sda scl speed s := by cases whole <;> rfl
    rw [hserve]
    exact execInit_callersOnly ..
  | writeThenRead | readByte | writeByte | scan | detectAndLog =>
    exact serve_locked_callersOnly whole h rfl hi.wellFormed hp
  | start | writeAddressedByte | writeBuffer | readBuffer | stop => cases hi.link

theorem fetchRequest_callersOnly {r : Nat} {q : RawRequest} {s : State} (whole : Bool) (h : s.Inv)
    (hp : (Assoc.get s.ports r).isSome) : CallersOnly (perform (taken whole (fetchRequest r q s))) := by
  unfold fetchRequest
  split
  · next i hi =>
    rw [perform_taken_run]
    exact serve_host_callersOnly whole (h.fetched r s.env).1 (decodeRequest_ok hi) hp
  · next e he =>
    rw [perform_taken_settled]
    rcases decodeRequest_error he with ⟨-, rfl⟩ | ⟨-, rfl⟩
    · exact .refused rfl
    · exact .refused rfl

/-! ### A step -/

theorem State.Inv.waiter_port {s : State} {r : Nat} (h : s.Inv) (hr : r ∈ s.waiters) : (Assoc.get s.ports r).isSome := by
  obtain ⟨⟨-, -, -, -, -, hwaits⟩, -⟩ := h
  exact hwaits r hr

theorem grant_callersOnly {s : State} (whole : Bool) (h : s.Inv) : CallersOnly (perform (taken whole (grant s))) := by
  unfold grant
  split
  · rw [perform_taken_settled]; exact .goesOn s
  · split
    · rw [perform_taken_settled]; exact .goesOn s
    · next r hpick =>
      have hport := h.waiter_port (Waiters.pick_mem hpick)
      split
      · next hnone => rw [hnone] at hport; cases hport
      · exact fetchRequest_callersOnly whole (h.fetched s.cur s.env.dropPick).1 hport

theorem engineMove_callersOnly {s : State} (whole : Bool) (h : s.Inv) :
    CallersOnly (perform (taken whole (engineMove s))) := by
  unfold engineMove
  split
  · next r q hu => exact fetchRequest_callersOnly whole h (unbegun_some hu).1
  · split
    · exact grant_callersOnly whole h
    · next hp =>
      have hmove := takeMove_goesOn whole h hp
      split
      · next i u hm => rw [takeMove_run hm] at hmove; exact .of_goesOn hmove
      · next o hm => rw [takeMove_settled hm] at hmove; rw [perform_taken_settled]; exact .of_goesOn hmove

theorem present_callersOnly (r : Nat) (q : RawRequest) (s : State) : CallersOnly (present r q s) := by
  unfold present
  split
  · exact .refused rfl
  · split
    · exact .refused rfl
    · dsimp only
      split
      · exact .goesOn _
      · exact .goesOn _

theorem step_callersOnly {s : State} (h : s.Inv) : CallersOnly (step s) := by
  unfold step fetch
  split
  · exact engineMove_callersOnly false h
  · next rest _ => exact engineMove_callersOnly (s := { s with stimuli := rest }) false h
  · next rest _ => exact engineMove_callersOnly (s := { s with stimuli := rest }) true h
  · exact present_callersOnly ..
  · exact .goesOn _

end Sys2Proof.Machine

open Sys2Proof Sys2Proof.Machine

/-- Settles O5: a move of the operation in progress goes on (`takeMove_goesOn`), the run of an operation ends within its bound
(`runLocked_goesOn`), and what is left to be refused is what a requester presents. -/
theorem onlyCallersAreRefused : Obligations.OnlyCallersAreRefused := by
  intro s h
  cases hs : step s with
  | next t => exact ⟨nofun, nofun⟩
  | fault f =>
    have hc := step_callersOnly h
    rw [hs] at hc
    cases hc
  | refused r =>
    have hc := step_callersOnly h
    rw [hs] at hc
    cases hc with
    | refused hr => exact ⟨nofun, fun r' he => by cases he; exact hr⟩
end

section
/-! INIT and the operations out of its order (40_init R120 to R122). -/

namespace Sys2Proof.Machine

/-! ### An operation out of order (R121) -/

theorem exec_locked_beforeInit {i : Instr} {s : State} (hi : i.isLocked = true) (hm : s.mode = .uninit) :
    exec i s = .refused .beforeInit := by
  rw [exec_locked hi, runLocked, if_pos hm]

section
variable {s : State} (port sda scl : Byte) {speed : Word32}

theorem exec_init_again (hm : s.mode ≠ .uninit) : exec (.init port sda scl speed) s = .refused .initAgain :=
  if_pos hm

theorem exec_init_concurrent (hm : s.mode = .uninit) (ho : s.othersOutstanding = true) :
    exec (.init port sda scl speed) s = .refused .initConcurrent := by
  rw [exec, execInit, if_neg (not_not.2 hm), if_pos ho]

/-! ### INIT alone in UNINIT (R120) -/

theorem State.lock_free_of_alone (ho : s.othersOutstanding = false) : s.lock = .free := by
  simp only [State.othersOutstanding, Bool.or_eq_false_iff, bne_eq_false_iff_eq] at ho
  exact ho.1

/-- With the lock free INIT answers the requester being served. -/
theorem completeInit_of_free (hl : s.lock = .free) (st : Status) : completeInit st s = s.deliver s.cur (.status st) := by
  rw [completeInit, State.requester, hl]

theorem exec_init_speedZero (hm : s.mode = .uninit) (ho : s.othersOutstanding = false) (hz : speed = 0) :
    exec (.init port sda scl speed) s = .next (s.deliver s.cur (.status .configurationFault)) := by
  rw [exec, execInit, if_neg (not_not.2 hm), if_neg (Bool.not_eq_true _ ▸ ho), if_pos hz,
    completeInit_of_free (State.lock_free_of_alone ho)]

/-- With a speed the configure call is made, and its answer decides. -/
theorem exec_init_speed (hm : s.mode = .uninit) (ho : s.othersOutstanding = false) (hz : speed ≠ 0) :
    exec (.init port sda scl speed) s =
      let r := hal (.engCfg port sda scl speed) .engCfg s
      .next (if r.1 = .ok then completeInit .ok (initialised port sda scl speed r.2)
        else completeInit .configurationFault r.2) := by
  rw [exec, execInit, if_neg (not_not.2 hm), if_neg (Bool.not_eq_true _ ▸ ho), if_neg hz]
  rcases hal (.engCfg port sda scl speed) .engCfg s with ⟨_ | _, t⟩ <;> rfl

theorem exec_init_ok (hm : s.mode = .uninit) (ho : s.othersOutstanding = false) (hz : speed ≠ 0)
    (ha : s.env.nextHal = .ok) :
    exec (.init port sda scl speed) s = .next ((initialised port sda scl speed { s with
      env := s.env.dropHal, wire := s.wire ++ [.engCfg port sda scl speed] }).deliver s.cur (.status .ok)) := by
  rw [exec_init_speed port sda scl hm ho hz, hal_ok ha]
  rfl

theorem exec_init_fail (hm : s.mode = .uninit) (ho : s.othersOutstanding = false) (hz : speed ≠ 0)
    (ha : s.env.nextHal = .fail) :
    exec (.init port sda scl speed) s = .next (State.deliver { s with
      env := s.env.dropHal, wire := s.wire ++ [.engCfg port sda scl speed, .fail .engCfg] }
      s.cur (.status .configurationFault)) := by
  rw [exec_init_speed port sda scl hm ho hz, hal_fail ha]
  exact congrArg Host.Outcome.next ((if_neg nofun).trans (completeInit_of_free (by exact State.lock_free_of_alone ho) _))

end

end Sys2Proof.Machine

open Sys2Proof Sys2Proof.Machine

/-- Settles O26: the three ways INIT ends when it is alone, each with its whole next state. -/
theorem initCompletes : Obligations.InitCompletes := fun _ port sda scl _ hm ho =>
  ⟨exec_init_ok port sda scl hm ho, exec_init_speedZero port sda scl hm ho, exec_init_fail port sda scl hm ho⟩

/-- Settles O27: the three orders R121 forbids, each refused by the test it meets first. -/
theorem outOfOrderOperationsRefused : Obligations.OutOfOrderOperationsRefused :=
  ⟨fun _ _ => exec_locked_beforeInit, fun _ port sda scl _ => exec_init_again port sda scl,
    fun _ port sda scl _ => exec_init_concurrent port sda scl⟩
end

section
/-! One append of the link builder, and the builder steps as appends of the bytes their rules write out (41_command_link R131 to
R136). -/

namespace Sys2Proof.Machine

/-! ### APPEND -/

/-- The byte a range write stored at an index. -/
theorem Memory.read_writeRange_inside (m : Memory) (a : Nat) (bs : List Byte) {k : Nat} (hk : k < bs.length) :
    (m.writeRange a bs).read (a + k) = bs[k]? := by
  induction bs generalizing m a k with
  | nil => cases hk
  | cons b bs ih =>
    rw [Memory.writeRange]
    cases k with
    | zero => rw [Memory.read_writeRange_outside _ _ _ (.inl (by omega)), Nat.add_zero, Memory.read_write_same]; rfl
    | succ k =>
      rw [List.length_cons] at hk
      rw [show a + (k + 1) = a + 1 + k by omega, ih _ _ (by omega), List.getElem?_cons_succ]

/-- An append that does not fit. -/
theorem append_full {sel : Sel} {bytes : List Byte} {s : State} (he : s.buildErr = false)
    (full : s.cap sel < s.len sel + bytes.length) : append sel bytes s = { s with buildErr := true } := by
  simp [append, he, overflows, full]

/-- An append that fits, an exact fill included. -/
theorem append_fits {sel : Sel} {bytes : List Byte} {s : State} (he : s.buildErr = false)
    (fits : s.len sel + bytes.length ≤ s.cap sel) :
    append sel bytes s
      = (s.setBuf sel ((s.buf sel).writeRange (s.len sel) bytes)).setLen sel (s.len sel + bytes.length) := by
  simp [append, he, overflows, fits]

/-! ### APPEND_RBUF -/

/-- A read longer than RD_CAPACITY fails the construction and writes nothing (41_command_link R135). -/
theorem appendRbuf_full {sel : Sel} {n : Byte} {ln : Bool} {s : State} (he : s.buildErr = false)
    (full : s.params.rdCapacity < n.toNat) : appendRbuf sel n ln s = { s with buildErr := true } := by
  simp [appendRbuf, he, readOverflows, full]

end Sys2Proof.Machine

open Sys2Proof Sys2Proof.Machine

/-- Settles O13: the three branches of APPEND; the buffer it leaves is a range write, which is known index by index. -/
theorem appendFollowsItsRule : Obligations.AppendFollowsItsRule := fun sel bytes s =>
  ⟨append_failed, append_full, fun he fits =>
    ⟨(s.buf sel).writeRange (s.len sel) bytes, append_fits he fits,
      fun _ hk => Memory.read_writeRange_inside _ _ _ hk, fun _ hx => Memory.read_writeRange_outside _ _ _ hx⟩⟩

/-- Settles O14: each step appends the encoding of its operation, whose bytes are those its rule writes out. -/
theorem builderStepsAppendTheirBytes : Obligations.BuilderStepsAppendTheirBytes := fun _ _ _ _ _ =>
  ⟨rfl, rfl, rfl, rfl, fun he _ => appendRbuf_failed he, fun he full _ => appendRbuf_full he full,
    fun fits => ⟨appendRbuf_fits fits, appendRbuf_fits fits⟩, rfl⟩
end

section
/-! A link operation run whole: where it stops, and its effect for every answer of the environment (41_command_link R140 to
R147). -/

namespace Sys2Proof.Machine

/-! ### Where a link operation runs -/

/-- The body of a link operation, all its symbols: `perform(op)` (41_command_link R140). A host operation has none. -/
def performLinkOp (i : Instr) (s : State) : Perform × State :=
  match i with
  | .start => performStart s
  | .writeAddressedByte b ackreq => performWriteAddressedByte b ackreq s
  | .writeBuffer data => performWriteBuffer data s
  | .readBuffer len ln => performReadBuffer ln len.toNat s
  | .stop => performStop s
  | .init _ _ _ _ => (.next, s)
  | .writeThenRead _ _ _ => (.next, s)
  | .readByte _ _ => (.next, s)
  | .writeByte _ _ _ => (.next, s)
  | .scan => (.next, s)
  | .detectAndLog => (.next, s)

section
variable {i : Instr} {s : State}

/-- It is the operation's symbols in order (00_scope R3). -/
theorem performLinkOp_eq_symbolsFrom (hl : i.isLink = true) : performLinkOp i s = symbolsFrom i (stepCount i) 0 s := by
  cases i with
  | start => exact (symbolsFrom_one .start s).symm
  | stop => exact (symbolsFrom_one .stop s).symm
  | writeAddressedByte b ackreq => exact (symbolsFrom_one (.writeAddressedByte b ackreq) s).symm
  | writeBuffer data =>
    cases data with
    | nil => rfl
    | cons b bs => simpa [performLinkOp, stepCount, symbolCount] using (symbolsFrom_writeBuffer [] (b :: bs) s).symm
  | readBuffer len ln =>
    by_cases h0 : len.toNat = 0
    · simp [performLinkOp, performReadBuffer, stepCount, symbolCount, h0, symbolsFrom_one, symbolOf, symbolOfReadBuffer]
    · have hmax : stepCount (.readBuffer len ln) = len.toNat := by simp only [stepCount, symbolCount]; omega
      rw [hmax]
      exact (symbolsFrom_readBuffer len ln len.toNat 0 (by omega) s).symm
  | init | writeThenRead | readByte | writeByte | scan | detectAndLog => cases hl

theorem performLinkOp_performs (hl : i.isLink = true) : Performs s (performLinkOp i s).2 := by
  rw [performLinkOp_eq_symbolsFrom hl]
  exact symbolsFrom_performs ..

/-- Where a link operation goes on, EXECUTE has performed it and gone on with the outcome. -/
theorem settle_of_exec_link {t : State} (hl : i.isLink = true) (h : exec i s = .next t) :
    settle (linkSize i) (performLinkOp i s) = .next t := by
  obtain ⟨-, -, h⟩ := (exec_link_eq_next hl).1 h
  rwa [performLinkOp_eq_symbolsFrom hl]

/-- Outside EXECUTE, or in the middle of another operation (41_command_link R140; log 17). -/
theorem exec_link_notExecuting (hl : i.isLink = true) (hx : s.executing = false) : exec i s = .fault .notExecuting := by
  have hstops (k : Result) : inExecute s k = .fault .notExecuting := by simp [inExecute, hx]
  cases i with
  | start | writeAddressedByte | writeBuffer | readBuffer | stop => exact hstops _
  | init | writeThenRead | readByte | writeByte | scan | detectAndLog => cases hl

/-- A data operation outside a frame (41_command_link R143 to R145). -/
theorem exec_link_unframed (hl : i.isLink = true) (hx : s.executing = true) (hf : ¬FrameOk i s) :
    exec i s = .refused .dataOutsideFrame := by
  obtain ⟨hframe, hstart, hstop⟩ : s.inFrame = false ∧ i ≠ .start ∧ i ≠ .stop := by simpa [FrameOk] using hf
  have hstops (k : Result) : inExecute s (inOpenFrame s k) = .refused .dataOutsideFrame := by
    simp [inExecute, hx, inOpenFrame, hframe]
  cases i with
  | start => exact absurd rfl hstart
  | stop => exact absurd rfl hstop
  | writeAddressedByte | writeBuffer | readBuffer => exact hstops _
  | init | writeThenRead | readByte | writeByte | scan | detectAndLog => cases hl

/-- Everywhere else EXECUTE performs it and goes on with the outcome. -/
theorem exec_link_of (hl : i.isLink = true) (hx : s.executing = true) (hf : FrameOk i s) :
    exec i s = settle (linkSize i) (performLinkOp i s) := by
  have hopen (k : Result) : inExecute s k = k := by simp [inExecute, hx]
  have hframed (k : Result) (h : s.inFrame = true) : inExecute s (inOpenFrame s k) = k := by
    rw [hopen, inOpenFrame_of h]
  cases i with
  | start | stop => exact hopen _
  | writeAddressedByte | writeBuffer | readBuffer => exact hframed _ (by simpa [FrameOk] using hf)
  | init | writeThenRead | readByte | writeByte | scan | detectAndLog => cases hl

end

/-! ### The aborts -/

theorem nackAbort_done {s : State} (h : s.env.nextStop = .done) :
    nackAbort s = State.endLink { s with env := s.env.dropStop, wire := s.wire ++ [.p], inFrame := false } .nack := by
  rw [nackAbort, phyStop_done h]

theorem nackAbort_hang {s : State} (h : s.env.nextStop = .hang) :
    nackAbort s = timeoutAbort { s with env := s.env.dropStop } := by
  rw [nackAbort, phyStop_hang h]

/-! ### The bodies -/

theorem performStart_done {s : State} (h : s.env.nextStart = .done) :
    performStart s = (.next, { s with
      env := s.env.dropStart, wire := s.wire ++ [startEvent s.inFrame], inFrame := true }) := by
  rw [performStart, phyStart_done h]

theorem performStart_hang {s : State} (h : s.env.nextStart = .hang) :
    performStart s = (.hang, { s with env := s.env.dropStart }) := by
  rw [performStart, phyStart_hang h]

theorem performStop_done {s : State} (h : s.env.nextStop = .done) :
    performStop s = (.done, { s with env := s.env.dropStop, wire := s.wire ++ [.p], inFrame := false }) := by
  rw [performStop, phyStop_done h]

theorem performStop_hang {s : State} (h : s.env.nextStop = .hang) :
    performStop s = (.hang, { s with env := s.env.dropStop }) := by
  rw [performStop, phyStop_hang h]

/-- The byte is acknowledged, or nobody asks whether it is (41_command_link R143). -/
theorem performWriteAddressedByte_next {s : State} (b : Byte) {ackreq : Bool} {a : Ack} (h : s.env.nextWrite = a.answer)
    (ha : a = .ack ∨ ackreq = false) :
    performWriteAddressedByte b ackreq s = (.next, { s with env := s.env.dropWrite, wire := s.wire ++ [.w b a] }) := by
  rw [performWriteAddressedByte]
  cases a with
  | ack => rw [phyWrite_ack b h]
  | nack =>
    obtain rfl : ackreq = false := by simpa using ha
    rw [phyWrite_nack b h]
    rfl

/-- With ACKREQ = 1 the byte is acknowledge-checked like one of WRITE_BUFFER's (41_command_link R143, R144). -/
theorem performWriteAddressedByte_checked (b : Byte) : performWriteAddressedByte b true = sendByte b := rfl

theorem performWriteAddressedByte_hang {s : State} (b : Byte) (ackreq : Bool) (h : s.env.nextWrite = .hang) :
    performWriteAddressedByte b ackreq s = (.hang, { s with env := s.env.dropWrite }) := by
  rw [performWriteAddressedByte, phyWrite_hang b h]

/-! ### The loops, up to the answer that ends them -/

/-- The answers ahead up to and with number `n`, where the ones before it are known. -/
theorem Tape.ahead_concat {α : Type} {free : Nat → α} {t : Tape α} {xs : List α} {x : α}
    (h : t.ahead free (xs.length + 1) = xs ++ [x]) : t.ahead free xs.length = xs ∧ (t.skip xs.length).head free = x := by
  rw [Tape.ahead_add] at h
  obtain ⟨hxs, hx⟩ := List.append_inj h (Tape.length_ahead ..)
  exact ⟨hxs, (List.cons.inj hx).1⟩

theorem Env.nextWrites_concat {e : Env} {n : Nat} {x : WriteAnswer}
    (h : e.nextWrites (n + 1) = List.replicate n .ack ++ [x]) :
    e.nextWrites n = List.replicate n .ack ∧ (e.writes.skip n).head Config.freeWrite = x := by
  have hcut := Tape.ahead_concat (t := e.writes) (free := Config.freeWrite) (xs := List.replicate n .ack) (x := x)
  rw [List.length_replicate] at hcut
  exact hcut h

theorem Env.nextReads_concat {e : Env} {vs : List Byte} {x : ReadAnswer}
    (h : e.nextReads (vs.length + 1) = vs.map .byte ++ [x]) :
    e.nextReads vs.length = vs.map .byte ∧ (e.reads.skip vs.length).head Config.freeRead = x := by
  have hcut := Tape.ahead_concat (t := e.reads) (free := Config.freeRead) (xs := vs.map .byte) (x := x)
  rw [List.length_map] at hcut
  exact hcut h

section
variable {s : State} (before : List Byte) (b : Byte) (after : List Byte)

/-- The body of WRITE_BUFFER at the first byte not acknowledged: the rest is not sent. -/
theorem performWriteBuffer_rejected
    (h : s.env.nextWrites (before.length + 1) = List.replicate before.length .ack ++ [.nack]) :
    performWriteBuffer (before ++ b :: after) s = (.nack, { s with
      env := { s.env with writes := s.env.writes.skip (before.length + 1) }
      wire := s.wire ++ before.map (.w · .ack) ++ [.w b .nack] }) := by
  obtain ⟨hacks, hnext⟩ := Env.nextWrites_concat h
  have hrejected : (s.sent before).env.nextWrite = .nack := hnext
  rw [performWriteBuffer_append before _ s hacks, performWriteBuffer, sendByte_nack b hrejected, ← Tape.skip_tail]
  rfl

/-- The body of WRITE_BUFFER at the first byte that hangs. -/
theorem performWriteBuffer_hang
    (h : s.env.nextWrites (before.length + 1) = List.replicate before.length .ack ++ [.hang]) :
    performWriteBuffer (before ++ b :: after) s = (.hang, { s with
      env := { s.env with writes := s.env.writes.skip (before.length + 1) }
      wire := s.wire ++ before.map (.w · .ack) }) := by
  obtain ⟨hacks, hnext⟩ := Env.nextWrites_concat h
  have hhangs : (s.sent before).env.nextWrite = .hang := hnext
  rw [performWriteBuffer_append before _ s hacks, performWriteBuffer, sendByte_hang b hhangs, ← Tape.skip_tail]
  rfl

end

/-- The events of reading these bytes with `left` more to read after them (41_command_link R145). -/
def readEvents (ln : Bool) (left : Nat) : List Byte → List Event
  | [] => []
  | v :: vs => .r v (readAck ln (vs.length + left)) :: readEvents ln left vs

/-- With none left, they are the events of the whole operation. -/
theorem readEvents_zero (ln : Bool) (vs : List Byte) : readEvents ln 0 vs = readTrace ln vs := by
  induction vs with
  | nil => rfl
  | cons v vs ih => rw [readEvents, ih]; rfl

/-- With some left, each of these is acknowledged. -/
theorem readEvents_succ (ln : Bool) (n : Nat) (vs : List Byte) : readEvents ln (n + 1) vs = vs.map (.r · .ack) := by
  induction vs with
  | nil => rfl
  | cons v vs ih =>
    have hack : readAck ln (vs.length + (n + 1)) = .ack := by simp [readAck]
    rw [readEvents, hack, ih, List.map_cons]

/-- The state after these bytes have been read, with `left` more to read. -/
def State.received (s : State) (ln : Bool) (left : Nat) (vs : List Byte) : State :=
  { s with
    env := { s.env with reads := s.env.reads.skip vs.length }
    wire := s.wire ++ readEvents ln left vs
    rdata := Memory.writeRange s.rdata s.rdLen vs, rdLen := s.rdLen + vs.length }

/-- The body of READ_BUFFER does after the bytes that came and had room what it would do for what is left alone. -/
theorem performReadBuffer_add (ln : Bool) (left : Nat) (vs : List Byte) (s : State)
    (h : s.env.nextReads vs.length = vs.map .byte) (room : s.rdLen + vs.length ≤ s.params.rdCapacity) :
    performReadBuffer ln (vs.length + left) s = performReadBuffer ln left (s.received ln left vs) := by
  induction vs generalizing s with
  | nil => simp [State.received, readEvents, Memory.writeRange]
  | cons v vs ih =>
    rw [Env.nextReads, List.length_cons, Tape.ahead_succ, List.map_cons, List.cons.injEq] at h
    rw [List.length_cons] at room
    obtain ⟨hbyte : s.env.nextRead = .byte v, hrest⟩ := h
    rw [List.length_cons, Nat.add_right_comm, performReadBuffer, receiveByte_byte _ hbyte (by omega), thenNext_next]
    refine Eq.trans (ih _ hrest (by simp only [State.receive]; omega)) ?_
    simp [State.received, State.receive, readEvents, Env.dropRead, Tape.skip_succ, Memory.writeRange, Nat.add_assoc,
      Nat.add_comm 1]

/-- The body of READ_BUFFER when every byte comes and has room. -/
theorem performReadBuffer_whole (ln : Bool) {vs : List Byte} {s : State}
    (h : s.env.nextReads vs.length = vs.map .byte) (room : s.rdLen + vs.length ≤ s.params.rdCapacity) :
    performReadBuffer ln vs.length s = (.next, { s with
      env := { s.env with reads := s.env.reads.skip vs.length }
      wire := s.wire ++ readTrace ln vs
      rdata := Memory.writeRange s.rdata s.rdLen vs, rdLen := s.rdLen + vs.length }) := by
  have hbody := performReadBuffer_add ln 0 vs s h room
  rwa [State.received, readEvents_zero] at hbody

/-- The body of READ_BUFFER at the first byte that hangs, with `left` more to read after it. -/
theorem performReadBuffer_hang (ln : Bool) (left : Nat) {vs : List Byte} {s : State}
    (h : s.env.nextReads (vs.length + 1) = vs.map .byte ++ [.hang]) (room : s.rdLen + vs.length ≤ s.params.rdCapacity) :
    performReadBuffer ln (vs.length + (left + 1)) s = (.hang, { s with
      env := { s.env with reads := s.env.reads.skip (vs.length + 1) }
      wire := s.wire ++ vs.map (.r · .ack)
      rdata := Memory.writeRange s.rdata s.rdLen vs, rdLen := s.rdLen + vs.length }) := by
  obtain ⟨hbytes, hnext⟩ := Env.nextReads_concat h
  have hhangs : (s.received ln (left + 1) vs).env.nextRead = .hang := hnext
  rw [performReadBuffer_add ln (left + 1) vs s hbytes room, performReadBuffer, receiveByte_hang _ hhangs, State.received,
    readEvents_succ, ← Tape.skip_tail]
  rfl

end Sys2Proof.Machine

open Sys2Proof Sys2Proof.Machine

/-- Settles O15: the body of START, done and hung. -/
theorem startCompletes : Obligations.StartCompletes := by
  intro s hx
  have hexec := exec_link_of (i := .start) rfl hx (.inr (.inl rfl))
  refine ⟨fun h => ?_, fun h => ?_⟩
  · rw [hexec, performLinkOp, performStart_done h]; rfl
  · rw [hexec, performLinkOp, performStart_hang h]; rfl

/-- Settles O16: the body of WRITE_ADDRESSED_BYTE for each answer, in a frame; outside one it is not performed. -/
theorem writeAddressedByteCompletes : Obligations.WriteAddressedByteCompletes := by
  intro s b ackreq hx
  refine ⟨fun hf => ?_, fun hf => exec_link_unframed rfl hx (by simp [FrameOk, hf])⟩
  have hexec := exec_link_of (i := .writeAddressedByte b ackreq) rfl hx (.inl hf)
  refine ⟨fun a h ha => ?_, fun h hreq => ?_, fun h => ?_⟩
  · rw [hexec, performLinkOp, performWriteAddressedByte_next b h ha]; rfl
  · subst hreq
    rw [hexec, performLinkOp, performWriteAddressedByte_checked, sendByte_nack b h]; rfl
  · rw [hexec, performLinkOp, performWriteAddressedByte_hang b ackreq h]; rfl

/-- Settles O17: the loop of WRITE_BUFFER to its end, to the first byte rejected, and to the first that hangs. -/
theorem writeBufferCompletes : Obligations.WriteBufferCompletes := by
  intro s hx
  refine ⟨fun hf => ?_, fun hf data => exec_link_unframed rfl hx (by simp [FrameOk, hf])⟩
  have hexec (data : List Byte) := exec_link_of (i := .writeBuffer data) rfl hx (.inl hf)
  refine ⟨fun data h => ?_, fun before b after h => ?_, fun before b after h => ?_⟩
  · rw [hexec, performLinkOp, performWriteBuffer_acknowledged data s h]; rfl
  · rw [hexec, performLinkOp, performWriteBuffer_rejected before b after h]; rfl
  · rw [hexec, performLinkOp, performWriteBuffer_hang before b after h]; rfl

/-- Settles O18: the loop of READ_BUFFER to its end, where the last byte meets the final-byte policy, and to a hang, before which
every byte is acknowledged. -/
theorem readBufferCompletes : Obligations.ReadBufferCompletes := by
  intro s len ln hx
  refine ⟨fun hf => ?_, fun hf => exec_link_unframed rfl hx (by simp [FrameOk, hf])⟩
  have hexec := exec_link_of (i := .readBuffer len ln) rfl hx (.inl hf)
  refine ⟨fun vs h room => ?_, fun vs hlt h room => ?_⟩
  · have hlen : len.toNat = vs.length := by simpa [Env.nextReads] using congrArg List.length h
    rw [hlen] at h room
    rw [hexec, performLinkOp, hlen, performReadBuffer_whole ln h room]
    rfl
  · obtain ⟨left, hlen⟩ : ∃ left, len.toNat = vs.length + (left + 1) := ⟨len.toNat - vs.length - 1, by omega⟩
    rw [hexec, performLinkOp, hlen, performReadBuffer_hang ln left h room]
    rfl

/-- Settles O19: the body of STOP, done and hung. -/
theorem stopCompletes : Obligations.StopCompletes := by
  intro s hx
  have hexec := exec_link_of (i := .stop) rfl hx (.inr (.inr rfl))
  refine ⟨fun h => ?_, fun h => ?_⟩
  · rw [hexec, performLinkOp, performStop_done h]; rfl
  · rw [hexec, performLinkOp, performStop_hang h]; rfl

/-- Settles O20: the STOP of the abort, done and hung. -/
theorem nackAbortGeneratesStop : Obligations.NackAbortGeneratesStop := fun _ => ⟨nackAbort_done, nackAbort_hang⟩

/-- Settles O21: the test every link operation meets first. -/
theorem linkOperationOutsideExecuteFaults : Obligations.LinkOperationOutsideExecuteFaults := fun _ _ =>
  exec_link_notExecuting

/-- Settles O47: nothing is to be served before the operation in progress, whose next move is the link operation ahead. -/
theorem stepRunsTheLinkOperation : Obligations.StepRunsTheLinkOperation := by
  intro s rest i more hin hu hp hr hk _ ha hl hw
  have hmove : nextMove { s with stimuli := rest } = .run i { s with stimuli := rest } := nextMove_ahead hr hk ha hl hw
  have hu' : State.unbegun { s with stimuli := rest } = none := hu
  have hengine : engineMove { s with stimuli := rest } = .run i { s with stimuli := rest } := by
    simp only [engineMove, hu', hp, if_false, hmove]
  simp only [step, fetch, hin, hengine, perform]
end

section
/-! A recovery pass as the sequence of its calls, what it shows on the wire however it ends, and so every way a link operation can
end (41_command_link R147, R148, R150; 42_recovery R171, R173). -/

namespace Sys2Proof.Machine

/-! ### The pass as a list of calls -/

/-- These calls one after another, until one of them fails (42_recovery R173). -/
def runCalls : List RecoveryCall → State → HalAnswer × State
  | [], s => (.ok, s)
  | c :: cs, s => ifOk (recoveryCall c s) (runCalls cs)

/-- The calls of one toggle (42_recovery R171, step 4). -/
def toggleCalls : List RecoveryCall := [.clockLow, .holdLow, .clockHigh, .holdHigh]

/-- The calls of a whole pass, in order (42_recovery R171). -/
def passCalls : List RecoveryCall :=
  [.tearDown, .dataLine, .clockLine] ++ ((List.replicate 32 toggleCalls).flatten ++ [.configure])

theorem runCalls_singleton (c : RecoveryCall) (s : State) : runCalls [c] s = recoveryCall c s := by
  rw [runCalls]
  rcases recoveryCall c s with ⟨_ | _, u⟩ <;> rfl

/-- The loop of step 4 makes the calls of its toggles. -/
theorem runCalls_toggles (n : Nat) (cs : List RecoveryCall) (s : State) :
    ifOk (toggles n s) (runCalls cs) = runCalls ((List.replicate n toggleCalls).flatten ++ cs) s := by
  induction n generalizing s with
  | zero => rfl
  | succ n ih =>
    rw [toggles_succ, List.replicate_succ, List.flatten_cons, List.append_assoc]
    simp only [ih]
    rfl

theorem recover_eq_runCalls (s : State) : recover s = runCalls passCalls s := by
  have hconfigure : reinitialiseEngine = runCalls [.configure] := funext fun u => (runCalls_singleton .configure u).symm
  unfold recover
  simp only [hconfigure, runCalls_toggles]
  rfl

/-! ### What calls show on the wire -/

@[simp] theorem State.called_cfg (s : State) (c : RecoveryCall) : (s.called c).cfg = s.cfg := by cases c <;> rfl
@[simp] theorem State.called_seqPtr (s : State) (c : RecoveryCall) : (s.called c).seqPtr = s.seqPtr := by cases c <;> rfl

/-- Calls made one after another show their events, all of them or up to the call that failed, and leave SEQ_PTR. -/
inductive CallsShow (cs : List RecoveryCall) (s : State) : HalAnswer × State → Prop where
  | clean {u : State} (hp : u.seqPtr = s.seqPtr) (hw : u.wire = s.wire ++ cs.map (recoveryEvent s.cfg)) :
      CallsShow cs s (.ok, u)
  | cut {u : State} {pre : List RecoveryCall} {c : RecoveryCall} {call : HalCall} (hcs : pre ++ [c] <+: cs)
      (hc : (recoveryEvent s.cfg c).halCall = some call) (hp : u.seqPtr = s.seqPtr)
      (hw : u.wire = s.wire ++ (pre.map (recoveryEvent s.cfg) ++ [recoveryEvent s.cfg c, .fail call])) :
      CallsShow cs s (.fail, u)

theorem runCalls_show (cs : List RecoveryCall) (s : State) : CallsShow cs s (runCalls cs s) := by
  induction cs generalizing s with
  | nil => exact .clean rfl (by simp)
  | cons c cs ih =>
    rw [runCalls]
    rcases recoveryCall_cases c s with ⟨e, hc⟩ | ⟨call, hcall, hc⟩
    · rw [hc, ifOk_ok]
      have hrest := ih (State.called { s with env := e, wire := s.wire ++ [recoveryEvent s.cfg c] } c)
      generalize runCalls cs _ = r at hrest
      cases hrest with
      | clean hp hw => exact .clean (by simpa using hp) (by simpa using hw)
      | @cut u pre c' call hcs hcall hp hw =>
        exact .cut (pre := c :: pre) (List.cons_prefix_cons.2 ⟨rfl, hcs⟩) (by simpa using hcall) (by simpa using hp)
          (by simpa using hw)
    · rw [hc, ifOk_fail]
      exact .cut (pre := []) (by simp) hcall rfl rfl

theorem passCalls_events (cfg : Cfg) : passCalls.map (recoveryEvent cfg) = recoveryEvents cfg := by
  simp [passCalls, toggleCalls, recoveryEvents, recoveryEvent]

/-- A pass has 68 calls that can fail (42_recovery R173). -/
theorem recoveryEvents_calls (cfg : Cfg) : ((recoveryEvents cfg).filterMap Event.halCall).length = 68 := rfl

/-- The events up to a call of a pass that failed. -/
theorem failedPass_of_prefix {cfg : Cfg} {pre : List RecoveryCall} {c : RecoveryCall} {call : HalCall}
    (h : pre ++ [c] <+: passCalls) (hc : (recoveryEvent cfg c).halCall = some call) :
    ∃ k, k < 68 ∧ FailedPass cfg k (pre.map (recoveryEvent cfg) ++ [recoveryEvent cfg c, .fail call]) := by
  have hevents : pre.map (recoveryEvent cfg) ++ [recoveryEvent cfg c] <+: recoveryEvents cfg := by
    simpa [passCalls_events] using h.map (recoveryEvent cfg)
  have hcalls := (hevents.filterMap Event.halCall).length_le
  rw [recoveryEvents_calls] at hcalls
  refine ⟨_, ?_, _, _, call, hevents, hc, rfl, rfl⟩
  simp only [List.filterMap_append, List.filterMap_cons, hc, List.filterMap_nil, List.length_append,
    List.length_singleton] at hcalls
  omega

/-! ### The timeout abort -/

/-- The two ways a link can end after a timeout: with `Timeout` after a whole pass, or with `ConfigurationFault` where a call of
the pass fails (41_command_link R148, R150; 42_recovery R173). -/
def PassEnds (s t : State) (st : Status) : Prop :=
  (st = .timeout ∧ t.wire = s.wire ++ .tmo :: recoveryEvents s.cfg ∧ t.mode = s.mode ∧ t.engineUp = true) ∨
  (st = .configurationFault ∧ t.mode = .fatal ∧
    ∃ k es, k < 68 ∧ FailedPass s.cfg k es ∧ t.wire = s.wire ++ .tmo :: es)

/-- A link aborted after a timeout: it is over with this status, and SEQ_PTR is where it was. -/
structure TimedOut (s t : State) (st : Status) : Prop where
  result : t.linkResult = some st
  inFrame : t.inFrame = false
  point : t.point = .operation 0
  seqPtr : t.seqPtr = s.seqPtr
  ends : PassEnds s t st

theorem timeoutAbort_timedOut (s : State) : ∃ st, TimedOut s (timeoutAbort s) st := by
  have hf := recover_passFrame (takeTimeoutTrap s)
  have hshow := runCalls_show passCalls (takeTimeoutTrap s)
  rw [← recover_eq_runCalls] at hshow
  rw [timeoutAbort]
  rcases hr : recover (takeTimeoutTrap s) with ⟨_ | _, u⟩
  · rw [hr] at hf hshow
    cases hshow with
    | clean hp hw =>
      have hwire : u.wire = s.wire ++ .tmo :: recoveryEvents s.cfg := by simpa [passCalls_events] using hw
      exact ⟨.timeout, rfl, hf.inFrame, rfl, hp, .inl ⟨rfl, hwire, hf.mode, (recover_pins hr).1⟩⟩
  · rw [hr] at hf hshow
    cases hshow with
    | cut hcs hc hp hw =>
      obtain ⟨k, hk, hfailed⟩ := failedPass_of_prefix hcs hc
      exact ⟨.configurationFault, rfl, hf.inFrame, rfl, hp,
        .inr ⟨rfl, rfl, k, _, hk, hfailed, by rw [returnFromRecovery_wire]; simpa using hw⟩⟩

/-! ### Every way a link operation can end -/

theorem symbolsFrom_done {i : Instr} (hi : i.isLink = true) {m k : Nat} {s u : State}
    (h : symbolsFrom i m k s = (.done, u)) : i = .stop := by
  induction m generalizing k s with
  | zero => cases h
  | succ m ih =>
    rcases symbolsFrom_succ (i := i) (m := m) (k := k) (s := s) with ⟨v, -, heq⟩ | ⟨-, heq⟩
    · exact ih (heq.symm.trans h)
    · have hdoes := symbolOf_does hi k s
      rw [← heq, h] at hdoes
      cases hdoes
      rfl

/-- Only STOP ends a link by itself (41_command_link R146). -/
theorem performLinkOp_done {i : Instr} (hl : i.isLink = true) {s u : State} (h : performLinkOp i s = (.done, u)) :
    i = .stop :=
  symbolsFrom_done hl ((performLinkOp_eq_symbolsFrom hl).symm.trans h)

/-- What 41_command_link R150 says of a link operation that left the machine in `t`, with these symbols on the wire. -/
def OperationEnds (i : Instr) (s t : State) (syms : List Event) : Prop :=
  (t.linkResult = none ∧ t.wire = s.wire ++ syms ∧ t.mode = s.mode ∧ t.seqPtr = s.seqPtr + linkSize i) ∨
  (t.linkResult = some .ok ∧ i = .stop ∧ t.wire = s.wire ++ [.p] ∧ t.inFrame = false ∧ t.mode = s.mode) ∨
  (t.linkResult = some .nack ∧ t.wire = s.wire ++ syms ++ [.p] ∧ t.inFrame = false ∧ t.mode = s.mode ∧
    t.seqPtr = s.seqPtr) ∨
  (t.linkResult = some .timeout ∧ t.wire = s.wire ++ syms ++ .tmo :: recoveryEvents s.cfg ∧ t.inFrame = false ∧
    t.mode = s.mode ∧ t.seqPtr = s.seqPtr ∧ t.engineUp = true) ∨
  (t.linkResult = some .configurationFault ∧ t.mode = .fatal ∧ t.inFrame = false ∧ t.seqPtr = s.seqPtr ∧
    ∃ k es, k < 68 ∧ FailedPass s.cfg k es ∧ t.wire = s.wire ++ syms ++ .tmo :: es)

/-- A link operation aborted after a timeout, with these symbols before it. -/
theorem Performs.timedOut {i : Instr} {s u : State} {syms : List Event} (h : Performs s u)
    (hw : u.wire = s.wire ++ syms) :
    (timeoutAbort u).point = .operation 0 ∧ OperationEnds i s (timeoutAbort u) syms := by
  obtain ⟨st, hresult, hframe, hpoint, hptr, hends⟩ := timeoutAbort_timedOut u
  rw [h.seqPtr] at hptr
  simp only [PassEnds, hw, h.mode, h.frame.cfg] at hends
  refine ⟨hpoint, ?_⟩
  rcases hends with ⟨rfl, hwire, hmode, hup⟩ | ⟨rfl, hmode, hfailed⟩
  · exact .inr (.inr (.inr (.inl ⟨hresult, hwire, hframe, hmode, hptr, hup⟩)))
  · exact .inr (.inr (.inr (.inr ⟨hresult, hmode, hframe, hptr, hfailed⟩)))

/-- A link operation aborted after a byte was rejected. -/
theorem Performs.rejected {i : Instr} {s u : State} {syms : List Event} (h : Performs s u)
    (hw : u.wire = s.wire ++ syms) :
    (nackAbort u).point = .operation 0 ∧ OperationEnds i s (nackAbort u) syms := by
  cases ha : u.env.nextStop with
  | done =>
    rw [nackAbort_done ha]
    exact ⟨rfl, .inr (.inr (.inl ⟨rfl, congrArg (· ++ [Event.p]) hw, rfl, h.mode, h.seqPtr⟩))⟩
  | hang =>
    rw [nackAbort_hang ha]
    have hstop := phyStop_performs u
    rw [phyStop_hang ha] at hstop
    exact (h.trans hstop).timedOut hw

theorem exec_link_ends {i : Instr} {s t : State} (hl : i.isLink = true) (hx : s.executing = true)
    (h : exec i s = .next t) :
    ∃ syms : List Event, (∀ e ∈ syms, e.isSymbol = true) ∧ t.point = .operation 0 ∧ OperationEnds i s t syms := by
  obtain ⟨hwalk, hpoint⟩ : s.walking = true ∧ s.point = .operation 0 := by simpa [State.executing] using hx
  obtain ⟨-, -, -, hnone, -⟩ := State.walking_iff.1 hwalk
  replace h := settle_of_exec_link hl h
  have hp := performLinkOp_performs (s := s) hl
  rcases hr : performLinkOp i s with ⟨p, u⟩
  rw [hr] at h hp
  obtain ⟨syms, hw, hsyms⟩ := hp.wire
  refine ⟨syms, hsyms, ?_⟩
  cases p with
  | next =>
    cases h
    exact ⟨hp.point.trans hpoint, .inl ⟨hp.linkResult.trans hnone, hw, hp.mode, congrArg (· + linkSize i) hp.seqPtr⟩⟩
  | done =>
    cases h
    obtain rfl := performLinkOp_done hl hr
    have hstop : performStop s = (.done, u) := hr
    cases ha : s.env.nextStop with
    | done =>
      rw [performStop_done ha] at hstop
      cases hstop
      exact ⟨rfl, .inr (.inl ⟨rfl, rfl, rfl, rfl, rfl⟩)⟩
    | hang => rw [performStop_hang ha] at hstop; cases hstop
  | nack => cases h; exact hp.rejected hw
  | hang => cases h; exact hp.timedOut hw
  | overrun => cases h

end Sys2Proof.Machine

open Sys2Proof Sys2Proof.Machine

/-- Settles O22: the outcome of the symbols decides between the next operation, the end by STOP and the two aborts, and each abort
is known. -/
theorem linkOperationOutcomes : Obligations.LinkOperationOutcomes := fun _ _ _ => exec_link_ends
end

section
/-! What a link operation writes of RDATA, and its frame (41_command_link R142 to R148, 42_recovery R171). -/

namespace Sys2Proof.Machine

/-- At most `n` bytes have been read: RD_LEN has advanced by no more, and RDATA is written only there. -/
structure ReadsWithin (n : Nat) (s t : State) : Prop where
  le : s.rdLen ≤ t.rdLen
  most : t.rdLen ≤ s.rdLen + n
  outside : ∀ x, x < s.rdLen ∨ s.rdLen + n ≤ x → Memory.read t.rdata x = Memory.read s.rdata x

theorem ReadsWithin.of_same {n : Nat} {s t : State} (hm : t.rdata = s.rdata) (hl : t.rdLen = s.rdLen) :
    ReadsWithin n s t := ⟨hl.ge, by omega, fun _ _ => by rw [hm]⟩

theorem ReadsWithin.trans {m n : Nat} {s t u : State} (h : ReadsWithin m s t) (k : ReadsWithin n t u) :
    ReadsWithin (m + n) s u := by
  obtain ⟨hle, hmost, hout⟩ := h
  obtain ⟨kle, kmost, kout⟩ := k
  exact ⟨by omega, by omega, fun x hx => (kout x (by omega)).trans (hout x (by omega))⟩

theorem ReadsWithin.mono {m n : Nat} {s t : State} (h : ReadsWithin m s t) (hmn : m ≤ n) : ReadsWithin n s t := by
  obtain ⟨hle, hmost, hout⟩ := h
  exact ⟨hle, by omega, fun x hx => hout x (by omega)⟩

/-- How many bytes a link operation reads (41_command_link R145). -/
def readLength : Instr → Nat
  | .start => 0
  | .writeAddressedByte _ _ => 0
  | .writeBuffer _ => 0
  | .readBuffer len _ => len.toNat
  | .stop => 0
  | .init _ _ _ _ => 0
  | .writeThenRead _ _ _ => 0
  | .readByte _ _ => 0
  | .writeByte _ _ _ => 0
  | .scan => 0
  | .detectAndLog => 0

/-- Symbol `k` reads a byte only where the operation has one to read. -/
theorem SymbolDoes.readsWithin {s : State} {k : Nat} {i : Instr} {r : Perform × State} (h : SymbolDoes s k i r) :
    ReadsWithin (if k < readLength i then 1 else 0) s r.2 := by
  cases h with
  | started _ hr | addressed _ hr | sent _ hr | stopped _ hr | rejected hr | hung hr | overrun _ hr =>
    exact .of_same hr.rdata hr.rdLen
  | nothing => exact .of_same rfl rfl
  | received hk _ _ hm hl _ =>
    rw [readLength, if_pos hk]
    refine ⟨Nat.le.intro hl.symm, hl.le, fun x hx => ?_⟩
    rw [hm, Memory.read_write_other _ _ (by omega)]

theorem symbolsFrom_readsWithin {i : Instr} (hi : i.isLink = true) (m k : Nat) (s : State) :
    ReadsWithin (readLength i - k) s (symbolsFrom i m k s).2 := by
  induction m generalizing k s with
  | zero => exact .of_same rfl rfl
  | succ m ih =>
    have hone := (symbolOf_does hi k s).readsWithin
    rcases symbolsFrom_succ (i := i) (m := m) (k := k) (s := s) with ⟨v, hv, heq⟩ | ⟨-, heq⟩
    · rw [hv] at hone
      rw [heq]
      exact (hone.trans (ih (k + 1) v)).mono (by split <;> omega)
    · rw [heq]
      exact hone.mono (by split <;> omega)

theorem timeoutAbort_readsNothing (s : State) : ReadsNothing s (timeoutAbort s) := by
  have hf := recover_passFrame (takeTimeoutTrap s)
  rw [timeoutAbort]
  rcases hr : recover (takeTimeoutTrap s) with ⟨_ | _, u⟩
  · rw [hr] at hf; exact ⟨hf.rdata, hf.rdLen, hf.params⟩
  · rw [hr] at hf; exact ⟨hf.rdata, hf.rdLen, hf.params⟩

theorem nackAbort_readsNothing (s : State) : ReadsNothing s (nackAbort s) := by
  cases h : s.env.nextStop with
  | done => rw [nackAbort_done h]; exact ⟨rfl, rfl, rfl⟩
  | hang =>
    rw [nackAbort_hang h]
    obtain ⟨hm, hl, hp⟩ := timeoutAbort_readsNothing { s with env := s.env.dropStop }
    exact ⟨hm, hl, hp⟩

/-- What follows the symbols of an operation reads nothing. -/
theorem settle_readsNothing {size : Nat} {r : Perform × State} {t : State} (h : settle size r = .next t) :
    ReadsNothing r.2 t := by
  obtain ⟨p, u⟩ := r
  cases p with
  | next | done => cases h; exact ⟨rfl, rfl, rfl⟩
  | nack => cases h; exact nackAbort_readsNothing u
  | hang => cases h; exact timeoutAbort_readsNothing u
  | overrun => cases h

theorem exec_link_readsWithin {i : Instr} {s t : State} (hi : i.isLink = true) (h : exec i s = .next t) :
    ReadsWithin (readLength i) s t := by
  obtain ⟨-, -, h⟩ := (exec_link_eq_next hi).1 h
  have hafter := settle_readsNothing h
  exact (symbolsFrom_readsWithin hi (stepCount i) 0 s).trans (n := 0) (.of_same hafter.rdata hafter.rdLen)

end Sys2Proof.Machine

open Sys2Proof Sys2Proof.Machine

/-- Settles O23: what no part of a link operation writes (`exec_link_frame`), and what it may write of RDATA
(`exec_link_readsWithin`). -/
theorem linkOperationFrame : Obligations.LinkOperationFrame := by
  intro i s t hl h
  have hf := exec_link_frame hl h
  have hreads := exec_link_readsWithin hl h
  refine ⟨hf.cfg, hf.lock, hf.waiters, hf.cb, hf.cbLen, hf.sb, hf.sbLen, hf.buildErr, hf.seqSel, hf.aset, hf.scanAddr,
    hf.tmoMs, hf.responses, hf.ports, hf.stimuli, hf.service, hf.params, hf.wire, fun hnot => ?_, fun len ln hi => ?_⟩
  · have hnone : readLength i = 0 := by
      cases i with
      | readBuffer len ln => exact absurd rfl (hnot len ln)
      | start | writeAddressedByte | writeBuffer | stop => rfl
      | init | writeThenRead | readByte | writeByte | scan | detectAndLog => cases hl
    rw [hnone] at hreads
    exact ⟨Nat.le_antisymm hreads.most hreads.le, fun x => hreads.outside x (by omega)⟩
  · subst hi
    exact ⟨hreads.le, hreads.most, hreads.outside⟩
end

section
/-! What the wire shows of one pass over a link (41_command_link R150, R151; 20_memory R71), and of a whole transaction. -/

namespace Sys2Proof.Machine

/-! ### Acknowledges, and events cut short -/

theorem AllAcknowledged.append {xs ys : List Event} (hx : AllAcknowledged xs) (hy : AllAcknowledged ys) :
    AllAcknowledged (xs ++ ys) := fun b hb => (List.mem_append.1 hb).elim (hx b) (hy b)

/-- One event that is no rejected byte. -/
theorem allAcknowledged_one {e : Event} (h : ∀ b, e ≠ .w b .nack) : AllAcknowledged [e] := fun b hb =>
  h b (List.mem_singleton.1 hb).symm

theorem RejectedAtLast.after {xs ys : List Event} (hx : AllAcknowledged xs) (hy : RejectedAtLast ys) :
    RejectedAtLast (xs ++ ys) := by
  obtain ⟨pre, b, rfl, hpre⟩ := hy
  exact ⟨xs ++ pre, b, (List.append_assoc ..).symm, hx.append hpre⟩

/-- `xs` are the first of these events, and at least one is missing. -/
def CutShort (xs all : List Event) : Prop := ∃ e more, all = xs ++ e :: more

theorem CutShort.isPrefix {xs all : List Event} (h : CutShort xs all) : xs <+: all := by
  obtain ⟨e, more, rfl⟩ := h
  exact List.prefix_append ..

theorem CutShort.ne {xs all : List Event} (h : CutShort xs all) : xs ≠ all := by
  obtain ⟨e, more, rfl⟩ := h
  simp

theorem CutShort.append {xs all : List Event} (h : CutShort xs all) (ys : List Event) : CutShort xs (all ++ ys) := by
  obtain ⟨e, more, rfl⟩ := h
  exact ⟨e, more ++ ys, by simp⟩

theorem CutShort.after {xs all : List Event} (h : CutShort xs all) (ys : List Event) : CutShort (ys ++ xs) (ys ++ all) := by
  obtain ⟨e, more, rfl⟩ := h
  exact ⟨e, more, by simp⟩

theorem cutShort_of_prefix {xs all ys : List Event} (h : xs <+: all) (hy : ys ≠ []) : CutShort xs (all ++ ys) := by
  obtain ⟨zs, rfl⟩ := h
  cases zs with
  | nil =>
    obtain ⟨e, more, rfl⟩ := List.exists_cons_of_ne_nil hy
    exact ⟨e, more, by simp⟩
  | cons e more => exact ⟨e, more ++ ys, by simp⟩

/-! ### The symbols of one link operation -/

/-- What performing an operation has put on the wire, where `all` are the outlines of its symbols: all of them, each written byte
acknowledged; those up to a byte rejected; or those before the symbol that hung (41_command_link R142 to R146). -/
inductive Spells (all : List Event) (s : State) : Perform × State → Prop where
  | next {u : State} {syms : List Event} (ho : syms.map Event.outline = all) (ha : AllAcknowledged syms)
      (hw : u.wire = s.wire ++ syms) : Spells all s (.next, u)
  | done {u : State} {syms : List Event} (ho : syms.map Event.outline = all) (ha : AllAcknowledged syms)
      (hw : u.wire = s.wire ++ syms) : Spells all s (.done, u)
  | rejected {u : State} {syms : List Event} (ho : syms.map Event.outline <+: all) (hr : RejectedAtLast syms)
      (hw : u.wire = s.wire ++ syms) : Spells all s (.nack, u)
  | hung {u : State} {syms : List Event} (ho : CutShort (syms.map Event.outline) all) (ha : AllAcknowledged syms)
      (hw : u.wire = s.wire ++ syms) : Spells all s (.hang, u)
  | overrun {u : State} : Spells all s (.overrun, u)

/-- After a symbol that completed and was not rejected. -/
theorem Spells.after {all : List Event} {s u : State} {e : Event} {r : Perform × State} (h : Spells all u r)
    (he : AllAcknowledged [e]) (hw : u.wire = s.wire ++ [e]) : Spells (e.outline :: all) s r := by
  have hwire {v : State} {syms : List Event} (hv : v.wire = u.wire ++ syms) : v.wire = s.wire ++ e :: syms := by
    rw [hv, hw, List.append_assoc]; rfl
  cases h with
  | @next v syms ho ha hv =>
    exact .next (syms := e :: syms) (congrArg (e.outline :: ·) ho) (he.append ha) (hwire hv)
  | @done v syms ho ha hv =>
    exact .done (syms := e :: syms) (congrArg (e.outline :: ·) ho) (he.append ha) (hwire hv)
  | @rejected v syms ho hr hv =>
    exact .rejected (syms := e :: syms) (List.cons_prefix_cons.2 ⟨rfl, ho⟩) (RejectedAtLast.after he hr) (hwire hv)
  | @hung v syms ho ha hv => exact .hung (syms := e :: syms) (ho.after [e.outline]) (he.append ha) (hwire hv)
  | overrun => exact .overrun

theorem Spells.nothing (s : State) : Spells [] s (.next, s) := .next (syms := []) rfl nofun (by simp)

theorem performStart_spells (s : State) : Spells (opSymbols s.inFrame .start) s (performStart s) := by
  cases h : s.env.nextStart with
  | done =>
    rw [performStart_done h]
    refine .next (syms := [startEvent s.inFrame]) ?_ (allAcknowledged_one ?_) rfl
    · cases s.inFrame <;> rfl
    · cases s.inFrame <;> nofun
  | hang => rw [performStart_hang h]; exact .hung (syms := []) ⟨_, [], rfl⟩ nofun (by simp)

theorem performStop_spells (s : State) : Spells (opSymbols s.inFrame .stop) s (performStop s) := by
  cases h : s.env.nextStop with
  | done => rw [performStop_done h]; exact .done (syms := [.p]) rfl (allAcknowledged_one nofun) rfl
  | hang => rw [performStop_hang h]; exact .hung (syms := []) ⟨_, [], rfl⟩ nofun (by simp)

theorem performWriteBuffer_spells (data : List Byte) (s : State) :
    Spells (data.map (.w · .ack)) s (performWriteBuffer data s) := by
  induction data generalizing s with
  | nil => exact .nothing s
  | cons b bs ih =>
    rw [performWriteBuffer, List.map_cons]
    cases h : s.env.nextWrite with
    | ack => rw [sendByte_ack b h]; exact (ih _).after (e := .w b .ack) (allAcknowledged_one nofun) rfl
    | nack =>
      rw [sendByte_nack b h]
      exact .rejected (syms := [.w b .nack]) (by simp [Event.outline]) ⟨[], b, rfl, nofun⟩ rfl
    | hang => rw [sendByte_hang b h]; exact .hung (syms := []) ⟨_, _, rfl⟩ nofun (by simp)

theorem performReadBuffer_spells (ln : Bool) (n : Nat) (s : State) :
    Spells (readTrace ln (List.replicate n 0)) s (performReadBuffer ln n s) := by
  induction n generalizing s with
  | zero => exact .nothing s
  | succ n ih =>
    rw [performReadBuffer, List.replicate_succ, readTrace, List.length_replicate]
    cases h : s.env.nextRead with
    | byte v =>
      by_cases room : s.rdLen < s.params.rdCapacity
      · rw [receiveByte_byte _ h room]
        exact (ih _).after (e := .r v (readAck ln n)) (allAcknowledged_one nofun) rfl
      · simp only [receiveByte, phyRead_byte _ h, room, if_false, thenNext_overrun]
        exact .overrun
    | hang => rw [receiveByte_hang _ h]; exact .hung (syms := []) ⟨_, _, rfl⟩ nofun (by simp)

/-- The operation stops at a byte that is not acknowledged, if it writes one (41_command_link R143, R144). -/
abbrev Checked (i : Instr) : Prop := ∀ b, i ≠ .writeAddressedByte b false

theorem performLinkOp_spells {i : Instr} (hl : i.isLink = true) (hc : Checked i) (s : State) :
    Spells (opSymbols s.inFrame i) s (performLinkOp i s) := by
  cases i with
  | start => exact performStart_spells s
  | stop => exact performStop_spells s
  | writeAddressedByte b ackreq =>
    obtain rfl : ackreq = true := by
      cases ackreq with
      | true => rfl
      | false => exact absurd rfl (hc b)
    have h := performWriteBuffer_spells [b] s
    rwa [show performWriteBuffer [b] s = sendByte b s from thenNext_stop _] at h
  | writeBuffer data => exact performWriteBuffer_spells data s
  | readBuffer len ln => exact performReadBuffer_spells ln len.toNat s
  | init | writeThenRead | readByte | writeByte | scan | detectAndLog => cases hl

/-! ### The frame between two operations -/

theorem thenNext_inFrame {s : State} {r : Perform × State} {k : State → Perform × State} (hr : r.2.inFrame = s.inFrame)
    (hk : ∀ t, (k t).2.inFrame = t.inFrame) : (thenNext r k).2.inFrame = s.inFrame := by
  obtain ⟨_ | _ | _ | _ | _, t⟩ := r
  · exact (hk t).trans hr
  all_goals exact hr

theorem performWriteBuffer_inFrame (data : List Byte) (s : State) : (performWriteBuffer data s).2.inFrame = s.inFrame := by
  induction data generalizing s with
  | nil => rfl
  | cons b bs ih => exact thenNext_inFrame (sendByte_inFrame b s) ih

theorem performReadBuffer_inFrame (ln : Bool) (n : Nat) (s : State) :
    (performReadBuffer ln n s).2.inFrame = s.inFrame := by
  induction n generalizing s with
  | zero => rfl
  | succ n ih => exact thenNext_inFrame (receiveByte_inFrame _ s) ih

/-- STOP ends the link or hangs. -/
theorem performStop_outcome (s : State) : (performStop s).1 = .done ∨ (performStop s).1 = .hang := by
  cases h : s.env.nextStop with
  | done => rw [performStop_done h]; exact .inl rfl
  | hang => rw [performStop_hang h]; exact .inr rfl

/-- An operation after which the link goes on is not STOP, and only START moves IN_FRAME. -/
theorem performLinkOp_next {i : Instr} (hl : i.isLink = true) {s u : State} (h : performLinkOp i s = (.next, u)) :
    i ≠ .stop ∧ u.inFrame = if i = .start then true else s.inFrame := by
  cases i with
  | start =>
    refine ⟨nofun, ?_⟩
    cases ha : s.env.nextStart with
    | done => rw [performLinkOp, performStart_done ha] at h; cases h; rfl
    | hang => rw [performLinkOp, performStart_hang ha] at h; cases h
  | stop =>
    have hout := performStop_outcome s
    rw [show performStop s = (.next, u) from h] at hout
    simp at hout
  | writeAddressedByte b ackreq =>
    exact ⟨nofun, (congrArg (·.2.inFrame) h).symm.trans (performWriteAddressedByte_inFrame b ackreq s)⟩
  | writeBuffer data => exact ⟨nofun, (congrArg (·.2.inFrame) h).symm.trans (performWriteBuffer_inFrame data s)⟩
  | readBuffer len ln =>
    exact ⟨nofun, (congrArg (·.2.inFrame) h).symm.trans (performReadBuffer_inFrame ln len.toNat s)⟩
  | init | writeThenRead | readByte | writeByte | scan | detectAndLog => cases hl

/-! ### One pass over a link -/

/-- What the wire shows of a link walked from `s` until its result in `e`, where `all` are the outlines of its symbols
(41_command_link R150, R151). -/
inductive LinkEnds (all : List Event) (s e : State) : Status → Prop where
  | ok {syms : List Event} (ho : syms.map Event.outline = all) (ha : AllAcknowledged syms)
      (hw : e.wire = s.wire ++ syms) (hm : e.mode = s.mode) : LinkEnds all s e .ok
  | nack {syms : List Event} (ho : syms.map Event.outline <+: all) (hr : RejectedAtLast syms)
      (hw : e.wire = s.wire ++ syms ++ [.p]) (hm : e.mode = s.mode) : LinkEnds all s e .nack
  | aborted {u : State} {syms : List Event} {st : Status} (ho : CutShort (syms.map Event.outline) all)
      (ha : AllAcknowledged syms ∨ RejectedAtLast syms) (hw : u.wire = s.wire ++ syms) (hm : u.mode = s.mode)
      (hc : u.cfg = s.cfg) (h : PassEnds u e st) : LinkEnds all s e st

/-- After operations that completed with every byte acknowledged. -/
theorem LinkEnds.after {front all xs : List Event} {s u e : State} {st : Status} (h : LinkEnds all u e st)
    (ho : xs.map Event.outline = front) (ha : AllAcknowledged xs) (hw : u.wire = s.wire ++ xs) (hm : u.mode = s.mode)
    (hc : u.cfg = s.cfg) : LinkEnds (front ++ all) s e st := by
  subst ho
  cases h with
  | ok ko ka kw km =>
    exact .ok (by rw [List.map_append, ko]) (ha.append ka) (by rw [kw, hw, List.append_assoc]) (km.trans hm)
  | nack ko kr kw km =>
    refine .nack ?_ (RejectedAtLast.after ha kr) (by rw [kw, hw, List.append_assoc s.wire]) (km.trans hm)
    rw [List.map_append]
    exact (List.prefix_append_right_inj _).2 ko
  | aborted ko ka kw km kc k =>
    refine .aborted ?_ (ka.imp ha.append (RejectedAtLast.after ha)) (by rw [kw, hw, List.append_assoc]) (km.trans hm)
      (kc.trans hc) k
    rw [List.map_append]
    exact ko.after _

/-- An operation after which the link is over, where `rest` are the outlines of the symbols after its own: none after STOP, some
after any other. -/
theorem Spells.linkEnds {all rest : List Event} {s u t : State} {p : Perform} {size : Nat} (h : Spells all s (p, u))
    (hf : Performs s u) (hp : p ≠ .next) (hdone : p = .done → rest = []) (hnack : p = .nack → rest ≠ [])
    (ht : settle size (p, u) = .next t) : ∃ st, t.linkResult = some st ∧ LinkEnds (all ++ rest) s t st := by
  cases h with
  | next => exact absurd rfl hp
  | done ho ha hw =>
    cases ht
    rw [hdone rfl, List.append_nil]
    exact ⟨.ok, rfl, .ok ho ha hw hf.mode⟩
  | rejected ho hr hw =>
    cases ht
    cases ha : u.env.nextStop with
    | done =>
      rw [nackAbort_done ha]
      exact ⟨.nack, rfl, .nack (ho.trans (List.prefix_append ..)) hr (congrArg (· ++ [Event.p]) hw) hf.mode⟩
    | hang =>
      rw [nackAbort_hang ha]
      obtain ⟨st, hover⟩ := timeoutAbort_timedOut { u with env := u.env.dropStop }
      exact ⟨st, hover.result,
        .aborted (cutShort_of_prefix ho (hnack rfl)) (.inr hr) hw hf.mode hf.frame.cfg hover.ends⟩
  | hung ho ha hw =>
    cases ht
    obtain ⟨st, hover⟩ := timeoutAbort_timedOut u
    exact ⟨st, hover.result, .aborted (ho.append rest) (.inl ha) hw hf.mode hf.frame.cfg hover.ends⟩
  | overrun => cases ht

/-- STOP is the last operation of a link that can be walked to its end; after any other the rest can be walked. -/
theorem tailOk_cons {f : Bool} {room : Nat} {i : Instr} {rest : List Instr} (h : tailOk f room (i :: rest) = true) :
    (i = .stop ∧ rest = []) ∨ (i ≠ .stop ∧ ∃ f' room', tailOk f' room' rest = true) := by
  cases i with
  | stop => exact .inl ⟨rfl, List.isEmpty_iff.1 h⟩
  | start => exact .inr ⟨nofun, _, _, h⟩
  | writeAddressedByte | writeBuffer | readBuffer =>
    simp only [tailOk, Bool.and_eq_true] at h
    exact .inr ⟨nofun, _, _, h.2⟩
  | init | writeThenRead | readByte | writeByte | scan | detectAndLog => cases h

/-- A link that can be walked to its end has its STOP to show. -/
theorem linkSymbols_ne_nil {f : Bool} {room : Nat} {ops : List Instr} (h : tailOk f room ops = true) (inFrame : Bool) :
    linkSymbols inFrame ops ≠ [] := by
  induction ops generalizing f room inFrame with
  | nil => cases h
  | cons i rest ih =>
    rw [linkSymbols]
    rcases tailOk_cons h with ⟨rfl, -⟩ | ⟨-, f', room', hrest⟩
    · exact nofun
    · exact List.append_ne_nil_of_right_ne_nil _ (ih hrest _)

/-- Where an operation ends the link by itself no symbol is left to come; where a byte of it is rejected, one is. -/
theorem performLinkOp_rest {i : Instr} {rest : List Instr} {f : Bool} {room : Nat} {p : Perform} {s u : State}
    (hl : i.isLink = true) (htail : tailOk f room (i :: rest) = true) (h : performLinkOp i s = (p, u)) (inFrame : Bool) :
    (p = .done → linkSymbols inFrame rest = []) ∧ (p = .nack → linkSymbols inFrame rest ≠ []) := by
  rcases tailOk_cons htail with ⟨rfl, rfl⟩ | ⟨hi, f', room', hrest⟩
  · refine ⟨fun _ => rfl, ?_⟩
    rintro rfl
    have hout := performStop_outcome s
    rw [show performStop s = (.nack, u) from h] at hout
    simp at hout
  · refine ⟨?_, fun _ => linkSymbols_ne_nil hrest inFrame⟩
    rintro rfl
    exact absurd (performLinkOp_done hl h) hi

/-- An operation takes the bytes 30_encoding R93 says. -/
theorem linkBytes_length (i : Instr) : (linkBytes i).length = linkSize i := by
  cases i with
  | writeBuffer data => exact Laws.LinkSize.writeBuffer data
  | start | writeAddressedByte | readBuffer | stop => rfl
  | init | writeThenRead | readByte | writeByte | scan | detectAndLog => rfl

/-- EXECUTE's turn does not end the host operation. -/
theorem settle_busy {size : Nat} {r : Perform × State} {t : State} (h : settle size r = .next t) (hr : r.2.phase ≠ .none) :
    t.phase ≠ .none := by
  obtain ⟨p, u⟩ := r
  have habort (v : State) : (timeoutAbort v).phase ≠ .none := by rw [timeoutAbort_phase]; decide
  cases p with
  | next | done => cases h; exact hr
  | nack =>
    cases h
    cases ha : u.env.nextStop with
    | done => rw [nackAbort_done ha]; exact hr
    | hang => rw [nackAbort_hang ha]; exact habort _
  | hang => cases h; exact habort u
  | overrun => cases h

/-- The sequencer stands before these operations of a link, the last of which is STOP. -/
structure State.AtOps (s : State) (ops : List Instr) : Prop where
  busy : s.phase ≠ .none
  result : s.linkResult = none
  point : s.point = .operation 0
  ahead : s.linkAhead = some (linkBytesOf ops)
  links : ∀ i ∈ ops, (i.isLink = true ∧ i.WellFormed) ∧ Checked i
  tail : ∃ f room, tailOk f room ops = true

theorem State.AtOps.advance {s u : State} {i : Instr} {rest : List Instr} (h : s.AtOps (i :: rest)) (hp : Performs s u)
    (hi : i ≠ .stop) : State.AtOps { u with seqPtr := u.seqPtr + linkSize i } rest where
  busy := hp.phase ▸ h.busy
  result := hp.linkResult.trans h.result
  point := hp.point.trans h.point
  ahead := by
    obtain ⟨⟨hl, hw⟩, -⟩ := h.links i List.mem_cons_self
    refine State.linkAhead_advance hp.frame.cb hp.frame.sb hp.frame.cbLen hp.frame.sbLen hp.frame.seqSel ?_ h.ahead
    rw [linkBytes_length]
    exact congrArg (· + linkSize i) hp.seqPtr
  links := fun j hj => h.links j (List.mem_cons_of_mem _ hj)
  tail := by
    obtain ⟨f, room, htail⟩ := h.tail
    exact ((tailOk_cons htail).resolve_left fun hstop => hi hstop.1).2

/-! ### The run of a helper's link -/

/-- A run that has not ended makes a move. -/
theorem drive_move {n : Nat} {s t : State} (hp : s.phase ≠ .none) (h : drive n s = .next t) :
    ∃ m u, smallStep s = .next u ∧ drive m u = .next t := by
  cases n with
  | zero => simp [drive, hp] at h
  | succ m =>
    rw [drive_step hp] at h
    obtain ⟨u, hu, hd⟩ := andThen_eq_next.1 h
    exact ⟨m, u, hu, hd⟩

section
variable {i : Instr} {s t : State} {n : Nat} (hi : i.isScan = false) (hs : s.service = some i) (h : drive n s = .next t)
include hi hs h

/-- When its link has its result a helper is torn down and completes (43_transactions R190, R195). -/
theorem drive_result {st : Status} (hp : s.phase ≠ .none) (hr : s.linkResult = some st) :
    t = completeLocked i st (linkEnd .selCb s) := by
  obtain ⟨m, u, hu, hd⟩ := drive_move hp h
  rw [smallStep_result hr, endOfLink, hs] at hu
  simp only [hi, Bool.false_eq_true, if_false, Host.Outcome.next.injEq] at hu
  subst hu
  rw [drive_idle (by rfl)] at hd
  cases hd
  rfl

/-- The link of a helper is walked once, operation by operation, until it has a result. -/
theorem drive_link {ops : List Instr} (ho : s.AtOps ops) :
    ∃ e st, LinkFrame s e ∧ LinkEnds (linkSymbols s.inFrame ops) s e st ∧ t = completeLocked i st (linkEnd .selCb e) := by
  induction ops generalizing s n with
  | nil => obtain ⟨f, room, htail⟩ := ho.tail; cases htail
  | cons j rest ih =>
    obtain ⟨⟨hl, hw⟩, hc⟩ := ho.links j List.mem_cons_self
    obtain ⟨m, v, hv, hd⟩ := drive_move ho.busy h
    rw [smallStep_ahead ho.result ho.point ho.ahead hl hw] at hv
    have hframe := exec_link_frame hl hv
    have hservice := hframe.service.trans hs
    replace hv := settle_of_exec_link hl hv
    have hspells := performLinkOp_spells hl hc s
    have hperf := performLinkOp_performs (s := s) hl
    rcases hr : performLinkOp j s with ⟨p, u⟩
    rw [hr] at hv hspells hperf
    by_cases hp : p = .next
    · subst hp
      cases hv
      obtain ⟨hstop, hopen⟩ := performLinkOp_next hl hr
      obtain ⟨e, st, hf, hends, ht⟩ := ih hservice hd (ho.advance hperf hstop)
      refine ⟨e, st, hframe.trans hf, ?_, ht⟩
      rw [linkSymbols, if_neg hstop, ← hopen]
      cases hspells with
      | next hxs hacks hwire => exact hends.after hxs hacks hwire hperf.mode hperf.frame.cfg
    · obtain ⟨f, room, htail⟩ := ho.tail
      obtain ⟨hdone, hnack⟩ := performLinkOp_rest hl htail hr _
      obtain ⟨st, hresult, hends⟩ := hspells.linkEnds hperf hp hdone hnack hv
      have hbusy := settle_busy hv (hperf.phase ▸ ho.busy)
      exact ⟨v, st, hframe, hends, drive_result hi hservice hd hbusy hresult⟩

end

/-! ### A transaction helper, from its request to its response -/

/-- A transaction helper is a transaction (43_transactions R190 to R192). -/
theorem helper_transaction {i : Instr} (hi : i.isLocked = true) (hs : i.isScan = false) (hw : i.WellFormed) :
    ∃ (a : Addr7) (data : List Byte) (rlen : Byte), data.length ≤ 255 ∧ helperOps i = transactionOps a data rlen ∧
      beginBody i = beginTransaction a data rlen := by
  cases i with
  | writeThenRead a data rlen =>
    have hd : data.length ≤ 255 := by simpa only [Instr.WellFormed, Instr.wellFormed, fitsLength, decide_eq_true_eq] using hw
    exact ⟨a, data, rlen, hd, rfl, rfl⟩
  | readByte a reg => exact ⟨a, [reg], 1, by simp, rfl, rfl⟩
  | writeByte a reg value => exact ⟨a, [reg, value], 0, by simp, rfl, rfl⟩
  | scan | detectAndLog => cases hs
  | start | writeAddressedByte | writeBuffer | readBuffer | stop | init => cases hi

/-- Every byte a transaction writes must be acknowledged (43_transactions R190). -/
theorem transactionOps_checked (a : Addr7) (data : List Byte) (rlen : Byte) : ∀ i ∈ transactionOps a data rlen, Checked i := by
  rintro i hi b rfl
  unfold transactionOps at hi
  split at hi <;> split at hi <;> simp at hi

/-- A link constructed without a failure stands before its first operation once it is submitted. -/
theorem Constructed.atOps {sel : Sel} {ops : List Instr} {s t : State} (h : Constructed sel ops s t)
    (he : t.buildErr = false) (hc : ∀ i ∈ ops, Checked i) (ms : BitVec 16) : (submit sel ms t).AtOps ops where
  busy := by simp
  result := rfl
  point := rfl
  ahead := submit_linkAhead (h.built he).1 ms
  links := fun i hi => ⟨h.links i hi, hc i hi⟩
  tail := ⟨_, _, (h.built he).2⟩

theorem responseOf_st (i : Instr) (st : Status) (s : State) : (responseOf i st s).st = st := by cases i <;> rfl

theorem length_deliveredBytes (st : Status) (m : Memory) (k : Nat) (free : List Byte) :
    (deliveredBytes st m k free).length = free.length := by
  induction free generalizing k with
  | nil => rfl
  | cons b bs ih => rw [deliveredBytes, List.length_cons, List.length_cons, ih]

/-- The response of a locked operation has the form of 30_encoding R98, whatever the status. -/
theorem responseOf_form {i : Instr} (hi : i.isLocked = true) (st : Status) (s : State) :
    ResponseForm i s.aset (responseOf i st s) := by
  cases i with
  | writeThenRead a data rlen =>
    refine ⟨responseBytes (.writeThenRead a data rlen) st s, ?_, rfl⟩
    rw [responseBytes, length_deliveredBytes, Env.nextBytes, Tape.length_ahead]
    rfl
  | readByte => exact ⟨_, rfl⟩
  | writeByte | scan | detectAndLog => rfl
  | start | writeAddressedByte | writeBuffer | readBuffer | stop | init => cases hi

theorem listing_helper {i : Instr} (hs : i.isScan = false) (set : AddrSet) : listing i set = [] := by
  cases i with
  | scan | detectAndLog => cases hs
  | start | writeAddressedByte | writeBuffer | readBuffer | stop => rfl
  | init | writeThenRead | readByte | writeByte => rfl

@[simp] theorem completeLocked_responses (i : Instr) (st : Status) (s : State) :
    (completeLocked i st s).responses = s.responses ++ [(s.requester, responseOf i st s)] := rfl

/-- How the link of a helper served in `s` has come to its result in `e`: it was not built, or it was walked. -/
def HelperEnds (i : Instr) (s e : State) (st : Status) : Prop :=
  (st = .noMemory ∧ e.wire = s.wire ∧ e.mode = s.mode) ∨ LinkEnds (linkSymbols false (helperOps i)) s e st

/-- A helper served runs its link to a result and completes for its requester. -/
theorem exec_helper {i : Instr} {s t : State} (hi : i.isLocked = true) (hs : i.isScan = false) (hw : i.WellFormed)
    (hserve : s.CanServe) (h : exec i s = .next t) :
    ∃ e st, e.lock = .held s.cur ∧ e.responses = s.responses ∧ HelperEnds i s e st ∧
      t = completeLocked i st (linkEnd .selCb e) := by
  obtain ⟨hmode, hfree, -⟩ := hserve
  obtain ⟨a, data, rlen, hd, hops, hbody⟩ := helper_transaction hi hs hw
  have hready : s.mode ≠ .uninit := by rw [hmode]; decide
  have hgranted : ({ s.acquire with service := some i } : State).mode ≠ .fatal := by
    show s.mode ≠ .fatal
    rw [hmode]
    decide
  have hbuild := buildTransaction_constructed a hd rlen { s.acquire with service := some i }
  rw [exec_locked hi, runLocked, if_neg hready, if_pos hfree] at h
  generalize driveBound (beginLocked i s) = n at h
  rw [beginLocked, if_neg hgranted, hbody, beginTransaction, submitBuilt] at h
  generalize buildTransaction a data rlen { s.acquire with service := some i } = b at h hbuild
  have hf := hbuild.frame
  split at h
  · refine ⟨{ b with linkResult := some .noMemory }, .noMemory, hf.lock, hf.responses, .inl ⟨rfl, hf.wire, hf.mode⟩, ?_⟩
    refine drive_result (s := { b with linkResult := some .noMemory }) hs hf.service h ?_ rfl
    show b.phase ≠ .none
    rw [hbuild.phase]
    decide
  · next he =>
    have hat := hbuild.atOps (by simpa using he) (transactionOps_checked a data rlen) Config.timeoutMs
    obtain ⟨e, st, hframe, hends, ht⟩ := drive_link (s := submit .selCb Config.timeoutMs b) hs hf.service h hat
    refine ⟨e, st, hframe.lock.trans hf.lock, hframe.responses.trans hf.responses, .inr ?_, ht⟩
    rw [hops]
    exact hends.after (xs := []) rfl nofun (by simpa using hf.wire) hf.mode hf.cfg

end Sys2Proof.Machine

open Sys2Proof Sys2Proof.Machine

/-- Settles O34: the link is walked operation by operation (`drive_link`), each spelling its symbols up to where it stops
(`performLinkOp_spells`), and a timeout adds one pass, whole or cut. -/
theorem transactionOnTheWire : Obligations.TransactionOnTheWire := by
  intro i s t hi hs hw hserve h
  have hready : s.mode = .ready := hserve.1
  obtain ⟨e, st, hlock, hresponses, hends, rfl⟩ := exec_helper hi hs hw hserve h
  have hform := responseOf_form hi st (linkEnd .selCb e)
  have hst := responseOf_st i st (linkEnd .selCb e)
  have hwire : (completeLocked i st (linkEnd .selCb e)).wire = e.wire := by
    rw [completeLocked_wire, listing_helper hs, List.append_nil, linkEnd_wire]
  have hanswer : (completeLocked i st (linkEnd .selCb e)).responses
      = s.responses ++ [(s.cur, responseOf i st (linkEnd .selCb e))] := by
    rw [completeLocked_responses, State.requester, linkEnd_lock, hlock, linkEnd_responses, hresponses]
  rcases hends with ⟨rfl, hw, hm⟩ | hends
  · exact ⟨_, [], hanswer, hform, List.nil_prefix,
      .inr (.inr (.inl ⟨hst, hwire.trans hw, hm.trans hready⟩))⟩
  · cases hends with
    | ok ho ha hw hm =>
      exact ⟨_, _, hanswer, hform, ho ▸ List.prefix_rfl, .inl ⟨hst, ho, ha, hwire.trans hw, hm.trans hready⟩⟩
    | nack ho hr hw hm =>
      exact ⟨_, _, hanswer, hform, ho, .inr (.inl ⟨hst, hr, hwire.trans hw, hm.trans hready⟩)⟩
    | aborted ho ha hw hm hc hpass =>
      refine ⟨_, _, hanswer, hform, ho.isPrefix, .inr (.inr (.inr ⟨ho.ne, ha, ?_⟩))⟩
      rw [PassEnds, hw, hc, hm, hready] at hpass
      rcases hpass with ⟨rfl, hpass, hmode, -⟩ | ⟨rfl, hmode, k, es, hk, hfailed, hpass⟩
      · exact .inl ⟨hst, hwire.trans hpass, hmode⟩
      · exact .inr ⟨hst, hmode, k, es, hk, hfailed, hwire.trans hpass⟩
end

section
/-! The recovery half-period (42_recovery R172). -/

open Sys2Proof Sys2Proof.Machine

/-- Settles O12: at a speed but 0 the half-period is a division of words, which never exceeds its numerator. -/
theorem halfPeriodIsTheQuotient : Obligations.HalfPeriodIsTheQuotient := by
  intro v hv
  have hquotient : (halfPeriod v).toNat = 1000000 / v.toNat := by
    rw [halfPeriod, if_neg hv, BitVec.toNat_udiv]
    rfl
  exact ⟨hquotient, hquotient ▸ Nat.div_le_self ..⟩
end

section
/-! A recovery pass with the answers of its calls given: all of them `ok`, or `ok` up to the one that fails. The whole state it
leaves (42_recovery R171, R173). -/

namespace Sys2Proof.Machine

/-! ### Calls made one after another -/

/-- The fallible call that a call of the pass is; a delay cannot fail (42_recovery R171). -/
def RecoveryCall.halCall (c : RecoveryCall) : Option HalCall :=
  match c with
  | .tearDown => some .engDown
  | .dataLine => some .dir
  | .clockLine => some .dir
  | .clockLow => some .lvl
  | .holdLow => none
  | .clockHigh => some .lvl
  | .holdHigh => none
  | .configure => some .engCfg

@[simp] theorem recoveryEvent_halCall (cfg : Cfg) (c : RecoveryCall) : (recoveryEvent cfg c).halCall = c.halCall := by
  cases c <;> rfl

/-- How many answers these calls take from the environment: one for each that can fail. -/
def answersTaken (cs : List RecoveryCall) : Nat := (cs.filterMap RecoveryCall.halCall).length

@[simp] theorem answersTaken_append (cs ds : List RecoveryCall) :
    answersTaken (cs ++ ds) = answersTaken cs + answersTaken ds := by simp [answersTaken]

theorem answersTaken_cons_delay {c : RecoveryCall} (hc : c.halCall = none) (cs : List RecoveryCall) :
    answersTaken (c :: cs) = answersTaken cs := by simp [answersTaken, hc]

theorem answersTaken_cons_call {c : RecoveryCall} {call : HalCall} (hc : c.halCall = some call) (cs : List RecoveryCall) :
    answersTaken (c :: cs) = answersTaken cs + 1 := by simp [answersTaken, hc]

theorem answersTaken_toggles (n : Nat) : answersTaken (List.replicate n toggleCalls).flatten = 2 * n := by
  induction n with
  | zero => rfl
  | succ n ih =>
    rw [List.replicate_succ, List.flatten_cons, answersTaken_append, ih, show answersTaken toggleCalls = 2 from rfl]
    omega

/-- What the calls of a pass only ever add to: WIRE, and the answers given. -/
def State.withTrace (s : State) (e : Env) (w : List Event) : State := { s with env := e, wire := w }

/-- The environment once that many more answers to hardware-abstraction calls are given. -/
def Env.dropHals (n : Nat) (e : Env) : Env := { e with hals := e.hals.skip n }

theorem Env.dropHals_dropHal (n : Nat) (e : Env) : (e.dropHals n).dropHal = e.dropHals (n + 1) := by
  simp [Env.dropHals, Env.dropHal, Tape.skip_tail]

/-- No call reads WIRE or the environment for what else it writes. -/
theorem State.withTrace_called (s : State) (e : Env) (w : List Event) (c : RecoveryCall) :
    (s.withTrace e w).called c = (s.called c).withTrace e w := by cases c <;> rfl

theorem foldl_called_withTrace (cs : List RecoveryCall) (s : State) (e : Env) (w : List Event) :
    cs.foldl State.called (s.withTrace e w) = (cs.foldl State.called s).withTrace e w :=
  List.foldl_hom (State.withTrace · e w) fun s c => State.withTrace_called s e w c

@[simp] theorem foldl_called_cfg (cs : List RecoveryCall) (s : State) : (cs.foldl State.called s).cfg = s.cfg := by
  induction cs generalizing s with
  | nil => rfl
  | cons c cs ih => rw [List.foldl_cons, ih, State.called_cfg]

@[simp] theorem State.called_env (s : State) (c : RecoveryCall) : (s.called c).env = s.env := by cases c <;> rfl

/-- What these calls leave when every answer is `ok`. -/
def State.calledAll (s : State) (cs : List RecoveryCall) : State :=
  (cs.foldl State.called s).withTrace (s.env.dropHals (answersTaken cs)) (s.wire ++ cs.map (recoveryEvent s.cfg))

@[simp] theorem State.calledAll_cfg (s : State) (cs : List RecoveryCall) : (s.calledAll cs).cfg = s.cfg :=
  foldl_called_cfg cs s

/-- A call and those after it. -/
theorem State.calledAll_cons {s : State} {c : RecoveryCall} {cs : List RecoveryCall} {e : Env}
    (he : e.dropHals (answersTaken cs) = s.env.dropHals (answersTaken (c :: cs))) :
    ((s.withTrace e (s.wire ++ [recoveryEvent s.cfg c])).called c).calledAll cs = s.calledAll (c :: cs) := by
  rw [State.withTrace_called]
  simp only [State.calledAll, foldl_called_withTrace]
  simp [State.withTrace, he]

/-- Calls that all answer `ok` are all made. -/
theorem runCalls_ok {cs : List RecoveryCall} {s : State}
    (h : s.env.nextHals (answersTaken cs) = List.replicate (answersTaken cs) .ok) :
    runCalls cs s = (.ok, s.calledAll cs) := by
  induction cs generalizing s with
  | nil =>
    show (HalAnswer.ok, s) = (.ok, s.withTrace s.env (s.wire ++ []))
    rw [List.append_nil]
    rfl
  | cons c cs ih =>
    rw [runCalls]
    cases hc : c.halCall with
    | none =>
      have hn := answersTaken_cons_delay hc cs
      rw [hn] at h
      rw [recoveryCall_delay (by simpa using hc), ifOk_ok, ih (by rw [State.called_env]; exact h)]
      exact congrArg _ (State.calledAll_cons (by rw [hn]))
    | some call =>
      have hn := answersTaken_cons_call hc cs
      rw [hn, Env.nextHals, Tape.ahead_succ, List.replicate_succ, List.cons.injEq] at h
      obtain ⟨hfirst, hrest⟩ := h
      rw [recoveryCall_ok (by simpa using hc) hfirst, ifOk_ok, ih (by rw [State.called_env]; exact hrest)]
      exact congrArg _ (State.calledAll_cons (by rw [hn]; rfl))

theorem runCalls_append (cs ds : List RecoveryCall) (s : State) :
    runCalls (cs ++ ds) s = ifOk (runCalls cs s) (runCalls ds) := by
  induction cs generalizing s with
  | nil => rfl
  | cons c cs ih =>
    rw [List.cons_append, runCalls, runCalls]
    rcases recoveryCall c s with ⟨_ | _, u⟩
    · exact ih u
    · rfl

/-- What these calls leave when every answer is `ok`, and then the failure of call `c` (R8). -/
def State.calledUpTo (s : State) (cs : List RecoveryCall) (c : RecoveryCall) (call : HalCall) : State :=
  (cs.foldl State.called s).withTrace (s.env.dropHals (answersTaken cs + 1))
    (s.wire ++ (cs.map (recoveryEvent s.cfg) ++ [recoveryEvent s.cfg c, .fail call]))

/-- The calls stop at the first that fails (42_recovery R173). -/
theorem runCalls_fail {cs ds : List RecoveryCall} {c : RecoveryCall} {call : HalCall} {s : State}
    (hds : cs ++ [c] <+: ds) (hc : c.halCall = some call)
    (h : s.env.nextHals (answersTaken cs + 1) = List.replicate (answersTaken cs) .ok ++ [.fail]) :
    runCalls ds s = (.fail, s.calledUpTo cs c call) := by
  obtain ⟨rest, rfl⟩ := hds
  rw [Env.nextHals, Tape.ahead_add] at h
  obtain ⟨hok, hlast⟩ := List.append_inj h (by simp)
  have hfail : (s.calledAll cs).env.nextHal = .fail := List.head_eq_of_cons_eq hlast
  have hcall := recoveryCall_fail (s := s.calledAll cs) (c := c) (by simpa using hc) hfail
  rw [List.append_assoc, runCalls_append, runCalls_ok hok, ifOk_ok, List.singleton_append, runCalls, hcall, ifOk_fail]
  simp [State.calledAll, State.calledUpTo, State.withTrace, Env.dropHals_dropHal]

/-! ### What the calls of a pass leave of the pins and TOGGLE_CNT -/

theorem foldl_called_toggles (n : Nat) (s : State) :
    (List.replicate n toggleCalls).flatten.foldl State.called s = { s with
      toggleCnt := s.toggleCnt + BitVec.ofNat 6 n, sclLevel := if n = 0 then s.sclLevel else true } := by
  induction n generalizing s with
  | zero => simp
  | succ n ih =>
    have hcount : s.toggleCnt + 1 + BitVec.ofNat 6 n = s.toggleCnt + BitVec.ofNat 6 (n + 1) := by
      rw [BitVec.add_assoc, Nat.add_comm n 1, BitVec.ofNat_add]
      rfl
    rw [List.replicate_succ, List.flatten_cons, List.foldl_append, ih, ← hcount]
    simp [toggleCalls, State.called, State.countToggle]

/-- The calls of a pass before the fallible call number `k`. -/
def callsBefore : Nat → List RecoveryCall
  | 0 => []
  | 1 => [.tearDown]
  | 2 => [.tearDown, .dataLine]
  | m + 3 => [.tearDown, .dataLine, .clockLine] ++
      ((List.replicate (m / 2) toggleCalls).flatten ++ if m % 2 = 0 then [] else [.clockLow, .holdLow])

/-- The fallible call number `k` of a pass. -/
def callNumber : Nat → RecoveryCall
  | 0 => .tearDown
  | 1 => .dataLine
  | 2 => .clockLine
  | m + 3 => if m = 64 then .configure else if m % 2 = 0 then .clockLow else .clockHigh

theorem answersTaken_callsBefore : ∀ k, answersTaken (callsBefore k) = k
  | 0 => rfl
  | 1 => rfl
  | 2 => rfl
  | m + 3 => by
    rw [callsBefore, answersTaken_append, answersTaken_append, answersTaken_toggles,
      show answersTaken [.tearDown, .dataLine, .clockLine] = 3 from rfl]
    split
    · show 3 + (2 * (m / 2) + 0) = m + 3
      omega
    · show 3 + (2 * (m / 2) + 1) = m + 3
      omega

theorem callNumber_fallible (k : Nat) : ∃ call, (callNumber k).halCall = some call := by
  match k with
  | 0 | 1 | 2 => exact ⟨_, rfl⟩
  | m + 3 => rw [callNumber]; split_ifs <;> exact ⟨_, rfl⟩

/-- The toggles before one of the 32, and that one. -/
theorem toggles_prefix {j : Nat} (hj : j < 32) :
    (List.replicate j toggleCalls).flatten ++ toggleCalls <+: (List.replicate 32 toggleCalls).flatten := by
  refine ⟨(List.replicate (31 - j) toggleCalls).flatten, ?_⟩
  rw [← List.flatten_concat, ← List.replicate_succ', ← List.flatten_append, List.replicate_append_replicate,
    show j + 1 + (31 - j) = 32 by omega]

theorem callsBefore_prefix {k : Nat} (hk : k < 68) : callsBefore k ++ [callNumber k] <+: passCalls := by
  match k with
  | 0 | 1 | 2 => exact ⟨_, rfl⟩
  | m + 3 =>
    rw [callsBefore, callNumber, passCalls, List.append_assoc, List.prefix_append_right_inj, List.append_assoc]
    by_cases hlast : m = 64
    · subst hlast
      exact List.prefix_rfl
    · have htoggle : (if m % 2 = 0 then [] else [.clockLow, .holdLow]) ++
          [if m % 2 = 0 then .clockLow else .clockHigh] <+: toggleCalls := by
        split
        · exact ⟨[.holdLow, .clockHigh, .holdHigh], rfl⟩
        · exact ⟨[.holdHigh], rfl⟩
      rw [if_neg hlast]
      exact (((List.prefix_append_right_inj _).2 htoggle).trans (toggles_prefix (by omega))).trans
        (List.prefix_append ..)

/-- What the calls before number `k` leave of the pins and of TOGGLE_CNT, from step 1 on (42_recovery R171). -/
theorem foldl_called_callsBefore (k : Nat) (s : State) :
    (callsBefore k).foldl State.called (takeTimeoutTrap s) = { takeTimeoutTrap s with
      toggleCnt := BitVec.ofNat 6 ((k - 3) / 2)
      engineUp := if k = 0 then s.engineUp else false
      sdaMode := if k = 0 then s.sdaMode else if k = 1 then .unconf else .gpioIn
      sclMode := if k = 0 then s.sclMode else if k ≤ 2 then .unconf else .gpioOut
      sclLevel := if k ≤ 3 then s.sclLevel else decide (k % 2 = 1) } := by
  match k with
  | 0 | 1 | 2 => rfl
  | m + 3 =>
    rw [callsBefore, List.foldl_append, List.foldl_append, foldl_called_toggles]
    obtain ⟨j, rfl | rfl⟩ := m.even_or_odd'
    · have hodd : (2 * j + 3) % 2 = 1 := by omega
      simp [State.called, takeTimeoutTrap, hodd]
    · have heven : (2 * j + 1 + 3) % 2 = 0 := by omega
      simp [State.called, takeTimeoutTrap, heven]

/-- What a whole pass leaves of them. -/
theorem foldl_called_passCalls (s : State) :
    passCalls.foldl State.called (takeTimeoutTrap s) = { takeTimeoutTrap s with
      toggleCnt := 32, engineUp := true, sdaMode := .engine, sclMode := .engine, sclLevel := true } := by
  rw [show passCalls = callsBefore 67 ++ [.configure] from rfl, List.foldl_append, foldl_called_callsBefore]
  rfl

/-- The events of a pass whose call number `k` fails. -/
theorem failedPass_callsBefore {k : Nat} (hk : k < 68) {call : HalCall} (hc : (callNumber k).halCall = some call) (cfg : Cfg) :
    FailedPass cfg k ((callsBefore k).map (recoveryEvent cfg) ++ [recoveryEvent cfg (callNumber k), .fail call]) := by
  have hevents := (callsBefore_prefix hk).map (recoveryEvent cfg)
  rw [passCalls_events, List.map_append] at hevents
  refine ⟨_, _, call, hevents, (recoveryEvent_halCall ..).trans hc, ?_, rfl⟩
  have hcalls : Event.halCall ∘ recoveryEvent cfg = RecoveryCall.halCall := funext (recoveryEvent_halCall cfg)
  rw [List.filterMap_map, hcalls]
  exact answersTaken_callsBefore k

end Sys2Proof.Machine

open Sys2Proof Sys2Proof.Machine

/-- Settles O24: all 68 answers are `ok`, so every call of the pass is made (`runCalls_ok`). -/
theorem cleanRecoveryPass : Obligations.CleanRecoveryPass := by
  refine ⟨fun _ => rfl, fun s h => ?_⟩
  have hruns : runCalls passCalls (takeTimeoutTrap s) = (.ok, (takeTimeoutTrap s).calledAll passCalls) := runCalls_ok h
  rw [timeoutAbort, recover_eq_runCalls, hruns, State.calledAll, foldl_called_passCalls, passCalls_events,
    takeTimeoutTrap_wire, List.append_assoc]
  rfl

/-- Settles O25: the calls before number `k` are made and that one fails (`runCalls_fail`). -/
theorem failedRecoveryPass : Obligations.FailedRecoveryPass := by
  intro s k hk h
  obtain ⟨call, hc⟩ := callNumber_fallible k
  refine ⟨_, failedPass_callsBefore hk hc s.cfg, ?_⟩
  have hruns : runCalls passCalls (takeTimeoutTrap s)
      = (.fail, (takeTimeoutTrap s).calledUpTo (callsBefore k) (callNumber k) call) :=
    runCalls_fail (callsBefore_prefix hk) hc (by rw [answersTaken_callsBefore]; exact h)
  rw [timeoutAbort, recover_eq_runCalls, hruns, State.calledUpTo, foldl_called_callsBefore, answersTaken_callsBefore,
    takeTimeoutTrap_wire, List.append_assoc]
  rfl
end

section
/-! EXECUTE's loop over the operations of a link (41_command_link R140), and a transaction helper as its build, that loop and its
completion (43_transactions R190 to R195). -/

namespace Sys2Proof.Machine

/-! ### The loop of EXECUTE -/

/-- The operations of a link one after another, until the link has a result (41_command_link R140). -/
def walkLink : List Instr → State → Result
  | [], s => .next s
  | i :: rest, s => if s.linkResult = none then andThen (exec i s) (walkLink rest) else .next s

theorem walkLink_over {s : State} (h : s.linkResult ≠ none) (ops : List Instr) : walkLink ops s = .next s := by
  cases ops with
  | nil => rfl
  | cons i rest => exact if_neg h

theorem walkLink_cons {s : State} (h : s.linkResult = none) (i : Instr) (rest : List Instr) :
    walkLink (i :: rest) s = andThen (exec i s) (walkLink rest) := if_pos h

theorem walkLink_step {s t : State} {i : Instr} (h : s.linkResult = none) (he : exec i s = .next t) (rest : List Instr) :
    walkLink (i :: rest) s = walkLink rest t := by
  rw [walkLink_cons h, he, andThen_next]

theorem andThen_andThen {α β γ : Type} (o : Host.Outcome α Fault Refusal) (f : α → Host.Outcome β Fault Refusal)
    (g : β → Host.Outcome γ Fault Refusal) : andThen (andThen o f) g = andThen o fun a => andThen (f a) g := by
  cases o <;> rfl

/-- What holds of every state a step goes on to. -/
theorem andThen_congr {α β : Type} {o : Host.Outcome α Fault Refusal} {f g : α → Host.Outcome β Fault Refusal}
    (h : ∀ a, o = .next a → f a = g a) : andThen o f = andThen o g := by
  cases o with
  | next a => exact h a rfl
  | fault | refused => rfl

/-- STOP is the end of its link, one way or another. -/
theorem exec_stop_result {s t : State} (h : exec .stop s = .next t) : t.linkResult ≠ none := by
  replace h : settle 1 (performStop s) = .next t := settle_of_exec_link rfl h
  cases ha : s.env.nextStop with
  | done => rw [performStop_done ha] at h; cases h; nofun
  | hang => rw [performStop_hang ha] at h; cases h; exact (timeoutAbort_over _).1

/-- Where the loop over a link comes to its end the link has a result. -/
theorem walkLink_result {ops : List Instr} {f : Bool} {room : Nat} {s t : State} (htail : tailOk f room ops = true)
    (h : walkLink ops s = .next t) : ∃ st, t.linkResult = some st := by
  refine Option.ne_none_iff_exists'.1 ?_
  induction ops generalizing f room s with
  | nil => cases htail
  | cons i rest ih =>
    by_cases hr : s.linkResult = none
    · rw [walkLink_cons hr] at h
      obtain ⟨u, hu, hrest⟩ := andThen_eq_next.1 h
      rcases tailOk_cons htail with ⟨rfl, rfl⟩ | ⟨-, f', room', htail'⟩
      · cases hrest
        exact exec_stop_result hu
      · exact ih htail' hrest
    · rw [walkLink_over hr] at h
      cases h
      exact hr

/-! ### The run of a helper -/

/-- With the result of its link a helper is torn down and completes (43_transactions R190, R195). -/
theorem smallStep_completes {i : Instr} {s : State} {st : Status} (hi : i.isScan = false) (hs : s.service = some i)
    (hr : s.linkResult = some st) : smallStep s = .next (completeLocked i st (linkEnd .selCb s)) := by
  rw [smallStep_result hr, endOfLink, hs]
  simp [hi]

/-- An operation of a link after which the link goes on leaves the sequencer before the next one. -/
theorem State.AtOps.next {i : Instr} {rest : List Instr} {s t : State} (h : s.AtOps (i :: rest))
    (he : exec i s = .next t) : t.phase ≠ .none ∧ (t.linkResult = none → t.AtOps rest) := by
  obtain ⟨⟨hl, -⟩, -⟩ := h.links i List.mem_cons_self
  have hset := settle_of_exec_link hl he
  have hp := performLinkOp_performs (s := s) hl
  rcases hr : performLinkOp i s with ⟨p, u⟩
  rw [hr] at hset hp
  refine ⟨settle_busy hset (hp.phase ▸ h.busy), fun hnone => ?_⟩
  cases p with
  | next => cases hset; exact h.advance hp (performLinkOp_next hl hr).1
  | done => cases hset; cases hnone
  | nack => cases hset; exact absurd hnone (nackAbort_over u).1
  | hang => cases hset; exact absurd hnone (timeoutAbort_over u).1
  | overrun => cases hset

/-- A helper whose link has a result needs one move more. -/
theorem drive_over {i : Instr} {s : State} {n : Nat} (hi : i.isScan = false) (hs : s.service = some i)
    (hp : s.phase ≠ .none) (hr : s.linkResult ≠ none) (hn : 0 < n) : drive n s = smallStep s := by
  obtain ⟨st, hst⟩ := Option.ne_none_iff_exists'.1 hr
  obtain ⟨m, rfl⟩ := Nat.exists_eq_succ_of_ne_zero hn.ne'
  rw [drive_step_next hp (smallStep_completes hi hs hst), smallStep_completes hi hs hst]
  exact drive_idle rfl m

/-- A helper runs its link and completes. -/
theorem drive_eq_walkLink {i : Instr} {ops : List Instr} {s : State} {n : Nat} (hi : i.isScan = false)
    (hs : s.service = some i) (hp : s.phase ≠ .none) (hat : s.linkResult = none → s.AtOps ops) (hn : ops.length < n) :
    drive n s = andThen (walkLink ops s) smallStep := by
  induction ops generalizing s n with
  | nil =>
    refine drive_over hi hs hp (fun hr => ?_) hn
    obtain ⟨f, room, htail⟩ := (hat hr).tail
    cases htail
  | cons j rest ih =>
    rw [List.length_cons] at hn
    by_cases hr : s.linkResult = none
    · have ho := hat hr
      obtain ⟨⟨hl, hw⟩, -⟩ := ho.links j List.mem_cons_self
      obtain ⟨m, rfl⟩ := Nat.exists_eq_succ_of_ne_zero (Nat.ne_zero_of_lt hn)
      rw [drive_step hp, smallStep_ahead ho.result ho.point ho.ahead hl hw, walkLink_cons hr, andThen_andThen]
      refine andThen_congr fun t ht => ?_
      obtain ⟨hbusy, hnext⟩ := ho.next ht
      exact ih ((exec_link_frame hl ht).service.trans hs) hbusy hnext (by omega)
    · rw [walkLink_over hr]
      exact drive_over hi hs hp hr (by omega)

/-! ### A helper served -/

/-- The host operation `i` is the transaction with these operands (43_transactions R190 to R192). -/
structure IsTransaction (i : Instr) (a : Addr7) (data : List Byte) (rlen : Byte) : Prop where
  locked : i.isLocked = true
  helper : i.isScan = false
  payload : data.length ≤ 255
  body : beginBody i = beginTransaction a data rlen
  response : responseLength i = rlen.toNat

theorem isTransaction_writeThenRead (a : Addr7) {data : List Byte} (hd : data.length ≤ 255) (rlen : Byte) :
    IsTransaction (.writeThenRead a data rlen) a data rlen := ⟨rfl, rfl, hd, rfl, rfl⟩

theorem isTransaction_readByte (a : Addr7) (reg : Byte) : IsTransaction (.readByte a reg) a [reg] 1 :=
  ⟨rfl, rfl, by simp, rfl, rfl⟩

theorem isTransaction_writeByte (a : Addr7) (reg value : Byte) :
    IsTransaction (.writeByte a reg value) a [reg, value] 0 := ⟨rfl, rfl, by simp, rfl, rfl⟩

/-- 8-bit length fields hold the payload (30_encoding R92, decision D10). -/
theorem payload_length {a : Addr7} {data : List Byte} {rlen : Byte}
    (h : (Instr.writeThenRead a data rlen).WellFormed) : data.length ≤ 255 := by
  simpa only [Instr.WellFormed, Instr.wellFormed, fitsLength, decide_eq_true_eq] using h

theorem exists_isTransaction {i : Instr} (hi : i.isLocked = true) (hs : i.isScan = false) (hw : i.WellFormed) :
    ∃ a data rlen, IsTransaction i a data rlen := by
  cases i with
  | writeThenRead a data rlen => exact ⟨_, _, _, isTransaction_writeThenRead a (payload_length hw) rlen⟩
  | readByte a reg => exact ⟨_, _, _, isTransaction_readByte a reg⟩
  | writeByte a reg value => exact ⟨_, _, _, isTransaction_writeByte a reg value⟩
  | scan | detectAndLog => cases hs
  | start | writeAddressedByte | writeBuffer | readBuffer | stop | init => cases hi

/-- The lock has been granted for the operation `i` (43_transactions R195). -/
def State.granted (s : State) (i : Instr) : State := { s.acquire with service := some i }

/-- The link of a transaction in service `s`, built and executed (43_transactions R190). -/
def transact (a : Addr7) (data : List Byte) (rlen : Byte) (s : State) : Result :=
  walkLink (transactionOps a data rlen) (beginTransaction a data rlen s)

theorem beginTransaction_atOps (a : Addr7) {data : List Byte} (hd : data.length ≤ 255) (rlen : Byte) (s : State)
    (hr : (beginTransaction a data rlen s).linkResult = none) :
    (beginTransaction a data rlen s).AtOps (transactionOps a data rlen) := by
  unfold beginTransaction submitBuilt at hr ⊢
  split at hr
  · cases hr
  · next he =>
    rw [if_neg he]
    exact (buildTransaction_constructed a hd rlen s).atOps (by simpa using he) (transactionOps_checked a data rlen) _

theorem beginTransaction_busy (a : Addr7) (data : List Byte) (rlen : Byte) (s : State) :
    (beginTransaction a data rlen s).phase ≠ .none := by
  have hbuild : (buildTransaction a data rlen s).phase = .build := (buildTransaction_in a data rlen s).phase
  unfold beginTransaction submitBuilt
  split
  · simp [hbuild]
  · simp

theorem beginTransaction_service (a : Addr7) (data : List Byte) (rlen : Byte) (s : State) :
    (beginTransaction a data rlen s).service = s.service := by
  have hbuild := (buildTransaction_frame a data rlen s).service
  unfold beginTransaction submitBuilt
  split
  · exact hbuild
  · exact hbuild

theorem transact_result {a : Addr7} {data : List Byte} {rlen : Byte} {s t : State}
    (h : transact a data rlen s = .next t) : ∃ st, t.linkResult = some st :=
  walkLink_result (transactionOps_tail a data le_rfl) h

/-- A helper that is served builds its link, executes it and completes. -/
theorem IsTransaction.exec_eq {i : Instr} {a : Addr7} {data : List Byte} {rlen : Byte} {s : State}
    (h : IsTransaction i a data rlen) (hs : s.CanServe) :
    exec i s = andThen (transact a data rlen (s.granted i)) smallStep := by
  obtain ⟨hmode, hfree, -⟩ := hs
  have hready : s.mode ≠ .uninit := by rw [hmode]; decide
  have hgood : (s.granted i).mode ≠ .fatal := by rw [show (s.granted i).mode = s.mode from rfl, hmode]; decide
  have hbegin : beginLocked i s = beginTransaction a data rlen (s.granted i) := by
    rw [← h.body]
    exact if_neg hgood
  have hlength := transactionOps_length a data rlen
  rw [exec_locked h.locked, runLocked, if_neg hready, if_pos hfree, hbegin]
  exact drive_eq_walkLink h.helper (beginTransaction_service ..) (beginTransaction_busy a data rlen _)
    (beginTransaction_atOps a h.payload rlen _) (by rw [driveBound]; omega)

end Sys2Proof.Machine
end

section
/-! The link of a transaction that fits (43_transactions R190; 30_encoding R96, R103). -/

namespace Sys2Proof.Machine

theorem length_linkBytesOf (ops : List Instr) : (linkBytesOf ops).length = (ops.map linkSize).sum := by
  simp [linkBytesOf, List.length_flatMap, linkBytes_length]

/-- The link is as long as 30_encoding R103 says. -/
theorem length_transaction (a : Addr7) (data : List Byte) (rlen : Byte) :
    (linkBytesOf (transactionOps a data rlen)).length = transactionCost data.length rlen.toNat := by
  have hpayload : 0 < data.length ↔ ¬data = [] := List.length_pos_iff
  have hread : 0 < rlen.toNat ↔ ¬rlen = 0 := by
    rw [Nat.pos_iff_ne_zero, ne_eq, BitVec.toNat_eq]; rfl
  rw [length_linkBytesOf, transactionOps, transactionCost]
  simp only [hpayload, hread, ite_not]
  split
  · split
    · rfl
    · rfl
  · split
    · simp [linkSize]; omega
    · simp [linkSize]; omega

/-- A transaction's link begins with START and ends with its only STOP (30_encoding R96). -/
theorem transactionOps_shape (a : Addr7) (data : List Byte) (rlen : Byte) : linkShape (transactionOps a data rlen) = true := by
  unfold transactionOps linkShape
  split
  · split
    · rfl
    · rfl
  · split
    · rfl
    · rfl

theorem transaction_wellFormedLink (a : Addr7) {data : List Byte} (hd : data.length ≤ 255) (rlen : Byte) :
    wellFormedLink (linkBytesOf (transactionOps a data rlen)) = true := by
  rw [wellFormedLink, decodeLinkOps_linkBytesOf (transactionOps_wellFormed a hd rlen)]
  exact transactionOps_shape a data rlen

/-- Where the transaction fits the construction does not fail. -/
theorem buildTransaction_fits {data : List Byte} {rlen : Byte} {s : State} (a : Addr7)
    (h : transactionFits s.params data.length rlen.toNat = true) :
    Built .selCb (linkBytesOf (transactionOps a data rlen)) (buildTransaction a data rlen s) := by
  obtain ⟨hlink, hreads⟩ := of_decide_eq_true h
  exact (buildTransaction_construction a data rlen s).built ((length_transaction a data rlen).trans_le hlink) hreads

theorem beginTransaction_fits {data : List Byte} {rlen : Byte} {s : State} (a : Addr7)
    (h : transactionFits s.params data.length rlen.toNat = true) :
    beginTransaction a data rlen s = submit .selCb Config.timeoutMs (buildTransaction a data rlen s) := by
  have herr := (buildTransaction_fits a h).err
  exact if_neg (by simp [herr])

end Sys2Proof.Machine

open Sys2Proof Sys2Proof.Machine

/-- Settles O33: the construction ends with the whole link in CB (`buildTransaction_fits`), and the submission leaves all of it
ahead. -/
theorem transactionLinkIsBuilt : Obligations.TransactionLinkIsBuilt := by
  intro s a data rlen hw hfits
  have hbuilt := buildTransaction_fits a hfits
  have hframe := buildTransaction_frame a data rlen s
  have hlength := length_transaction a data rlen
  rw [beginTransaction_fits a hfits]
  exact ⟨submit_linkAhead hbuilt _, hbuilt.len.trans hlength, hlength,
    transaction_wellFormedLink a (payload_length hw) rlen, hframe.wire, hframe.env⟩
end

section
/-! What a transaction helper leaves alone, however it ends (43_transactions R190, R195). -/

namespace Sys2Proof.Machine

theorem walkLink_frame {ops : List Instr} (hops : ∀ i ∈ ops, i.isLink = true) {s t : State} (h : walkLink ops s = .next t) :
    LinkFrame s t ∧ ReadsWithin (ops.map readLength).sum s t := by
  induction ops generalizing s with
  | nil => cases h; exact ⟨.refl _, .of_same rfl rfl⟩
  | cons i rest ih =>
    have hl := hops i List.mem_cons_self
    by_cases hr : s.linkResult = none
    · rw [walkLink_cons hr] at h
      obtain ⟨u, hu, hrest⟩ := andThen_eq_next.1 h
      obtain ⟨hf, hreads⟩ := ih (fun j hj => hops j (List.mem_cons_of_mem i hj)) hrest
      exact ⟨(exec_link_frame hl hu).trans hf, (exec_link_readsWithin hl hu).trans hreads⟩
    · rw [walkLink_over hr] at h
      cases h
      exact ⟨.refl _, (ReadsWithin.of_same rfl rfl).mono (Nat.zero_le _)⟩

theorem readLength_transaction (a : Addr7) (data : List Byte) (rlen : Byte) :
    ((transactionOps a data rlen).map readLength).sum = rlen.toNat := by
  unfold transactionOps
  split <;> split <;> simp [readLength, *]

/-- What no part of a transaction writes: everything outside its own link, RDATA and what the lock holder's walk moves. -/
structure LeavesOthers (s t : State) : Prop where
  cfg : t.cfg = s.cfg
  params : t.params = s.params
  stimuli : t.stimuli = s.stimuli
  aset : t.aset = s.aset
  scanAddr : t.scanAddr = s.scanAddr
  sbLen : t.sbLen = s.sbLen
  sb : t.sb = s.sb
  waiters : t.waiters = s.waiters
  ports : t.ports = s.ports
  responses : t.responses = s.responses
  lock : t.lock = s.lock
  service : t.service = s.service

theorem LeavesOthers.trans {s t u : State} (h : LeavesOthers s t) (k : LeavesOthers t u) : LeavesOthers s u := by
  obtain ⟨⟩ := h; obtain ⟨⟩ := k; constructor <;> simp only [*]

theorem LinkFrame.leavesOthers {s t : State} (h : LinkFrame s t) : LeavesOthers s t :=
  ⟨h.cfg, h.params, h.stimuli, h.aset, h.scanAddr, h.sbLen, h.sb, h.waiters, h.ports, h.responses, h.lock, h.service⟩

theorem buildTransaction_leavesOthers (a : Addr7) (data : List Byte) (rlen : Byte) (s : State) :
    LeavesOthers s (buildTransaction a data rlen s) := by
  have h := buildTransaction_frame a data rlen s
  have hin := buildTransaction_in a data rlen s
  exact ⟨h.cfg, h.params, h.stimuli, h.aset, h.scanAddr, hin.len, hin.buf, h.waiters, h.ports, h.responses, h.lock,
    h.service⟩

theorem submitBuilt_leavesOthers (sel : Sel) (s : State) : LeavesOthers s (submitBuilt sel s) := by
  unfold submitBuilt
  split
  · constructor <;> rfl
  · constructor <;> rfl

theorem submitBuilt_readsNothing (sel : Sel) (s : State) : ReadsNothing s (submitBuilt sel s) := by
  unfold submitBuilt
  split
  · constructor <;> rfl
  · constructor <;> rfl

/-- The transaction begins with RD_LEN 0 (43_transactions R190). -/
theorem beginTransaction_rdata (a : Addr7) (data : List Byte) (rlen : Byte) (s : State) :
    (beginTransaction a data rlen s).rdata = s.rdata ∧ (beginTransaction a data rlen s).rdLen = 0 := by
  have hsubmit := submitBuilt_readsNothing .selCb (buildTransaction a data rlen s)
  exact ⟨hsubmit.rdata.trans (buildTransaction_frame a data rlen s).rdata,
    hsubmit.rdLen.trans (buildTransaction_in a data rlen s).rdLen⟩

theorem transactionOps_isLink (a : Addr7) (data : List Byte) (rlen : Byte) :
    ∀ i ∈ transactionOps a data rlen, i.isLink = true := by
  unfold transactionOps
  split <;> split <;> simp [Instr.isLink]

theorem transact_frame {a : Addr7} {data : List Byte} {rlen : Byte} {s t : State} (h : transact a data rlen s = .next t) :
    LeavesOthers s t ∧ ∀ x, rlen.toNat ≤ x → Memory.read t.rdata x = Memory.read s.rdata x := by
  obtain ⟨hlink, hreads⟩ := walkLink_frame (transactionOps_isLink a data rlen) h
  obtain ⟨hm, hl⟩ := beginTransaction_rdata a data rlen s
  refine ⟨((buildTransaction_leavesOthers ..).trans (submitBuilt_leavesOthers ..)).trans hlink.leavesOthers, fun x hx => ?_⟩
  rw [hreads.outside x (.inr (by rw [readLength_transaction, hl]; omega)), hm]

/-- A helper served has executed its link, and completes with the link's result for its requester. -/
theorem IsTransaction.exec_next {i : Instr} {a : Addr7} {data : List Byte} {rlen : Byte} {s t : State}
    (hi : IsTransaction i a data rlen) (hs : s.CanServe) (h : exec i s = .next t) :
    ∃ e st, transact a data rlen (s.granted i) = .next e ∧ e.linkResult = some st ∧ e.requester = s.cur ∧
      t = completeLocked i st (linkEnd .selCb e) := by
  rw [hi.exec_eq hs] at h
  obtain ⟨e, he, hlast⟩ := andThen_eq_next.1 h
  obtain ⟨st, hst⟩ := transact_result he
  obtain ⟨hothers, -⟩ := transact_frame he
  rw [smallStep_completes hi.helper (hothers.service.trans rfl) hst] at hlast
  have hlock : e.lock = .held s.cur := hothers.lock
  refine ⟨e, st, he, hst, ?_, (Host.Outcome.next.inj hlast).symm⟩
  rw [State.requester, hlock]

end Sys2Proof.Machine

open Sys2Proof Sys2Proof.Machine

/-- Settles O35: what neither the construction nor the walk of a link writes (`transact_frame`); completion frees the port. -/
theorem transactionFrame : Obligations.TransactionFrame := by
  intro i s t hlocked hscan hw hserve h
  obtain ⟨a, data, rlen, hi⟩ := exists_isTransaction hlocked hscan hw
  obtain ⟨e, st, he, -, hcur, rfl⟩ := hi.exec_next hserve h
  obtain ⟨hothers, hrdata⟩ := transact_frame he
  refine ⟨hothers.cfg, hothers.params, hothers.stimuli, hothers.aset, hothers.scanAddr, hothers.sbLen,
    fun x => congrArg (Memory.read · x) hothers.sb, hothers.waiters, ?_, fun x hx => hrdata x (hi.response ▸ hx)⟩
  have hports : e.ports = s.ports := hothers.ports
  rw [← hcur, ← hports]
  rfl
end

section
/-! A transaction with every byte acknowledged and nothing hanging (43_transactions R190). -/

namespace Sys2Proof.Machine

/-! ### The parts of the link -/

theorem State.executing_result {s : State} (h : s.executing = true) : s.linkResult = none := by
  obtain ⟨hwalk, -⟩ : s.walking = true ∧ s.point = .operation 0 := by simpa [State.executing] using h
  obtain ⟨-, -, -, hnone, -⟩ := State.walking_iff.1 hwalk
  exact hnone

/-- The next `n + k` answers are all the same exactly if the next `n` and the `k` after them are. -/
theorem Tape.ahead_add_replicate {α : Type} {free : Nat → α} {t : Tape α} {n k : Nat} {x : α} :
    t.ahead free (n + k) = List.replicate (n + k) x ↔
      t.ahead free n = List.replicate n x ∧ (t.skip n).ahead free k = List.replicate k x := by
  rw [Tape.ahead_add, List.replicate_add]
  exact ⟨fun h => List.append_inj h (by simp), fun ⟨hn, hk⟩ => by rw [hn, hk]⟩

/-- A frame has been started, or started again. -/
def State.started (s : State) : State :=
  { s with env := s.env.dropStart, wire := s.wire ++ [startEvent s.inFrame], inFrame := true, seqPtr := s.seqPtr + 1 }

/-- The slave addressed with byte `b` has acknowledged, in such a frame. -/
def State.addressed (s : State) (b : Byte) : State :=
  { s.started with env := s.started.env.dropWrite, wire := s.started.wire ++ [.w b .ack], seqPtr := s.seqPtr + 3 }

/-- The write phase of a transaction is over (43_transactions R190). -/
def State.written (s : State) (a : Addr7) (data : List Byte) : State :=
  { s.addressed (addressByte a .write) with
    env := { s.env with starts := s.env.starts.skip 1, writes := s.env.writes.skip (1 + data.length) }
    wire := s.wire ++ startEvent s.inFrame :: .w (addressByte a .write) .ack :: data.map (.w · .ack)
    seqPtr := s.seqPtr + 3 + if 0 < data.length then 2 + data.length else 0 }

/-- How many times the slave is addressed once more, to read (43_transactions R190). -/
def restarts (rlen : Byte) : Nat := if rlen = 0 then 0 else 1

/-- The read phase of a transaction, if there is one, has brought the bytes `vs` (43_transactions R190). -/
def State.readBack (s : State) (a : Addr7) (rlen : Byte) (vs : List Byte) : State :=
  { s with
    env := { s.env with
      starts := s.env.starts.skip (restarts rlen), writes := s.env.writes.skip (restarts rlen)
      reads := s.env.reads.skip rlen.toNat }
    wire := s.wire ++ if vs = [] then [] else [.sr, .w (addressByte a .read) .ack] ++ readTrace true vs
    rdata := Memory.writeRange s.rdata s.rdLen vs, rdLen := s.rdLen + rlen.toNat
    seqPtr := s.seqPtr + if 0 < rlen.toNat then 5 else 0 }

/-- The link is over with `Ok` (41_command_link R146). -/
def State.stopped (s : State) : State :=
  { s with
    env := s.env.dropStop, wire := s.wire ++ [.p], inFrame := false, seqPtr := s.seqPtr + 1,
    linkResult := some .ok, tmoArmed := false, point := .operation 0 }

section
variable {s : State} (hx : s.executing = true) (rest : List Instr)
include hx

theorem walkLink_start (hstart : s.env.nextStart = .done) : walkLink (.start :: rest) s = walkLink rest s.started :=
  walkLink_step (State.executing_result hx) ((startCompletes s hx).1 hstart) rest

theorem walkLink_writeAddressedByte (hf : s.inFrame = true) (b : Byte) (hwrite : s.env.nextWrite = .ack) :
    walkLink (.writeAddressedByte b true :: rest) s = walkLink rest { s with
      env := s.env.dropWrite, wire := s.wire ++ [.w b .ack], seqPtr := s.seqPtr + 2 } :=
  walkLink_step (State.executing_result hx)
    (((writeAddressedByteCompletes s b true hx).1 hf).1 .ack hwrite (.inl rfl)) rest

/-- START and the address byte (41_command_link R142, R143). -/
theorem walkLink_address (b : Byte) (hstart : s.env.nextStart = .done) (hwrite : s.env.nextWrite = .ack) :
    walkLink (.start :: .writeAddressedByte b true :: rest) s = walkLink rest (s.addressed b) := by
  rw [walkLink_start hx _ hstart]
  exact walkLink_writeAddressedByte (s := s.started) hx rest rfl b hwrite

/-- The payload, if there is one (41_command_link R144). -/
theorem walkLink_payload (hf : s.inFrame = true) {data : List Byte}
    (hwrites : s.env.nextWrites data.length = List.replicate data.length .ack) :
    walkLink ((if data = [] then [] else [.writeBuffer data]) ++ rest) s
      = walkLink rest { s.sent data with
          seqPtr := s.seqPtr + if 0 < data.length then 2 + data.length else 0 } := by
  by_cases hd : data = []
  · subst hd
    simp [State.sent]
  · rw [if_neg hd, if_pos (List.length_pos_iff.2 hd), List.singleton_append,
      walkLink_step (State.executing_result hx) (((writeBufferCompletes s hx).1 hf).1 data hwrites)]
    rfl

theorem walkLink_writePhase (a : Addr7) {data : List Byte} (hstart : s.env.nextStart = .done)
    (hwrites : s.env.nextWrites (1 + data.length) = List.replicate (1 + data.length) .ack) :
    walkLink (.start :: .writeAddressedByte (addressByte a .write) true ::
      ((if data = [] then [] else [.writeBuffer data]) ++ rest)) s = walkLink rest (s.written a data) := by
  obtain ⟨hfirst, hmore⟩ := Tape.ahead_add_replicate.1 hwrites
  rw [walkLink_address hx _ _ hstart (List.cons.inj hfirst).1,
    walkLink_payload (s := s.addressed _) hx rest rfl hmore]
  simp [State.written, State.addressed, State.started, State.sent, Env.dropStart, Env.dropWrite, Tape.skip_add,
    Tape.skip_succ]

/-- The bytes read (41_command_link R145). -/
theorem walkLink_read (hf : s.inFrame = true) {rlen : Byte} {vs : List Byte}
    (hreads : s.env.nextReads rlen.toNat = vs.map .byte) (hroom : s.rdLen + rlen.toNat ≤ s.params.rdCapacity) :
    walkLink (.readBuffer rlen true :: rest) s = walkLink rest { s with
      env := { s.env with reads := s.env.reads.skip rlen.toNat }
      wire := s.wire ++ readTrace true vs
      rdata := Memory.writeRange s.rdata s.rdLen vs, rdLen := s.rdLen + rlen.toNat, seqPtr := s.seqPtr + 2 } :=
  walkLink_step (State.executing_result hx) (((readBufferCompletes s rlen true hx).1 hf).1 vs hreads hroom) rest

theorem walkLink_readPhase (hf : s.inFrame = true) (a : Addr7) {rlen : Byte} {vs : List Byte}
    (hstarts : s.env.nextStarts (restarts rlen) = List.replicate (restarts rlen) .done)
    (hwrites : s.env.nextWrites (restarts rlen) = List.replicate (restarts rlen) .ack)
    (hreads : s.env.nextReads rlen.toNat = vs.map .byte) (hroom : s.rdLen + rlen.toNat ≤ s.params.rdCapacity) :
    walkLink ((if rlen = 0 then []
      else [.start, .writeAddressedByte (addressByte a .read) true, .readBuffer rlen true]) ++ rest) s
      = walkLink rest (s.readBack a rlen vs) := by
  have hlength : vs.length = rlen.toNat := by simpa [Env.nextReads] using (congrArg List.length hreads).symm
  by_cases hr : rlen = 0
  · subst hr
    obtain rfl : vs = [] := List.length_eq_zero_iff.1 hlength
    simp [State.readBack, restarts, Memory.writeRange]
  · have hpos : 0 < rlen.toNat := Nat.pos_of_ne_zero fun h => hr (BitVec.eq_of_toNat_eq h)
    have hvs : vs ≠ [] := List.length_pos_iff.1 (hlength ▸ hpos)
    have hone : restarts rlen = 1 := if_neg hr
    rw [hone] at hstarts hwrites
    rw [if_neg hr]
    refine (walkLink_address hx _ _ (List.cons.inj hstarts).1 (List.cons.inj hwrites).1).trans ?_
    refine (walkLink_read (s := s.addressed _) hx rest rfl hreads hroom).trans ?_
    simp [State.readBack, State.addressed, State.started, hone, hvs, hpos, hf, startEvent, Env.dropStart, Env.dropWrite]
    rfl

/-- STOP, the last operation (41_command_link R146). -/
theorem walkLink_stop (hstop : s.env.nextStop = .done) : walkLink [.stop] s = .next s.stopped := by
  rw [walkLink_step (State.executing_result hx) ((stopCompletes s hx).1 hstop)]
  rfl

end

/-! ### The whole link -/

theorem transactionOps_eq (a : Addr7) (data : List Byte) (rlen : Byte) :
    transactionOps a data rlen =
      .start :: .writeAddressedByte (addressByte a .write) true :: ((if data = [] then [] else [.writeBuffer data]) ++
        ((if rlen = 0 then []
          else [.start, .writeAddressedByte (addressByte a .read) true, .readBuffer rlen true]) ++ [.stop])) := by
  simp [transactionOps]

/-- A link that is walked to its STOP with everything acknowledged. -/
theorem walkLink_transaction {s : State} (hx : s.executing = true) (a : Addr7) {data vs : List Byte} {rlen : Byte}
    (hstarts : s.env.nextStarts (1 + restarts rlen) = List.replicate (1 + restarts rlen) .done)
    (hwrites : s.env.nextWrites (1 + data.length + restarts rlen)
      = List.replicate (1 + data.length + restarts rlen) .ack)
    (hreads : s.env.nextReads rlen.toNat = vs.map .byte) (hstop : s.env.nextStop = .done)
    (hroom : s.rdLen + rlen.toNat ≤ s.params.rdCapacity) :
    walkLink (transactionOps a data rlen) s = .next ((s.written a data).readBack a rlen vs).stopped := by
  obtain ⟨hstart, hrestart⟩ := Tape.ahead_add_replicate.1 hstarts
  obtain ⟨hwrite, hrewrite⟩ := Tape.ahead_add_replicate.1 hwrites
  rw [transactionOps_eq, walkLink_writePhase hx _ a (List.cons.inj hstart).1 hwrite,
    walkLink_readPhase (s := s.written a data) hx _ rfl a hrestart hrewrite hreads hroom]
  exact walkLink_stop (s := (s.written a data).readBack a rlen vs) hx hstop

/-! ### The whole operation -/

/-- A construction writes CB, its length and BUILD_ERR, and leaves PHASE and RD_LEN as LINK_BEGIN does (41_command_link R130). -/
theorem buildTransaction_eq (a : Addr7) (data : List Byte) (rlen : Byte) (s : State) :
    ∃ m n e, buildTransaction a data rlen s =
      { s with cb := m, cbLen := n, buildErr := e, phase := .build, rdLen := 0 } := by
  have hin := buildTransaction_in a data rlen s
  have hsb : (buildTransaction a data rlen s).sb = s.sb := hin.buf
  have hsbLen : (buildTransaction a data rlen s).sbLen = s.sbLen := hin.len
  have hphase : (buildTransaction a data rlen s).phase = .build := hin.phase
  have hrdLen : (buildTransaction a data rlen s).rdLen = 0 := hin.rdLen
  have hpoint := (buildTransaction_safe a data rlen s).point
  obtain ⟨⟩ := buildTransaction_frame a data rlen s
  generalize buildTransaction a data rlen s = t at *
  refine ⟨t.cb, t.cbLen, t.buildErr, ?_⟩
  cases t
  simp_all only

/-- A transaction whose link stands in CB and is submitted. -/
def State.submitted (s : State) (m : Memory) (n : Nat) : State :=
  submit .selCb Config.timeoutMs { s with cb := m, cbLen := n, buildErr := false, phase := .build, rdLen := 0 }

/-- Where everything is acknowledged, the state the link of a transaction leaves (43_transactions R190). -/
theorem stopped_eq (s : State) (m : Memory) (n : Nat) (a : Addr7) (data : List Byte) (rlen : Byte) (vs : List Byte) :
    (((s.submitted m n).written a data).readBack a rlen vs).stopped = { s.submitted m n with
      env := { s.env with
        starts := s.env.starts.skip (1 + restarts rlen), writes := s.env.writes.skip (1 + data.length + restarts rlen)
        reads := s.env.reads.skip rlen.toNat, stops := s.env.stops.tail }
      wire := s.wire ++ transactionTrace a data vs, seqPtr := transactionCost data.length rlen.toNat
      rdata := Memory.writeRange s.rdata 0 vs, rdLen := rlen.toNat, linkResult := some .ok, tmoArmed := false } := by
  have hcost : 0 + 3 + (if 0 < data.length then 2 + data.length else 0) + (if 0 < rlen.toNat then 5 else 0) + 1
      = transactionCost data.length rlen.toNat := by rw [transactionCost]; omega
  rw [← hcost, Tape.skip_add 1, Tape.skip_add (1 + data.length)]
  simp [State.stopped, State.readBack, State.written, State.addressed, State.started, State.submitted, submit, startEvent,
    transactionTrace, Env.dropStop]

/-- A transaction that fits is submitted. -/
theorem beginTransaction_submitted {data : List Byte} {rlen : Byte} {s : State} (a : Addr7)
    (h : transactionFits s.params data.length rlen.toNat = true) :
    ∃ m n, beginTransaction a data rlen s = s.submitted m n := by
  have herr := (buildTransaction_fits a h).err
  obtain ⟨m, n, e, hbuild⟩ := buildTransaction_eq a data rlen s
  obtain rfl : e = false := by rwa [hbuild] at herr
  exact ⟨m, n, by rw [beginTransaction_fits a h, hbuild]; rfl⟩

/-- The engine stands before the first operation of a link submitted for a requester that is served. -/
theorem State.CanServe.executing {s : State} (h : s.CanServe) (i : Instr) (m : Memory) (n : Nat) :
    ((s.granted i).submitted m n).executing = true := by
  obtain ⟨-, -, hup⟩ := h
  have hwalk : ((s.granted i).submitted m n).walking = true := State.walking_iff.2 ⟨rfl, hup, nofun, rfl, rfl⟩
  simp only [State.executing, hwalk]
  rfl

/-- With the bytes in RDATA the response delivers them (43_transactions R193). -/
theorem deliveredBytes_ok {m : Memory} {k : Nat} {free vs : List Byte} (h : m.readRange k free.length = some vs) :
    deliveredBytes .ok m k free = vs := by
  induction free generalizing k vs with
  | nil => simpa [Memory.readRange, deliveredBytes] using h
  | cons b bs ih =>
    rw [List.length_cons, Memory.readRange] at h
    split at h
    · next v ws hv hws =>
      cases h
      rw [deliveredBytes, hv, ih hws]
      rfl
    · cases h

/-- All that the completion of a helper writes, where the response is known (43_transactions R195). -/
theorem completeLocked_helper {i : Instr} {st : Status} {s : State} {x : Response} (hi : i.isScan = false)
    (h : responseOf i st s = x) :
    completeLocked i st s = { s with
      phase := .none, linkResult := none, service := none, lock := .free
      responses := s.responses ++ [(s.requester, x)], ports := Assoc.del s.ports s.requester
      env := s.env.dropBytes (responseLength i) } := by
  subst h
  simp only [completeLocked, listing_helper hi, List.append_nil]
  rfl

end Sys2Proof.Machine

open Sys2Proof Sys2Proof.Machine

/-- Settles O28: the link is built and submitted (`beginTransaction_submitted`), walked phase by phase (`walkLink_transaction`),
and the bytes read are delivered. -/
theorem writeThenReadCompletes : Obligations.WriteThenReadCompletes := by
  intro s a data rlen vs hserve hw hfits hstarts hwrites hreads hstop
  have hi := isTransaction_writeThenRead a (payload_length hw) rlen
  obtain ⟨m, n, hbegin⟩ := beginTransaction_submitted (s := s.granted (.writeThenRead a data rlen)) a hfits
  obtain ⟨-, hroom⟩ := of_decide_eq_true hfits
  have hphases : (if rlen = 0 then 1 else 2) = 1 + restarts rlen := by unfold restarts; split <;> rfl
  have hdelivered : deliveredBytes .ok (Memory.writeRange s.rdata 0 vs) 0 (s.env.nextBytes rlen.toNat) = vs := by
    have hlength : vs.length = rlen.toNat := by simpa [Env.nextReads] using (congrArg List.length hreads).symm
    refine deliveredBytes_ok ?_
    rw [Env.nextBytes, Tape.length_ahead, ← hlength]
    exact Memory.readRange_writeRange ..
  rw [hphases, ← Nat.add_assoc, Nat.add_comm data.length 1] at hwrites ⊢
  rw [hphases] at hstarts
  have hwalk := walkLink_transaction (hserve.executing (.writeThenRead a data rlen) m n) a hstarts hwrites hreads hstop
    (show 0 + rlen.toNat ≤ s.params.rdCapacity by omega)
  rw [stopped_eq] at hwalk
  rw [hi.exec_eq hserve, transact, hbegin, hwalk, andThen_next,
    smallStep_completes (i := .writeThenRead a data rlen) rfl rfl rfl,
    completeLocked_helper (x := .bytes .ok vs)]
  · rfl
  · rfl
  · exact congrArg (Response.bytes .ok) hdelivered
end

section
/-! Nothing between the request and the response depends on which host operation is in service: READ_BYTE and WRITE_BYTE are
WRITE_THEN_READ with fixed operands (43_transactions R191, R192; 30_encoding R104). -/

namespace Sys2Proof.Machine

/-- The host operation `i` is in service. -/
def State.serving (s : State) (i : Instr) : State := { s with service := some i }

/-- What an operation does, and what it leaves but for `service`, does not depend on `service`; and it leaves `service` alone. -/
def IgnoresService {α : Type} (f : State → α × State) : Prop := ∀ s i, f (s.serving i) = ((f s).1, (f s).2.serving i)

/-! ### Symbols -/

theorem phyStart_ignoresService : IgnoresService phyStart := by
  intro s i
  cases h : s.env.nextStart with
  | done => rw [phyStart_done h, phyStart_done (s := s.serving i) h]; rfl
  | hang => rw [phyStart_hang h, phyStart_hang (s := s.serving i) h]; rfl

theorem phyStop_ignoresService : IgnoresService phyStop := by
  intro s i
  cases h : s.env.nextStop with
  | done => rw [phyStop_done h, phyStop_done (s := s.serving i) h]; rfl
  | hang => rw [phyStop_hang h, phyStop_hang (s := s.serving i) h]; rfl

theorem phyWrite_ignoresService (b : Byte) : IgnoresService (phyWrite b) := by
  intro s i
  cases h : s.env.nextWrite with
  | ack => rw [phyWrite_ack b h, phyWrite_ack (s := s.serving i) b h]; rfl
  | nack => rw [phyWrite_nack b h, phyWrite_nack (s := s.serving i) b h]; rfl
  | hang => rw [phyWrite_hang b h, phyWrite_hang (s := s.serving i) b h]; rfl

theorem receiveByte_ignoresService (m : Ack) : IgnoresService (receiveByte m) := by
  intro s i
  unfold receiveByte
  cases h : s.env.nextRead with
  | hang => rw [phyRead_hang m h, phyRead_hang (s := s.serving i) m h]; rfl
  | byte v =>
    rw [phyRead_byte m h, phyRead_byte (s := s.serving i) m h]
    by_cases hr : s.rdLen < s.params.rdCapacity
    · simp only [State.serving, hr, if_true]; rfl
    · simp only [State.serving, hr, if_false]

theorem symbolOf_ignoresService (i : Instr) (k : Nat) : IgnoresService (symbolOf i k) := by
  intro s j
  cases i with
  | start =>
    simp only [symbolOf, performStart, phyStart_ignoresService s j]
    rcases phyStart s with ⟨_ | _, u⟩ <;> rfl
  | stop =>
    simp only [symbolOf, performStop, phyStop_ignoresService s j]
    rcases phyStop s with ⟨_ | _, u⟩ <;> rfl
  | writeAddressedByte b ackreq =>
    simp only [symbolOf, performWriteAddressedByte, phyWrite_ignoresService b s j]
    rcases phyWrite b s with ⟨_ | _ | _, u⟩ <;> rfl
  | writeBuffer data =>
    simp only [symbolOf, symbolOfWriteBuffer]
    split
    · next b _ =>
      simp only [sendByte, phyWrite_ignoresService b s j]
      rcases phyWrite b s with ⟨_ | _ | _, u⟩ <;> rfl
    · rfl
  | readBuffer len ln =>
    simp only [symbolOf, symbolOfReadBuffer]
    split
    · exact receiveByte_ignoresService _ s j
    · rfl
  | init | writeThenRead | readByte | writeByte | scan | detectAndLog => rfl

theorem symbolsFrom_ignoresService (i : Instr) (m k : Nat) : IgnoresService (symbolsFrom i m k) := by
  induction m generalizing k with
  | zero => exact fun _ _ => rfl
  | succ m ih =>
    intro s j
    rw [symbolsFrom, symbolsFrom, symbolOf_ignoresService i k s j]
    rcases symbolOf i k s with ⟨_ | _ | _ | _ | _, u⟩
    · exact ih (k + 1) u j
    all_goals rfl

/-! ### Aborts -/

theorem recoveryCall_ignoresService (c : RecoveryCall) : IgnoresService (recoveryCall c) := by
  intro s i
  cases hc : (recoveryEvent s.cfg c).halCall with
  | none => rw [recoveryCall_delay hc, recoveryCall_delay (s := s.serving i) hc]; cases c <;> rfl
  | some call =>
    cases h : s.env.nextHal with
    | ok => rw [recoveryCall_ok hc h, recoveryCall_ok (s := s.serving i) hc h]; cases c <;> rfl
    | fail => rw [recoveryCall_fail hc h, recoveryCall_fail (s := s.serving i) hc h]; rfl

theorem runCalls_ignoresService (cs : List RecoveryCall) : IgnoresService (runCalls cs) := by
  induction cs with
  | nil => exact fun _ _ => rfl
  | cons c cs ih =>
    intro s i
    rw [runCalls, runCalls, recoveryCall_ignoresService c s i]
    rcases recoveryCall c s with ⟨_ | _, u⟩
    · exact ih u i
    · rfl

theorem timeoutAbort_serving (s : State) (i : Instr) : timeoutAbort (s.serving i) = (timeoutAbort s).serving i := by
  rw [timeoutAbort, timeoutAbort, recover_eq_runCalls, recover_eq_runCalls]
  rw [show takeTimeoutTrap (s.serving i) = (takeTimeoutTrap s).serving i from rfl, runCalls_ignoresService]
  rcases runCalls passCalls (takeTimeoutTrap s) with ⟨_ | _, u⟩ <;> rfl

theorem nackAbort_serving (s : State) (i : Instr) : nackAbort (s.serving i) = (nackAbort s).serving i := by
  rw [nackAbort, nackAbort, phyStop_ignoresService s i]
  rcases phyStop s with ⟨_ | _, u⟩
  · rfl
  · exact timeoutAbort_serving u i

/-! ### Links -/

theorem exec_link_serving {i : Instr} (hl : i.isLink = true) {s t : State} (h : exec i s = .next t) (j : Instr) :
    exec i (s.serving j) = .next (t.serving j) := by
  obtain ⟨hx, hf, hset⟩ := (exec_link_eq_next hl).1 h
  refine (exec_link_eq_next hl).2 ⟨hx, hf, ?_⟩
  rw [symbolsFrom_ignoresService]
  rcases hr : symbolsFrom i (stepCount i) 0 s with ⟨p, u⟩
  rw [hr] at hset
  cases p with
  | next | done => cases hset; rfl
  | nack => cases hset; exact congrArg Host.Outcome.next (nackAbort_serving u j)
  | hang => cases hset; exact congrArg Host.Outcome.next (timeoutAbort_serving u j)
  | overrun => cases hset

theorem walkLink_serving {ops : List Instr} (hops : ∀ i ∈ ops, i.isLink = true) {s t : State}
    (h : walkLink ops s = .next t) (j : Instr) : walkLink ops (s.serving j) = .next (t.serving j) := by
  induction ops generalizing s with
  | nil => cases h; rfl
  | cons i rest ih =>
    by_cases hr : s.linkResult = none
    · rw [walkLink_cons hr] at h
      obtain ⟨u, hu, hrest⟩ := andThen_eq_next.1 h
      rw [walkLink_step (s := s.serving j) hr (exec_link_serving (hops i List.mem_cons_self) hu j)]
      exact ih (fun k hk => hops k (List.mem_cons_of_mem i hk)) hrest
    · rw [walkLink_over hr] at h
      cases h
      exact walkLink_over (s := t.serving j) hr _

theorem append_serving (sel : Sel) (bytes : List Byte) (s : State) (j : Instr) :
    append sel bytes (s.serving j) = (append sel bytes s).serving j := by
  cases sel <;> simp only [append, apply_ite (State.serving · j)] <;> rfl

theorem appendRbuf_serving (sel : Sel) (n : Byte) (ln : Bool) (s : State) (j : Instr) :
    appendRbuf sel n ln (s.serving j) = (appendRbuf sel n ln s).serving j := by
  simp only [appendRbuf, apply_ite (State.serving · j), append_serving]
  rfl

theorem appendPayload_serving (sel : Sel) (data : List Byte) (s : State) (j : Instr) :
    appendPayload sel data (s.serving j) = (appendPayload sel data s).serving j := by
  rw [appendPayload, appendPayload, appendWbuf, append_serving, apply_ite (State.serving · j)]
  rfl

theorem appendReadPhase_serving (sel : Sel) (a : Addr7) (rlen : Byte) (s : State) (j : Instr) :
    appendReadPhase sel a rlen (s.serving j) = (appendReadPhase sel a rlen s).serving j := by
  rw [appendReadPhase, appendReadPhase, appendStart, append_serving, appendWab, append_serving, appendRbuf_serving,
    apply_ite (State.serving · j)]
  rfl

theorem buildTransaction_serving (a : Addr7) (data : List Byte) (rlen : Byte) (s : State) (j : Instr) :
    buildTransaction a data rlen (s.serving j) = (buildTransaction a data rlen s).serving j := by
  have hbegin : linkBegin .selCb { s.serving j with rdLen := 0 } = (linkBegin .selCb { s with rdLen := 0 }).serving j := rfl
  rw [buildTransaction, hbegin, appendStart, append_serving, appendWab, append_serving, appendPayload_serving,
    appendReadPhase_serving, appendStop, append_serving]
  rfl

/-- The link of a transaction is built and executed alike for every host operation in service. -/
theorem transact_serving {a : Addr7} {data : List Byte} {rlen : Byte} {s t : State}
    (h : transact a data rlen s = .next t) (j : Instr) :
    transact a data rlen (s.serving j) = .next (t.serving j) := by
  have hbegin : beginTransaction a data rlen (s.serving j) = (beginTransaction a data rlen s).serving j := by
    rw [beginTransaction, beginTransaction, buildTransaction_serving, submitBuilt, submitBuilt,
      apply_ite (State.serving · j)]
    rfl
  rw [transact, hbegin]
  exact walkLink_serving (transactionOps_isLink a data rlen) h j

/-- Two host operations that are the same transaction run alike up to their completions (43_transactions R191, R192). -/
theorem IsTransaction.exec_same {i j : Instr} {a : Addr7} {data : List Byte} {rlen : Byte} {s t : State}
    (hi : IsTransaction i a data rlen) (hj : IsTransaction j a data rlen) (hs : s.CanServe) (h : exec i s = .next t) :
    ∃ e st, e.requester = s.cur ∧ e.responses = s.responses ∧ t = completeLocked i st (linkEnd .selCb e) ∧
      exec j s = .next (completeLocked j st (linkEnd .selCb (e.serving j))) := by
  obtain ⟨e, st, he, hst, hcur, ht⟩ := hi.exec_next hs h
  obtain ⟨hothers, -⟩ := transact_frame he
  have hj' : transact a data rlen (s.granted j) = .next (e.serving j) := transact_serving he j
  refine ⟨e, st, hcur, hothers.responses, ht, ?_⟩
  rw [hj.exec_eq hs, hj', andThen_next]
  exact smallStep_completes hj.helper rfl hst

end Sys2Proof.Machine

open Sys2Proof Sys2Proof.Machine

/-- Settles O32: the two operations are one transaction (`IsTransaction.exec_same`), and completion differs in the form of the
response only. -/
theorem byteOperationsAreTransactions : Obligations.ByteOperationsAreTransactions := by
  intro s t a reg value hserve
  constructor
  · intro h
    obtain ⟨e, st, hcur, hresponses, rfl, hexec⟩ :=
      (isTransaction_writeThenRead a (data := [reg]) (by simp) 1).exec_same (isTransaction_readByte a reg) hserve h
    rw [hexec, ← hcur, ← hresponses]
    exact ⟨st, _, rfl, rfl⟩
  · intro h
    obtain ⟨e, st, hcur, hresponses, rfl, hexec⟩ :=
      (isTransaction_writeThenRead a (data := [reg, value]) (by simp) 0).exec_same (isTransaction_writeByte a reg value)
        hserve h
    rw [hexec, ← hcur, ← hresponses]
    exact ⟨st, rfl, rfl⟩

/-- Settles O29: READ_BYTE does what WRITE_THEN_READ of one byte does (`byteOperationsAreTransactions`). -/
theorem readByteCompletes : Obligations.ReadByteCompletes := by
  intro s a reg v hserve hcmd hrd hstarts hwrites hread hstop
  have hfits : transactionFits s.params 1 1 = true := decide_eq_true ⟨hcmd, hrd⟩
  have h := writeThenReadCompletes s a [reg] 1 [v] hserve rfl hfits hstarts hwrites (congrArg ([·]) hread) hstop
  obtain ⟨st, w, hresponse, hexec⟩ := (byteOperationsAreTransactions s _ a reg reg hserve).1 h
  obtain ⟨rfl, rfl⟩ : .ok = st ∧ v = w := by simpa using hresponse
  rw [hexec]
  rfl

/-- Settles O30: WRITE_BYTE does what WRITE_THEN_READ of two bytes written and none read does
(`byteOperationsAreTransactions`). -/
theorem writeByteCompletes : Obligations.WriteByteCompletes := by
  intro s a reg value hserve hcmd hstart hwrites hstop
  have hfits : transactionFits s.params 2 0 = true := decide_eq_true ⟨hcmd, Nat.zero_le _⟩
  have h := writeThenReadCompletes s a [reg, value] 0 [] hserve rfl hfits (congrArg ([·]) hstart) hwrites rfl hstop
  obtain ⟨st, hresponse, hexec⟩ := (byteOperationsAreTransactions s _ a reg value hserve).2 h
  obtain rfl : .ok = st := by simpa using hresponse
  rw [hexec]
  rfl
end

section
/-! The bytes a transaction reads, and the round trip through the reference slave (43_transactions R196; 95_test_vectors
section 4). -/

namespace Sys2Proof.Machine

/-! ### The bytes read -/

theorem Memory.writeRange_append (m : Memory) (a : Nat) (bs cs : List Byte) :
    m.writeRange a (bs ++ cs) = (m.writeRange a bs).writeRange (a + bs.length) cs := by
  induction bs generalizing m a with
  | nil => rfl
  | cons b bs ih =>
    rw [List.cons_append, Memory.writeRange, ih, Memory.writeRange, List.length_cons, Nat.add_assoc, Nat.add_comm 1]

/-- The next `n` bytes the slave sends have come, and stand in RDATA from RD_LEN on (41_command_link R145). -/
structure Receives (n : Nat) (s t : State) : Prop where
  bytes : ∃ vs : List Byte, s.env.nextReads n = vs.map .byte ∧ t.rdata = Memory.writeRange s.rdata s.rdLen vs
  rdLen : t.rdLen = s.rdLen + n
  reads : t.env.reads = s.env.reads.skip n

theorem Receives.none {s t : State} (hm : t.rdata = s.rdata) (hl : t.rdLen = s.rdLen) (he : t.env.reads = s.env.reads) :
    Receives 0 s t := ⟨⟨[], rfl, hm⟩, hl, he⟩

theorem Receives.trans {m n : Nat} {s t u : State} (h : Receives m s t) (k : Receives n t u) : Receives (m + n) s u := by
  obtain ⟨⟨vs, hvs, hm⟩, hl, he⟩ := h
  obtain ⟨⟨ws, hws, km⟩, kl, ke⟩ := k
  have hlength : vs.length = m := by simpa [Env.nextReads] using (congrArg List.length hvs).symm
  refine ⟨⟨vs ++ ws, ?_, ?_⟩, by omega, by rw [ke, he, Tape.skip_add]⟩
  · rw [Env.nextReads, he] at hws
    rw [Env.nextReads, Tape.ahead_add, hws, List.map_append]
    exact congrArg (· ++ _) hvs
  · rw [km, hm, hl, Memory.writeRange_append, hlength]

theorem thenNext_eq_next {r : Perform × State} {k : State → Perform × State} {u : State} (h : thenNext r k = (.next, u)) :
    ∃ v, r = (.next, v) ∧ k v = (.next, u) := by
  obtain ⟨p, v⟩ := r
  cases p with
  | next => exact ⟨v, rfl, h⟩
  | done | nack | hang | overrun => cases h

theorem performStart_receives (s : State) : Receives 0 s (performStart s).2 := by
  cases h : s.env.nextStart with
  | done => rw [performStart_done h]; exact .none rfl rfl rfl
  | hang => rw [performStart_hang h]; exact .none rfl rfl rfl

theorem performStop_receives (s : State) : Receives 0 s (performStop s).2 := by
  cases h : s.env.nextStop with
  | done => rw [performStop_done h]; exact .none rfl rfl rfl
  | hang => rw [performStop_hang h]; exact .none rfl rfl rfl

theorem performWriteAddressedByte_receives (b : Byte) (ackreq : Bool) (s : State) :
    Receives 0 s (performWriteAddressedByte b ackreq s).2 := by
  unfold performWriteAddressedByte
  cases h : s.env.nextWrite with
  | ack => rw [phyWrite_ack b h]; exact .none rfl rfl rfl
  | nack => rw [phyWrite_nack b h]; exact .none rfl rfl rfl
  | hang => rw [phyWrite_hang b h]; exact .none rfl rfl rfl

theorem performWriteBuffer_receives {data : List Byte} {s u : State} (h : performWriteBuffer data s = (.next, u)) :
    Receives 0 s u := by
  induction data generalizing s with
  | nil => cases h; exact .none rfl rfl rfl
  | cons b bs ih =>
    obtain ⟨v, hv, hrest⟩ := thenNext_eq_next h
    have hone := performWriteAddressedByte_receives b true s
    rw [performWriteAddressedByte_checked, hv] at hone
    exact hone.trans (ih hrest)

theorem receiveByte_receives {m : Ack} {s u : State} (h : receiveByte m s = (.next, u)) : Receives 1 s u := by
  cases ha : s.env.nextRead with
  | hang => rw [receiveByte_hang m ha] at h; cases h
  | byte v =>
    rw [receiveByte, phyRead_byte m ha] at h
    dsimp only at h
    split at h
    · cases h; exact ⟨⟨[v], congrArg ([·]) ha, rfl⟩, rfl, rfl⟩
    · cases h

theorem performReadBuffer_receives {ln : Bool} {n : Nat} {s u : State} (h : performReadBuffer ln n s = (.next, u)) :
    Receives n s u := by
  induction n generalizing s with
  | zero => cases h; exact .none rfl rfl rfl
  | succ n ih =>
    obtain ⟨v, hv, hrest⟩ := thenNext_eq_next h
    rw [Nat.add_comm]
    exact (receiveByte_receives hv).trans (ih hrest)

/-- A link operation that is performed to its end has received all it reads. -/
theorem performLinkOp_receives {i : Instr} (hl : i.isLink = true) {p : Perform} {s u : State}
    (h : performLinkOp i s = (p, u)) (hp : p = .next ∨ p = .done) : Receives (readLength i) s u := by
  have hperformed {f : State → Perform × State} (hf : Receives 0 s (f s).2) (hu : f s = (p, u)) : Receives 0 s u := by
    rwa [hu] at hf
  rcases hp with rfl | rfl
  · cases i with
    | start => exact hperformed (performStart_receives s) h
    | stop => exact hperformed (performStop_receives s) h
    | writeAddressedByte b ackreq => exact hperformed (performWriteAddressedByte_receives b ackreq s) h
    | writeBuffer => exact performWriteBuffer_receives h
    | readBuffer => exact performReadBuffer_receives h
    | init | writeThenRead | readByte | writeByte | scan | detectAndLog => cases hl
  · obtain rfl := performLinkOp_done hl h
    exact hperformed (performStop_receives s) h

/-- An abort is not the end of a link that went well (41_command_link R147, R148). -/
theorem timeoutAbort_result_ne_ok (s : State) : (timeoutAbort s).linkResult ≠ some .ok := by
  rw [timeoutAbort]
  rcases recover (takeTimeoutTrap s) with ⟨_ | _, u⟩
  · nofun
  · nofun

theorem nackAbort_result_ne_ok (s : State) : (nackAbort s).linkResult ≠ some .ok := by
  rw [nackAbort]
  rcases phyStop s with ⟨_ | _, u⟩
  · nofun
  · exact timeoutAbort_result_ne_ok u

/-- A link operation that did not lead to an abort has received all it reads. -/
theorem exec_link_receives {i : Instr} (hl : i.isLink = true) {s t : State} (h : exec i s = .next t)
    (hr : t.linkResult = none ∨ t.linkResult = some .ok) : Receives (readLength i) s t := by
  have hset := settle_of_exec_link hl h
  rcases hperf : performLinkOp i s with ⟨p, u⟩
  rw [hperf] at hset
  have hreceives (hp : p = .next ∨ p = .done) := performLinkOp_receives hl hperf hp
  cases p with
  | next =>
    cases hset
    obtain ⟨hbytes, hlen, hreads⟩ := hreceives (.inl rfl)
    exact ⟨hbytes, hlen, hreads⟩
  | done =>
    cases hset
    obtain ⟨hbytes, hlen, hreads⟩ := hreceives (.inr rfl)
    exact ⟨hbytes, hlen, hreads⟩
  | nack => cases hset; exact absurd hr (not_or.2 ⟨(nackAbort_over u).1, nackAbort_result_ne_ok u⟩)
  | hang => cases hset; exact absurd hr (not_or.2 ⟨(timeoutAbort_over u).1, timeoutAbort_result_ne_ok u⟩)
  | overrun => cases hset

/-- Only STOP ends a link with `Ok` (41_command_link R150). -/
theorem exec_link_ok {i : Instr} (hl : i.isLink = true) {s t : State} (h : exec i s = .next t)
    (hr : t.linkResult = some .ok) : i = .stop := by
  obtain ⟨hx, -, -⟩ := (exec_link_eq_next hl).1 h
  obtain ⟨syms, -, -, hends⟩ := exec_link_ends hl hx h
  obtain ⟨hstop, -⟩ : i = .stop ∧ _ := by simpa [OperationEnds, hr] using hends
  exact hstop

/-- A link that ends with `Ok` has received all that its operations read. -/
theorem walkLink_receives {ops : List Instr} {f : Bool} {room : Nat} (hops : ∀ i ∈ ops, i.isLink = true)
    (htail : tailOk f room ops = true) {s t : State} (hs : s.linkResult = none) (h : walkLink ops s = .next t)
    (hr : t.linkResult = some .ok) : Receives (ops.map readLength).sum s t := by
  induction ops generalizing f room s with
  | nil => cases htail
  | cons i rest ih =>
    have hl := hops i List.mem_cons_self
    rw [walkLink_cons hs] at h
    obtain ⟨u, hu, hrest⟩ := andThen_eq_next.1 h
    rw [List.map_cons, List.sum_cons]
    by_cases hnone : u.linkResult = none
    · rcases tailOk_cons htail with ⟨rfl, -⟩ | ⟨-, f', room', htail'⟩
      · exact absurd hnone (exec_stop_result hu)
      · exact (exec_link_receives hl hu (.inl hnone)).trans
          (ih (fun j hj => hops j (List.mem_cons_of_mem i hj)) htail' hnone hrest)
    · rw [walkLink_over hnone] at hrest
      cases hrest
      rcases tailOk_cons htail with ⟨rfl, rfl⟩ | ⟨hstop, -⟩
      · exact exec_link_receives hl hu (.inr hr)
      · exact absurd (exec_link_ok hl hu hr) hstop

/-- A transaction begins its link, or it does not fit (43_transactions R190, R194); it has drawn no answer. -/
theorem beginTransaction_result (a : Addr7) (data : List Byte) (rlen : Byte) (s : State) :
    ((beginTransaction a data rlen s).linkResult = none ∨ (beginTransaction a data rlen s).linkResult = some .noMemory) ∧
      (beginTransaction a data rlen s).env = s.env := by
  have henv := (buildTransaction_frame a data rlen s).env
  unfold beginTransaction submitBuilt
  split
  · exact ⟨.inr rfl, henv⟩
  · exact ⟨.inl rfl, henv⟩

/-- A transaction that ends with `Ok` has received the bytes asked for, from RDATA[0] on (43_transactions R190). -/
theorem transact_receives {a : Addr7} {data : List Byte} {rlen : Byte} {s t : State} (h : transact a data rlen s = .next t)
    (hr : t.linkResult = some .ok) :
    ∃ vs : List Byte, s.env.nextReads rlen.toNat = vs.map .byte ∧ t.rdata = Memory.writeRange s.rdata 0 vs := by
  obtain ⟨hm, hl⟩ := beginTransaction_rdata a data rlen s
  obtain ⟨hnone | hfull, henv⟩ := beginTransaction_result a data rlen s
  · obtain ⟨hbytes, -, -⟩ := walkLink_receives (transactionOps_isLink a data rlen) (transactionOps_tail a data le_rfl)
      hnone h hr
    rwa [readLength_transaction, henv, hm, hl] at hbytes
  · rw [transact, walkLink_over (by rw [hfull]; nofun)] at h
    cases h
    rw [hfull] at hr
    cases hr

/-- READ_BYTE with `Ok` delivers the byte the slave sends (43_transactions R191). -/
theorem readByte_delivers {a : Addr7} {reg v got : Byte} {s t : State} (hserve : s.CanServe)
    (hread : s.env.nextRead = .byte v) (h : exec (.readByte a reg) s = .next t)
    (hr : t.responses = s.responses ++ [(s.cur, .byte .ok got)]) : got = v := by
  obtain ⟨e, st, he, hst, hcur, rfl⟩ := (isTransaction_readByte a reg).exec_next hserve h
  have hresponses : e.responses = s.responses := (transact_frame he).1.responses
  replace hr : e.responses ++ [(e.requester, responseOf (.readByte a reg) st (linkEnd .selCb e))]
      = s.responses ++ [(s.cur, .byte .ok got)] := hr
  have hresponse : responseOf (.readByte a reg) st (linkEnd .selCb e) = .byte .ok got := by
    simpa [hresponses, hcur] using hr
  obtain ⟨rfl, hgot⟩ := Response.byte.inj hresponse
  obtain ⟨vs, hvs, hm⟩ := transact_receives he hst
  have hsent : [ReadAnswer.byte v] = vs.map .byte := (congrArg ([·]) hread).symm.trans hvs
  obtain rfl : [v] = vs := List.map_injective_iff.2 (fun _ _ => ReadAnswer.byte.inj) hsent
  have hstored : Memory.read e.rdata 0 = some v := by rw [hm]; exact Memory.read_write_same ..
  replace hgot : (Memory.read e.rdata 0).getD _ = got := hgot
  rw [← hgot, hstored]
  rfl

/-! ### The reference slave -/

/-- The slave hears nothing but what the block itself decides of an event. -/
theorem hear_outline (v : RefSlave) (e : Event) : v.hear e.outline = v.hear e := by cases e <;> rfl

theorem hears_outline (v : RefSlave) (es : List Event) : v.hears (es.map Event.outline) = v.hears es := by
  simp only [RefSlave.hears, List.foldl_map, hear_outline]

theorem hears_append (v : RefSlave) (es fs : List Event) : v.hears (es ++ fs) = (v.hears es).hears fs :=
  List.foldl_append ..

theorem hear_address (v : RefSlave) (e : Event) : (v.hear e).address = v.address := by
  cases e with
  | w | r => simp [RefSlave.hear, apply_ite RefSlave.address]
  | s | sr | p | tmo | engCfg | engDown | dir | lvl | dly | log | fail => rfl

theorem hears_address (v : RefSlave) (es : List Event) : (v.hears es).address = v.address := by
  induction es generalizing v with
  | nil => rfl
  | cons e es ih => exact (ih (v.hear e)).trans (hear_address v e)

/-- The intent is the address byte's low bit (20_memory R61). -/
theorem addressByte_read_ne_write (a : Addr7) : addressByte a .read ≠ addressByte a .write := by
  intro h
  have hbit := congrArg BitVec.toNat h
  rw [addressByte_toNat, addressByte_toNat] at hbit
  simp [Intent.bit] at hbit

/-- The symbols of WRITE_BYTE (43_transactions R192). -/
def writeByteSymbols (a : Addr7) (reg value : Byte) : List Event :=
  [.s, .w (addressByte a .write) .ack, .w reg .ack, .w value .ack, .p]

/-- The symbols of READ_BYTE up to the byte read (43_transactions R191). -/
def readByteSelects (a : Addr7) (reg : Byte) : List Event :=
  [.s, .w (addressByte a .write) .ack, .w reg .ack, .sr, .w (addressByte a .read) .ack]

/-- The slave addressed by WRITE_BYTE stores the value. -/
theorem hears_writeByte (v : RefSlave) (reg value : Byte) :
    (v.hears (writeByteSymbols v.address reg value)).mem = Assoc.set v.mem reg.toNat value := by
  simp [RefSlave.hears, RefSlave.hear, writeByteSymbols]

/-- The slave addressed by READ_BYTE sends what it holds. -/
theorem hears_readByte (v : RefSlave) (reg : Byte) :
    (v.hears (readByteSelects v.address reg)).sends = (Assoc.get v.mem reg.toNat).getD 0 := by
  simp [RefSlave.hears, RefSlave.hear, readByteSelects, RefSlave.sends, addressByte_read_ne_write]

/-- WRITE_BYTE with `Ok` has put all its symbols on the wire (41_command_link R150). -/
theorem writeByte_wire {a : Addr7} {reg value : Byte} {s t : State} (hserve : s.CanServe)
    (h : exec (.writeByte a reg value) s = .next t) (hr : t.responses = s.responses ++ [(s.cur, .status .ok)]) :
    ∃ syms : List Event, t.wire = s.wire ++ syms ∧ syms.map Event.outline = writeByteSymbols a reg value := by
  obtain ⟨x, syms, hx, -, -, hends⟩ := transactionOnTheWire (.writeByte a reg value) s t rfl rfl rfl hserve h
  obtain rfl : x = .status .ok := by simpa [hx] using hr
  rcases hends with ⟨-, ho, -, hw, -⟩ | ⟨hst, -⟩ | ⟨hst, -⟩ | ⟨-, -, ⟨hst, -⟩ | ⟨hst, -⟩⟩
  · exact ⟨syms, hw, ho⟩
  all_goals cases hst

end Sys2Proof.Machine

open Sys2Proof Sys2Proof.Machine

/-- Settles O36: after WRITE_BYTE the slave holds the value (`hears_writeByte`), so it is what it sends to READ_BYTE
(`hears_readByte`), which delivers it (`readByte_delivers`). -/
theorem roundTripThroughTheReferenceSlave : Obligations.RoundTripThroughTheReferenceSlave := by
  intro slave s t s2 t2 reg value got hserve hwrite hwritten hserve2 hwire hread hexec hanswer
  obtain ⟨syms, hw, ho⟩ := writeByte_wire hserve hwrite hwritten
  rw [readByte_delivers hserve2 hread hexec hanswer, hwire, hw]
  have haddress := hears_address slave s.wire
  have haddress' := hears_address slave (s.wire ++ syms)
  show (slave.hears (s.wire ++ syms ++ readByteSelects slave.address reg)).sends = value
  rw [hears_append, ← haddress', hears_readByte, hears_append, ← hears_outline _ syms, ho, ← haddress, hears_writeByte,
    Assoc.get_set_same]
  rfl
end

section
/-! SCAN and DETECT_AND_LOG as the scanner's loop of probes (44_scanner R210), each probe the walk of its own link, and a
completion (43_transactions R195). -/

namespace Sys2Proof.Machine

/-! ### The loop -/

/-- The probe of SCAN_ADDR, built and executed (44_scanner R211, 41_command_link R140). -/
def probe (s : State) : Result := walkLink (probeOps (scanAddress s.scanAddr)) (beginProbe s)

/-- The tear-down of a probe that ended with this status, its record, and the address after it (44_scanner R210, R212). -/
def State.pastProbe (s : State) (st : Status) : State :=
  { linkEnd .selSb s with
    aset := if st = .ok then addMember s.aset (scanAddress s.scanAddr) else s.aset, scanAddr := s.scanAddr + 1 }

/-- What a scan comes to: its status, and the state in which it completes. -/
abbrev ScanResult := Host.Outcome (Status × State) Fault Refusal

/-- On with the scan after a probe, or out of it on Timeout and ConfigurationFault (44_scanner R210, R213). A probe that is over
always has a result. -/
def afterProbe (more : State → ScanResult) (s : State) : ScanResult :=
  match s.linkResult with
  | none => .fault .noOperation
  | some .ok => more (s.pastProbe .ok)
  | some .nack => more (s.pastProbe .nack)
  | some .noMemory => more (s.pastProbe .noMemory)
  | some .timeout => .next (.timeout, linkEnd .selSb s)
  | some .configurationFault => .next (.configurationFault, linkEnd .selSb s)

/-- The scanner's loop over the `n` addresses from SCAN_ADDR on (44_scanner R210). -/
def scanFrom : Nat → State → ScanResult
  | 0, s => .next (.ok, s)
  | n + 1, s => andThen (probe s) (afterProbe (scanFrom n))

/-- The completion of a scan (43_transactions R195). -/
def completeScan (i : Instr) (r : Status × State) : Result := .next (completeLocked i r.1 r.2)

/-! ### The run of a link -/

/-- A run walks the link it stands before; what it does after that may depend on nothing but where the walk has come to. -/
theorem drive_walkLink {ops : List Instr} {b n : Nat} {F : State → Result} {s : State} (hp : s.phase ≠ .none)
    (hat : s.linkResult = none → s.AtOps ops)
    (hafter : ∀ e, LinkFrame s e → e.phase ≠ .none → e.linkResult ≠ none → ∀ m, b ≤ m → drive m e = F e)
    (hn : ops.length + b ≤ n) : drive n s = andThen (walkLink ops s) F := by
  induction ops generalizing s n with
  | nil =>
    refine hafter s (.refl s) hp (fun hr => ?_) n (by simpa using hn)
    obtain ⟨f, room, htail⟩ := (hat hr).tail
    cases htail
  | cons j rest ih =>
    rw [List.length_cons] at hn
    by_cases hr : s.linkResult = none
    · have ho := hat hr
      obtain ⟨⟨hl, hw⟩, -⟩ := ho.links j List.mem_cons_self
      obtain ⟨m, rfl⟩ := Nat.exists_eq_succ_of_ne_zero (show n ≠ 0 by omega)
      rw [drive_step hp, smallStep_ahead ho.result ho.point ho.ahead hl hw, walkLink_cons hr, andThen_andThen]
      refine andThen_congr fun t ht => ?_
      obtain ⟨hbusy, hnext⟩ := ho.next ht
      exact ih hbusy hnext (fun e he => hafter e ((exec_link_frame hl ht).trans he)) (by omega)
    · rw [walkLink_over hr]
      exact hafter s (.refl s) hp hr n (by omega)

/-! ### A probe begins -/

/-- The construction of a probe writes SB, its length and BUILD_ERR, and leaves PHASE as LINK_BEGIN does (44_scanner R211). -/
theorem buildProbe_eq (a : Addr7) (s : State) :
    ∃ m n e, buildProbe a s = { s with sb := m, sbLen := n, buildErr := e, phase := .build } := by
  have hin := buildProbe_in a s
  have hcb : (buildProbe a s).cb = s.cb := hin.buf
  have hcbLen : (buildProbe a s).cbLen = s.cbLen := hin.len
  have hphase : (buildProbe a s).phase = .build := hin.phase
  have hrdLen : (buildProbe a s).rdLen = s.rdLen := hin.rdLen
  have hpoint := (buildProbe_safe a s).point
  obtain ⟨⟩ := buildProbe_frame a s
  generalize buildProbe a s = t at *
  refine ⟨t.sb, t.sbLen, t.buildErr, ?_⟩
  cases t
  simp_all only

/-- The probe of SCAN_ADDR stands in SB and is submitted. -/
def State.probing (s : State) (m : Memory) (n : Nat) : State :=
  submit .selSb Config.timeoutMs { s with sb := m, sbLen := n, buildErr := false, phase := .build }

/-- The construction of the probe of SCAN_ADDR has failed: its status is NoMemory (44_scanner R212). -/
def State.unbuilt (s : State) (m : Memory) (n : Nat) : State :=
  { s with sb := m, sbLen := n, buildErr := true, phase := .build, linkResult := some .noMemory }

/-- A probe fits the probe buffer, and is submitted, or does not fit (44_scanner R212). -/
theorem beginProbe_cases (s : State) :
    (4 ≤ s.params.scanCapacity ∧ ∃ m n, beginProbe s = s.probing m n) ∨
    (s.params.scanCapacity < 4 ∧ ∃ m n, beginProbe s = s.unbuilt m n) := by
  obtain ⟨-, hbuilt, hfailed⟩ := buildProbe_construction (scanAddress s.scanAddr) s
  obtain ⟨m, n, e, hbuild⟩ := buildProbe_eq (scanAddress s.scanAddr) s
  rw [beginProbe, submitBuilt]
  have hsize : (linkBytesOf (probeOps (scanAddress s.scanAddr))).length = 4 := rfl
  by_cases hroom : 4 ≤ s.params.scanCapacity
  · have herr := (hbuilt (hsize.trans_le hroom) trivial).err
    obtain rfl : e = false := by rwa [hbuild] at herr
    rw [hbuild]
    exact .inl ⟨hroom, m, n, rfl⟩
  · have herr := hfailed fun h => hroom (hsize.symm.trans_le h.1)
    obtain rfl : e = true := by rwa [hbuild] at herr
    rw [hbuild]
    exact .inr ⟨Nat.lt_of_not_le hroom, m, n, rfl⟩

theorem beginProbe_busy (s : State) : (beginProbe s).phase ≠ .none := by
  rcases beginProbe_cases s with ⟨-, m, n, h⟩ | ⟨-, m, n, h⟩
  · rw [h]; nofun
  · rw [h]; nofun

theorem beginProbe_service (s : State) : (beginProbe s).service = s.service :=
  (submitBuilt_leavesOthers ..).service.trans (buildProbe_frame ..).service

theorem beginProbe_scanAddr (s : State) : (beginProbe s).scanAddr = s.scanAddr :=
  (submitBuilt_leavesOthers ..).scanAddr.trans (buildProbe_frame ..).scanAddr

/-- The address byte of a probe must be acknowledged (44_scanner R211). -/
theorem probeOps_checked (a : Addr7) : ∀ i ∈ probeOps a, Checked i := by
  rintro i hi b rfl
  simp [probeOps] at hi

theorem beginProbe_atOps (s : State) (hr : (beginProbe s).linkResult = none) :
    (beginProbe s).AtOps (probeOps (scanAddress s.scanAddr)) := by
  have hbuild := buildProbe_constructed (scanAddress s.scanAddr) s
  unfold beginProbe submitBuilt at hr ⊢
  split at hr
  · cases hr
  · next he =>
    rw [if_neg he]
    exact hbuild.atOps (by simpa using he) (probeOps_checked _) _

/-! ### The run of a scan -/

/-- The scanner at the head of its loop: the next probe, or the end of the scan after address 127 (44_scanner R210). -/
def State.loopHead (i : Instr) (s : State) : State :=
  if s.scanAddr.toNat < Config.addrCount then beginProbe s else completeLocked i .ok s

/-- What follows the end of a probe (44_scanner R210, R213). -/
theorem smallStep_endProbe {i : Instr} (hi : i.isScan = true) {s : State} (hs : s.service = some i) {st : Status}
    (hr : s.linkResult = some st) : smallStep s = .next (endProbe i st s) := by
  rw [smallStep_result hr, endOfLink, hs]
  exact if_pos hi

/-- A scan runs as the scanner's loop, and completes. -/
theorem drive_loopHead {i : Instr} (hi : i.isScan = true) {n m : Nat} {s : State} (hs : s.service = some i)
    (ha : s.scanAddr.toNat + n = 128) (hm : 4 * n ≤ m) :
    drive m (s.loopHead i) = andThen (scanFrom n s) (completeScan i) := by
  induction n generalizing s m with
  | zero =>
    rw [State.loopHead, if_neg (by rw [Config.addrCount]; omega)]
    exact drive_idle rfl m
  | succ n ih =>
    rw [State.loopHead, if_pos (by rw [Config.addrCount]; omega), scanFrom, andThen_andThen]
    refine drive_walkLink (b := 4 * n + 1) (beginProbe_busy s) (beginProbe_atOps s) (fun e he hp hr k hk => ?_)
      (by simp only [probeOps, List.length_cons, List.length_nil]; omega)
    obtain ⟨st, hst⟩ := Option.ne_none_iff_exists'.1 hr
    obtain ⟨k, rfl⟩ := Nat.exists_eq_succ_of_ne_zero (Nat.ne_zero_of_lt hk)
    have hservice : e.service = some i := he.service.trans ((beginProbe_service s).trans hs)
    have haddr : e.scanAddr = s.scanAddr := he.scanAddr.trans (beginProbe_scanAddr s)
    have hmore (st : Status) : drive k ((e.pastProbe st).loopHead i)
        = andThen (scanFrom n (e.pastProbe st)) (completeScan i) := by
      have hnext : (e.pastProbe st).scanAddr = s.scanAddr + 1 := congrArg (· + 1) haddr
      exact ih hservice (by rw [hnext]; bv_omega) (by omega)
    rw [drive_step_next hp (smallStep_endProbe hi hservice hst), afterProbe, hst]
    cases st with
    | ok => exact hmore .ok
    | nack => exact hmore .nack
    | noMemory => exact hmore .noMemory
    | timeout | configurationFault => exact drive_idle rfl k

/-- The scanner's body begins for the operation `i` (43_transactions R195, 44_scanner R210). -/
def State.scanning (s : State) (i : Instr) : State := { s.granted i with aset := 0, scanAddr := 0 }

theorem isLocked_of_isScan {i : Instr} (hi : i.isScan = true) : i.isLocked = true := by
  cases i with
  | scan | detectAndLog => rfl
  | start | writeAddressedByte | writeBuffer | readBuffer | stop => cases hi
  | init | writeThenRead | readByte | writeByte => cases hi

/-- A scan that is served runs its loop over all addresses and completes. -/
theorem exec_scan_ready {i : Instr} (hi : i.isScan = true) {s : State} (hm : s.mode = .ready) (hl : s.lock = .free) :
    exec i s = andThen (scanFrom 128 (s.scanning i)) (completeScan i) := by
  have hready : s.mode ≠ .uninit := by rw [hm]; decide
  have hgood : (s.granted i).mode ≠ .fatal := by rw [show (s.granted i).mode = s.mode from rfl, hm]; decide
  have hbody : beginBody i (s.granted i) = beginScanner (s.granted i) := by
    cases i with
    | scan | detectAndLog => rfl
    | start | writeAddressedByte | writeBuffer | readBuffer | stop => cases hi
    | init | writeThenRead | readByte | writeByte => cases hi
  have hbegin : beginLocked i s = (s.scanning i).loopHead i := (if_neg hgood).trans hbody
  rw [exec_locked (isLocked_of_isScan hi), runLocked, if_neg hready, if_pos hl, hbegin]
  exact drive_loopHead hi rfl rfl (by rw [driveBound]; omega)

/-- In FATAL a scan completes at once, with the set of the previous one (44_scanner R214). -/
theorem exec_scan_fatal {i : Instr} (hi : i.isScan = true) {s : State} (hm : s.mode = .fatal) (hl : s.lock = .free) :
    exec i s = .next (completeLocked i .configurationFault (s.granted i)) := by
  have hready : s.mode ≠ .uninit := by rw [hm]; decide
  have hbegin : beginLocked i s = completeLocked i .configurationFault (s.granted i) := if_pos hm
  rw [exec_locked (isLocked_of_isScan hi), runLocked, if_neg hready, if_pos hl, hbegin]
  exact drive_idle rfl _

end Sys2Proof.Machine
end

section
/-! What a scan leaves alone, however it ends, and that its loop does not depend on which of the two operations it is in
(44_scanner R210 to R215). -/

namespace Sys2Proof.Machine

/-! ### The frame -/

/-- What no part of a scan writes: everything outside SB, the scanner's own state and what the lock holder's walk moves. -/
structure ScanKeeps (s t : State) : Prop where
  cfg : t.cfg = s.cfg
  params : t.params = s.params
  stimuli : t.stimuli = s.stimuli
  cbLen : t.cbLen = s.cbLen
  rdLen : t.rdLen = s.rdLen
  cb : t.cb = s.cb
  rdata : ∀ x, Memory.read t.rdata x = Memory.read s.rdata x
  waiters : t.waiters = s.waiters
  ports : t.ports = s.ports
  responses : t.responses = s.responses
  lock : t.lock = s.lock

theorem ScanKeeps.refl (s : State) : ScanKeeps s s := ⟨rfl, rfl, rfl, rfl, rfl, rfl, fun _ => rfl, rfl, rfl, rfl, rfl⟩

theorem ScanKeeps.trans {s t u : State} (h : ScanKeeps s t) (k : ScanKeeps t u) : ScanKeeps s u := by
  obtain ⟨⟩ := h; obtain ⟨⟩ := k; constructor <;> simp only [*, implies_true]

theorem beginProbe_keeps (s : State) : ScanKeeps s (beginProbe s) := by
  rcases beginProbe_cases s with ⟨-, m, n, h⟩ | ⟨-, m, n, h⟩
  · rw [h]; exact ⟨rfl, rfl, rfl, rfl, rfl, rfl, fun _ => rfl, rfl, rfl, rfl, rfl⟩
  · rw [h]; exact ⟨rfl, rfl, rfl, rfl, rfl, rfl, fun _ => rfl, rfl, rfl, rfl, rfl⟩

/-- A link that reads nothing. -/
theorem LinkFrame.scanKeeps {s t : State} (h : LinkFrame s t) (hr : ReadsWithin 0 s t) : ScanKeeps s t where
  cfg := h.cfg
  params := h.params
  stimuli := h.stimuli
  cbLen := h.cbLen
  rdLen := Nat.le_antisymm hr.most hr.le
  cb := h.cb
  rdata := fun x => hr.outside x (Nat.lt_or_ge x s.rdLen)
  waiters := h.waiters
  ports := h.ports
  responses := h.responses
  lock := h.lock

theorem probeOps_isLink (a : Addr7) : ∀ i ∈ probeOps a, i.isLink = true := fun i hi => (probeOps_wellFormed a i hi).1

theorem probe_keeps {s t : State} (h : probe s = .next t) : ScanKeeps s t := by
  obtain ⟨hlink, hreads⟩ := walkLink_frame (probeOps_isLink _) h
  exact (beginProbe_keeps s).trans (hlink.scanKeeps hreads)

theorem linkEnd_keeps (s : State) : ScanKeeps s (linkEnd .selSb s) :=
  ⟨rfl, rfl, rfl, rfl, rfl, rfl, fun _ => rfl, rfl, rfl, rfl, rfl⟩

theorem pastProbe_keeps (s : State) (st : Status) : ScanKeeps s (s.pastProbe st) :=
  ⟨rfl, rfl, rfl, rfl, rfl, rfl, fun _ => rfl, rfl, rfl, rfl, rfl⟩

theorem scanFrom_keeps {n : Nat} {s e : State} {st : Status} (h : scanFrom n s = .next (st, e)) : ScanKeeps s e := by
  induction n generalizing s with
  | zero => cases h; exact .refl _
  | succ n ih =>
    obtain ⟨u, hu, hrest⟩ := andThen_eq_next.1 h
    refine (probe_keeps hu).trans ?_
    rw [afterProbe] at hrest
    split at hrest
    · cases hrest
    · exact (pastProbe_keeps u .ok).trans (ih hrest)
    · exact (pastProbe_keeps u .nack).trans (ih hrest)
    · exact (pastProbe_keeps u .noMemory).trans (ih hrest)
    · cases hrest; exact linkEnd_keeps u
    · cases hrest; exact linkEnd_keeps u

/-- A scan served has run its loop, and completes for its requester. -/
theorem exec_scan_next {i : Instr} (hi : i.isScan = true) {s t : State} (hm : s.mode = .ready) (hl : s.lock = .free)
    (h : exec i s = .next t) :
    ∃ st e, scanFrom 128 (s.scanning i) = .next (st, e) ∧ ScanKeeps (s.scanning i) e ∧ e.requester = s.cur ∧
      t = completeLocked i st e := by
  rw [exec_scan_ready hi hm hl] at h
  obtain ⟨⟨st, e⟩, he, hlast⟩ := andThen_eq_next.1 h
  have hkeeps := scanFrom_keeps he
  have hlock : e.lock = .held s.cur := hkeeps.lock
  exact ⟨st, e, he, hkeeps, by rw [State.requester, hlock], (Host.Outcome.next.inj hlast).symm⟩

/-! ### The operation in service -/

theorem beginProbe_serving (s : State) (j : Instr) : beginProbe (s.serving j) = (beginProbe s).serving j := by
  have hbegin : linkBegin .selSb (s.serving j) = (linkBegin .selSb s).serving j := rfl
  have haddr : (s.serving j).scanAddr = s.scanAddr := rfl
  rw [beginProbe, beginProbe, buildProbe, hbegin, haddr, appendStart, append_serving, appendWab, append_serving, appendStop,
    append_serving, submitBuilt, submitBuilt, apply_ite (State.serving · j)]
  rfl

/-- A probe is built and executed alike for both operations. -/
theorem probe_serving {s t : State} (h : probe s = .next t) (j : Instr) : probe (s.serving j) = .next (t.serving j) := by
  rw [probe, beginProbe_serving]
  exact walkLink_serving (probeOps_isLink _) h j

/-- The loop runs alike for both operations. -/
theorem scanFrom_serving {n : Nat} {s e : State} {st : Status} (h : scanFrom n s = .next (st, e)) (j : Instr) :
    scanFrom n (s.serving j) = .next (st, e.serving j) := by
  induction n generalizing s with
  | zero => cases h; rfl
  | succ n ih =>
    obtain ⟨u, hu, hrest⟩ := andThen_eq_next.1 h
    have hresult : (u.serving j).linkResult = u.linkResult := rfl
    rw [scanFrom, probe_serving hu j, andThen_next, afterProbe, hresult]
    rw [afterProbe] at hrest
    cases hst : u.linkResult with
    | none => rw [hst] at hrest; cases hrest
    | some st =>
      rw [hst] at hrest
      cases st with
      | ok | nack | noMemory => exact ih hrest
      | timeout | configurationFault => cases hrest; rfl

/-- DETECT_AND_LOG completes as SCAN does, but for the listing and the form of the response (44_scanner R214, R215). -/
theorem completeLocked_detectAndLog (st : Status) (e : State) :
    completeLocked .detectAndLog st (e.serving .detectAndLog) = { completeLocked .scan st e with
      wire := (completeLocked .scan st e).wire ++ (members e.aset).map .log
      responses := e.responses ++ [(e.requester, .status st)] } := by
  simp [completeLocked, listing, State.serving, State.deliver, State.drawBytes, State.release, responseOf, responseLength,
    State.requester]

end Sys2Proof.Machine

open Sys2Proof Sys2Proof.Machine

/-- Settles O42: what no part of a scan writes (`scanFrom_keeps`); completion frees the port. -/
theorem scanFrame : Obligations.ScanFrame := by
  intro i s t hi hserve h
  obtain ⟨st, e, -, hkeeps, hcur, rfl⟩ := exec_scan_next hi hserve.1 hserve.2.1 h
  refine ⟨hkeeps.cfg, hkeeps.params, hkeeps.stimuli, hkeeps.cbLen, hkeeps.rdLen,
    fun x => congrArg (Memory.read · x) hkeeps.cb, hkeeps.rdata, hkeeps.waiters, ?_⟩
  have hports : e.ports = s.ports := hkeeps.ports
  rw [← hcur, ← hports]
  rfl

/-- Settles O38: in READY the loop runs alike for both operations (`scanFrom_serving`), in FATAL both complete at once; completion
differs in the listing and the response only (`completeLocked_detectAndLog`). -/
theorem detectAndLogIsScanAndListing : Obligations.DetectAndLogIsScanAndListing := by
  intro s t hl h
  cases hm : s.mode with
  | uninit => rw [exec_locked_beforeInit (i := .scan) rfl hm] at h; cases h
  | fatal =>
    rw [exec_scan_fatal (i := .scan) rfl hm hl] at h
    cases h
    refine ⟨.configurationFault, rfl, ?_⟩
    rw [exec_scan_fatal (i := .detectAndLog) rfl hm hl]
    exact congrArg _ (completeLocked_detectAndLog .configurationFault (s.granted .scan))
  | ready =>
    obtain ⟨st, e, he, hkeeps, hcur, rfl⟩ := exec_scan_next (i := .scan) rfl hm hl h
    have hresponses : e.responses = s.responses := hkeeps.responses
    have he' : scanFrom 128 (s.scanning .detectAndLog) = .next (st, e.serving .detectAndLog) :=
      scanFrom_serving he .detectAndLog
    refine ⟨st, by rw [completeLocked_responses, hcur, hresponses]; rfl, ?_⟩
    rw [exec_scan_ready (i := .detectAndLog) rfl hm hl, he', ← hcur, ← hresponses]
    exact congrArg _ (completeLocked_detectAndLog st e)
end

section
/-! The Address Set a scan records (44_scanner R210, R212). -/

namespace Sys2Proof.Machine

theorem scanAddress_eq (c : BitVec 8) : scanAddress c = BitVec.ofNat 7 c.toNat :=
  BitVec.eq_of_toNat_eq (by rw [scanAddress, BitVec.toNat_setWidth, BitVec.toNat_ofNat])

/-- Bit `a` of the set goes to 1, and no other bit changes (44_scanner R210). -/
theorem getLsbD_addMember (set : AddrSet) (a b : Addr7) :
    (addMember set a).getLsbD b.toNat = true ↔ set.getLsbD b.toNat = true ∨ b = a := by
  have hb : b.toNat < 128 := b.isLt
  have hsame : a.toNat ≤ b.toNat ∧ b.toNat - a.toNat = 0 ↔ b = a := by rw [BitVec.toNat_eq]; omega
  simp [addMember, hb, hsame]

/-- The set after the probes of the addresses from `k` on, with these acknowledges: "present iff Ok" (44_scanner R212). -/
def recordAcks (set : AddrSet) (k : Nat) : List Ack → AddrSet
  | [] => set
  | x :: xs => recordAcks (if x = .ack then addMember set (BitVec.ofNat 7 k) else set) (k + 1) xs

theorem getLsbD_recordAcks {set : AddrSet} {k : Nat} {acks : List Ack} (hk : k + acks.length ≤ 128) (a : Addr7) :
    (recordAcks set k acks).getLsbD a.toNat = true ↔
      set.getLsbD a.toNat = true ∨ (k ≤ a.toNat ∧ acks[a.toNat - k]? = some .ack) := by
  induction acks generalizing set k with
  | nil => simp [recordAcks]
  | cons x xs ih =>
    rw [List.length_cons] at hk
    have heq : a = BitVec.ofNat 7 k ↔ a.toNat = k := by
      rw [BitVec.toNat_eq, BitVec.toNat_ofNat, Nat.mod_eq_of_lt (show k < 2 ^ 7 by omega)]
    have hfirst : (if x = .ack then addMember set (BitVec.ofNat 7 k) else set).getLsbD a.toNat = true ↔
        set.getLsbD a.toNat = true ∨ (a.toNat = k ∧ x = .ack) := by
      split
      · next hx => rw [getLsbD_addMember, heq]; simp [hx]
      · next hx => simp [hx]
    rw [recordAcks, ih (by omega), hfirst, or_assoc]
    refine or_congr_right ?_
    rcases Nat.lt_trichotomy a.toNat k with hlt | rfl | hgt
    · simp [Nat.not_le.2 hlt, hlt.ne, Nat.not_le.2 (Nat.lt_succ_of_lt hlt)]
    · simp
    · have hsub : a.toNat - k = a.toNat - (k + 1) + 1 := by omega
      simp [hgt.ne', hgt.le, Nat.succ_le_of_lt hgt, hsub]

/-- From the empty set on it is exactly the addresses acknowledged. -/
theorem getLsbD_recordAcks_empty {acks : List Ack} (h : acks.length ≤ 128) (a : Addr7) :
    (recordAcks 0 0 acks).getLsbD a.toNat = true ↔ acks[a.toNat]? = some .ack := by
  rw [getLsbD_recordAcks (by omega)]
  simp

end Sys2Proof.Machine
end

section
/-! Every way a probe can end, for every answer of the environment (44_scanner R211 to R213; 41_command_link R147, R148). -/

namespace Sys2Proof.Machine

/-- The status of a probe whose address byte gets this acknowledge (41_command_link R140, R147). -/
def Ack.status : Ack → Status
  | .ack => .ok
  | .nack => .nack

/-- The environment once the answers of `n` whole probes are given. -/
def Env.dropProbes (n : Nat) (e : Env) : Env :=
  { e with starts := e.starts.skip n, writes := e.writes.skip n, stops := e.stops.skip n }

/-- The probe of address `a` has been walked to its end. -/
def State.answered (s : State) (a : Addr7) (x : Ack) : State :=
  { s with
    env := s.env.dropProbes 1, wire := s.wire ++ probeFrame a x, inFrame := false
    seqPtr := s.seqPtr + if x = .ack then 4 else 1, linkResult := some x.status, tmoArmed := false, point := .operation 0 }

/-- START is done and the answer to the address byte is given. -/
def State.asked (s : State) : State := { s.started with env := s.started.env.dropWrite }

/-- That answer was a NACK. -/
def State.refused (s : State) (b : Byte) : State := { s.asked with wire := s.asked.wire ++ [.w b .nack] }

/-- STOP hangs. -/
def State.stopHung (s : State) : State := { s with env := s.env.dropStop }

/-- A symbol of the probe of address `a` hangs: what has shown of the probe before it, and what has not changed (44_scanner
R212). -/
structure HangsIn (a : Addr7) (s v : State) : Prop where
  wire : ∃ syms ∈ probePrefixes a, v.wire = s.wire ++ syms
  mode : v.mode = s.mode
  cfg : v.cfg = s.cfg
  aset : v.aset = s.aset
  scanAddr : v.scanAddr = s.scanAddr

section
variable {s : State} (hx : s.executing = true)
include hx

theorem walkLink_startHangs (rest : List Instr) (hstart : s.env.nextStart = .hang) :
    walkLink (.start :: rest) s = .next (timeoutAbort { s with env := s.env.dropStart }) := by
  rw [walkLink_step (State.executing_result hx) ((startCompletes s hx).2 hstart)]
  exact walkLink_over (timeoutAbort_over _).1 rest

theorem walkLink_stopHangs (hstop : s.env.nextStop = .hang) : walkLink [.stop] s = .next (timeoutAbort s.stopHung) :=
  walkLink_step (State.executing_result hx) ((stopCompletes s hx).2 hstop) []

variable (b : Byte) (rest : List Instr) (hstart : s.env.nextStart = .done)
include hstart

theorem walkLink_byteHangs (hwrite : s.env.nextWrite = .hang) :
    walkLink (.start :: .writeAddressedByte b true :: rest) s = .next (timeoutAbort s.asked) := by
  have hbyte : exec (.writeAddressedByte b true) s.started = .next (timeoutAbort s.asked) :=
    ((writeAddressedByteCompletes s.started b true hx).1 rfl).2.2 hwrite
  rw [walkLink_start hx _ hstart, walkLink_step (State.executing_result (s := s.started) hx) hbyte]
  exact walkLink_over (timeoutAbort_over _).1 rest

theorem walkLink_refused (hwrite : s.env.nextWrite = .nack) :
    walkLink (.start :: .writeAddressedByte b true :: rest) s = .next (nackAbort (s.refused b)) := by
  have hbyte : exec (.writeAddressedByte b true) s.started = .next (nackAbort (s.refused b)) :=
    ((writeAddressedByteCompletes s.started b true hx).1 rfl).2.1 hwrite rfl
  rw [walkLink_start hx _ hstart, walkLink_step (State.executing_result (s := s.started) hx) hbyte]
  exact walkLink_over (nackAbort_over _).1 rest

end

section
variable {s : State} (hx : s.executing = true) (hf : s.inFrame = false) (a : Addr7)
include hx hf

/-- A probe none of whose symbols hangs. -/
theorem walkLink_answered {x : Ack} (hstart : s.env.nextStart = .done) (hwrite : s.env.nextWrite = x.answer)
    (hstop : s.env.nextStop = .done) : walkLink (probeOps a) s = .next (s.answered a x) := by
  cases x with
  | ack =>
    rw [probeOps, walkLink_address hx _ _ hstart hwrite, walkLink_stop (s := s.addressed _) hx hstop]
    simp [State.stopped, State.addressed, State.started, State.answered, hf, startEvent, probeFrame, Env.dropProbes,
      Env.dropStart, Env.dropWrite, Env.dropStop, Tape.skip_succ, Ack.status]
  | nack =>
    rw [probeOps, walkLink_refused hx _ _ hstart hwrite, nackAbort_done (s := s.refused _) hstop]
    simp [State.endLink, State.refused, State.asked, State.started, State.answered, hf, startEvent, probeFrame,
      Env.dropProbes, Env.dropStart, Env.dropWrite, Env.dropStop, Tape.skip_succ, Ack.status]

/-- A probe that is submitted ends, or one of its four symbols hangs. -/
theorem walkLink_probe :
    (∃ x, walkLink (probeOps a) s = .next (s.answered a x)) ∨
    ∃ v, HangsIn a s v ∧ walkLink (probeOps a) s = .next (timeoutAbort v) := by
  cases hstart : s.env.nextStart with
  | hang =>
    exact .inr ⟨{ s with env := s.env.dropStart }, ⟨⟨[], by simp [probePrefixes]⟩, rfl, rfl, rfl, rfl⟩,
      walkLink_startHangs hx _ hstart⟩
  | done =>
    have hstarted : s.started.wire = s.wire ++ [.s] := by simp [State.started, hf, startEvent]
    cases hwrite : s.env.nextWrite with
    | hang =>
      exact .inr ⟨s.asked, ⟨⟨[.s], by simp [probePrefixes], hstarted⟩, rfl, rfl, rfl, rfl⟩,
        walkLink_byteHangs hx _ _ hstart hwrite⟩
    | ack =>
      cases hstop : s.env.nextStop with
      | done => exact .inl ⟨.ack, walkLink_answered hx hf a hstart hwrite hstop⟩
      | hang =>
        refine .inr ⟨(s.addressed (addressByte a .write)).stopHung,
          ⟨⟨[.s, .w (addressByte a .write) .ack], by simp [probePrefixes], ?_⟩, rfl, rfl, rfl, rfl⟩, ?_⟩
        · simp [State.stopHung, State.addressed, hstarted]
        · rw [probeOps, walkLink_address hx _ _ hstart hwrite]
          exact walkLink_stopHangs (s := s.addressed _) hx hstop
    | nack =>
      cases hstop : s.env.nextStop with
      | done => exact .inl ⟨.nack, walkLink_answered hx hf a hstart hwrite hstop⟩
      | hang =>
        refine .inr ⟨(s.refused (addressByte a .write)).stopHung,
          ⟨⟨[.s, .w (addressByte a .write) .nack], by simp [probePrefixes], ?_⟩, rfl, rfl, rfl, rfl⟩, ?_⟩
        · simp [State.stopHung, State.refused, State.asked, hstarted]
        · rw [probeOps, walkLink_refused hx _ _ hstart hwrite, nackAbort_hang (s := s.refused _) hstop]
          rfl

end

/-! ### A probe of the scanner -/

/-- The scanner can execute probes: the engine is up, somebody holds the lock, and SB has room for a probe (41_command_link R140,
44_scanner R211). -/
structure State.CanProbe (s : State) : Prop where
  up : s.engineUp = true
  held : s.lock ≠ .free
  room : 4 ≤ s.params.scanCapacity

theorem State.CanProbe.executing {s : State} (h : s.CanProbe) (m : Memory) (n : Nat) : (s.probing m n).executing = true := by
  have hwalk : (s.probing m n).walking = true := State.walking_iff.2 ⟨rfl, h.up, h.held, rfl, rfl⟩
  simp only [State.executing, hwalk]
  rfl

theorem State.CanProbe.begin {s : State} (h : s.CanProbe) : ∃ m n, beginProbe s = s.probing m n := by
  rcases beginProbe_cases s with ⟨-, hbegin⟩ | ⟨hroom, -⟩
  · exact hbegin
  · exact absurd h.room (Nat.not_le.2 hroom)

/-- The probe of SCAN_ADDR has ended with this acknowledge, and is torn down and recorded (44_scanner R210, R212). -/
def State.probed (s : State) (x : Ack) : State :=
  { s with
    phase := .teardown, sb := [], sbLen := 0, buildErr := false, seqSel := .selSb, seqPtr := if x = .ack then 4 else 1
    inFrame := false, point := .operation 0, tmoArmed := false, tmoMs := Config.timeoutMs, linkResult := some x.status
    aset := if x = .ack then addMember s.aset (BitVec.ofNat 7 s.scanAddr.toNat) else s.aset, scanAddr := s.scanAddr + 1
    wire := s.wire ++ probeFrame (BitVec.ofNat 7 s.scanAddr.toNat) x, env := s.env.dropProbes 1 }

theorem State.CanProbe.probed {s : State} (h : s.CanProbe) (x : Ack) : (s.probed x).CanProbe := ⟨h.up, h.held, h.room⟩

/-- After a probe that ended the scan goes on (44_scanner R210). -/
theorem afterProbe_answered (more : State → ScanResult) (s : State) (m : Memory) (n : Nat) (x : Ack) :
    afterProbe more ((s.probing m n).answered (scanAddress s.scanAddr) x) = more (s.probed x) := by
  rw [scanAddress_eq]
  cases x with
  | ack =>
    refine (congrArg more ?_ : more (State.pastProbe _ .ok) = _)
    simp only [State.pastProbe, scanAddress_eq]
    simp [State.answered, State.probing, State.probed, submit, linkEnd, State.setLen, State.setBuf]
  | nack =>
    refine (congrArg more ?_ : more (State.pastProbe _ .nack) = _)
    simp [State.answered, State.probing, State.probed, submit, linkEnd, State.setLen, State.setBuf, State.pastProbe]

end Sys2Proof.Machine
end

section
/-! Every way a scan can end, and the state it leaves (44_scanner R210 to R214). -/

namespace Sys2Proof.Machine

/-! ### Probes that end -/

/-- What these probes leave, the first of them that of SCAN_ADDR. -/
def State.scanned (s : State) (acks : List Ack) : State := acks.foldl State.probed s

theorem State.CanProbe.scanned {s : State} (h : s.CanProbe) (acks : List Ack) : (s.scanned acks).CanProbe := by
  induction acks generalizing s with
  | nil => exact h
  | cons x xs ih => exact ih (h.probed x)

theorem scanned_mode (s : State) (acks : List Ack) : (s.scanned acks).mode = s.mode := by
  induction acks generalizing s with
  | nil => rfl
  | cons x xs ih => exact ih (s.probed x)

theorem scanned_cfg (s : State) (acks : List Ack) : (s.scanned acks).cfg = s.cfg := by
  induction acks generalizing s with
  | nil => rfl
  | cons x xs ih => exact ih (s.probed x)

theorem scanned_env (s : State) (acks : List Ack) : (s.scanned acks).env = s.env.dropProbes acks.length := by
  induction acks generalizing s with
  | nil => rfl
  | cons x xs ih => exact ih (s.probed x)

/-- The scanner's own state and WIRE after probes that end (44_scanner R210, R212). -/
theorem scanned_shows {s : State} {acks : List Ack} (h : s.scanAddr.toNat + acks.length ≤ 128) :
    (s.scanned acks).scanAddr.toNat = s.scanAddr.toNat + acks.length ∧
    (s.scanned acks).aset = recordAcks s.aset s.scanAddr.toNat acks ∧
    (s.scanned acks).wire = s.wire ++ probeFrames s.scanAddr.toNat acks := by
  induction acks generalizing s with
  | nil => exact ⟨rfl, rfl, (List.append_nil _).symm⟩
  | cons x xs ih =>
    rw [List.length_cons] at h ⊢
    have hnext : (s.probed x).scanAddr.toNat = s.scanAddr.toNat + 1 := by
      show (s.scanAddr + 1).toNat = _
      bv_omega
    obtain ⟨haddr, haset, hwire⟩ := ih (s := s.probed x) (by omega)
    rw [hnext] at haddr haset hwire
    refine ⟨haddr.trans (by omega), haset, hwire.trans ?_⟩
    rw [probeFrames, ← List.append_assoc]
    rfl

/-- All that probes write which end, where there is one at least. -/
theorem scanned_concat (s : State) (acks : List Ack) (x : Ack) :
    s.scanned (acks ++ [x]) = { s.probed x with
      aset := (s.scanned (acks ++ [x])).aset, scanAddr := (s.scanned (acks ++ [x])).scanAddr
      wire := (s.scanned (acks ++ [x])).wire, env := (s.scanned (acks ++ [x])).env } := by
  induction acks generalizing s with
  | nil => rfl
  | cons y ys ih => exact ih (s.probed y)

/-- A probe that ends, and on with the scan. -/
theorem scanFrom_probed {s : State} (hs : s.CanProbe) (n : Nat) {x : Ack} (hstart : s.env.nextStart = .done)
    (hwrite : s.env.nextWrite = x.answer) (hstop : s.env.nextStop = .done) :
    scanFrom (n + 1) s = scanFrom n (s.probed x) := by
  obtain ⟨m, k, hbegin⟩ := hs.begin
  have hwalk := walkLink_answered (hs.executing m k) rfl (scanAddress s.scanAddr) hstart hwrite hstop
  rw [scanFrom, probe, hbegin, hwalk, andThen_next, afterProbe_answered]

/-- Probes that end, and on with the scan. -/
theorem scanFrom_scanned {s : State} (hs : s.CanProbe) (n : Nat) {acks : List Ack}
    (hstarts : s.env.nextStarts acks.length = List.replicate acks.length .done)
    (hwrites : s.env.nextWrites acks.length = acks.map Ack.answer)
    (hstops : s.env.nextStops acks.length = List.replicate acks.length .done) :
    scanFrom (n + acks.length) s = scanFrom n (s.scanned acks) := by
  induction acks generalizing s with
  | nil => rfl
  | cons x xs ih =>
    obtain ⟨hstart, hstarts⟩ := List.cons.inj hstarts
    obtain ⟨hwrite, hwrites⟩ := List.cons.inj hwrites
    obtain ⟨hstop, hstops⟩ := List.cons.inj hstops
    rw [List.length_cons, ← Nat.add_assoc, scanFrom_probed hs _ hstart hwrite hstop]
    exact ih (hs.probed x) hstarts hwrites hstops

/-! ### A probe that hangs -/

/-- The scan is over at a probe that hangs (44_scanner R213). -/
theorem afterProbe_timeoutAbort (more : State → ScanResult) (v : State) :
    ∃ st, TimedOut v (timeoutAbort v) st ∧
      afterProbe more (timeoutAbort v) = .next (st, linkEnd .selSb (timeoutAbort v)) := by
  obtain ⟨st, hover⟩ := timeoutAbort_timedOut v
  refine ⟨st, hover, ?_⟩
  rw [afterProbe, hover.result]
  rcases hover.ends with ⟨rfl, -⟩ | ⟨rfl, -⟩
  · rfl
  · rfl

/-- The ways a scan can end from SCAN_ADDR on with `n` addresses left: all of them probed, or a probe hung and the pass after it
decides the status (44_scanner R210, R213). -/
inductive ScanEnds (n : Nat) (s : State) : Status × State → Prop where
  | whole {acks : List Ack} (hl : acks.length = n) : ScanEnds n s (.ok, s.scanned acks)
  | cut {acks : List Ack} {v : State} {st : Status} (hl : acks.length < n)
      (hv : HangsIn (scanAddress (s.scanned acks).scanAddr) (s.scanned acks) v) (hst : TimedOut v (timeoutAbort v) st) :
      ScanEnds n s (st, linkEnd .selSb (timeoutAbort v))

/-- After a probe that ended. -/
theorem ScanEnds.after {n : Nat} {s : State} {x : Ack} {r : Status × State} (h : ScanEnds n (s.probed x) r) :
    ScanEnds (n + 1) s r := by
  cases h with
  | @whole acks hl => exact .whole (acks := x :: acks) (congrArg (· + 1) hl)
  | @cut acks v st hl hv hst => exact .cut (acks := x :: acks) (Nat.succ_lt_succ hl) hv hst

theorem scanFrom_ends {s : State} (hs : s.CanProbe) (n : Nat) : ∃ r, scanFrom n s = .next r ∧ ScanEnds n s r := by
  induction n generalizing s with
  | zero => exact ⟨_, rfl, .whole (acks := []) rfl⟩
  | succ n ih =>
    obtain ⟨m, k, hbegin⟩ := hs.begin
    have hsame {v : State} (hv : HangsIn (scanAddress s.scanAddr) (s.probing m k) v) :
        HangsIn (scanAddress s.scanAddr) s v := ⟨hv.wire, hv.mode, hv.cfg, hv.aset, hv.scanAddr⟩
    rw [scanFrom, probe, hbegin]
    rcases walkLink_probe (hs.executing m k) rfl (scanAddress s.scanAddr) with ⟨x, hwalk⟩ | ⟨v, hv, hwalk⟩
    · obtain ⟨r, hr, hends⟩ := ih (hs.probed x)
      rw [hwalk, andThen_next, afterProbe_answered]
      exact ⟨r, hr, hends.after⟩
    · obtain ⟨st, hover, hafter⟩ := afterProbe_timeoutAbort (scanFrom n) v
      rw [hwalk, andThen_next, hafter]
      exact ⟨_, rfl, .cut (acks := []) (Nat.succ_pos n) (hsame hv) hover⟩

/-- The address byte of the probe of SCAN_ADDR hangs and the pass is clean (44_scanner R213, 42_recovery R171). -/
theorem scanFrom_byteHangs {s : State} (hs : s.CanProbe) (n : Nat) (hstart : s.env.nextStart = .done)
    (hwrite : s.env.nextWrite = .hang) (hhals : s.env.nextHals 68 = List.replicate 68 .ok) :
    ∃ e, scanFrom (n + 1) s = .next (.timeout, e) ∧ e.mode = s.mode ∧ e.sbLen = 0 ∧ e.scanAddr = s.scanAddr ∧
      e.aset = s.aset ∧ e.wire = s.wire ++ [.s, .tmo] ++ recoveryEvents s.cfg := by
  obtain ⟨m, k, hbegin⟩ := hs.begin
  have hwalk : walkLink (probeOps (scanAddress s.scanAddr)) (s.probing m k) = .next (timeoutAbort (s.probing m k).asked) :=
    walkLink_byteHangs (hs.executing m k) _ _ hstart hwrite
  rw [scanFrom, probe, hbegin, hwalk, andThen_next, cleanRecoveryPass.2 (s.probing m k).asked hhals]
  refine ⟨_, rfl, rfl, rfl, rfl, rfl, ?_⟩
  simp [State.asked, State.started, State.probing, startEvent]

/-! ### A probe buffer without room -/

/-- The probe of SCAN_ADDR could not be built: the address counts as absent (44_scanner R212). -/
def State.skipped (s : State) : State :=
  { s with
    phase := .teardown, sb := [], sbLen := 0, buildErr := false, linkResult := some .noMemory, scanAddr := s.scanAddr + 1 }

theorem scanFrom_skipped {s : State} (hroom : s.params.scanCapacity < 4) (n : Nat) :
    scanFrom (n + 1) s = scanFrom n s.skipped := by
  rcases beginProbe_cases s with ⟨hfits, -⟩ | ⟨-, m, k, hbegin⟩
  · exact absurd hfits (Nat.not_le.2 hroom)
  · rw [scanFrom, probe, hbegin, walkLink_over (by simp [State.unbuilt]), andThen_next]
    rfl

/-- Every address is skipped. -/
theorem scanFrom_noRoom {s : State} (hroom : s.params.scanCapacity < 4) (n : Nat) :
    ∃ c, scanFrom (n + 1) s = .next (.ok, { s.skipped with scanAddr := c }) := by
  induction n generalizing s with
  | zero => exact ⟨_, scanFrom_skipped hroom 0⟩
  | succ n ih =>
    obtain ⟨c, hc⟩ := ih (s := s.skipped) hroom
    exact ⟨c, (scanFrom_skipped hroom (n + 1)).trans hc⟩

/-! ### The whole scan -/

theorem State.CanServe.canProbe {s : State} (h : s.CanServe) (hroom : 4 ≤ s.params.scanCapacity) (i : Instr) :
    (s.scanning i).CanProbe := by
  obtain ⟨-, -, hup⟩ := h
  exact ⟨hup, nofun, hroom⟩

/-- A scan that is served comes to this end. -/
theorem State.CanServe.exec_scan {i : Instr} (hi : i.isScan = true) {s : State} (h : s.CanServe) {st : Status} {e : State}
    (he : scanFrom 128 (s.scanning i) = .next (st, e)) : exec i s = .next (completeLocked i st e) := by
  obtain ⟨hmode, hfree, -⟩ := h
  rw [exec_scan_ready hi hmode hfree, he]
  rfl

/-- All that the completion of SCAN writes (43_transactions R195, 44_scanner R214). -/
theorem completeLocked_scan (st : Status) (s : State) :
    completeLocked .scan st s = { s with
      phase := .none, linkResult := none, service := none, lock := .free
      responses := s.responses ++ [(s.requester, .addressSet st s.aset)], ports := Assoc.del s.ports s.requester } := by
  have hnothing : s.wire ++ listing .scan s.aset = s.wire := List.append_nil _
  simp only [completeLocked, State.release, hnothing]
  rfl

/-- The scanner's own state and WIRE after the first probes of a scan, if they end (44_scanner R210, R212). -/
theorem scanning_shows (s : State) (i : Instr) {acks : List Ack} (h : acks.length ≤ 128) :
    ((s.scanning i).scanned acks).scanAddr.toNat = acks.length ∧
    (∀ a : Addr7, ((s.scanning i).scanned acks).aset.getLsbD a.toNat = true ↔ acks[a.toNat]? = some .ack) ∧
    ((s.scanning i).scanned acks).wire = s.wire ++ probeFrames 0 acks := by
  have hzero : (s.scanning i).scanAddr.toNat = 0 := rfl
  obtain ⟨haddr, haset, hwire⟩ := scanned_shows (s := s.scanning i) (acks := acks) (by omega)
  refine ⟨haddr.trans (by omega), fun a => ?_, hwire⟩
  rw [haset]
  exact getLsbD_recordAcks_empty h a

/-- What a scan served shows: the frames and the set of the probes that ended, and how it ended (44_scanner R210 to R214). -/
theorem ScanEnds.shows {i : Instr} {s e : State} {st : Status} (h : ScanEnds 128 (s.scanning i) (st, e))
    (hm : s.mode = .ready) :
    ∃ (acks : List Ack) (last : List Event),
      (∀ a : Addr7, e.aset.getLsbD a.toNat = true ↔ acks[a.toNat]? = some .ack) ∧ e.scanAddr.toNat = acks.length ∧
      e.wire = s.wire ++ probeFrames 0 acks ++ last ∧
      ((st = .ok ∧ acks.length = 128 ∧ last = [] ∧ e.mode = .ready) ∨
       (acks.length < 128 ∧ ∃ syms ∈ probePrefixes (BitVec.ofNat 7 acks.length),
         (st = .timeout ∧ last = syms ++ .tmo :: recoveryEvents s.cfg ∧ e.mode = .ready) ∨
         (st = .configurationFault ∧ e.mode = .fatal ∧
           ∃ k es, k < 68 ∧ FailedPass s.cfg k es ∧ last = syms ++ .tmo :: es))) := by
  have hmode (acks : List Ack) : ((s.scanning i).scanned acks).mode = .ready := (scanned_mode ..).trans hm
  have hcfg (acks : List Ack) : ((s.scanning i).scanned acks).cfg = s.cfg := scanned_cfg ..
  cases h with
  | @whole acks hl =>
    obtain ⟨haddr, haset, hwire⟩ := scanning_shows s i hl.le
    exact ⟨acks, [], haset, haddr, by rw [hwire, List.append_nil], .inl ⟨rfl, hl, rfl, hmode acks⟩⟩
  | @cut acks v _ hl hv hover =>
    obtain ⟨haddr, haset, hwire⟩ := scanning_shows s i hl.le
    obtain ⟨syms, hsyms, hvwire⟩ := hv.wire
    have hframe := timeoutAbort_frame v
    have hends := hover.ends
    rw [scanAddress_eq, haddr] at hsyms
    rw [← hv.aset, ← hframe.aset] at haset
    rw [← hv.scanAddr, ← hframe.scanAddr] at haddr
    rw [PassEnds, hvwire, hwire, hv.mode, hmode, hv.cfg, hcfg] at hends
    simp only [linkEnd_aset, linkEnd_scanAddr, linkEnd_wire, linkEnd_mode]
    rcases hends with ⟨rfl, hpass, hready, -⟩ | ⟨rfl, hfatal, k, es, hk, hfailed, hpass⟩
    · exact ⟨acks, _, haset, haddr, hpass.trans (List.append_assoc ..),
        .inr ⟨hl, syms, hsyms, .inl ⟨rfl, rfl, hready⟩⟩⟩
    · exact ⟨acks, _, haset, haddr, hpass.trans (List.append_assoc ..),
        .inr ⟨hl, syms, hsyms, .inr ⟨rfl, hfatal, k, es, hk, hfailed, rfl⟩⟩⟩

end Sys2Proof.Machine

open Sys2Proof Sys2Proof.Machine

/-- Settles O37: every probe ends (`scanFrom_scanned`), and the last one shows what the loop leaves (`scanned_concat`). -/
theorem scanCompletes : Obligations.ScanCompletes := by
  intro s acks hserve hroom hstarts hwrites hstops
  have hlength : acks.length = 128 := by simpa [Env.nextWrites] using (congrArg List.length hwrites).symm
  obtain ⟨haddr, haset, hwire⟩ := scanning_shows s .scan hlength.le
  refine ⟨_, haset, ?_⟩
  have hscan := scanFrom_scanned (s := s.scanning .scan) (hserve.canProbe hroom .scan) 0 (acks := acks)
    (by rw [hlength]; exact hstarts) (by rw [hlength]; exact hwrites) (by rw [hlength]; exact hstops)
  have henv := scanned_env (s.scanning .scan) acks
  have hend : ((s.scanning .scan).scanned acks).scanAddr = 128 := BitVec.eq_of_toNat_eq (haddr.trans hlength)
  rw [hlength] at hscan henv
  rw [hserve.exec_scan (i := .scan) rfl hscan]
  obtain ⟨front, x, rfl⟩ := acks.eq_nil_or_concat'.resolve_left (List.ne_nil_of_length_pos (hlength ▸ Nat.succ_pos 127))
  have hlast : (front ++ [x])[127]? = some x := by
    have hfront : front.length = 127 := by simpa using hlength
    simp [hfront]
  have hiff : (if (front ++ [x])[127]? = some .ack then 4 else 1) = if x = .ack then 4 else 1 := by simp [hlast]
  rw [completeLocked_scan, hiff, scanned_concat, hend, hwire, henv]
  rfl

/-- Settles O39: the scan with nothing hanging (`scanCompletes`), and its listing (`detectAndLogIsScanAndListing`). -/
theorem detectAndLogCompletes : Obligations.DetectAndLogCompletes := by
  intro s acks hserve hroom hstarts hwrites hstops
  obtain ⟨set, hset, hscan⟩ := scanCompletes s acks hserve hroom hstarts hwrites hstops
  obtain ⟨hmode, hfree, -⟩ := hserve
  obtain ⟨st, hanswer, hexec⟩ := detectAndLogIsScanAndListing s _ hfree hscan
  obtain rfl : .ok = st := by simpa using hanswer
  have hmembers : members set = allAddresses.filter fun a => acks[a.toNat]? == some .ack :=
    List.filter_congr fun a _ => by rw [Bool.eq_iff_iff, hset, beq_iff_eq]
  rw [← hmembers]
  exact ⟨_, hexec, rfl, rfl, hmode, rfl, rfl, rfl⟩

/-- Settles O40: the probes before it end (`scanFrom_scanned`), and this one hangs after its START (`scanFrom_byteHangs`). -/
theorem scanStopsAtTimeout : Obligations.ScanStopsAtTimeout := by
  intro s acks hserve hroom hlength hstarts hwrites hstops hhals
  obtain ⟨hstarts, hstart⟩ := Tape.ahead_add_replicate.1 hstarts
  have hcut := Tape.ahead_concat (t := s.env.writes) (xs := acks.map Ack.answer) (x := .hang)
    (by rw [List.length_map]; exact hwrites)
  rw [List.length_map] at hcut
  obtain ⟨hacks, hwrite⟩ := hcut
  obtain ⟨haddr, haset, hwire⟩ := scanning_shows s .scan hlength.le
  have hprobe := hserve.canProbe hroom .scan
  have henv := scanned_env (s.scanning .scan) acks
  obtain ⟨n, hn⟩ : ∃ n, n + 1 + acks.length = 128 := ⟨127 - acks.length, by omega⟩
  have hscan := scanFrom_scanned hprobe (n + 1) hstarts hacks hstops
  obtain ⟨e, he, hmode, hlen, haddr', haset', hwire'⟩ := scanFrom_byteHangs (hprobe.scanned acks) n
    (by rw [henv]; exact (List.cons.inj hstart).1) (by rw [henv]; exact hwrite) (by rw [henv]; exact hhals)
  rw [hn, he] at hscan
  have hkeeps := scanFrom_keeps hscan
  have hlock : e.lock = .held s.cur := hkeeps.lock
  have hresponses : e.responses = s.responses := hkeeps.responses
  refine ⟨_, hserve.exec_scan (i := .scan) rfl hscan, rfl, rfl, ?_, hlen, ?_, fun a => ?_, ?_, ?_⟩
  · exact hmode.trans ((scanned_mode ..).trans hserve.1)
  · rw [← haddr, ← haddr']; rfl
  · rw [← haset, ← haset']; rfl
  · rw [completeLocked_responses, State.requester, hlock, hresponses]; rfl
  · rw [completeLocked_wire, hwire', hwire, scanned_cfg]
    exact List.append_nil _

/-- Settles O41: every address is skipped (`scanFrom_noRoom`). -/
theorem scanWithoutRoomFindsNothing : Obligations.ScanWithoutRoomFindsNothing := by
  intro s hserve hroom
  obtain ⟨c, hc⟩ := scanFrom_noRoom (s := s.scanning .scan) hroom 127
  exact ⟨_, hserve.exec_scan (i := .scan) rfl hc, rfl, List.append_nil _, rfl, rfl, rfl, rfl⟩

/-- Settles O57: the loop shows it (`ScanEnds.shows`), and completion adds the listing and the response. -/
theorem scanOnTheWire : Obligations.ScanOnTheWire := by
  intro i s t hi hserve hroom h
  obtain ⟨st, e, he, hkeeps, hcur, rfl⟩ := exec_scan_next hi hserve.1 hserve.2.1 h
  obtain ⟨r, hr, hends⟩ := scanFrom_ends (hserve.canProbe hroom i) 128
  obtain rfl : (st, e) = r := Host.Outcome.next.inj (he.symm.trans hr)
  have hresponses : e.responses = s.responses := hkeeps.responses
  obtain ⟨acks, last, haset, haddr, hwire, hlast⟩ := hends.shows hserve.1
  refine ⟨responseOf i st e, acks, last, ?_, responseOf_form (isLocked_of_isScan hi) st e, haset, haddr, ?_, ?_⟩
  · rw [completeLocked_responses, hcur, hresponses]
  · rw [completeLocked_wire, hwire]; rfl
  · rw [responseOf_st]; exact hlast
end

section
/-! A request presented at a port (60_exceptions R244, R250; log 8, 18). -/

namespace Sys2Proof.Machine

/-- The request is outstanding at its port; with a bus handle a locked operation's requester waits. -/
def State.presented (s : State) (r : Nat) (q : RawRequest) : State :=
  { s with
    ports := Assoc.set s.ports r q
    waiters := if s.mode ≠ .uninit ∧ isLockedOp (decodeRequest q) = true then Waiters.insert s.waiters r else s.waiters }

theorem present_noSuchPort {r : Nat} (q : RawRequest) {s : State} (h : s.params.nReq ≤ r) :
    present r q s = .refused .noSuchPort := if_pos h

theorem present_portBusy {r : Nat} (q : RawRequest) {s : State} (h : r < s.params.nReq)
    (hbusy : (Assoc.get s.ports r).isSome) : present r q s = .refused .portBusy := by
  rw [present, if_neg (Nat.not_le.2 h), if_pos hbusy]

theorem present_free {r : Nat} (q : RawRequest) {s : State} (h : r < s.params.nReq) (hfree : Assoc.get s.ports r = none) :
    present r q s = .next (s.presented r q) := by
  rw [present, if_neg (Nat.not_le.2 h), if_neg (by simp [hfree]), State.presented]
  dsimp only
  split
  · rfl
  · rfl

/-- A request is taken only at a free port. -/
theorem present_next {r : Nat} {q : RawRequest} {s t : State} (h : present r q s = .next t) : t = s.presented r q := by
  by_cases hport : s.params.nReq ≤ r
  · rw [present_noSuchPort q hport] at h; cases h
  · cases hget : Assoc.get s.ports r with
    | some p => rw [present_portBusy q (Nat.not_le.1 hport) (by simp [hget])] at h; cases h
    | none => rw [present_free q (Nat.not_le.1 hport) hget] at h; cases h; rfl

theorem step_present {s : State} {rest : List Stimulus} {r : Nat} {q : RawRequest} (h : s.stimuli = .present r q :: rest) :
    step s = present r q { s with stimuli := rest } := by simp only [step, fetch, h, perform]

end Sys2Proof.Machine

open Sys2Proof Sys2Proof.Machine

/-- Settles O48: the step is the request presented, and the two tests it meets first leave the three cases. -/
theorem presentingARequest : Obligations.PresentingARequest := by
  intro s rest r q hin
  rw [step_present hin]
  exact ⟨fun h => present_noSuchPort q h, fun h hbusy => present_portBusy q h hbusy, fun h hfree => present_free q h hfree⟩
end

section
/-! The request the engine fetches is run or begun by the step (60_exceptions R244, R245; 43_transactions R195; log 1, 10, 11). -/

namespace Sys2Proof.Machine

/-- A request that stands in no line is fetched before anything else (log 10). -/
theorem engineMove_unbegun {s : State} {r : Nat} {q : RawRequest} {i : Instr} (hu : s.unbegun = some (r, q))
    (hq : decodeRequest q = .ok i) : engineMove s = .run i { s with cur := r } := by
  simp only [engineMove, hu, fetchRequest, hq]

/-- With nothing else to serve and the lock free the picked waiter's request is fetched, and the draw is used up (R245). -/
theorem engineMove_grant {s : State} {r : Nat} {q : RawRequest} {i : Instr} (hu : s.unbegun = none) (hp : s.phase = .none)
    (hl : s.lock = .free) (hpick : Waiters.pick s.waiters s.env.nextPick = some r) (hport : Assoc.get s.ports r = some q)
    (hq : decodeRequest q = .ok i) : engineMove s = .run i { s with cur := r, env := s.env.dropPick } := by
  simp only [engineMove, hu, if_pos hp, grant, hl, hpick, hport, fetchRequest, hq]

/-- With `engine` the whole of what the engine fetches is done. -/
theorem step_engine {s : State} {rest : List Stimulus} (h : s.stimuli = .engine :: rest) :
    step s = perform (engineMove { s with stimuli := rest }) := by simp only [step, fetch, h]

/-- With `engine` the instruction fetched runs. -/
theorem step_engine_run {s u : State} {rest : List Stimulus} {i : Instr} (h : s.stimuli = .engine :: rest)
    (hm : engineMove { s with stimuli := rest } = .run i u) : step s = exec i u := by
  rw [step_engine h, hm, perform]

/-- With `tick` or no input left the first step of the instruction fetched is taken. -/
theorem step_oneStep_run {s u : State} {rest : List Stimulus} {i : Instr} (h : s.OneStep rest)
    (hm : engineMove { s with stimuli := rest } = .run i u) : step s = serve false i u := by
  rw [step_oneStep h, hm]
  rfl

/-- With the lock free a locked operation begins (43_transactions R195). -/
theorem issueLocked_free {s : State} (i : Instr) (hm : s.mode ≠ .uninit) (hl : s.lock = .free) :
    issueLocked i s = .next (beginLocked i s) := by rw [issueLocked, if_neg hm, if_pos hl]

theorem issueLocked_beforeInit {s : State} (i : Instr) (hm : s.mode = .uninit) : issueLocked i s = .refused .beforeInit :=
  if_pos hm

/-- INIT is one call, so its first step is all of it (40_init R120). -/
theorem serve_init {i : Instr} (hi : HostOp i) (hl : i.isLocked = false) (whole : Bool) (s : State) :
    serve whole i s = exec i s := by
  cases whole with
  | true => rfl
  | false => simp [serve, taken, onlyBegin, hl, hi.link, perform]

end Sys2Proof.Machine

open Sys2Proof Sys2Proof.Machine

/-- Settles O46: the request is fetched (`engineMove_grant`, `engineMove_unbegun`), and the input decides how much of it is
done. -/
theorem stepRunsTheFetchedRequest : Obligations.StepRunsTheFetchedRequest := by
  intro s rest r q i hq
  refine ⟨fun hu hp hl hpick hport => ?_, fun hu => ?_⟩
  · have hm := engineMove_grant (s := { s with stimuli := rest }) hu hp hl hpick hport hq
    refine ⟨fun hin => step_engine_run hin hm, fun hin hi hmode => ?_⟩
    rw [step_oneStep_run hin hm, serve_locked hi]
    exact issueLocked_free i hmode hl
  · have hm := engineMove_unbegun (s := { s with stimuli := rest }) hu hq
    refine ⟨fun hin => step_engine_run hin hm, fun hin hi => ?_, fun hin hi hmode => ?_⟩
    · rw [step_oneStep_run hin hm, serve_init (decodeRequest_ok hq) hi]
    · rw [step_oneStep_run hin hm, serve_locked hi]
      exact issueLocked_beforeInit i hmode

/-- Settles O50: for every member there is a pick (`Waiters.pick_every`), and the pick is the draw laid down. -/
theorem anyWaiterMayBeGranted : Obligations.AnyWaiterMayBeGranted := by
  intro s rest r q i hin hu hp hl hr hport hq
  obtain ⟨k, hpick⟩ := Waiters.pick_every hr
  exact ⟨k, step_engine_run hin (engineMove_grant
    (s := { s with stimuli := rest, env := { s.env with picks := s.env.picks.lay [k] } }) hu hp hl hpick hport hq)⟩
end

section
/-! A locked operation that cannot be served: in FATAL it completes at once (60_exceptions R249), with the lock held it waits
(R244). -/

namespace Sys2Proof.Machine

/-- In FATAL a locked operation has completed where it begins. -/
theorem beginLocked_fatal {s : State} (hm : s.mode = .fatal) (i : Instr) :
    beginLocked i s = completeLocked i .configurationFault (s.granted i) := if_pos hm

theorem exec_locked_fatal {i : Instr} {s : State} (hi : i.isLocked = true) (hm : s.mode = .fatal) (hl : s.lock = .free) :
    exec i s = .next (completeLocked i .configurationFault (s.granted i)) := by
  rw [exec_locked hi, runLocked, if_neg (by rw [hm]; decide), if_pos hl, beginLocked_fatal hm]
  exact drive_idle rfl _

theorem exec_locked_held {i : Instr} {s : State} (hi : i.isLocked = true) (hm : s.mode ≠ .uninit) (hl : s.lock ≠ .free) :
    exec i s = .next (s.enqueue s.cur) := by rw [exec_locked hi, runLocked, if_neg hm, if_neg hl]

end Sys2Proof.Machine

open Sys2Proof Sys2Proof.Machine

/-- Settles O44: the completion is the whole of the operation (`exec_locked_fatal`), and it writes what it always writes. -/
theorem fatalModeAnswersConfigurationFault : Obligations.FatalModeAnswersConfigurationFault := fun i s hi hm hl =>
  ⟨responseOf i .configurationFault (s.granted i), responseOf_st .., responseOf_form hi .configurationFault (s.granted i),
    exec_locked_fatal hi hm hl⟩

/-- Settles O45: the requester joins WAITERS (`exec_locked_held`). -/
theorem heldLockMakesWait : Obligations.HeldLockMakesWait := fun _ _ _ hi hm hl =>
  exec_locked_held hi hm (by rw [hl]; nofun)
end

section
/-! What the end of a link comes to, and that nothing but reset takes the lock from its holder before its response (60_exceptions
R237, R246). -/

namespace Sys2Proof.Machine

/-! ### The end of a link -/

/-- The mode is the same, the lock is in the same hands, and nobody has a response. -/
structure SameHolder (s t : State) : Prop where
  mode : t.mode = s.mode
  lock : t.lock = s.lock
  responses : t.responses = s.responses

theorem BuildFrame.sameHolder {s t : State} (h : BuildFrame s t) : SameHolder s t := ⟨h.mode, h.lock, h.responses⟩

theorem SameHolder.trans {s t u : State} (h : SameHolder s t) (k : SameHolder t u) : SameHolder s u :=
  ⟨k.mode.trans h.mode, k.lock.trans h.lock, k.responses.trans h.responses⟩

theorem submitBuilt_sameHolder (sel : Sel) (s : State) : SameHolder s (submitBuilt sel s) := by
  unfold submitBuilt
  split
  · constructor <;> rfl
  · constructor <;> rfl

theorem beginProbe_sameHolder (s : State) : SameHolder s (beginProbe s) :=
  (buildProbe_frame ..).sameHolder.trans (submitBuilt_sameHolder ..)

/-- Where a link has ended in `s`: the next probe begins, or the operation completes (43_transactions R190, 44_scanner R210). -/
def ProbesOrCompletes (s t : State) : Prop :=
  ∃ u, SameHolder s u ∧ (t = beginProbe u ∨ ∃ i st, t = completeLocked i st u)

theorem nextProbe_probesOrCompletes (i : Instr) {s u : State} (h : SameHolder s u) :
    ProbesOrCompletes s (nextProbe i u) := by
  have hnext : SameHolder s { u with scanAddr := u.scanAddr + 1 } := ⟨h.mode, h.lock, h.responses⟩
  unfold nextProbe
  dsimp only
  split
  · exact ⟨_, hnext, .inl rfl⟩
  · exact ⟨_, hnext, .inr ⟨_, _, rfl⟩⟩

theorem endProbe_probesOrCompletes (i : Instr) (st : Status) (s : State) : ProbesOrCompletes s (endProbe i st s) := by
  have hend : SameHolder s (linkEnd .selSb s) := (linkEnd_frame .selSb s).sameHolder
  have hnext : ProbesOrCompletes s (nextProbe i (recordProbe st (linkEnd .selSb s))) := by
    obtain ⟨set, hset⟩ := recordProbe_eq st (linkEnd .selSb s)
    rw [hset]
    exact nextProbe_probesOrCompletes i ⟨hend.mode, hend.lock, hend.responses⟩
  cases st with
  | ok | nack | noMemory => exact hnext
  | timeout | configurationFault => exact ⟨_, hend, .inr ⟨_, _, rfl⟩⟩

theorem endOfLink_probesOrCompletes {st : Status} {s t : State} (h : endOfLink st s = .next t) : ProbesOrCompletes s t := by
  unfold endOfLink at h
  split at h
  · cases h
  · next i _ =>
    split at h
    · cases h; exact endProbe_probesOrCompletes i st s
    · cases h; exact ⟨_, (linkEnd_frame .selCb s).sameHolder, .inr ⟨_, _, rfl⟩⟩

/-! ### The holder -/

/-- The holder `r` keeps the lock and nobody has a response, or `r` has its response and the lock is free (60_exceptions R246). -/
def KeepsOrReleases (r : Nat) (s t : State) : Prop :=
  (t.lock = .held r ∧ t.responses = s.responses) ∨ (t.lock = .free ∧ ∃ x, t.responses = s.responses ++ [(r, x)])

theorem KeepsOrReleases.keeps {r : Nat} {s t : State} (hs : s.lock = .held r) (hl : t.lock = s.lock)
    (hr : t.responses = s.responses) : KeepsOrReleases r s t := .inl ⟨hl.trans hs, hr⟩

theorem ProbesOrCompletes.keepsOrReleases {r : Nat} {s t : State} (h : ProbesOrCompletes s t) (hs : s.lock = .held r) :
    KeepsOrReleases r s t := by
  obtain ⟨u, hu, rfl | ⟨i, st, rfl⟩⟩ := h
  · have hprobe := hu.trans (beginProbe_sameHolder u)
    exact .keeps hs hprobe.lock hprobe.responses
  · have hr : u.requester = r := by rw [State.requester, hu.lock, hs]
    exact .inr ⟨rfl, _, by rw [completeLocked_responses, hr, hu.responses]⟩

/-- A move of the operation in progress walks its link, or goes on from the end of a link. -/
theorem Moved.keepsOrReleases {whole : Bool} {r : Nat} {s t : State} (h : Moved whole s t) (hs : s.lock = .held r) :
    KeepsOrReleases r s t := by
  rcases h.end_or_frame with ⟨st, -, h⟩ | h
  · exact (endOfLink_probesOrCompletes h).keepsOrReleases hs
  · exact .keeps hs h.lock h.responses

/-- With the lock held INIT is refused (40_init R121). -/
theorem execInit_held {port sda scl : Byte} {speed : Word32} {s t : State} (hl : s.lock ≠ .free) :
    execInit port sda scl speed s ≠ .next t := by
  have hothers : s.othersOutstanding = true := by simp [State.othersOutstanding, hl]
  by_cases hm : s.mode = .uninit
  · simp [execInit, hm, hothers]
  · simp [execInit, hm]

/-- With the lock held a request that is taken up only waits (60_exceptions R244). -/
theorem Served.keepsOrReleases {i : Instr} {r : Nat} {s t : State} (h : Served i s t) (hs : s.lock = .held r) :
    KeepsOrReleases r s t := by
  have hl : s.lock ≠ .free := by rw [hs]; nofun
  cases h with
  | init _ h => exact absurd h (execInit_held hl)
  | waits => exact .keeps hs rfl rfl
  | begins _ _ hfree => exact absurd hfree hl

theorem EngineStep.keepsOrReleases {whole : Bool} {r : Nat} {s t : State} (h : EngineStep whole s t)
    (hs : s.lock = .held r) : KeepsOrReleases r s t := by
  cases h with
  | request _ _ h => exact h.keepsOrReleases (s := { s with cur := _ }) hs
  | grant hfree => rw [hs] at hfree; cases hfree
  | idle => exact .keeps hs rfl rfl
  | move _ h => exact h.keepsOrReleases hs

end Sys2Proof.Machine

open Sys2Proof Sys2Proof.Machine

/-- Settles O51: an input or a request taken up leaves the lock and the responses alone, and a move of the operation in progress
goes on or completes for the holder; the invariant is not needed. -/
theorem holderIsNotInterrupted : Obligations.HolderIsNotInterrupted := by
  intro s t r _ hs hreset h
  cases step_stepped h with
  | presented h =>
    rw [present_next h]
    exact .inl ⟨hs, rfl⟩
  | reset hq => exact absurd hq (hreset _)
  | engine _ h => exact h.keepsOrReleases (s := { s with stimuli := _ }) hs
end

section
/-! Only reset leaves FATAL (60_exceptions R249, 42_recovery R173). -/

namespace Sys2Proof.Machine

/-- FATAL is not left. -/
def StaysFatal (s t : State) : Prop := s.mode = .fatal → t.mode = .fatal

theorem StaysFatal.same {s t : State} (h : t.mode = s.mode) : StaysFatal s t := h.trans

theorem StaysFatal.trans {s t u : State} (h : StaysFatal s t) (k : StaysFatal t u) : StaysFatal s u := fun hs => k (h hs)

/-! ### The walk of a link -/

theorem returnFromRecovery_staysFatal (r : HalAnswer × State) : StaysFatal r.2 (returnFromRecovery r) := by
  obtain ⟨_ | _, u⟩ := r
  · exact .same rfl
  · exact fun _ => rfl

theorem timeoutAbort_staysFatal (s : State) : StaysFatal s (timeoutAbort s) :=
  (StaysFatal.same (recover_passFrame (takeTimeoutTrap s)).mode).trans (returnFromRecovery_staysFatal _)

theorem nackAbort_staysFatal (s : State) : StaysFatal s (nackAbort s) := by
  have hstop : StaysFatal s (phyStop s).2 := .same (phyStop_performs s).mode
  unfold nackAbort
  rcases hp : phyStop s with ⟨_ | _, u⟩
  · rw [hp] at hstop; exact hstop
  · rw [hp] at hstop; exact hstop.trans (timeoutAbort_staysFatal u)

theorem nackStopStep_staysFatal {s t : State} (h : nackStopStep s = .next t) : StaysFatal s t := by
  obtain ⟨-, h⟩ := inWalk_eq_next.1 h
  have hstop : StaysFatal s (phyStop s).2 := .same (phyStop_performs s).mode
  rcases hp : phyStop s with ⟨_ | _, u⟩
  · rw [hp] at h hstop; cases h; exact hstop
  · rw [hp] at h hstop; cases h; exact hstop

theorem settleSymbol_staysFatal {s t : State} {i : Instr} {k : Nat} {r : Perform × State} (hr : Performs s r.2)
    (h : settleSymbol i k r = .next t) : StaysFatal s t := by
  obtain ⟨p, u⟩ := r
  cases p with
  | next => rw [settleSymbol_next] at h; cases h; exact .same hr.mode
  | done | nack | hang => cases h; exact .same hr.mode
  | overrun => cases h

theorem settle_staysFatal {s t : State} {size : Nat} {r : Perform × State} (hr : Performs s r.2)
    (h : settle size r = .next t) : StaysFatal s t := by
  obtain ⟨p, u⟩ := r
  cases p with
  | next | done => cases h; exact .same hr.mode
  | nack => cases h; exact (StaysFatal.same hr.mode).trans (nackAbort_staysFatal u)
  | hang => cases h; exact (StaysFatal.same hr.mode).trans (timeoutAbort_staysFatal u)
  | overrun => cases h

theorem recoveryStep_staysFatal {s t : State} {c : RecoveryCall} (h : recoveryStep c s = .next t) : StaysFatal s t := by
  unfold recoveryStep at h
  split at h
  · cases h
    have hcall : StaysFatal s (recoveryCall c s).2 := .same (recoveryCall_passFrame c s).mode
    rcases hr : recoveryCall c s with ⟨_ | _, u⟩
    · rw [hr] at hcall
      simp only [afterRecoveryCall]
      split
      · exact hcall
      · exact hcall
    · exact fun _ => rfl
  · cases h

/-! ### A step -/

theorem ProbesOrCompletes.staysFatal {s t : State} (h : ProbesOrCompletes s t) : StaysFatal s t := by
  obtain ⟨u, hu, rfl | ⟨i, st, rfl⟩⟩ := h
  · exact .same (hu.trans (beginProbe_sameHolder u)).mode
  · exact .same hu.mode

theorem Moved.staysFatal {whole : Bool} {s t : State} (h : Moved whole s t) : StaysFatal s t := by
  cases h with
  | result _ h => exact (endOfLink_probesOrCompletes h).staysFatal
  | nackStop _ _ h => exact nackStopStep_staysFatal h
  | call _ _ h => exact recoveryStep_staysFatal h
  | linkEnd => exact .same rfl
  | symbol _ _ _ h =>
    obtain ⟨-, -, -, h⟩ := symbolStep_eq_next.1 h
    exact settleSymbol_staysFatal (symbolOf_performs ..) h
  | operation _ _ _ hi h =>
    obtain ⟨-, -, h⟩ := (exec_link_eq_next (fetchLinkOp_isLink hi)).1 h
    exact settle_staysFatal (symbolsFrom_performs ..) h

/-- In FATAL INIT is refused, a locked operation waits, or it has completed where it begins, and no move follows. -/
theorem Served.staysFatal {i : Instr} {s t : State} (h : Served i s t) : StaysFatal s t := by
  intro hm
  cases h with
  | init _ h => rw [execInit, if_pos (by rw [hm]; decide)] at h; cases h
  | waits => exact hm
  | begins _ _ _ h =>
    rw [beginLocked_fatal hm] at h
    rcases h.cases_head with rfl | ⟨u, ⟨hbusy, -⟩, -⟩
    · exact hm
    · exact absurd rfl hbusy

theorem EngineStep.staysFatal {whole : Bool} {s t : State} (h : EngineStep whole s t) : StaysFatal s t := by
  cases h with
  | request _ _ h => exact h.staysFatal
  | grant _ _ _ _ h => exact h.staysFatal
  | idle => exact .same rfl
  | move _ h => exact h.staysFatal

end Sys2Proof.Machine

open Sys2Proof Sys2Proof.Machine

/-- Settles O54: no part of a step writes a mode other than FATAL, but INIT, which is refused in FATAL (40_init R121). -/
theorem onlyResetLeavesFatal : Obligations.OnlyResetLeavesFatal := by
  intro s t hreset hm h
  cases step_stepped h with
  | presented h => rw [present_next h]; exact hm
  | reset hq => exact absurd hq (hreset _)
  | engine _ h => exact h.staysFatal hm
end

section
/-! A transaction that does not fit its buffers (60_exceptions R233; 41_command_link R131, R135, R138). -/

namespace Sys2Proof.Machine

theorem buildTransaction_tooLarge {data : List Byte} {rlen : Byte} {s : State} (a : Addr7)
    (h : transactionFits s.params data.length rlen.toNat = false) : (buildTransaction a data rlen s).buildErr = true := by
  refine (buildTransaction_construction a data rlen s).failed fun hfits => of_decide_eq_false h ?_
  rwa [length_transaction] at hfits

/-- Its construction has failed: the link is not executed, and its status is NoMemory (R138). -/
def State.notBuilt (s : State) (m : Memory) (n : Nat) : State :=
  { s with cb := m, cbLen := n, buildErr := true, phase := .build, rdLen := 0, linkResult := some .noMemory }

theorem beginTransaction_tooLarge {data : List Byte} {rlen : Byte} {s : State} (a : Addr7)
    (h : transactionFits s.params data.length rlen.toNat = false) :
    ∃ m n, beginTransaction a data rlen s = s.notBuilt m n := by
  have herr := buildTransaction_tooLarge a h
  obtain ⟨m, n, e, hbuild⟩ := buildTransaction_eq a data rlen s
  rw [hbuild] at herr
  obtain rfl : e = true := herr
  exact ⟨m, n, by rw [beginTransaction, submitBuilt, hbuild]; rfl⟩

end Sys2Proof.Machine

open Sys2Proof Sys2Proof.Machine

/-- Settles O31: no operation of the link is performed (`walkLink_over`); tear-down and completion are all that follows the
failed construction. -/
theorem transactionTooLarge : Obligations.TransactionTooLarge := by
  intro s a data rlen hserve hw htoo
  have hi := isTransaction_writeThenRead a (payload_length hw) rlen
  obtain ⟨m, n, hbegin⟩ := beginTransaction_tooLarge (s := s.granted (.writeThenRead a data rlen)) a htoo
  refine ⟨responseBytes (.writeThenRead a data rlen) .noMemory s, ?_, ?_⟩
  · rw [responseBytes, length_deliveredBytes, Env.nextBytes, Tape.length_ahead, hi.response]
  · rw [hi.exec_eq hserve, transact, hbegin, walkLink_over (by rw [State.notBuilt]; nofun), andThen_next,
      smallStep_completes (i := .writeThenRead a data rlen) (st := .noMemory) rfl rfl rfl, completeLocked_helper rfl rfl]
    rfl
end

section
/-! The reset input, whatever the state (70_reset R270, R271). -/

namespace Sys2Proof.Machine

/-- Whatever the engine stands before, a reset input is the whole of the step. -/
theorem step_reset {s : State} {rest : List Stimulus} (h : s.stimuli = .reset :: rest) :
    step s = .next { s with stimuli := rest }.afterReset := by
  simp only [step, fetch, h, perform]

end Sys2Proof.Machine

open Sys2Proof Sys2Proof.Machine

/-- Settles O2: the step is the reset alone (`step_reset`), and reset keeps the parameters, the environment and the inputs. -/
theorem resetInputDropsEverything : Obligations.ResetInputDropsEverything := fun _ _ h => step_reset h
end

section
/-! Every locked operation that is served completes, whatever the environment answers (43_transactions R195, R196; 70_reset
R284). -/

namespace Sys2Proof.Machine

/-! ### The walk of a link goes on -/

/-- The sequencer stands before these operations inside EXECUTE, and can walk them to their STOP (41_command_link R140;
30_encoding R96). -/
structure State.CanWalk (s : State) (ops : List Instr) : Prop where
  executing : s.executing = true
  tail : tailOk s.inFrame s.room ops = true

theorem Performs.executing {s t : State} (h : Performs s t) (hs : s.executing = true) : t.executing = true := by
  obtain ⟨hwalk, hpoint⟩ : s.walking = true ∧ s.point = .operation 0 := by simpa [State.executing] using hs
  simp [State.executing, h.walking hwalk, h.point.trans hpoint]

/-- The first operation goes on, for every answer, and leaves the others to be walked or the link with a result. -/
theorem State.CanWalk.exec_goesOn {i : Instr} {rest : List Instr} {s : State} (h : s.CanWalk (i :: rest))
    (hi : i.isLink = true) : ∃ t, exec i s = .next t ∧ (t.linkResult = none → t.CanWalk rest) := by
  have htail : tailOkFrom 0 s.inFrame s.room (i :: rest) = true := (tailOkFrom_zero ..).trans h.tail
  obtain ⟨m, hm⟩ : ∃ m, stepCount i = m + 1 := ⟨stepCount i - 1, by rw [stepCount]; omega⟩
  have hcount : 0 + 1 + m = stepCount i := by omega
  have hfits := symbolsFrom_ne_overrun hi hcount htail
  have hperf := symbolsFrom_performs i (m + 1) 0 s
  rw [exec_link_of hi h.executing (tailOkFrom_frameOk htail), performLinkOp_eq_symbolsFrom hi, hm]
  rcases hr : symbolsFrom i (m + 1) 0 s with ⟨p, u⟩
  rw [hr] at hfits hperf
  cases p with
  | next =>
    have hrest : tailOk u.inFrame u.room rest = true := symbolsFrom_tail hi hcount htail hr
    exact ⟨_, rfl, fun _ => ⟨hperf.executing h.executing, hrest⟩⟩
  | done => exact ⟨_, rfl, nofun⟩
  | nack => exact ⟨_, rfl, fun hnone => absurd hnone (nackAbort_over u).1⟩
  | hang => exact ⟨_, rfl, fun hnone => absurd hnone (timeoutAbort_over u).1⟩
  | overrun => exact absurd rfl hfits

theorem walkLink_goesOn {ops : List Instr} (hops : ∀ i ∈ ops, i.isLink = true) {s : State}
    (hs : s.linkResult = none → s.CanWalk ops) : ∃ t, walkLink ops s = .next t := by
  induction ops generalizing s with
  | nil => exact ⟨s, rfl⟩
  | cons i rest ih =>
    by_cases hr : s.linkResult = none
    · obtain ⟨u, hu, hrest⟩ := (hs hr).exec_goesOn (hops i List.mem_cons_self)
      rw [walkLink_step hr hu]
      exact ih (fun j hj => hops j (List.mem_cons_of_mem i hj)) hrest
    · exact ⟨s, walkLink_over hr _⟩

/-! ### The body of an operation, and its completion -/

/-- The body of `i`, served in `s`, is over in `e` with this status: all its links are torn down, and nobody has a response yet
(43_transactions R190, R195; 44_scanner R210). -/
structure BodyOver (i : Instr) (s e : State) (st : Status) : Prop where
  requester : e.requester = s.cur
  responses : e.responses = s.responses
  buildErr : e.buildErr = false
  cbLen : i.isScan = false → e.cbLen = 0
  sbLen : i.isScan = true → e.sbLen = 0
  scanStatus : i.isScan = true → st ≠ .nack ∧ st ≠ .noMemory

/-- The link of a transaction that is served comes to a result: it does not fit, or it is walked. -/
theorem State.CanServe.transact_goesOn {s : State} (h : s.CanServe) (i : Instr) (a : Addr7) (data : List Byte)
    (rlen : Byte) : ∃ t, transact a data rlen (s.granted i) = .next t := by
  refine walkLink_goesOn (transactionOps_isLink a data rlen) fun hr => ?_
  cases hfits : transactionFits (s.granted i).params data.length rlen.toNat with
  | false =>
    obtain ⟨m, n, hbegin⟩ := beginTransaction_tooLarge a hfits
    rw [hbegin] at hr
    cases hr
  | true =>
    obtain ⟨m, n, hbegin⟩ := beginTransaction_submitted a hfits
    obtain ⟨-, hreads⟩ := of_decide_eq_true hfits
    rw [hbegin]
    exact ⟨h.executing i m n, transactionOps_tail a data hreads⟩

theorem IsTransaction.completes {i : Instr} {a : Addr7} {data : List Byte} {rlen : Byte} {s : State}
    (hi : IsTransaction i a data rlen) (hs : s.CanServe) :
    ∃ e st, exec i s = .next (completeLocked i st e) ∧ BodyOver i s e st := by
  obtain ⟨e, he⟩ := hs.transact_goesOn i a data rlen
  obtain ⟨st, hst⟩ := transact_result he
  obtain ⟨hothers, -⟩ := transact_frame he
  have hlock : e.lock = .held s.cur := hothers.lock
  refine ⟨linkEnd .selCb e, st, ?_, ?_⟩
  · rw [hi.exec_eq hs, he, andThen_next, smallStep_completes hi.helper hothers.service hst]
  · exact {
      requester := by rw [State.requester, linkEnd_lock, hlock]
      responses := hothers.responses
      buildErr := rfl
      cbLen := fun _ => rfl
      sbLen := by simp [hi.helper]
      scanStatus := by simp [hi.helper] }

/-- A scan of one address at least ends with the probe buffer torn down, and never with Nack or NoMemory, which only mark an
address absent (44_scanner R210, R212). -/
theorem scanFrom_tornDown {n : Nat} {s e : State} {st : Status} (h : scanFrom n s = .next (st, e))
    (hs : n = 0 → s.buildErr = false ∧ s.sbLen = 0) :
    (e.buildErr = false ∧ e.sbLen = 0) ∧ st ≠ .nack ∧ st ≠ .noMemory := by
  induction n generalizing s with
  | zero => cases h; exact ⟨hs rfl, nofun, nofun⟩
  | succ n ih =>
    obtain ⟨u, -, hrest⟩ := andThen_eq_next.1 h
    rw [afterProbe] at hrest
    split at hrest
    · cases hrest
    · exact ih hrest fun _ => ⟨rfl, rfl⟩
    · exact ih hrest fun _ => ⟨rfl, rfl⟩
    · exact ih hrest fun _ => ⟨rfl, rfl⟩
    · cases hrest; exact ⟨⟨rfl, rfl⟩, nofun, nofun⟩
    · cases hrest; exact ⟨⟨rfl, rfl⟩, nofun, nofun⟩

/-- The loop of a scan that is served ends, whether or not SB has room for a probe. -/
theorem State.CanServe.scanFrom_goesOn {s : State} (h : s.CanServe) (i : Instr) :
    ∃ st e, scanFrom 128 (s.scanning i) = .next (st, e) := by
  by_cases hroom : 4 ≤ s.params.scanCapacity
  · obtain ⟨r, hr, -⟩ := scanFrom_ends (h.canProbe hroom i) 128
    exact ⟨r.1, r.2, hr⟩
  · obtain ⟨c, hc⟩ := scanFrom_noRoom (s := s.scanning i) (Nat.lt_of_not_le hroom) 127
    exact ⟨_, _, hc⟩

theorem exec_scan_completes {i : Instr} (hi : i.isScan = true) {s : State} (hs : s.CanServe) :
    ∃ e st, exec i s = .next (completeLocked i st e) ∧ BodyOver i s e st := by
  obtain ⟨st, e, he⟩ := hs.scanFrom_goesOn i
  have hkeeps := scanFrom_keeps he
  have hlock : e.lock = .held s.cur := hkeeps.lock
  obtain ⟨⟨hbuildErr, hsbLen⟩, hst⟩ := scanFrom_tornDown he nofun
  exact ⟨e, st, hs.exec_scan hi he, {
    requester := by rw [State.requester, hlock]
    responses := hkeeps.responses
    buildErr := hbuildErr
    cbLen := by simp [hi]
    sbLen := fun _ => hsbLen
    scanStatus := fun _ => hst }⟩

/-- Every locked operation that is served comes to its completion (70_reset R284). -/
theorem exec_locked_completes {i : Instr} {s : State} (hi : i.isLocked = true) (hw : i.WellFormed) (hs : s.CanServe) :
    ∃ e st, exec i s = .next (completeLocked i st e) ∧ BodyOver i s e st := by
  cases hscan : i.isScan with
  | true => exact exec_scan_completes hscan hs
  | false =>
    obtain ⟨a, data, rlen, htransaction⟩ := exists_isTransaction hi hscan hw
    exact htransaction.completes hs

end Sys2Proof.Machine

open Sys2Proof Sys2Proof.Machine

/-- Settles O43: a transaction's link is walked to a result (`walkLink_goesOn`), a scan's loop ends (`scanFrom_goesOn`), and the
completion that follows releases the lock and answers the requester. -/
theorem everyLockedOperationCompletes : Obligations.EveryLockedOperationCompletes := by
  intro i s hi hw hserve
  obtain ⟨e, st, hexec, hover⟩ := exec_locked_completes hi hw hserve
  refine ⟨_, responseOf i st e, hexec, rfl, rfl, hover.buildErr, ?_, responseOf_form hi st e, hover.cbLen, fun hscan => ?_⟩
  · rw [completeLocked_responses, hover.requester, hover.responses]
  · rw [responseOf_st]
    exact ⟨hover.sbLen hscan, hover.scanStatus hscan⟩
end
